-- ==== Sys2Proof/Word.lean ====
section
/-!
DEFINITION. The number types of the KD-418 (00_scope.md, Identifiers) and the one way a whole table is rebuilt.
-/

namespace Sys2Proof

/-- A byte of a record, as masters read and write it. -/
abbrev Byte := BitVec 8

/-- A 16-bit field: a time stamp, a change number, an epoch. -/
abbrev Half := BitVec 16

/-- A master slot of the Tower Panel Bus, 0 to 7. -/
abbrev Slot := Fin 8

/-- A crew context, 0 to 31. -/
abbrev CtxNo := Fin 32

/-- A LAT place, and the entry it holds, 0 to 255. -/
abbrev EntryNo := Fin 256

/-- A brief buffer, 0 to 32. -/
abbrev BufNo := Fin 33

/-- A panel number, 0 to 5. -/
abbrev PanelNo := Fin 6

/-- A level, 0 to 7. -/
abbrev Level := Fin 8

/-- The table whose place `i` holds `f i`. -/
def tabulate {α : Type} {n : Nat} (f : Fin n → α) : Vector α n := ⟨⟨List.ofFn f⟩, by simp⟩

/-- The table with place `i` replaced by `f` of what it held. -/
def updateAt {α : Type} {n : Nat} (v : Vector α n) (i : Fin n) (f : α → α) : Vector α n :=
  v.set i (f v[i])

end Sys2Proof
end

