-- ==== Sys2Proof/Config.lean ====
section
/-!
DEFINITION. What the manual leaves open and the model leaves free.
-/

namespace Sys2Proof

/-- DESIGN CHOICE, safe (log 11): the order in which ONE event hands the composer its brief requests for several
contexts. R103 hands them over "together, one per context" and R30, R45 and R88 give no order either. The first
argument is the model's counter `freeCount`, so each event has an order of its own; the contexts are handed over in rising
rank, equal ranks in rising context number. It has no body: a claim that is proved holds for every order. -/
opaque Config.requestRank : Nat → CtxNo → Nat

end Sys2Proof
end

