-- ==== Sys2Proof/Syntax.lean ====
section
/-!
DEFINITION. The commands of the block: one constructor for each row of spec/opcode_table.json.
-/

namespace Sys2Proof

/-- The size of a transfer (R160): a single transfer of 1, 2 or 4 bytes, or a burst of four 4-byte beats. -/
inductive Size where
  | one | two | four | burst
  deriving DecidableEq, Repr

/-- A transfer of the Tower Panel Bus as its master drives it (pin summary): the slot, the 24-bit address as bank and
offset, the size and the two lock attributes. Its direction is said by the command that carries it. -/
structure Transfer where
  slot    : Slot
  bank    : BitVec 8
  offset  : BitVec 16
  size    : Size
  lock    : Bool
  lockEnd : Bool
  deriving DecidableEq, Repr

/-- The levels of the three loader-select strap pins (R157), high or low. -/
structure Straps where
  first  : Bool
  second : Bool
  third  : Bool
  deriving DecidableEq, Repr

/-- One event of the part, whole and indivisible: a row of spec/opcode_table.json. The transfer rows carry the transfer
and, for a write, its bytes, lowest address first. The command rows carry the slot whose command in flight the owning
block completes; the parameters are in the record that COMMAND_SLOT_WRITE took (R164, R165; log 23). -/
inductive Instr where
  /-- POWER_ON (R44), with the levels the loader-select straps have then (R157). -/
  | powerOn (straps : Straps)
  /-- BUS_RESET (R168). -/
  | busReset
  /-- PLAN_SPACE_WRITE (R2). -/
  | planSpaceWrite (t : Transfer) (data : List Byte)
  /-- PLAN_STATUS_READ (R162). -/
  | planStatusRead (t : Transfer)
  /-- BEGIN_LOAD (R35). -/
  | beginLoad (slot : Slot)
  /-- COMMIT_PLAN (R36). -/
  | commitPlan (slot : Slot)
  /-- ABORT_LOAD (R37). -/
  | abortLoad (slot : Slot)
  /-- ERASE_PLAN (R38). -/
  | erasePlan (slot : Slot)
  /-- VALIDATION_STAGE (R41, R42): completion of the stage under way. -/
  | validationStage
  /-- INTAKE_WRITE (R51). -/
  | intakeWrite (t : Transfer) (data : List Byte)
  /-- REPORT_TAKE (R55). -/
  | reportTake
  /-- LOCKED_READ (R79). -/
  | lockedRead (t : Transfer)
  /-- ACKNOWLEDGE (R71, R82): the lock-end write of the action word of `entry` with that action and change number. -/
  | acknowledge (slot : Slot) (entry : EntryNo) (change : Half)
  /-- DISCOUNT (R71, R82). -/
  | discount (slot : Slot) (entry : EntryNo) (change : Half)
  /-- CLEAR_ENTRY (R71, R82). -/
  | clearEntry (slot : Slot) (entry : EntryNo) (change : Half)
  /-- HOLD_EXPIRY (R83): the slot's hold timer runs out. -/
  | holdExpiry (slot : Slot)
  /-- REGISTER_WRITE (R158): a write to a place with no row of its own. -/
  | registerWrite (t : Transfer) (data : List Byte)
  /-- CONTEXT_SELECTOR_WRITE (R163). -/
  | contextSelectorWrite (t : Transfer) (data : List Byte)
  /-- BRIEF_WINDOW_READ (R154, R155). -/
  | briefWindowRead (t : Transfer)
  /-- INCIDENT_CLOCK_TICK (R87). -/
  | incidentClockTick
  /-- INCIDENT_CLEAR (R88). -/
  | incidentClear (slot : Slot)
  /-- ASSIGN_CREW (R121, R122). -/
  | assignCrew (slot : Slot)
  /-- MOVE_CREW (R123). -/
  | moveCrew (slot : Slot)
  /-- WITHDRAW_CREW (R124). -/
  | withdrawCrew (slot : Slot)
  /-- SET_CONSOLE_MASK (R130). -/
  | setConsoleMask (slot : Slot)
  /-- TAKE_CONSOLE_NOTICE (R134). -/
  | takeConsoleNotice (slot : Slot)
  /-- BRIEF_NOW (R141). -/
  | briefNow (slot : Slot)
  /-- UNLATCH_LINE (R113). -/
  | unlatchLine (slot : Slot)
  /-- RESET_MARK (R29). -/
  | resetMark (slot : Slot)
  /-- REQUEST_BRIEF (R140). -/
  | requestBrief (slot : Slot)
  /-- TAKE_NOTICE (R133). -/
  | takeNotice (slot : Slot)
  /-- SET_MASK (R126). -/
  | setMask (slot : Slot)
  /-- MARK_FLOOR (R27, R28). -/
  | markFloor (slot : Slot)
  /-- LINE_SCAN (R109), with the electrical level of the 32 lines: bit `n` is line `n`, 1 for high. -/
  | lineScan (levels : BitVec 32)
  /-- COMPOSITION_START (R142). -/
  | compositionStart
  /-- WALK_STEP (R143). -/
  | walkStep
  /-- SEAL (R153). -/
  | seal
  /-- COMMAND_SLOT_WRITE (R164). -/
  | commandSlotWrite (t : Transfer) (data : List Byte)
  /-- LOSS_OF_POWER (R40). -/
  | lossOfPower
  deriving DecidableEq, Repr

end Sys2Proof
end

