-- ==== Sys2Proof/Decode.lean ====
section
/-!
DEFINITION. The command a word spells by the bits of spec/opcode_table.json. No row of this hardware's table gives bits
(every row's "fields" is empty, and 98_reader.md counts no row with fixed bits), so no word spells a command (log 29).
How a master's 16-byte command record spells a command is `CommandCode.ofByte` in Machine/Operands.lean (11_formats.md).
-/

namespace Sys2Proof

/-- The command that the `nbits` low bits of `w` spell by the table's bits: none, for the table gives none. -/
def decodeTableWord (_nbits _w : Nat) : Option Instr := none

end Sys2Proof
end

