-- ==== Sys2Proof/Machine/Records.lean ====
section
/-!
DEFINITION. The records the part holds, block by block (00_scope.md, "How the part is organised"), and the value each
block's working state takes at power-on.
-/

namespace Sys2Proof.Machine

/-- Bytes by address, kept as the addresses that hold something other than 0, rising. -/
abbrev Memory := List Host.Cell

/-! ### Plan store (R34) -/

/-- The plan state (R34). -/
inductive PlanState where
  | absent | loading | validating | valid | invalid
  deriving DecidableEq, Repr

/-- What started the present or last validation run (R34). -/
inductive RunOrigin where
  | noRun | commit | powerOn
  deriving DecidableEq, Repr

/-- Why the plan is Invalid (R34), in the order of the reason codes (11_formats.md, Codes). -/
inductive PlanReason where
  | noReason | aborted | interrupted
  | outOfRange | badForm | nullRequired | badBank | misaligned | beyondPlan | wrongKind | crossesBank
  | indexMismatch | labelMismatch | duplicateLabel | zoneFloorMismatch | duplicateZone | keyMismatch | zoneUnknown
  | countMismatch | badChecksum
  deriving DecidableEq, Repr

/-- A Zone record met by stage 5: its zone number, its plan offset and the floor that reached it (R13, R42). -/
structure ZonePlace where
  zone  : Nat
  loc   : Nat
  floor : Nat
  deriving DecidableEq, Repr

/-- The Plan Store Controller (R1, R34). `planSpace` and `state` are non-volatile. -/
structure Psc where
  planSpace  : Memory
  state      : PlanState
  origin     : RunOrigin
  stage      : Fin 8
  reason     : PlanReason
  offset     : Nat
  revision   : Half
  /-- The zone floor lookup that stage 5 builds (R42). -/
  zonePlaces : List ZonePlace
  deriving DecidableEq, Repr

/-! ### Reports (R48, R52) -/

/-- What a report says (R48). -/
inductive ReportKind where
  | alarm | restore | supervisory | supervisoryClear | trouble | troubleClear | panelReset
  deriving DecidableEq, Repr

/-- Where a queued report came from (R52): a panel, with the sequence it gave, or the Line Monitor (panel 6, sequence
none). -/
inductive ReportSource where
  | panel (number : PanelNo) (sequence : Byte)
  | line
  deriving DecidableEq, Repr

/-- A queued report (R52). -/
structure Report where
  source    : ReportSource
  kind      : ReportKind
  loop      : Fin 16
  address   : Byte
  hint      : Option (Fin 16)
  detection : Byte
  deriving DecidableEq, Repr

/-- The Report Intake (R52): the Intake Queue, head first. -/
structure Rin where
  queue : List Report
  deriving DecidableEq, Repr

/-! ### The Live Alarm Table (R64) -/

/-- The category of an entry (R66). -/
inductive Category where
  | fire | supervisory | trouble
  deriving DecidableEq, Repr

/-- The phase of an entry (R64). -/
inductive Phase where
  | active | acknowledged | restored | discounted | cleared
  deriving DecidableEq, Repr

/-- A device key (R64): panel 0 to 6, loop, address. -/
structure DeviceKey where
  panel   : Fin 7
  loop    : Fin 16
  address : Byte
  deriving DecidableEq, Repr

/-- An in-use entry (R64). Its number is its place; its level is computed from its standing (R95); a floor of `none`
is unplaced (255). -/
structure Entry where
  key           : DeviceKey
  category      : Category
  cls           : Fin 16
  floor         : Option Nat
  zone          : Option Nat
  phase         : Phase
  firstAlarm    : Half
  lastChange    : Half
  detection     : Byte
  reactivations : Byte
  standing      : Byte
  holder        : Option Slot
  holdStart     : Half
  deriving DecidableEq, Repr

/-- A place of the LAT: the change number stays with the place (R65). -/
structure Place where
  change : Half
  entry  : Option Entry
  deriving DecidableEq, Repr

/-- The record of one panel's sequence (R58). -/
structure PanelRecord where
  last : Option Byte
  gap  : Bool
  deriving DecidableEq, Repr

/-- The Alarm Engine (chapters 5 and 6). -/
structure Ale where
  places         : Vector Place 256
  alarmList      : List EntryNo
  listEpoch      : Half
  zoneRollups    : Vector Byte 2048
  unplacedRollup : Byte
  panels         : Vector PanelRecord 6
  clock          : Half
  focus          : Option Nat
  focusEntry     : Option EntryNo
  previousFocus  : Option Nat
  focusTime      : Half
  /-- Which slots' hold timers run (R79, R83). -/
  holdTimers     : Vector Bool 8
  deriving DecidableEq, Repr

/-! ### Lines and lifts (R107, R114) -/

/-- The kind of a contact (R107). -/
inductive ContactKind where
  | unused | alarmContact | supervisoryContact
  deriving DecidableEq, Repr

/-- How a contact's change to active is kept (R107). -/
inductive Capture where
  | follow | latched
  deriving DecidableEq, Repr

/-- The state accepted for a contact (R107). -/
inductive Accepted where
  | normal | active | latchedActive
  deriving DecidableEq, Repr

/-- The record of one contact, lines 16 to 31 (R107); its last sample stands with the other lines' in `Lmn.samples`. -/
structure Contact where
  kind         : ContactKind
  tableCapture : Capture
  capture      : Capture
  accepted     : Accepted
  count        : Fin 3
  pending      : Option ReportKind
  deriving DecidableEq, Repr

/-- The record of one lift (R114). -/
structure Lift where
  enabled     : Bool
  base        : Byte
  maxStep     : Byte
  shown       : Option Nat
  fault       : Bool
  implausible : Bool
  tracking    : Bool
  decoded     : Option (BitVec 7)
  pending     : Option ReportKind
  deriving DecidableEq, Repr

/-- The Line Monitor (chapter 7). `contacts` place `k` is line 16 + `k`; `lifts` are Lift A and Lift B. -/
structure Lmn where
  samples  : Vector Bool 32
  contacts : Vector Contact 16
  lifts    : Vector Lift 2
  deriving DecidableEq, Repr

/-! ### Contexts, notices and marks (R26, R119, R127, R130) -/

/-- The kind of a notice (R127). -/
inductive NoticeKind where
  | newEntry | escalated | restored | rearmed | focusMoved | tableFull | panelGap | floorMarked
  deriving DecidableEq, Repr

/-- The floor field of a notice (R127): absent, 255 for unplaced, or a floor. -/
inductive NoticeFloor where
  | absent
  | unplaced
  | placed (floor : Nat)
  deriving DecidableEq, Repr

/-- A notice (R127). -/
structure Notice where
  kind    : NoticeKind
  level   : Level
  time    : Half
  entry   : Option EntryNo
  floor   : NoticeFloor
  context : Option CtxNo
  panel   : Option PanelNo
  deriving DecidableEq, Repr

/-- A notice queue, head first, with its Overrun flag (R131, R132). -/
structure NoticeQueue where
  notices : List Notice
  overrun : Bool
  deriving DecidableEq, Repr

/-- The mode of a context (R119). -/
inductive Mode where
  | fixed | followFocus
  deriving DecidableEq, Repr

/-- A floor label (R19): prefix code and three digits, as bytes. -/
structure FloorLabel where
  prefixCode : Byte
  hundreds   : Byte
  tens       : Byte
  units      : Byte
  deriving DecidableEq, Repr

/-- A crew context (R119). -/
structure Context where
  assigned      : Bool
  crewLabel     : Vector Byte 4
  owner         : Option Slot
  mode          : Mode
  fixedFloor    : Nat
  previousFloor : Option Nat
  below         : Fin 4
  above         : Fin 4
  ceiling       : Level
  mask          : Level
  queue         : NoticeQueue
  published     : Option BufNo
  briefEpoch    : Half
  fresh         : Bool
  deriving DecidableEq, Repr

/-- A Console Queue (R130). -/
structure ConsoleQueue where
  queue : NoticeQueue
  mask  : Level
  deriving DecidableEq, Repr

/-- The mark of a floor (R26). -/
inductive Mark where
  | unsearched | searching | clear | hazard
  deriving DecidableEq, Repr

/-- A Floor Search Mark (R26). -/
structure FloorMark where
  mark    : Mark
  context : Option CtxNo
  time    : Half
  deriving DecidableEq, Repr

/-- The Context Manager (chapters 2 and 8). -/
structure Cxm where
  contexts : Vector Context 32
  consoles : Vector ConsoleQueue 2
  marks    : Vector FloorMark 128
  deriving DecidableEq, Repr

/-! ### The composer (chapter 9) -/

/-- The urgency of a brief request (R137). -/
inductive Urgency where
  | urgent | normal
  deriving DecidableEq, Repr

/-- A floor range (R24). -/
structure FloorRange where
  low     : Nat
  high    : Nat
  clipped : Bool
  deriving DecidableEq, Repr

/-- The step a walk comes to next (R143): an element is named by its floor and its position in the floor's list. -/
inductive WalkPos where
  | floorHead (floor : Nat)
  | feature (floor element : Nat)
  | zone (floor element : Nat)
  | lift (number : Fin 2)
  | unplaced
  deriving DecidableEq, Repr

/-- What a walk has met, from which the first six summary flags are told (R146). `anEntry` is the negation of All Quiet;
`highest` is also "the present floor section holds a burning entry". -/
structure WalkFlags where
  anyFire : Bool
  anEntry : Bool
  spread  : Bool
  hazard  : Bool
  lowest  : Bool
  highest : Bool
  deriving DecidableEq, Repr

/-- One walk (R143, R145): where it stands, the next free offset in the working buffer, how many items it has written
and omitted, the flags it has judged, and what the unplaced step read. -/
structure Walk where
  pos             : WalkPos
  offset          : Nat
  items           : Nat
  omitted         : Nat
  flags           : WalkFlags
  unplacedRollup  : Byte
  unplacedEntries : Nat
  deriving DecidableEq, Repr

/-- The two states of a composer that is not Idle (R142). -/
inductive ComposerPhase where
  | walking | sealing
  deriving DecidableEq, Repr

/-- A composition in progress (R142): its context, working buffer, snapshot, restart count and Disturbed flag. -/
structure Composition where
  context   : CtxNo
  buffer    : BufNo
  range     : FloorRange
  mode      : Mode
  restarts  : Fin 3
  disturbed : Bool
  phase     : ComposerPhase
  walk      : Walk
  deriving DecidableEq, Repr

/-- The Brief Composer (chapter 9). The composer is Idle when there is no composition. `pool[b]` says whether buffer `b`
is in the pool (R151). -/
structure Bcm where
  urgent      : List CtxNo
  normal      : List CtxNo
  composition : Option Composition
  buffers     : Vector Memory 33
  pool        : Vector Bool 33
  deriving DecidableEq, Repr

/-! ### The bus interface (chapter 10) -/

/-- The class of a slot in the slot class map (R156); a Panel slot carries a panel number. -/
inductive SlotClass where
  | noClass
  | panel (number : PanelNo)
  | console
  | gateway
  | loader
  deriving DecidableEq, Repr

/-- The outcome a result record shows (R164). -/
inductive ResultOutcome where
  | idle | busy | done | refused
  deriving DecidableEq, Repr

/-- The reasons of a refused command, in the order of the table of R166. -/
inductive CommandReason where
  | badCommand | notPermitted | badContext | notOwner | contextInUse | contextFree | badSlot | noPlan | unknownLabel
  | outOfWindow | floorTaken | queueEmpty | wrongState | incident | entriesLive | badLine
  deriving DecidableEq, Repr

/-- A result record (R164). -/
structure ResultRecord where
  outcome  : ResultOutcome
  code     : Byte
  reason   : Option CommandReason
  returned : Vector Byte 12
  deriving DecidableEq, Repr

/-- A command in flight (R164): the record written, what was attached to it when it was taken, and whether a bus reset
has come since (R168). -/
structure InFlight where
  record   : Vector Byte 16
  selector : Option CtxNo
  cls      : SlotClass
  console  : Option (Fin 2)
  lost     : Bool
  deriving DecidableEq, Repr

/-- A bus termination (00_scope.md). -/
inductive Termination where
  | done | retry | fault
  deriving DecidableEq, Repr

/-- The response pins after a transfer: who was answered, the termination, burst-inhibit, and the bytes read. -/
structure Response where
  slot         : Slot
  termination  : Termination
  burstInhibit : Bool
  data         : List Byte
  deriving DecidableEq, Repr

/-- The Panel Bus Interface (chapter 10). -/
structure Pbi where
  classes    : Vector SlotClass 8
  loaderSlot : Slot
  loaderFlag : Bool
  selectors  : Vector (Option CtxNo) 8
  results    : Vector ResultRecord 8
  inFlight   : Vector (Option InFlight) 8
  attention  : Vector Bool 8
  response   : Option Response
  deriving DecidableEq, Repr

/-! ### Power-on values -/

/-- A place of the LAT after power-on (R90). -/
def emptyPlace : Place := { change := 0, entry := none }

/-- A panel record after power-on (R58). -/
def emptyPanelRecord : PanelRecord := { last := none, gap := false }

/-- The ALE after power-on (R90, R99). -/
def alePowerOn : Ale :=
  { places := Vector.replicate 256 emptyPlace
    alarmList := []
    listEpoch := 0
    zoneRollups := Vector.replicate 2048 0
    unplacedRollup := 0
    panels := Vector.replicate 6 emptyPanelRecord
    clock := 0
    focus := none
    focusEntry := none
    previousFocus := none
    focusTime := 0
    holdTimers := Vector.replicate 8 false }

/-- A contact while no plan is Valid (R108, rows 1 and 3). -/
def unusedContact : Contact :=
  { kind := .unused, tableCapture := .follow, capture := .follow, accepted := .normal, count := 0, pending := none }

/-- A lift after power-on (R108, row 1). Base and max step: DESIGN CHOICE 0, unsafe (log 4). -/
def liftPowerOn : Lift :=
  { enabled := false, base := 0, maxStep := 0, shown := none, fault := false, implausible := false, tracking := false
    decoded := none, pending := none }

/-- The LMN after power-on (R108, row 1). -/
def lmnPowerOn : Lmn :=
  { samples := Vector.replicate 32 false, contacts := Vector.replicate 16 unusedContact, lifts := Vector.replicate 2 liftPowerOn }

/-- An empty notice queue with Overrun clear. -/
def emptyQueue : NoticeQueue := { notices := [], overrun := false }

/-- The Free values of a context (R119), with the brief epoch it keeps. -/
def freeContext (briefEpoch : Half) : Context :=
  { assigned := false
    crewLabel := Vector.replicate 4 0x20
    owner := none
    mode := .fixed
    fixedFloor := 0
    previousFloor := none
    below := 0
    above := 0
    ceiling := 0
    mask := 0
    queue := emptyQueue
    published := none
    briefEpoch := briefEpoch
    fresh := false }

/-- A mark that is Unsearched with context none, set at `time` (R26, R29). -/
def unsearchedAt (time : Half) : FloorMark := { mark := .unsearched, context := none, time := time }

/-- The CXM after power-on (R26, R119, R130). -/
def cxmPowerOn : Cxm :=
  { contexts := Vector.replicate 32 (freeContext 0)
    consoles := Vector.replicate 2 { queue := emptyQueue, mask := 0 }
    marks := Vector.replicate 128 (unsearchedAt 0) }

/-- The BCM after power-on (R137, R142, R151). The buffers' bytes: DESIGN CHOICE 0, unsafe (log 5). -/
def bcmPowerOn : Bcm :=
  { urgent := [], normal := [], composition := none
    buffers := Vector.replicate 33 []
    pool := Vector.replicate 33 true }

/-- A result record after power-on (R164). The command code: DESIGN CHOICE 0, unsafe (log 3). -/
def idleResult : ResultRecord :=
  { outcome := .idle, code := 0, reason := none, returned := Vector.replicate 12 0 }

/-- The slot class map that shows the Loader slot alone (R156). -/
def loaderOnlyMap (loader : Slot) : Vector SlotClass 8 :=
  (Vector.replicate 8 SlotClass.noClass).set loader .loader

/-- The PBI after power-on (R156, R157, R163, R164, R167), before its attention lines are driven. -/
def pbiPowerOn (loader : Slot) (classes : Vector SlotClass 8) (flag : Bool) : Pbi :=
  { classes := classes
    loaderSlot := loader
    loaderFlag := flag
    selectors := Vector.replicate 8 none
    results := Vector.replicate 8 idleResult
    inFlight := Vector.replicate 8 none
    attention := Vector.replicate 8 false
    response := none }

end Sys2Proof.Machine
end

