-- ==== Sys2Proof/Machine/State.lean ====
section
/-!
DEFINITION. The state of the whole part, its reasons to stop, and the machine after reset.
-/

namespace Sys2Proof.Machine

/-- Reasons to stop with a fault: none. The manual's "Fault" is a bus termination, an answer after which the part goes on
(00_scope.md, Termination); it is a value of the response pins, and no event of the table stops the part. -/
inductive Fault where
  deriving DecidableEq, Repr

/-- Reasons to refuse a command. -/
inductive Refusal where
  /-- Raised by `exec` for a row of the table that has no meaning yet; safe. No arm raises it in this model. -/
  | notModelled (mnemonic : String)
  deriving DecidableEq, Repr

/-- The KD-418 (00_scope.md, "How the part is organised"): its seven blocks, whether it has power, and two fields of the
model's own, the events waiting to be taken and the counter that feeds the free order of log 11. -/
structure State where
  psc       : Psc
  rin       : Rin
  ale       : Ale
  lmn       : Lmn
  cxm       : Cxm
  bcm       : Bcm
  pbi       : Pbi
  power     : Bool
  /-- The model's own counter (log 17): how many batches of brief requests have been handed over. -/
  freeCount : Nat
  /-- The model's own queue of events not yet taken, first in, first out. -/
  pending   : List Instr
  deriving DecidableEq, Repr

/-- The factory part (R1: plan space all zero, stored state Absent) after its first power-on (R44), with all three straps low
and so the Loader at slot 0 (DESIGN CHOICE, unsafe, log 1): every block at its power-on values, the Loader slot alone in the
map, the Loader's attention flag set since the state after power-on is Absent (R167), its line asserted. -/
def State.reset : State :=
  { psc := { planSpace := [], state := .absent, origin := .noRun, stage := 0, reason := .noReason, offset := 0
             revision := 0, zonePlaces := [] }
    rin := { queue := [] }
    ale := alePowerOn
    lmn := lmnPowerOn
    cxm := cxmPowerOn
    bcm := bcmPowerOn
    pbi := { pbiPowerOn 0 (loaderOnlyMap 0) true with attention := (Vector.replicate 8 false).set 0 true }
    power := true
    freeCount := 0
    pending := [] }

end Sys2Proof.Machine
end

