-- ==== Sys2Proof/Machine/Ops.lean ====
section
/-!
DEFINITION. The shared operations over memory and over the fields of records (R1, R171).
-/

namespace Sys2Proof.Machine

/-! ### Memory -/

/-- The byte at an address; an address not listed reads 0 (R1: the factory content of plan space). -/
def Memory.read : Memory → Nat → Byte
  | [], _ => 0
  | (k, b) :: m, a => if k = a then b else if a < k then 0 else Memory.read m a

/-- The memory with one byte stored; storing 0 takes the entry out, so that equal memories are equal lists. -/
def Memory.write : Memory → Nat → Byte → Memory
  | [], a, b => if b = 0 then [] else [(a, b)]
  | (k, c) :: m, a, b =>
    if a < k then if b = 0 then (k, c) :: m else (a, b) :: (k, c) :: m
    else if a = k then if b = 0 then m else (a, b) :: m
    else (k, c) :: Memory.write m a b

/-- The memory with bytes stored one after another from an address on. -/
def Memory.writeAll (m : Memory) (a : Nat) : List Byte → Memory
  | [] => m
  | b :: bs => Memory.writeAll (m.write a b) (a + 1) bs

/-- `n` bytes from an address on. -/
def Memory.readAll (m : Memory) (a n : Nat) : List Byte := (List.range n).map fun k => m.read (a + k)

/-- The canonical form: addresses strictly rising, and no entry equal to what an unlisted address reads as. -/
abbrev Memory.wf (m : Memory) : Prop :=
  List.Pairwise (fun x y => x.1 < y.1) m ∧ ∀ c ∈ m, c.2 ≠ 0

/-! ### Fields of a record: little-endian (00_scope.md, Numbers and byte order) -/

/-- A 1-byte field as a number. -/
def Memory.u8 (m : Memory) (a : Nat) : Nat := (m.read a).toNat

/-- A 2-byte field as a number. -/
def Memory.u16 (m : Memory) (a : Nat) : Nat := m.u8 a + 256 * m.u8 (a + 1)

/-- A 4-byte field as a number. -/
def Memory.u32 (m : Memory) (a : Nat) : Nat := m.u16 a + 65536 * m.u16 (a + 2)

/-- A number as one byte. -/
def byteOf (n : Nat) : Byte := BitVec.ofNat 8 n

/-- A number as a 2-byte field. -/
def le16 (n : Nat) : List Byte := [byteOf n, byteOf (n / 256)]

/-- A 16-bit value as a 2-byte field. -/
def leHalf (h : Half) : List Byte := le16 h.toNat

/-- A number as a 4-byte field. -/
def le32 (n : Nat) : List Byte := le16 n ++ le16 (n / 65536)

/-- The 16-bit value of two bytes. -/
def halfOf (low high : Byte) : Half := BitVec.ofNat 16 (low.toNat + 256 * high.toNat)

/-- `n` zero bytes. -/
def zeros (n : Nat) : List Byte := List.replicate n 0

/-- A flag as one byte. -/
def flagByte (b : Bool) : Byte := if b then 1 else 0

/-- A field that takes "none", "absent" or "unknown" as 255 (R171). -/
def orNone (n : Option Nat) : Byte := byteOf (n.getD 255)

/-- The bytes `off` to `off + n - 1` of a record; past its end they read 0 (R171). -/
def slice (record : List Byte) (off n : Nat) : List Byte := (List.range n).map fun k => record.getD (off + k) 0

/-- A record's bytes laid into a fixed number of places. -/
def padded (n : Nat) (bytes : List Byte) : Vector Byte n := tabulate fun k => bytes.getD k 0

/-! ### Counters -/

/-- A counter that stops at its limit, 255 (00_scope.md, Arithmetic). -/
def saturatingSucc8 (b : Byte) : Byte := if b = 0xFF then b else b + 1

/-- A counter that stops at its limit, 65535. -/
def saturatingSucc16 (h : Half) : Half := if h = 0xFFFF then h else h + 1

end Sys2Proof.Machine
end

