-- ==== Sys2Proof/WellFormed.lean ====
section
/-!
DEFINITION. Which commands are well-formed: a transfer row's transfer lies in the place its row names (R170) and carries
as many bytes as its size says. `exec` gives every command a meaning, well-formed or not: the part decodes whatever
transfer arrives.
-/

namespace Sys2Proof

/-- How many bytes a transfer of this size moves (R160). -/
def Size.bytes : Size → Nat
  | .one => 1
  | .two => 2
  | .four => 4
  | .burst => 16

/-- The transfer's bytes are as many as its size says. -/
def dataFits (t : Transfer) (data : List Byte) : Bool := data.length == t.size.bytes

/-- The transfer starts in the bank, at an offset from `lo` to below `hi`. -/
def startsIn (t : Transfer) (bank lo hi : Nat) : Bool :=
  t.bank.toNat == bank && lo ≤ t.offset.toNat && t.offset.toNat < hi

/-- The transfer starts in one of the eight slot areas of the Port bank, `lo` to below `hi` bytes after the area's start. -/
def startsInArea (t : Transfer) (lo hi : Nat) : Bool :=
  (List.range 8).any fun k => startsIn t 0x00 (0x0100 + 0x40 * k + lo) (0x0100 + 0x40 * k + hi)

/-- Well-formedness of a command: each transfer row is sent to its own place. -/
def Instr.wellFormed : Instr → Bool
  | .planSpaceWrite t data => dataFits t data && 0x40 ≤ t.bank.toNat && t.bank.toNat ≤ 0x5F
  | .planStatusRead t => startsIn t 0x00 0x0010 0x0020
  | .intakeWrite t data => dataFits t data && startsIn t 0x08 0x0000 0x10000
  | .lockedRead t => startsIn t 0x10 0x0000 0x2000 && t.lock && !t.lockEnd
  | .registerWrite t data => dataFits t data
  | .contextSelectorWrite t data => dataFits t data && startsInArea t 0x20 0x21
  | .briefWindowRead t => startsIn t 0x20 0x0000 0x10000
  | .commandSlotWrite t data => dataFits t data && startsInArea t 0x00 0x10
  | .powerOn _ | .busReset | .beginLoad _ | .commitPlan _ | .abortLoad _ | .erasePlan _ | .validationStage
  | .reportTake | .acknowledge _ _ _ | .discount _ _ _ | .clearEntry _ _ _ | .holdExpiry _ | .incidentClockTick
  | .incidentClear _ | .assignCrew _ | .moveCrew _ | .withdrawCrew _ | .setConsoleMask _ | .takeConsoleNotice _
  | .briefNow _ | .unlatchLine _ | .resetMark _ | .requestBrief _ | .takeNotice _ | .setMask _ | .markFloor _
  | .lineScan _ | .compositionStart | .walkStep | .seal | .lossOfPower => true

end Sys2Proof
end

