-- ==== Sys2Proof/Machine/Operands.lean ====
section
/-!
DEFINITION. The operand forms: command records and their codes (11_formats.md), results, and the shape of a transfer.
-/

namespace Sys2Proof.Machine

/-! ### Commands -/

/-- The seventeen commands (11_formats.md, command codes). -/
inductive CommandCode where
  | assignCrew | moveCrew | withdrawCrew | setConsoleMask | takeConsoleNotice | briefNow | unlatchLine | resetMark
  | incidentClear | requestBrief | takeNotice | setMask | markFloor | beginLoad | commitPlan | abortLoad | erasePlan
  deriving DecidableEq, Repr

/-- The command a code names: codes 0 and 18 to 255 name none. -/
def CommandCode.ofByte (b : Byte) : Option CommandCode :=
  [none, some .assignCrew, some .moveCrew, some .withdrawCrew, some .setConsoleMask, some .takeConsoleNotice,
    some .briefNow, some .unlatchLine, some .resetMark, some .incidentClear, some .requestBrief, some .takeNotice,
    some .setMask, some .markFloor, some .beginLoad, some .commitPlan, some .abortLoad,
    some .erasePlan].getD b.toNat none

/-- The class that may give a command (R166). -/
def CommandCode.permittedClass : CommandCode → SlotClass
  | .assignCrew | .moveCrew | .withdrawCrew | .setConsoleMask | .takeConsoleNotice | .briefNow | .unlatchLine
  | .resetMark | .incidentClear => .console
  | .requestBrief | .takeNotice | .setMask | .markFloor => .gateway
  | .beginLoad | .commitPlan | .abortLoad | .erasePlan => .loader

/-- Byte `k` of a taken command's record. -/
def commandByte (cmd : InFlight) (k : Fin 16) : Byte := cmd.record[k]

/-- The floor label at bytes `k` to `k + 3` of a record. -/
def commandLabel (cmd : InFlight) (k : Fin 13) : FloorLabel :=
  { prefixCode := cmd.record[k.val], hundreds := cmd.record[k.val + 1], tens := cmd.record[k.val + 2]
    units := cmd.record[k.val + 3] }

/-- A context number given in byte 1 of a record, when it is 0 to 31. -/
def commandContext (cmd : InFlight) : Option CtxNo :=
  if h : (commandByte cmd 1).toNat < 32 then some ⟨(commandByte cmd 1).toNat, h⟩ else none

/-- A mode code (11_formats.md, Codes). -/
def Mode.ofByte (b : Byte) : Option Mode :=
  if b = 0 then some .fixed else if b = 1 then some .followFocus else none

/-- A mask, ceiling or console mask as given, clamped to 7 (R122, R126, R130). -/
def clampLevel (b : Byte) : Level := ⟨min b.toNat 7, by omega⟩

/-- A window as given, clamped to 3 (R122, R123). -/
def clampWindow (b : Byte) : Fin 4 := ⟨min b.toNat 3, by omega⟩

/-- A character of a text field, 0x20 to 0x7E (R3, R119). -/
def isTextByte (n : Nat) : Bool := 0x20 ≤ n && n ≤ 0x7E

/-- How a command ends (R165): Done with its returned values, or Refused with a reason. -/
inductive CommandOutcome where
  | done (returned : List Byte)
  | refused (reason : CommandReason)
  deriving DecidableEq, Repr

/-- The result record an outcome leaves, for the command code given (R164, R165). -/
def CommandOutcome.toResult (code : Byte) : CommandOutcome → ResultRecord
  | .done values => { outcome := .done, code := code, reason := none, returned := padded 12 values }
  | .refused r => { outcome := .refused, code := code, reason := some r, returned := padded 12 [] }

/-- A taken command completes (R164): its outcome is written, unless a bus reset came between (R168), and the slot's
in-flight mark is cleared. -/
def completeCommand (slot : Slot) (cmd : InFlight) (outcome : CommandOutcome) (s : State) : State :=
  { s with
    pbi.inFlight := s.pbi.inFlight.set slot none
    pbi.results :=
      if cmd.lost then s.pbi.results else s.pbi.results.set slot (outcome.toResult (commandByte cmd 0)) }

/-- The owning block takes the command in flight at `slot` and carries it out as one event (R165, step 3). When no
command of this code is in flight there, no such event arises and nothing changes (log 8, log 23). -/
def carryOut (slot : Slot) (code : CommandCode) (body : InFlight → State → State × CommandOutcome) (s : State) : State :=
  match s.pbi.inFlight[slot] with
  | none => s
  | some cmd =>
    if CommandCode.ofByte (commandByte cmd 0) = some code then
      completeCommand slot cmd (body cmd s).2 (body cmd s).1
    else s

/-! ### Transfers -/

/-- The shape R160 allows a transfer: a single transfer starts at a multiple of its size, a burst at a multiple of 4. -/
def aligned (t : Transfer) : Bool :=
  match t.size with
  | .one => true
  | .two => t.offset.toNat % 2 == 0
  | .four | .burst => t.offset.toNat % 4 == 0

/-- The bytes a transfer moves when it is judged as a single transfer: a burst's first beat is 4 bytes (R160). -/
def singleBytes (t : Transfer) : Nat := if t.size = .burst then 4 else t.size.bytes

/-- The class of the transfer's slot in the present map (R158, step 1). -/
def slotClass (s : State) (slot : Slot) : SlotClass := s.pbi.classes[slot]

/-- The class is Panel, with whatever number. -/
def SlotClass.isPanel : SlotClass → Bool
  | .panel _ => true
  | _ => false

/-- The answer of a transfer, driven on the response pins. -/
def answer (t : Transfer) (termination : Termination) (inhibit : Bool) (data : List Byte) (s : State) : State :=
  { s with pbi.response := some { slot := t.slot, termination := termination, burstInhibit := inhibit, data := data } }

end Sys2Proof.Machine
end

