-- ==== Sys2Proof/Machine/PlanStore.lean ====
section
/-!
DEFINITION. Plan Store Organisation: the plan header, plan pointers and their resolution, and the requests the PSC
answers for the other blocks (R1 to R18, R21, R22; layouts of 11_formats.md). A record is named by its plan offset.
-/

namespace Sys2Proof.Machine

/-! ### The header (R3) -/

/-- Floor count F. -/
def headerFloors (m : Memory) : Nat := m.u8 28
/-- Access floor index. -/
def headerAccessFloor (m : Memory) : Nat := m.u8 29
/-- Zone count Z. -/
def headerZones (m : Memory) : Nat := m.u16 30
/-- Plan revision. -/
def headerRevision (m : Memory) : Half := BitVec.ofNat 16 (m.u16 2)
/-- Plan length. -/
def headerLength (m : Memory) : Nat := m.u32 36
/-- The slot class list's entry for a slot: its class code. -/
def headerSlotClass (m : Memory) (slot : Nat) : Nat := m.u8 (44 + slot) % 16
/-- The slot class list's entry for a slot: its panel number. -/
def headerSlotPanel (m : Memory) (slot : Nat) : Nat := m.u8 (44 + slot) / 16 % 8
/-- Class weight of a class. -/
def headerWeight (m : Memory) (cls : Nat) : Nat := m.u8 (60 + cls)
/-- Plan offset of the line table entry of a line. -/
def lineEntryAt (line : Nat) : Nat := 88 + 4 * line

/-! ### The line table (R6) -/

/-- The line's polarity is Inverted. -/
def lineInverted (m : Memory) (line : Nat) : Bool := m.u8 (lineEntryAt line) % 2 == 1
/-- A contact's kind code. -/
def lineKind (m : Memory) (line : Nat) : Nat := m.u8 (lineEntryAt line) / 2 % 4
/-- A contact's capture code. -/
def lineCapture (m : Memory) (line : Nat) : Nat := m.u8 (lineEntryAt line) / 8 % 2
/-- A contact's class. -/
def lineClass (m : Memory) (line : Nat) : Nat := m.u8 (lineEntryAt line) / 16
/-- A contact's floor index. -/
def lineFloor (m : Memory) (line : Nat) : Nat := m.u8 (lineEntryAt line + 1)
/-- A contact's zone number. -/
def lineZone (m : Memory) (line : Nat) : Nat := m.u16 (lineEntryAt line + 2)

/-! ### Plan pointers (R7 to R9) -/

/-- A plan pointer as stored: form 0 Null, 1 Near, 2 Far. -/
structure PlanPointer where
  offset : Nat
  bank   : Nat
  form   : Nat
  deriving DecidableEq, Repr

/-- The pointer stored at a plan offset. -/
def pointerAt (m : Memory) (a : Nat) : PlanPointer :=
  { offset := m.u16 a, bank := m.u8 (a + 2), form := m.u8 (a + 3) }

/-- The pointer fields of R7. -/
inductive PointerField where
  | labelTable | floorTable | deviceIndex | floorEntry | zoneList | featureList | floorNote | zoneElement
  | featureElement | deviceEntry | deviceNote | featureNote
  deriving DecidableEq, Repr

/-- Null is allowed (R7). -/
def PointerField.nullAllowed : PointerField → Bool
  | .floorNote | .deviceEntry | .deviceNote | .featureNote => true
  | _ => false

/-- Near is allowed (R7): everywhere but in the header's three pointers. -/
def PointerField.nearAllowed : PointerField → Bool
  | .labelTable | .floorTable | .deviceIndex => false
  | _ => true

/-- The place, in the header's six default banks, of the bank that serves the field's Near pointers (R5). -/
def PointerField.defaultBank : PointerField → Nat
  | .labelTable | .floorTable | .floorEntry => 0
  | .zoneList | .featureList => 1
  | .zoneElement => 2
  | .deviceIndex | .deviceEntry => 3
  | .featureElement => 4
  | .floorNote | .deviceNote | .featureNote => 5

/-- The record at `loc` is of the kind the field requires (R9, step 6). -/
def kindMatches (m : Memory) (loc : Nat) : PointerField → Bool
  | .labelTable | .floorTable | .deviceIndex => true
  | .floorEntry => m.u8 loc == 0x11
  | .zoneList => m.u8 loc == 0x12 && m.u8 (loc + 1) == 0
  | .featureList => m.u8 loc == 0x12 && m.u8 (loc + 1) == 1
  | .zoneElement => m.u8 loc == 0x13
  | .deviceEntry => m.u8 loc == 0x14
  | .featureElement => m.u8 loc == 0x15
  | .floorNote | .deviceNote | .featureNote => m.u8 loc == 0x16

/-- The length of the record at `loc` (R8). -/
def recordLength (m : Memory) (loc : Nat) : PointerField → Nat
  | .labelTable | .floorTable => 4 * headerFloors m
  | .deviceIndex => 98304
  | .floorEntry => 24
  | .zoneList | .featureList => 4 + 4 * m.u8 (loc + 2)
  | .zoneElement => 20
  | .deviceEntry => 16
  | .featureElement => 12
  | .floorNote | .deviceNote | .featureNote => 4 + (m.u8 (loc + 1) + 3) / 4 * 4

/-- The answer of a resolution (R9). -/
inductive Resolution where
  | absent
  | found (loc : Nat)
  | failed (reason : PlanReason)
  deriving DecidableEq, Repr

/-- Steps 3 to 8 of R9, for a pointer whose form the field allows, with the bank it resolves against. -/
def resolveIn (m : Memory) (field : PointerField) (bank offset : Nat) : Resolution :=
  if bank < 0x40 ∨ 0x5F < bank then .failed .badBank
  else if offset % 4 ≠ 0 then .failed .misaligned
  else
    let loc := (bank - 0x40) * 65536 + offset
    if headerLength m < loc + 4 then .failed .beyondPlan
    else if !kindMatches m loc field then .failed .wrongKind
    else if field ≠ .deviceIndex ∧ 65536 < offset + recordLength m loc field then .failed .crossesBank
    else if headerLength m < loc + recordLength m loc field then .failed .beyondPlan
    else .found loc

/-- Resolving the pointer of a field: the steps of R9 in order, the first that fails naming the failure. -/
def resolve (m : Memory) (field : PointerField) (p : PlanPointer) : Resolution :=
  if 2 < p.form then .failed .badForm
  else if p.form = 0 then if field.nullAllowed then .absent else .failed .nullRequired
  else if p.form = 1 then
    if field.nearAllowed then resolveIn m field (m.u8 (52 + field.defaultBank)) p.offset else .failed .badForm
  else resolveIn m field p.bank p.offset

/-- The plan offset a resolution found. -/
def Resolution.loc? : Resolution → Option Nat
  | .found loc => some loc
  | _ => none

/-! ### Tables and lists (R10, R12, R15) -/

/-- Where the Floor Label Table lies. -/
def labelTableAt (m : Memory) : Option Nat := (resolve m .labelTable (pointerAt m 76)).loc?

/-- Where the Floor Table lies. -/
def floorTableAt (m : Memory) : Option Nat := (resolve m .floorTable (pointerAt m 80)).loc?

/-- Where the Device Index lies. -/
def deviceIndexAt (m : Memory) : Option Nat := (resolve m .deviceIndex (pointerAt m 84)).loc?

/-- The floor label stored at a plan offset. -/
def labelAt (m : Memory) (a : Nat) : FloorLabel :=
  { prefixCode := m.read a, hundreds := m.read (a + 1), tens := m.read (a + 2), units := m.read (a + 3) }

/-- Prefix code 0 to 6 and three decimal digits (R19). -/
def FloorLabel.inRange (l : FloorLabel) : Bool :=
  l.prefixCode.toNat ≤ 6 && l.hundreds.toNat ≤ 9 && l.tens.toNat ≤ 9 && l.units.toNat ≤ 9

/-- The elements of the List record at `loc`, resolved, each occurrence in turn (R12, R17). -/
def listElements (m : Memory) (element : PointerField) (loc : Nat) : List Nat :=
  (List.range (m.u8 (loc + 2))).filterMap fun i => (resolve m element (pointerAt m (loc + 4 + 4 * i))).loc?

/-- The place of a device key in the Device Index (R15). -/
def deviceEntryNumber (panel loop address : Nat) : Nat := (panel * 16 + loop) * 256 + address

/-! ### Requests of the other blocks (R17): NoPlan (here `none`) while the plan is not Valid -/

/-- The plan state is Valid. -/
def Psc.valid (p : Psc) : Bool := p.state == .valid

/-- F, while Valid. -/
def Psc.floors (p : Psc) : Option Nat := if p.valid then some (headerFloors p.planSpace) else none

/-- The access floor, while Valid. -/
def Psc.accessFloor (p : Psc) : Option Nat := if p.valid then some (headerAccessFloor p.planSpace) else none

/-- Zone floor lookup (R13): the zone's floor index, or none. -/
def Psc.zoneFloor (p : Psc) (zone : Nat) : Option Nat :=
  if p.valid then (p.zonePlaces.find? fun z => z.zone == zone).map (·.floor) else none

/-- Where the Device record of a key lies, or none for NotInPlan and NoPlan (R15, R17). Panel 6 has no entries. -/
def Psc.deviceRecord (p : Psc) (key : DeviceKey) : Option Nat :=
  if p.valid && key.panel.val < 6 then
    (deviceIndexAt p.planSpace).bind fun base =>
      (resolve p.planSpace .deviceEntry (pointerAt p.planSpace
        (base + 4 * deviceEntryNumber key.panel key.loop key.address.toNat))).loc?
  else none

/-- The Floor record of a floor index. -/
def Psc.floorRecord (p : Psc) (floor : Nat) : Option Nat :=
  if p.valid && floor < headerFloors p.planSpace then
    (floorTableAt p.planSpace).bind fun base =>
      (resolve p.planSpace .floorEntry (pointerAt p.planSpace (base + 4 * floor))).loc?
  else none

/-- The label of a floor index: none for an index of F or above, for 255, and while the plan is not Valid (R22). -/
def Psc.labelOf (p : Psc) (floor : Nat) : Option FloorLabel :=
  if p.valid && floor < headerFloors p.planSpace then
    (labelTableAt p.planSpace).map fun base => labelAt p.planSpace (base + 4 * floor)
  else none

/-- The answer of a label conversion (R21). -/
inductive LabelAnswer where
  | noPlan
  | unknown
  | floor (index : Nat)
  deriving DecidableEq, Repr

/-- Converting a label to a floor index (R21). -/
def Psc.floorOf (p : Psc) (l : FloorLabel) : LabelAnswer :=
  if p.valid then
    if l.inRange then
      match (List.range (headerFloors p.planSpace)).find? fun i => p.labelOf i == some l with
      | some i => .floor i
      | none => .unknown
    else .unknown
  else .noPlan

/-- A note location (11_formats.md): a Far pointer to the resolved Note record, or a Null pointer for none. -/
def noteLocation (m : Memory) (field : PointerField) (pointerPlace : Nat) : List Byte :=
  match resolve m field (pointerAt m pointerPlace) with
  | .found loc => le16 (loc % 65536) ++ [byteOf (0x40 + loc / 65536), 2]
  | _ => zeros 4

/-! ### Class weights (R18) -/

/-- The built-in weights, class 0 to 15. -/
def builtinWeight (cls : Fin 16) : Nat :=
  [60, 90, 110, 100, 70, 150, 95, 80, 160, 40, 30, 35, 45, 50, 20, 40].getD cls.val 0

/-- The weight of a class: the header's while the plan is Valid, the built-in one otherwise. -/
def Psc.weight (p : Psc) (cls : Fin 16) : Nat :=
  if p.valid then headerWeight p.planSpace cls else builtinWeight cls

/-! ### Device lookup (R67) -/

/-- What a mapped lookup answers: class, floor and zone. -/
structure DeviceInfo where
  cls   : Fin 16
  floor : Option Nat
  zone  : Nat
  deriving DecidableEq, Repr

/-- A class field as a class number. -/
def classOf (n : Nat) : Fin 16 := Fin.ofNat 16 n

/-- Device lookup of a key (R67): `none` for NotInPlan, NoPlan and every other unmapped key. A key of panel 6, loop 0 and
address 16 to 31 is looked up in the line table, when the line's kind there is not Unused. -/
def Psc.deviceLookup (p : Psc) (key : DeviceKey) : Option DeviceInfo :=
  if key.panel.val < 6 then
    (p.deviceRecord key).map fun loc =>
      { cls := classOf (p.planSpace.u8 (loc + 1)), floor := p.zoneFloor (p.planSpace.u16 (loc + 6))
        zone := p.planSpace.u16 (loc + 6) }
  else if p.valid ∧ key.loop = 0 ∧ 16 ≤ key.address.toNat ∧ key.address.toNat ≤ 31 ∧
      lineKind p.planSpace key.address.toNat ≠ 0 then
    some { cls := classOf (lineClass p.planSpace key.address.toNat)
           floor := some (lineFloor p.planSpace key.address.toNat)
           zone := lineZone p.planSpace key.address.toNat }
  else none

/-! ### The slot class list (R4, R156) -/

/-- The header's entry for `slot` keeps the limits of R4, given the checked entries before it in slot order: the slots
below it other than the Loader slot. Which of several entries together breach a limit: DEDUCED, unsafe (log 12). -/
def slotEntryOk (m : Memory) (loader slot : Slot) : Bool :=
  let before := (List.finRange 8).filter fun k => decide (k < slot) && k != loader
  match headerSlotClass m slot with
  | 0 => true
  | 1 => headerSlotPanel m slot ≤ 5 &&
      !before.any fun k => headerSlotClass m k == 1 && headerSlotPanel m k == headerSlotPanel m slot
  | 2 => (before.filter fun k => headerSlotClass m k == 2).length < 2
  | 3 => (before.filter fun k => headerSlotClass m k == 3).length < 4
  | _ => false

/-- The class an entry names. -/
def slotEntryClass (m : Memory) (slot : Slot) : SlotClass :=
  match headerSlotClass m slot with
  | 1 => if h : headerSlotPanel m slot < 6 then .panel ⟨headerSlotPanel m slot, h⟩ else .noClass
  | 2 => .console
  | 3 => .gateway
  | _ => .noClass

/-- The slot class map a header gives (R4, R156): the Loader slot is Loader; a checked entry that breaches a limit is
taken as None, which happens in a provisional map alone. -/
def headerMap (m : Memory) (loader : Slot) : Vector SlotClass 8 :=
  tabulate fun slot =>
    if slot = loader then .loader
    else if slotEntryOk m loader slot then slotEntryClass m slot
    else .noClass

end Sys2Proof.Machine
end

