-- ==== Sys2Proof/Machine/Flags.lean ====
section
/-!
DEFINITION. Conditions computed from the state: the attention lines (R167), the ownership of the Console Queues (R130),
and the summary flags a walk judges (R146). Every event ends by driving the attention lines anew.
-/

namespace Sys2Proof.Machine

/-! ### Console Queue ownership (R130) -/

/-- The Console slots of a map, in slot order. -/
def consoleSlots (classes : Vector SlotClass 8) : List Slot :=
  (List.finRange 8).filter fun slot => classes[slot] == .console

/-- The owner of a Console Queue: the first Console slot owns the first queue, the second the second. -/
def consoleOwner (classes : Vector SlotClass 8) (q : Fin 2) : Option Slot := (consoleSlots classes)[q.val]?

/-- The Console Queue a slot owns in a map. -/
def ownedConsole (classes : Vector SlotClass 8) (slot : Slot) : Option (Fin 2) :=
  (List.finRange 2).find? fun q => consoleOwner classes q == some slot

/-! ### Attention (R167) -/

/-- The condition of a slot's attention line, by its class in the present map. -/
def attentionCondition (s : State) (slot : Slot) : Bool :=
  match s.pbi.classes[slot] with
  | .gateway => (List.finRange 32).any fun c =>
      s.cxm.contexts[c].assigned && s.cxm.contexts[c].owner == some slot &&
        (!s.cxm.contexts[c].queue.notices.isEmpty || s.cxm.contexts[c].fresh)
  | .console =>
    match ownedConsole s.pbi.classes slot with
    | some q => !s.cxm.consoles[q].queue.notices.isEmpty
    | none => false
  | .loader => s.pbi.loaderFlag
  | .panel _ | .noClass => false

/-- Every attention line driven from its condition. -/
def driveAttention (s : State) : State := { s with pbi.attention := tabulate (attentionCondition s) }

/-- One whole event of the part: its effect, and the attention lines with it (R167). With the power off no event but
power-on has an effect (log 9). -/
def event (effect : State → State) (s : State) : Host.Outcome State Fault Refusal :=
  if s.power then .next (driveAttention (effect s)) else .next s

/-! ### Summary flags (R146) -/

/-- The flags at the start of a walk. -/
def noFlags : WalkFlags :=
  { anyFire := false, anEntry := false, spread := false, hazard := false, lowest := false, highest := false }

/-- A Floor Head item is met: a new floor section begins, with no burning entry in it yet. -/
def WalkFlags.meetFloor (f : WalkFlags) (mark : Mark) : WalkFlags :=
  { f with highest := false, hazard := f.hazard || mark == .hazard }

/-- A Feature item of this kind code is met; 4 is Hazard Store. -/
def WalkFlags.meetFeature (f : WalkFlags) (kind : Nat) : WalkFlags := { f with hazard := f.hazard || kind == 4 }

/-- An Entry item is burning (R146). -/
def Entry.burning (e : Entry) : Bool := e.category == .fire && (e.phase == .active || e.phase == .acknowledged)

/-- An Entry item is met, in the walk's first floor section or a later one. -/
def WalkFlags.meetEntry (f : WalkFlags) (firstSection : Bool) (e : Entry) : WalkFlags :=
  if e.burning then
    { f with anEntry := true, anyFire := true, spread := f.spread || (f.anyFire && !f.highest)
             lowest := f.lowest || firstSection, highest := true }
  else { f with anEntry := true }

/-- The ten flags as the header's bits 0 to 9, in the order of R146. -/
def summaryBits (f : WalkFlags) (clipped unsettled truncated noFocus : Bool) : Nat :=
  ([f.anyFire, !f.anEntry, f.spread, f.hazard, f.lowest, f.highest, clipped, unsettled, truncated, noFocus].zipIdx).foldl
    (fun acc b => if b.1 then acc + 2 ^ b.2 else acc) 0

end Sys2Proof.Machine
end

