-- ==== Sys2Proof/Machine/Standing.lean ====
section
/-!
DEFINITION. Standing and Focus: the standing formula (R91 to R95), the Alarm List (R74) and the focus (R98), as step 2 of
an ALE event computes them (R73).
-/

namespace Sys2Proof.Machine

/-- The in-use entries with their numbers, in rising number (R64). -/
def Ale.inUse (a : Ale) : List (EntryNo × Entry) :=
  (List.finRange 256).filterMap fun i => a.places[i].entry.map fun e => (i, e)

/-- The phase is Active, Acknowledged or Restored: the phases that have a standing (R92). -/
def Phase.graded : Phase → Bool
  | .active | .acknowledged | .restored => true
  | .discounted | .cleared => false

/-- The absolute difference of two times. -/
def timeGap (a b : Half) : Nat := max a.toNat b.toNat - min a.toNat b.toNat

/-- Entry `o` corroborates the Fire entry `e` of a zone (R93). -/
def corroborates (e o : Entry) : Bool :=
  o.zone == e.zone && o.category == .fire && o.phase.graded && timeGap e.firstAlarm o.firstAlarm ≤ 90

/-- Corroboration C of entry `i` among the in-use entries (R93). -/
def corroboration (entries : List (EntryNo × Entry)) (i : EntryNo) (e : Entry) : Nat :=
  if e.category == .fire && e.zone.isSome then
    20 * min 3 (entries.countP fun o => o.1 != i && corroborates e o.2)
  else 0

/-- Spread S of an entry (R94): a later burning entry stands on the floor above. -/
def spread (entries : List (EntryNo × Entry)) (e : Entry) : Nat :=
  match e.floor with
  | none => 0
  | some f =>
    if e.category == .fire &&
        entries.any fun o => o.2.burning && o.2.floor == some (f + 1) && decide (e.firstAlarm.toNat < o.2.firstAlarm.toNat)
    then 30 else 0

/-- The raw sum B + C + S + R − P of a graded entry (R95). -/
def rawStanding (p : Psc) (entries : List (EntryNo × Entry)) (i : EntryNo) (e : Entry) : Int :=
  (p.weight e.cls : Int) + corroboration entries i e + spread entries e + 10 * min 2 e.reactivations.toNat
    - (if e.phase = .restored then 40 else 0)

/-- The standing of an entry (R91, R92, R95): 0 for Discounted and Cleared, else the raw sum held to 0 to 255. -/
def standingOf (p : Psc) (entries : List (EntryNo × Entry)) (i : EntryNo) (e : Entry) : Byte :=
  if e.phase.graded then byteOf (min 255 (rawStanding p entries i e).toNat) else 0

/-- The level of an entry: its standing divided by 32 (R95). -/
def Entry.level (e : Entry) : Level := ⟨e.standing.toNat / 32, by have := e.standing.isLt; omega⟩

/-- The order of the Alarm List (R74): standing descending, first-alarm time ascending, entry number ascending. -/
def rankedBefore (x y : EntryNo × Entry) : Bool :=
  if x.2.standing.toNat ≠ y.2.standing.toNat then decide (y.2.standing.toNat < x.2.standing.toNat)
  else if x.2.firstAlarm.toNat ≠ y.2.firstAlarm.toNat then decide (x.2.firstAlarm.toNat < y.2.firstAlarm.toNat)
  else decide (x.1 ≤ y.1)

/-- The Alarm List of a table. -/
def rankedList (a : Ale) : List EntryNo := (a.inUse.insertionSort fun x y => rankedBefore x y = true).map (·.1)

/-- The table with every in-use entry's standing computed afresh. -/
def regraded (p : Psc) (a : Ale) : Ale :=
  { a with places := tabulate fun i =>
      match a.places[i].entry with
      | none => a.places[i]
      | some e => { a.places[i] with entry := some { e with standing := standingOf p a.inUse i e } } }

/-- An entry may give the focus (R98): Fire, graded and placed; its floor. -/
def Entry.focusFloor (e : Entry) : Option Nat := if e.category == .fire && e.phase.graded then e.floor else none

/-- The focus entry and the focus of a table: the first eligible entry in Alarm List order (R98). -/
def focusOf (a : Ale) : Option (EntryNo × Nat) :=
  a.alarmList.findSome? fun i => (a.places[i].entry.bind Entry.focusFloor).map fun f => (i, f)

/-- Step 2 of an ALE event (R73): standings, the Alarm List, then the focus. At a change of the focus the previous focus
takes its old value and the focus time the present clock value (R100, step 1). -/
def recompute (p : Psc) (a : Ale) : Ale :=
  let graded := regraded p a
  let listed := { graded with alarmList := rankedList graded }
  let found := focusOf listed
  let focus := found.map (·.2)
  if focus = a.focus then { listed with focusEntry := found.map (·.1) }
  else { listed with focus := focus, focusEntry := found.map (·.1), previousFocus := a.focus, focusTime := a.clock }

/-- What a position of the Alarm List shows (R74), but for the level, which goes with the standing. -/
structure ListPosition where
  entry    : EntryNo
  category : Category
  phase    : Phase
  floor    : Option Nat
  standing : Byte
  deriving DecidableEq, Repr

/-- The list as its positions show it. -/
def listPositions (a : Ale) : List ListPosition :=
  a.alarmList.filterMap fun i => a.places[i].entry.map fun e =>
    { entry := i, category := e.category, phase := e.phase, floor := e.floor, standing := e.standing }

/-- Step 3 (R75): the List Epoch rises by 1 when the list differs from what it was before the event. -/
def raiseEpoch (before after : Ale) : Ale :=
  if listPositions before = listPositions after then after else { after with listEpoch := after.listEpoch + 1 }

end Sys2Proof.Machine
end

