-- ==== Sys2Proof/Machine/Notices.lean ====
section
/-!
DEFINITION. Floor ranges (R24), notices, their delivery and queueing (R127 to R132), and taking them (R133, R134).
-/

namespace Sys2Proof.Machine

/-! ### The current floor range (R24, R25) -/

/-- The centre of a context's range: its fixed floor, or the focus, or the access floor while the focus is None. -/
def rangeCentre (focus : Option Nat) (access : Nat) (c : Context) : Nat :=
  match c.mode with
  | .fixed => c.fixedFloor
  | .followFocus => focus.getD access

/-- The range around a centre, clipped to 0 to F − 1 (R24, steps 2 to 4). -/
def rangeAround (floors centre below above : Nat) : FloorRange :=
  { low := centre - below
    high := min (centre + above) (floors - 1)
    clipped := decide (centre < below) || decide (floors ≤ centre + above) }

/-- A context's current floor range. A Free context has none; nor has any context while the plan is not Valid, for F is
not answered then (R17; log 27). -/
def rangeOf (p : Psc) (focus : Option Nat) (c : Context) : Option FloorRange :=
  if c.assigned && p.valid then
    some (rangeAround (headerFloors p.planSpace) (rangeCentre focus (headerAccessFloor p.planSpace) c) c.below c.above)
  else none

/-- The current floor range of context `c`. -/
def currentRange (s : State) (c : CtxNo) : Option FloorRange := rangeOf s.psc s.ale.focus s.cxm.contexts[c]

/-- A floor lies in a range. -/
def FloorRange.holds (r : FloorRange) (floor : Nat) : Bool := decide (r.low ≤ floor) && decide (floor ≤ r.high)

/-- A floor lies in the current range of a context. -/
def inRange (s : State) (c : CtxNo) (floor : Nat) : Bool := (currentRange s c).any fun r => r.holds floor

/-! ### Queueing (R128, R131) -/

/-- Two notices have the same key (R128). -/
def Notice.sameKey (a b : Notice) : Bool :=
  a.kind == b.kind &&
    match a.kind with
    | .newEntry | .escalated | .restored | .rearmed => a.entry == b.entry
    | .focusMoved | .tableFull => true
    | .panelGap => a.panel == b.panel
    | .floorMarked => a.floor == b.floor

/-- The lowest level queued; 7 for an empty queue. -/
def lowestLevel (notices : List Notice) : Level := notices.foldl (fun l n => min l n.level) 7

/-- One delivered notice queued into one queue of the given capacity: the four cases of R131. -/
def enqueue (capacity : Nat) (q : NoticeQueue) (n : Notice) : NoticeQueue :=
  if q.notices.any fun m => m.sameKey n then
    { q with notices := q.notices.map fun m => if m.sameKey n then n else m }
  else if q.notices.length < capacity then { q with notices := q.notices ++ [n] }
  else if lowestLevel q.notices < n.level then
    { q with notices := (q.notices.eraseP fun m => m.level == lowestLevel q.notices) ++ [n] }
  else { q with overrun := true }

/-- Capacity of a context's queue (R131). -/
def contextCapacity : Nat := 16

/-- Capacity of a Console Queue (R131). -/
def consoleCapacity : Nat := 32

/-! ### Delivery (R129, R130) -/

/-- The notice is tower-wide: offered to every Assigned context whatever its range (R128). -/
def NoticeKind.towerWide : NoticeKind → Bool
  | .focusMoved | .tableFull => true
  | _ => false

/-- A notice is delivered to a context with the current range given (R129). -/
def deliveredTo (range : Option FloorRange) (c : Context) (n : Notice) : Bool :=
  c.assigned && decide (c.mask ≤ n.level) &&
    (n.kind.towerWide ||
      match n.floor with
      | .placed f => range.any fun r => r.holds f
      | _ => false)

/-- One notice offered to every destination (R129, R130), each taking it or not by its own tests. -/
def offer (n : Notice) (s : State) : State :=
  { s with
    cxm.contexts := tabulate fun c =>
      if deliveredTo (currentRange s c) s.cxm.contexts[c] n then
        { s.cxm.contexts[c] with queue := enqueue contextCapacity s.cxm.contexts[c].queue n }
      else s.cxm.contexts[c]
    cxm.consoles := tabulate fun q =>
      if (consoleOwner s.pbi.classes q).isSome && decide (s.cxm.consoles[q].mask ≤ n.level) then
        { s.cxm.consoles[q] with queue := enqueue consoleCapacity s.cxm.consoles[q].queue n }
      else s.cxm.consoles[q] }

/-- Notices offered one after another (R103). -/
def offerAll (ns : List Notice) (s : State) : State := ns.foldl (fun s n => offer n s) s

/-! ### Taking (R132, R133) -/

/-- The head taken from a queue: the notice, and the queue left, with Overrun cleared when it becomes empty. -/
def takeHead (q : NoticeQueue) : Option (Notice × NoticeQueue) :=
  match q.notices with
  | [] => none
  | n :: rest => some (n, { notices := rest, overrun := q.overrun && !rest.isEmpty })

end Sys2Proof.Machine
end

