-- ==== Sys2Proof/Machine/Composer.lean ====
section
/-!
DEFINITION. The composer request queue and what reaches a composition from outside: requests, disturbance and
abandonment (R137 to R139, R147, R149).
-/

namespace Sys2Proof.Machine

/-- The context being composed: that of a composition Walking or Sealing (R137). -/
def Bcm.composing (b : Bcm) : Option CtxNo := b.composition.map (·.context)

/-- The composition is disturbed (R147). -/
def disturb (s : State) : State :=
  { s with bcm.composition := s.bcm.composition.map fun c => { c with disturbed := true } }

/-- The composer is Walking. -/
def Bcm.walking (b : Bcm) : Bool := b.composition.any fun c => c.phase == .walking

/-- Changes on these floors disturb the composition when it is Walking and one of them lies in its snapshot (R147). -/
def disturbFloors (floors : List Nat) (s : State) : State :=
  if s.bcm.composition.any fun c => c.phase == .walking && floors.any fun f => c.range.holds f then disturb s else s

/-- The composition in progress, if any, is abandoned (R149): its working buffer returns to the pool and the composer is
Idle; with `requeue` the context joins the tail of the Urgent group. -/
def abandon (requeue : Bool) (s : State) : State :=
  match s.bcm.composition with
  | none => s
  | some c =>
    { s with
      bcm.composition := none
      bcm.pool := s.bcm.pool.set c.buffer true
      bcm.urgent := if requeue then s.bcm.urgent ++ [c.context] else s.bcm.urgent }

/-- A focus change reaches the BCM (R100, step 4): a composition whose snapshot mode is Follow Focus is abandoned and
requeued Urgent. -/
def focusChanged (s : State) : State :=
  if s.bcm.composition.any fun c => c.mode == .followFocus then abandon true s else s

/-- The disposition of a request (R138). -/
inductive Disposition where
  | dropped | abandoning | disturbing | queued | raised | merged
  deriving DecidableEq, Repr

/-- The disposition's code in a result record (11_formats.md, Codes). -/
def Disposition.code : Disposition → Byte
  | .queued => 1
  | .merged => 2
  | .raised => 3
  | .disturbing => 4
  | .dropped | .abandoning => 0

/-- What becomes of a request (R138): the first case that applies. A focus change's abandonment is made before the
event's requests (R103), so Move Crew is the one request that abandons here. -/
def disposition (s : State) (c : CtxNo) (u : Urgency) (fromMove : Bool) : Disposition :=
  if !s.cxm.contexts[c].assigned then .dropped
  else if s.bcm.composing = some c then if fromMove then .abandoning else .disturbing
  else if c ∈ s.bcm.urgent then .merged
  else if c ∈ s.bcm.normal then if u = .urgent then .raised else .merged
  else .queued

/-- A brief request taken by the BCM (R138). -/
def briefRequest (c : CtxNo) (u : Urgency) (fromMove : Bool) (s : State) : State :=
  match disposition s c u fromMove with
  | .dropped | .merged => s
  | .abandoning => abandon true s
  | .disturbing => disturb s
  | .raised => { s with bcm.normal := s.bcm.normal.erase c, bcm.urgent := s.bcm.urgent ++ [c] }
  | .queued =>
    match u with
    | .urgent => { s with bcm.urgent := s.bcm.urgent ++ [c] }
    | .normal => { s with bcm.normal := s.bcm.normal ++ [c] }

/-- The order in which one event hands over its requests: by the free rank, equal ranks in rising context number
(log 11). -/
def requestOrder (n : Nat) (x y : CtxNo × Urgency) : Bool :=
  decide (Config.requestRank n x.1 < Config.requestRank n y.1) ||
    (decide (Config.requestRank n x.1 = Config.requestRank n y.1) && decide (x.1 ≤ y.1))

/-- The requests of one event, one per context, handed to the BCM together (R103), in the free order. -/
def handRequests (requests : List (CtxNo × Urgency)) (s : State) : State :=
  let ordered := requests.insertionSort fun x y => requestOrder s.freeCount x y = true
  ordered.foldl (fun s r => briefRequest r.1 r.2 false s) { s with freeCount := s.freeCount + 1 }

/-- A Normal request for every Assigned context that satisfies `p`. -/
def requestNormal (p : CtxNo → Bool) (s : State) : State :=
  handRequests (((List.finRange 32).filter fun c => s.cxm.contexts[c].assigned && p c).map fun c => (c, .normal)) s

end Sys2Proof.Machine
end

