-- ==== Sys2Proof/Machine/AlarmEngine.lean ====
section
/-!
DEFINITION. What every ALE event hands on (R73, R100 to R104), the changes of entries (R68 to R72), the holds (R79 to R84)
and re-resolution (R85).
-/

namespace Sys2Proof.Machine

/-! ### Floors an event touches (R73) -/

/-- The floors one place contributes: the floor of an entry that was made, freed or changed there, or whose standing was
altered. Every change raises the change number (R72); an evicted entry and its successor differ in key or category. -/
def touchedAt (before after : Place) : List Nat :=
  match before.entry, after.entry with
  | none, none => []
  | none, some e => e.floor.toList
  | some e, none => e.floor.toList
  | some e, some e' =>
    if e.key ≠ e'.key ∨ e.category ≠ e'.category then e.floor.toList ++ e'.floor.toList
    else if before.change ≠ after.change ∨ e.standing ≠ e'.standing then e'.floor.toList
    else []

/-- The floors touched between two tables. -/
def touchedFloors (before after : Ale) : List Nat :=
  (List.finRange 256).flatMap fun i => touchedAt before.places[i] after.places[i]

/-! ### The notices of an event (R73, R100, R102, R103) -/

/-- A floor as the floor field of an entry's notice. -/
def noticeFloor : Option Nat → NoticeFloor
  | some f => .placed f
  | none => .unplaced

/-- A notice about entry `i`, as the table stands (R127). -/
def entryNotice (a : Ale) (kind : NoticeKind) (i : EntryNo) : Option Notice :=
  a.places[i].entry.map fun e =>
    { kind := kind, level := e.level, time := a.clock, entry := some i, floor := noticeFloor e.floor
      context := none, panel := none }

/-- A notice that names no entry, floor, context or panel. -/
def bareNotice (kind : NoticeKind) (level : Level) (time : Half) : Notice :=
  { kind := kind, level := level, time := time, entry := none, floor := .absent, context := none, panel := none }

/-- The Panel Gap notice of a panel (R61). -/
def gapNotice (a : Ale) (p : PanelNo) : Notice := { bareNotice .panelGap 5 a.clock with panel := some p }

/-- The Focus Moved notice (R100, step 2). -/
def focusNotice (a : Ale) : Notice :=
  { bareNotice .focusMoved 7 a.clock with
    floor := match a.focus with
      | some f => .placed f
      | none => .absent }

/-- The entries whose level rose, other than those with a notice of their own, in rising number (R102). -/
def escalatedEntries (before after : Ale) (own : List EntryNo) : List EntryNo :=
  (List.finRange 256).filter fun i =>
    match before.places[i].entry, after.places[i].entry with
    | some e, some e' => decide (e.level < e'.level) && !own.contains i
    | _, _ => false

/-- What an ALE event says of itself besides the table: the panel whose sequence skipped, its own entry notices, and a
roll-up with the floor of its zone. -/
structure EventNews where
  gap      : Option PanelNo
  own      : List (NoticeKind × EntryNo)
  rolledUp : Bool
  floors   : List Nat
  deriving DecidableEq, Repr

/-- An event with nothing of its own to say. -/
def noNews : EventNews := { gap := none, own := [], rolledUp := false, floors := [] }

/-- The notices of an event between two tables, in the order of R103. -/
def eventNotices (before after : Ale) (news : EventNews) : List Notice :=
  (news.gap.map (gapNotice after)).toList
    ++ news.own.filterMap (fun o => entryNotice after o.1 o.2)
    ++ (escalatedEntries before after (news.own.map (·.2))).filterMap (entryNotice after .escalated)
    ++ (if before.focus = after.focus then [] else [focusNotice after])
    ++ (if news.rolledUp then [bareNotice .tableFull 7 after.clock] else [])

/-! ### The requests of an event (R104) -/

/-- The floors on which the event posted a New Entry or Rearmed notice of level 6 or 7. -/
def urgentFloors (after : Ale) (news : EventNews) : List Nat :=
  news.own.flatMap fun o =>
    match o.1, after.places[o.2].entry with
    | .newEntry, some e => if 6 ≤ e.level.val then e.floor.toList else []
    | .rearmed, some e => if 6 ≤ e.level.val then e.floor.toList else []
    | _, _ => []

/-- The request an event owes context `c` (R104), in the state after step 2. -/
def owedRequest (s : State) (moved : Bool) (touched urgent : List Nat) (c : CtxNo) : Option Urgency :=
  if !s.cxm.contexts[c].assigned then none
  else if moved && s.cxm.contexts[c].mode == .followFocus then some .urgent
  else if urgent.any fun f => inRange s c f then some .urgent
  else if touched.any fun f => inRange s c f then some .normal
  else none

/-- Steps 4 and 5 of an ALE event (R73) from the table `before` it to that of `s`: its notices; then the focus change; then
its requests, one per context, and its disturbance. -/
def handOn (before : Ale) (news : EventNews) (s : State) : State :=
  let moved := before.focus ≠ s.ale.focus
  let touched := touchedFloors before s.ale ++ news.floors
  let requests := (List.finRange 32).filterMap fun c =>
    (owedRequest s moved touched (urgentFloors s.ale news) c).map fun u => (c, u)
  let noticed := offerAll (eventNotices before s.ale news) s
  let told := if moved then focusChanged noticed else noticed
  disturbFloors touched (handRequests requests told)

/-- Steps 2 to 5 of an ALE event whose changes are applied in `s` and whose table before was `before` (R73). -/
def completeEvent (before : Ale) (news : EventNews) (s : State) : State :=
  handOn before news { s with ale := raiseEpoch before (recompute s.psc s.ale) }

/-! ### Changes of entries (R68 to R72) -/

/-- Place `i` after a change to its entry: the change number rises by 1 (R72). -/
def changeEntry (i : EntryNo) (f : Entry → Entry) (a : Ale) : Ale :=
  { a with places := updateAt a.places i fun p => { change := p.change + 1, entry := p.entry.map f } }

/-- Place `i` freed; it keeps its change number (R65). -/
def freePlace (p : Place) : Place := { p with entry := none }

/-- The in-use entry with this key and category (R66). -/
def Ale.findEntry (a : Ale) (key : DeviceKey) (category : Category) : Option (EntryNo × Entry) :=
  a.inUse.find? fun x => x.2.key == key && x.2.category == category

/-- The lowest-numbered free place (R65). -/
def Ale.freePlaceNo (a : Ale) : Option EntryNo := (List.finRange 256).find? fun i => a.places[i].entry.isNone

/-- `x` is evicted before `y`: older last-change time, then lower number (R76). -/
def evictedBefore (x y : EntryNo × Entry) : Bool :=
  if x.2.lastChange.toNat ≠ y.2.lastChange.toNat then decide (x.2.lastChange.toNat < y.2.lastChange.toNat)
  else decide (x.1 ≤ y.1)

/-- The Cleared entry to evict (R76). -/
def Ale.evictee (a : Ale) : Option EntryNo :=
  (((a.inUse.filter fun x => x.2.phase == .cleared).insertionSort fun x y => evictedBefore x y = true).head?).map (·.1)

/-! ### Holds (R79 to R84) -/

/-- An entry held by the slot is held no more; nothing else in it changes. -/
def Entry.releasedBy (e : Entry) (released : Slot → Bool) : Entry :=
  if e.holder.any released then { e with holder := none } else e

/-- Every hold of a slot that satisfies `released` ends with no action, and its timer stops (R84). -/
def endHolds (released : Slot → Bool) (a : Ale) : Ale :=
  { a with
    places := tabulate fun i => { a.places[i] with entry := a.places[i].entry.map fun e => e.releasedBy released }
    holdTimers := tabulate fun slot => a.holdTimers[slot] && !released slot }

/-- The hold of one slot ends. -/
def endHold (slot : Slot) (a : Ale) : Ale := endHolds (· == slot) a

/-- An entry that `slot` holds from now on: a hold that starts takes the present clock value as its hold start, and one that
starts again keeps it (R64, R79). -/
def Entry.heldBy (e : Entry) (slot : Slot) (clock : Half) : Entry :=
  if e.holder = some slot then e else { e with holder := some slot, holdStart := clock }

/-- A hold of `slot` on entry `i` starts or starts again, with its timer, and any hold of the slot on another entry ends
(R79, R81). -/
def startHold (slot : Slot) (i : EntryNo) (a : Ale) : Ale :=
  let a' := endHold slot a
  { a' with
    places := updateAt a'.places i fun p => { p with entry := a.places[i].entry.map fun e => e.heldBy slot a.clock }
    holdTimers := a'.holdTimers.set slot true }

/-- The slot class map is set (R156); holds whose holder is no longer of class Console end (R84). -/
def setMap (classes : Vector SlotClass 8) (s : State) : State :=
  { s with pbi.classes := classes, ale := endHolds (fun slot => classes[slot] != .console) s.ale }

/-! ### Re-resolution (R85) -/

/-- One place resolved again against the plan in force: an answer gives class, floor and zone; without one the floor is
255, the zone none, and the class stays. A change raises the change number. -/
def resolveAgain (p : Psc) (place : Place) : Place :=
  match place.entry with
  | none => place
  | some e =>
    let e' := match p.deviceLookup e.key with
      | some d => { e with cls := d.cls, floor := d.floor, zone := some d.zone }
      | none => { e with floor := none, zone := none }
    if e' = e then place else { change := place.change + 1, entry := some e' }

end Sys2Proof.Machine
end

