-- ==== Sys2Proof/Machine/Marks.lean ====
section
/-!
DEFINITION. Floor Search Marks (R26 to R32): mark changes and their effects, MARK_FLOOR and RESET_MARK.
-/

namespace Sys2Proof.Machine

/-- The mark of a floor. -/
def markAt (s : State) (floor : Nat) : FloorMark := s.cxm.marks[floor]?.getD (unsearchedAt 0)

/-- The level of a Floor Marked notice (R30). -/
def Mark.noticeLevel : Mark → Level
  | .hazard => 6
  | .clear => 2
  | .searching => 1
  | .unsearched => 1

/-- The Floor Marked notice of a change (R30, effect 1). -/
def markNotice (floor : Nat) (m : FloorMark) (carried : Option CtxNo) : Notice :=
  { bareNotice .floorMarked m.mark.noticeLevel m.time with floor := .placed floor, context := carried }

/-- A mark change on a floor with its three effects (R30): the notice, a Normal request for every Assigned context whose
range holds the floor, and the disturbance. `carried` is the context the notice names. -/
def changeMark (floor : Nat) (m : FloorMark) (carried : Option CtxNo) (s : State) : State :=
  let marked := { s with cxm.marks := s.cxm.marks.setIfInBounds floor m }
  let told := offer (markNotice floor m carried) marked
  disturbFloors [floor] (requestNormal (fun c => inRange told c floor) told)

/-- A floor becomes Unsearched (R29, R31): its notice carries the context whose Searching claim ended, if it was Searching. -/
def unmark (floor : Nat) (s : State) : State :=
  let old := markAt s floor
  changeMark floor (unsearchedAt s.ale.clock) (if old.mark = .searching then old.context else none) s

/-- A mark code a Mark Floor may request (R27): Searching, Clear or Hazard. -/
def requestedMark (b : Byte) : Option Mark :=
  if b = 1 then some .searching else if b = 2 then some .clear else if b = 3 then some .hazard else none

/-- A mark's code (11_formats.md, Codes). -/
def Mark.code : Mark → Byte
  | .unsearched => 0
  | .searching => 1
  | .clear => 2
  | .hazard => 3

/-- A context number or none as a byte (R171). -/
def contextByte (c : Option CtxNo) : Byte := orNone (c.map (·.val))

/-- The first two checks of every Gateway command (R120): the context the selector names, Assigned to the slot. -/
def gatewayContext (slot : Slot) (cmd : InFlight) (s : State) : Except CommandReason CtxNo :=
  match cmd.selector with
  | none => .error .badContext
  | some c =>
    if s.cxm.contexts[c].assigned && s.cxm.contexts[c].owner == some slot then .ok c else .error .notOwner

/-- The floor a label converts to, or the reason of R21. -/
def floorOfLabel (s : State) (l : FloorLabel) : Except CommandReason Nat :=
  match s.psc.floorOf l with
  | .noPlan => .error .noPlan
  | .unknown => .error .unknownLabel
  | .floor f => .ok f

/-- The checks of Mark Floor in their order (R27): the context, the mark and the floor, or the reason. -/
def markFloorChecks (slot : Slot) (cmd : InFlight) (s : State) : Except CommandReason (CtxNo × Mark × Nat) :=
  match gatewayContext slot cmd s with
  | .error r => .error r
  | .ok c =>
    match requestedMark (commandByte cmd 1) with
    | none => .error .badCommand
    | some mark =>
      match floorOfLabel s (commandLabel cmd 4) with
      | .error r => .error r
      | .ok floor =>
        if !inRange s c floor then .error .outOfWindow
        else if mark = .searching ∧ (markAt s floor).mark = .searching ∧ (markAt s floor).context ≠ some c then
          .error .floorTaken
        else .ok (c, mark, floor)

/-- Mark Floor carried out (R28): no change when the requested mark and the context are both held already. -/
def markFloorBody (slot : Slot) (cmd : InFlight) (s : State) : State × CommandOutcome :=
  match markFloorChecks slot cmd s with
  | .error r => (s, .refused r)
  | .ok (c, mark, floor) =>
    let old := markAt s floor
    let s' :=
      if old.mark = mark ∧ old.context = some c then s
      else changeMark floor { mark := mark, context := some c, time := s.ale.clock } (some c) s
    (s', .done [byteOf floor, old.mark.code, contextByte old.context, mark.code, contextByte (some c)])

/-- Reset Mark carried out (R29). -/
def resetMarkBody (cmd : InFlight) (s : State) : State × CommandOutcome :=
  match floorOfLabel s (commandLabel cmd 4) with
  | .error r => (s, .refused r)
  | .ok floor =>
    let old := markAt s floor
    (if old.mark = .unsearched then s else unmark floor s,
      .done [byteOf floor, old.mark.code, contextByte old.context])

/-- MARK_FLOOR (R27, R28). -/
def execMarkFloor (slot : Slot) (s : State) : Host.Outcome State Fault Refusal :=
  event (carryOut slot .markFloor (markFloorBody slot)) s

/-- RESET_MARK (R29). -/
def execResetMark (slot : Slot) (s : State) : Host.Outcome State Fault Refusal :=
  event (carryOut slot .resetMark resetMarkBody) s

end Sys2Proof.Machine
end

