-- ==== Sys2Proof/Machine/Crew.lean ====
section
/-!
DEFINITION. Crew contexts and notices: the Console and Gateway commands of chapter 8 and the two brief commands (R113
stands with the lines, R27 to R29 with the marks).
-/

namespace Sys2Proof.Machine

/-! ### Returned values (11_formats.md) -/

/-- A range as returned: low end, high end, clipped; 255, 255, not clipped for none (R136). -/
def rangeBytes : Option FloorRange → List Byte
  | some r => [byteOf r.low, byteOf r.high, flagByte r.clipped]
  | none => [0xFF, 0xFF, 0]

/-- A mode's code. -/
def Mode.code : Mode → Byte
  | .fixed => 0
  | .followFocus => 1

/-- A notice kind's code. -/
def NoticeKind.code : NoticeKind → Byte
  | .newEntry => 1
  | .escalated => 2
  | .restored => 3
  | .rearmed => 4
  | .focusMoved => 5
  | .tableFull => 6
  | .panelGap => 7
  | .floorMarked => 8

/-- A notice as its 10 bytes; an absent field shows 255 (R171; log 16). -/
def noticeBytes (n : Notice) : List Byte :=
  [n.kind.code, byteOf n.level.val] ++ leHalf n.time ++
    [byteOf ((if n.entry.isSome then 1 else 0) + (if n.floor = .absent then 0 else 2)
        + (if n.context.isSome then 4 else 0) + (if n.panel.isSome then 8 else 0)),
      orNone (n.entry.map (·.val)),
      (match n.floor with
        | .placed f => byteOf f
        | _ => 0xFF),
      contextByte n.context, orNone (n.panel.map (·.val)), 0]

/-- The returned values of a take (R133): the notice, the number left, the Overrun held before. -/
def takenBytes (n : Notice) (q : NoticeQueue) (left : NoticeQueue) : List Byte :=
  noticeBytes n ++ [byteOf left.notices.length, flagByte q.overrun]

/-- The returned values of a brief command: the disposition and the context's brief epoch. -/
def briefBytes (d : Disposition) (epoch : Half) : List Byte := [d.code, 0] ++ leHalf epoch

/-! ### Assign, Move, Withdraw (R121 to R124) -/

/-- One context's record replaced. -/
def setContext (c : CtxNo) (ctx : Context) (s : State) : State :=
  { s with cxm.contexts := s.cxm.contexts.set c ctx }

/-- The owner slot a command names: 0 to 7, of class Gateway in the present map (R121). -/
def gatewaySlot (s : State) (b : Byte) : Option Slot :=
  if h : b.toNat < 8 then if s.pbi.classes[b.toNat] = .gateway then some ⟨b.toNat, h⟩ else none else none

/-- The crew label at bytes 2 to 5 of a record. -/
def commandCrewLabel (cmd : InFlight) : Vector Byte 4 :=
  #v[commandByte cmd 2, commandByte cmd 3, commandByte cmd 4, commandByte cmd 5]

/-- What an Assign Crew that passes its checks names. -/
structure Assignment where
  context : CtxNo
  owner   : Slot
  mode    : Mode
  floor   : Nat
  deriving DecidableEq, Repr

/-- The checks of Assign Crew in their order (R121). -/
def assignChecks (cmd : InFlight) (s : State) : Except CommandReason Assignment :=
  match commandContext cmd with
  | none => .error .badContext
  | some c =>
    if !s.psc.valid then .error .noPlan
    else if s.cxm.contexts[c].assigned then .error .contextInUse
    else
      match gatewaySlot s (commandByte cmd 6) with
      | none => .error .badSlot
      | some owner =>
        match Mode.ofByte (commandByte cmd 7) with
        | none => .error .badCommand
        | some mode =>
          if (commandCrewLabel cmd).toList.all fun b => isTextByte b.toNat then
            match floorOfLabel s (commandLabel cmd 8) with
            | .error r => .error r
            | .ok floor => .ok { context := c, owner := owner, mode := mode, floor := floor }
          else .error .badCommand

/-- The context an Assign Crew makes (R122): the windows clamped to 3, the ceiling to 7, the mask to the ceiling; what the
rule keeps is as the Free context held it. -/
def assignedContext (cmd : InFlight) (a : Assignment) (old : Context) : Context :=
  { old with
    assigned := true
    crewLabel := commandCrewLabel cmd
    owner := some a.owner
    mode := a.mode
    fixedFloor := a.floor
    previousFloor := none
    below := clampWindow (commandByte cmd 12)
    above := clampWindow (commandByte cmd 13)
    ceiling := clampLevel (commandByte cmd 15)
    mask := min (clampLevel (commandByte cmd 14)) (clampLevel (commandByte cmd 15)) }

/-- Assign Crew carried out (R121, R122). -/
def assignCrewBody (cmd : InFlight) (s : State) : State × CommandOutcome :=
  match assignChecks cmd s with
  | .error r => (s, .refused r)
  | .ok a =>
    let ctx := assignedContext cmd a s.cxm.contexts[a.context]
    let s' := setContext a.context ctx s
    (briefRequest a.context .urgent false s',
      .done ([byteOf a.context.val, byteOf a.floor, byteOf ctx.below.val, byteOf ctx.above.val, byteOf ctx.mask.val,
        byteOf ctx.ceiling.val] ++ rangeBytes (currentRange s' a.context)))

/-- The changes a Move Crew names (R123): each present or absent. -/
structure Movement where
  context : CtxNo
  mode    : Option Mode
  floor   : Option Nat
  windows : Option (Fin 4 × Fin 4)
  deriving DecidableEq, Repr

/-- The checks of Move Crew in their order (R123). Byte 2 marks what is present: bit 0 the mode, bit 1 the floor, bit 2 the
windows; its other bits name nothing (log 14). -/
def moveChecks (cmd : InFlight) (s : State) : Except CommandReason Movement :=
  match commandContext cmd with
  | none => .error .badContext
  | some c =>
    let present := (commandByte cmd 2).toNat
    let windows := if present / 4 % 2 = 1 then
      some (clampWindow (commandByte cmd 8), clampWindow (commandByte cmd 9)) else none
    if !s.cxm.contexts[c].assigned then .error .contextFree
    else if present % 8 = 0 then .error .badCommand
    else if present % 2 = 1 ∧ Mode.ofByte (commandByte cmd 3) = none then .error .badCommand
    else
      let mode := if present % 2 = 1 then Mode.ofByte (commandByte cmd 3) else none
      if present / 2 % 2 = 1 then
        match floorOfLabel s (commandLabel cmd 4) with
        | .error r => .error r
        | .ok floor => .ok { context := c, mode := mode, floor := some floor, windows := windows }
      else .ok { context := c, mode := mode, floor := none, windows := windows }

/-- The context after a Move Crew: the changes present, applied together (R123). -/
def movedContext (m : Movement) (old : Context) : Context :=
  { old with
    mode := m.mode.getD old.mode
    fixedFloor := m.floor.getD old.fixedFloor
    previousFloor := if m.floor.isSome then some old.fixedFloor else old.previousFloor
    below := (m.windows.map (·.1)).getD old.below
    above := (m.windows.map (·.2)).getD old.above }

/-- Move Crew carried out (R123). -/
def moveCrewBody (cmd : InFlight) (s : State) : State × CommandOutcome :=
  match moveChecks cmd s with
  | .error r => (s, .refused r)
  | .ok m =>
    let ctx := movedContext m s.cxm.contexts[m.context]
    let s' := setContext m.context ctx s
    (briefRequest m.context .urgent true s',
      .done ([orNone ctx.previousFloor, byteOf ctx.fixedFloor, ctx.mode.code, byteOf ctx.below.val, byteOf ctx.above.val]
        ++ rangeBytes (currentRange s m.context) ++ rangeBytes (currentRange s' m.context)))

/-- The checks of a command that names an Assigned context by number (R124, R141). -/
def assignedByNumber (cmd : InFlight) (s : State) : Except CommandReason CtxNo :=
  match commandContext cmd with
  | none => .error .badContext
  | some c => if s.cxm.contexts[c].assigned then .ok c else .error .contextFree

/-- Step 1 of Withdraw Crew (R124): the BCM drops the context from its queue and abandons a composition for it. -/
def dropFromComposer (c : CtxNo) (s : State) : State :=
  let s' := { s with bcm.urgent := s.bcm.urgent.erase c, bcm.normal := s.bcm.normal.erase c }
  if s.bcm.composing = some c then abandon false s' else s'

/-- Step 2 (R124): the published buffer, when there is one, returns to the pool. -/
def returnPublished (c : CtxNo) (s : State) : State :=
  match s.cxm.contexts[c].published with
  | some b => { s with bcm.pool := s.bcm.pool.set b true }
  | none => s

/-- The floors Searching under a context, in rising order (R31). -/
def searchingFloors (s : State) (c : CtxNo) : List Nat :=
  (List.range 128).filter fun f => (markAt s f).mark == .searching && (markAt s f).context == some c

/-- A context released (R124): steps 1 to 6, the last of them the release of R31. -/
def release (c : CtxNo) (s : State) : State :=
  let freed := setContext c (freeContext s.cxm.contexts[c].briefEpoch) (returnPublished c (dropFromComposer c s))
  (searchingFloors s c).foldl (fun s f => unmark f s) freed

/-- Withdraw Crew carried out (R124). -/
def withdrawCrewBody (cmd : InFlight) (s : State) : State × CommandOutcome :=
  match assignedByNumber cmd s with
  | .error r => (s, .refused r)
  | .ok c =>
    (release c s,
      .done ([byteOf c.val] ++ s.cxm.contexts[c].crewLabel.toList ++
        [orNone (s.cxm.contexts[c].owner.map (·.val)), byteOf s.cxm.contexts[c].queue.notices.length]))

/-! ### Masks and takes (R126, R130, R133, R134) -/

/-- Set Console Mask carried out (R130), on the queue attached to the command. A command taken from a Console slot always
has one (R134). -/
def setConsoleMaskBody (cmd : InFlight) (s : State) : State × CommandOutcome :=
  let mask := clampLevel (commandByte cmd 1)
  match cmd.console with
  | none => (s, .done [byteOf mask.val])
  | some q => ({ s with cxm.consoles := updateAt s.cxm.consoles q fun c => { c with mask := mask } }, .done [byteOf mask.val])

/-- Take Console Notice carried out (R134). -/
def takeConsoleNoticeBody (cmd : InFlight) (s : State) : State × CommandOutcome :=
  match cmd.console with
  | none => (s, .refused .queueEmpty)
  | some q =>
    match takeHead s.cxm.consoles[q].queue with
    | none => (s, .refused .queueEmpty)
    | some (n, left) =>
      ({ s with cxm.consoles := updateAt s.cxm.consoles q fun c => { c with queue := left } },
        .done (takenBytes n s.cxm.consoles[q].queue left))

/-- Take Notice carried out (R133). -/
def takeNoticeBody (slot : Slot) (cmd : InFlight) (s : State) : State × CommandOutcome :=
  match gatewayContext slot cmd s with
  | .error r => (s, .refused r)
  | .ok c =>
    match takeHead s.cxm.contexts[c].queue with
    | none => (s, .refused .queueEmpty)
    | some (n, left) =>
      (setContext c { s.cxm.contexts[c] with queue := left } s, .done (takenBytes n s.cxm.contexts[c].queue left))

/-- Set Mask carried out (R126): the requested value or the ceiling, whichever is lower. -/
def setMaskBody (slot : Slot) (cmd : InFlight) (s : State) : State × CommandOutcome :=
  match gatewayContext slot cmd s with
  | .error r => (s, .refused r)
  | .ok c =>
    let mask := min (clampLevel (commandByte cmd 1)) s.cxm.contexts[c].ceiling
    (setContext c { s.cxm.contexts[c] with mask := mask } s, .done [byteOf mask.val])

/-! ### Request Brief and Brief Now (R140, R141) -/

/-- Request Brief carried out (R140). -/
def requestBriefBody (slot : Slot) (cmd : InFlight) (s : State) : State × CommandOutcome :=
  match gatewayContext slot cmd s with
  | .error r => (s, .refused r)
  | .ok c =>
    if s.psc.valid then
      (briefRequest c .normal false s, .done (briefBytes (disposition s c .normal false) s.cxm.contexts[c].briefEpoch))
    else (s, .refused .noPlan)

/-- Brief Now carried out (R141). -/
def briefNowBody (cmd : InFlight) (s : State) : State × CommandOutcome :=
  match assignedByNumber cmd s with
  | .error r => (s, .refused r)
  | .ok c =>
    (briefRequest c .urgent false s, .done (briefBytes (disposition s c .urgent false) s.cxm.contexts[c].briefEpoch))

/-! ### The commands' meanings -/

/-- ASSIGN_CREW (R121, R122). -/
def execAssignCrew (slot : Slot) (s : State) : Host.Outcome State Fault Refusal :=
  event (carryOut slot .assignCrew assignCrewBody) s

/-- MOVE_CREW (R123). -/
def execMoveCrew (slot : Slot) (s : State) : Host.Outcome State Fault Refusal :=
  event (carryOut slot .moveCrew moveCrewBody) s

/-- WITHDRAW_CREW (R124). -/
def execWithdrawCrew (slot : Slot) (s : State) : Host.Outcome State Fault Refusal :=
  event (carryOut slot .withdrawCrew withdrawCrewBody) s

/-- SET_CONSOLE_MASK (R130). -/
def execSetConsoleMask (slot : Slot) (s : State) : Host.Outcome State Fault Refusal :=
  event (carryOut slot .setConsoleMask setConsoleMaskBody) s

/-- TAKE_CONSOLE_NOTICE (R134). -/
def execTakeConsoleNotice (slot : Slot) (s : State) : Host.Outcome State Fault Refusal :=
  event (carryOut slot .takeConsoleNotice takeConsoleNoticeBody) s

/-- BRIEF_NOW (R141). -/
def execBriefNow (slot : Slot) (s : State) : Host.Outcome State Fault Refusal :=
  event (carryOut slot .briefNow briefNowBody) s

/-- REQUEST_BRIEF (R140). -/
def execRequestBrief (slot : Slot) (s : State) : Host.Outcome State Fault Refusal :=
  event (carryOut slot .requestBrief (requestBriefBody slot)) s

/-- TAKE_NOTICE (R133). -/
def execTakeNotice (slot : Slot) (s : State) : Host.Outcome State Fault Refusal :=
  event (carryOut slot .takeNotice (takeNoticeBody slot)) s

/-- SET_MASK (R126). -/
def execSetMask (slot : Slot) (s : State) : Host.Outcome State Fault Refusal :=
  event (carryOut slot .setMask (setMaskBody slot)) s

end Sys2Proof.Machine
end

