-- ==== Sys2Proof/Machine/Reports.lean ====
section
/-!
DEFINITION. Report Intake and the processing of a report (R48 to R63, R66 to R70, R76, R77): INTAKE_WRITE's judgement and
REPORT_TAKE.
-/

namespace Sys2Proof.Machine

/-! ### The intake window (R49, R51 to R54) -/

/-- Places of the Intake Queue (R52). -/
def intakePlaces : Nat := 32

/-- Occupied places at which panels are told to try again (R53). -/
def panelThreshold : Nat := 28

/-- A report kind code (11_formats.md, Codes). -/
def ReportKind.ofByte (b : Byte) : Option ReportKind :=
  [none, some .alarm, some .restore, some .supervisory, some .supervisoryClear, some .trouble, some .troubleClear,
    some .panelReset].getD b.toNat none

/-- A class hint: 0 to 15, or 255 for none; the outer `none` is a malformed hint (R49). -/
def hintOf (b : Byte) : Option (Option (Fin 16)) :=
  if h : b.toNat < 16 then some (some ⟨b.toNat, h⟩) else if b = 0xFF then some none else none

/-- The report in a panel's 16 bytes, completed with the panel number; none when it is malformed (R49). -/
def parseReport (panel : PanelNo) (data : List Byte) : Option Report :=
  match ReportKind.ofByte (data.getD 1 0), hintOf (data.getD 4 0) with
  | some kind, some hint =>
    if h : (data.getD 2 0).toNat < 16 then
      some { source := .panel panel (data.getD 0 0), kind := kind, loop := ⟨(data.getD 2 0).toNat, h⟩
             address := data.getD 3 0, hint := hint, detection := data.getD 5 0 }
    else none
  | _, _ => none

/-- The RIN's judgement of an arrival from a panel (R51): the termination, and the queue afterwards. -/
def arrival (panel : PanelNo) (data : List Byte) (r : Rin) : Termination × Rin :=
  match parseReport panel data with
  | none => (.fault, r)
  | some report =>
    if panelThreshold ≤ r.queue.length then (.retry, r) else (.done, { r with queue := r.queue ++ [report] })

/-- The RIN's answer to a line-derived offer (R54): Taken, with the report at the tail, or Full. -/
def offerLine (report : Report) (r : Rin) : Bool × Rin :=
  if r.queue.length < intakePlaces then (true, { r with queue := r.queue ++ [report] }) else (false, r)

/-- A validation run of origin Power-on is in progress: the ALE takes no report (R57). -/
def deferring (s : State) : Bool := s.psc.state == .validating && s.psc.origin == .powerOn

/-! ### Processing a report (R66 to R70, R76, R77) -/

/-- The category a report's kind gives (R66). -/
def ReportKind.category : ReportKind → Category
  | .alarm | .restore | .panelReset => .fire
  | .supervisory | .supervisoryClear => .supervisory
  | .trouble | .troubleClear => .trouble

/-- The report's kind is an activation (R48). -/
def ReportKind.activates : ReportKind → Bool
  | .alarm | .supervisory | .trouble => true
  | _ => false

/-- The device key of a report (R66): panel 6 for a line-derived one. -/
def Report.key (r : Report) : DeviceKey :=
  { panel := match r.source with
      | .panel p _ => ⟨p.val, by omega⟩
      | .line => 6
    loop := r.loop
    address := r.address }

/-- The entry an activation report makes (R68), with the class, floor and zone of its lookup (R67). -/
def newEntryOf (p : Psc) (clock : Half) (r : Report) : Entry :=
  { key := r.key
    category := r.kind.category
    cls := ((p.deviceLookup r.key).map (·.cls)).getD (r.hint.getD 0)
    floor := (p.deviceLookup r.key).bind (·.floor)
    zone := (p.deviceLookup r.key).map (·.zone)
    phase := .active
    firstAlarm := clock
    lastChange := clock
    detection := r.detection
    reactivations := 0
    standing := 0
    holder := none
    holdStart := 0 }

/-- An entry made in place `i` (R68): its change number is the place's plus 1. -/
def makeEntry (i : EntryNo) (e : Entry) (a : Ale) : Ale :=
  { a with places := updateAt a.places i fun p => { change := p.change + 1, entry := some e } }

/-- The entry in place `i` evicted (R76): a hold on it ends with it (R84), and the place is freed. -/
def evict (i : EntryNo) (a : Ale) : Ale :=
  let a' := match a.places[i].entry.bind (·.holder) with
    | some slot => endHold slot a
    | none => a
  { a' with places := updateAt a'.places i freePlace }

/-- A report that finds neither a free place nor a Cleared entry counted (R77): in its zone's roll-up count, or in the
unplaced one. -/
def rollUp (zone : Option Nat) (a : Ale) : Ale :=
  match zone with
  | some z => { a with zoneRollups := a.zoneRollups.setIfInBounds z (saturatingSucc8 (a.zoneRollups[z]?.getD 0)) }
  | none => { a with unplacedRollup := saturatingSucc8 a.unplacedRollup }

/-- The effect of an activation on an entry found (R69), by its phase. -/
def activate (clock : Half) (detection : Byte) (e : Entry) : Entry :=
  match e.phase with
  | .active | .acknowledged => { e with lastChange := clock, detection := detection }
  | .restored | .discounted =>
    { e with phase := .active, reactivations := saturatingSucc8 e.reactivations, lastChange := clock
             detection := detection }
  | .cleared =>
    { e with phase := .active, firstAlarm := clock, lastChange := clock, reactivations := 0, detection := detection }

/-- The notice an activation posts for an entry found in a phase (R69). -/
def activationNotice : Phase → Option NoticeKind
  | .active | .acknowledged => none
  | .restored | .discounted => some .rearmed
  | .cleared => some .newEntry

/-- The effect of a restoration on an entry (R70). -/
def restoreEntry (clock : Half) (e : Entry) : Entry := { e with phase := .restored, lastChange := clock }

/-- An entry is Active or Acknowledged. -/
def Phase.standingLive : Phase → Bool
  | .active | .acknowledged => true
  | _ => false

/-- An event that changes nothing but a panel's gap flag hands on its Panel Gap notice alone (R61, R70, R73). -/
def gapOnly (gap : Option PanelNo) (s : State) : State := offerAll (gap.map (gapNotice s.ale)).toList s

/-- An activation that finds no entry (R68): it takes the lowest free place, or the place of an evicted entry (R76), or is
rolled up (R77). -/
def activateNew (before : Ale) (gap : Option PanelNo) (r : Report) (s : State) : State :=
  let e := newEntryOf s.psc s.ale.clock r
  match s.ale.freePlaceNo with
  | some i => completeEvent before { noNews with gap := gap, own := [(.newEntry, i)] } { s with ale := makeEntry i e s.ale }
  | none =>
    match s.ale.evictee with
    | some i =>
      completeEvent before { noNews with gap := gap, own := [(.newEntry, i)] }
        { s with ale := makeEntry i e (evict i s.ale) }
    | none =>
      handOn before { noNews with gap := gap, rolledUp := true, floors := (e.zone.bind s.psc.zoneFloor).toList }
        { s with ale := rollUp e.zone s.ale }

/-- A report processed against the table (section 5.2). -/
def processReport (before : Ale) (gap : Option PanelNo) (r : Report) (s : State) : State :=
  match s.ale.findEntry r.key r.kind.category with
  | none => if r.kind.activates then activateNew before gap r s else gapOnly gap s
  | some (i, e) =>
    if r.kind.activates then
      completeEvent before
        { noNews with gap := gap, own := ((activationNotice e.phase).map fun k => (k, i)).toList }
        { s with ale := changeEntry i (activate s.ale.clock r.detection) s.ale }
    else if e.phase.standingLive then
      completeEvent before { noNews with gap := gap, own := [(.restored, i)] }
        { s with ale := changeEntry i (restoreEntry s.ale.clock) s.ale }
    else gapOnly gap s

/-! ### Panel sequence tracking (R58 to R62) -/

/-- The entries a Panel Reset moves (R62, step 2): those of panel `p` in Active or Acknowledged, in rising number. -/
def resetEntries (p : PanelNo) (a : Ale) : List EntryNo :=
  (a.inUse.filter fun x => x.2.key.panel.val == p.val && x.2.phase.standingLive).map (·.1)

/-- The table with the entries of a Panel Reset restored. -/
def restoreAll (clock : Half) (moved : List EntryNo) (a : Ale) : Ale :=
  moved.foldl (fun a i => changeEntry i (restoreEntry clock) a) a

/-- A panel's record after a report is processed: the last sequence, and the gap flag. -/
def recordPanel (p : PanelNo) (last : Byte) (gap : Bool) (a : Ale) : Ale :=
  { a with panels := a.panels.set p { last := some last, gap := gap } }

/-- The outcome of the sequence check (R59). -/
inductive SequenceOutcome where
  | processed | duplicate | gap
  deriving DecidableEq, Repr

/-- The sequence check of a report against the panel's last sequence (R59). -/
def sequenceCheck (last : Option Byte) (sequence : Byte) : SequenceOutcome :=
  match last with
  | none => .processed
  | some s => if sequence = s then .duplicate else if sequence = s + 1 then .processed else .gap

/-- A Panel Reset that is no duplicate (R62). -/
def panelReset (before : Ale) (p : PanelNo) (sequence : Byte) (s : State) : State :=
  let recorded := { s with ale := recordPanel p sequence false s.ale }
  let moved := resetEntries p s.ale
  if moved.isEmpty then recorded
  else
    completeEvent before { noNews with own := moved.map fun i => (.restored, i) }
      { recorded with ale := restoreAll s.ale.clock moved recorded.ale }

/-- A report taken from the head of the queue, as one event: the sequence check of R59 to R63, then its processing. A
line-derived Panel Reset does not exist (R63) and has no effect (log 25). -/
def takeReport (r : Report) (s : State) : State :=
  match r.source with
  | .line => if r.kind = .panelReset then s else processReport s.ale none r s
  | .panel p sequence =>
    match r.kind, sequenceCheck s.ale.panels[p].last sequence with
    | _, .duplicate => s
    | .panelReset, _ => panelReset s.ale p sequence s
    | _, .processed => processReport s.ale none r { s with ale := recordPanel p sequence s.ale.panels[p].gap s.ale }
    | _, .gap => processReport s.ale (some p) r { s with ale := recordPanel p sequence true s.ale }

/-- REPORT_TAKE (R55): the ALE takes the head report and processes it. It waits while the queue is empty, and during the
deferral of R57. -/
def execReportTake (s : State) : Host.Outcome State Fault Refusal :=
  event (fun s =>
    if deferring s then s
    else
      match s.rin.queue with
      | [] => s
      | r :: rest => takeReport r { s with rin.queue := rest }) s

end Sys2Proof.Machine
end

