-- ==== Sys2Proof/Machine/Lines.lean ====
section
/-!
DEFINITION. Line Monitor and Lift Position (R106 to R117): LINE_SCAN and UNLATCH_LINE.
-/

namespace Sys2Proof.Machine

/-! ### Setting the LMN (R108) -/

/-- The line of contact record `k`. -/
def contactLine (k : Fin 16) : Fin 32 := ⟨16 + k.val, by omega⟩

/-- A contact kind code (R6). -/
def ContactKind.ofCode (n : Nat) : ContactKind :=
  if n = 1 then .alarmContact else if n = 2 then .supervisoryContact else .unused

/-- A capture code (R6). -/
def Capture.ofCode (n : Nat) : Capture := if n = 1 then .latched else .follow

/-- A contact when the plan becomes Valid (R108, row 2). -/
def contactFromPlan (m : Memory) (line : Nat) : Contact :=
  { kind := ContactKind.ofCode (lineKind m line)
    tableCapture := Capture.ofCode (lineCapture m line)
    capture := Capture.ofCode (lineCapture m line)
    accepted := .normal, count := 0, pending := none }

/-- The line whose entry holds a lift's settings: 0 for Lift A, 8 for Lift B (R106). -/
def liftLine (k : Fin 2) : Nat := 8 * k.val

/-- A lift when the plan becomes Valid (R108, row 2). -/
def liftFromPlan (m : Memory) (line : Nat) : Lift :=
  { liftPowerOn with
    enabled := m.u8 (lineEntryAt line + 1) == 1
    base := m.read (lineEntryAt line + 2)
    maxStep := m.read (lineEntryAt line + 3) }

/-- The LMN when the plan becomes Valid; the last samples are kept (R108, row 2). -/
def lmnFromPlan (m : Memory) (l : Lmn) : Lmn :=
  { l with
    contacts := tabulate fun k => contactFromPlan m (contactLine k)
    lifts := tabulate fun k => liftFromPlan m (liftLine k) }

/-- The LMN when the plan leaves Valid (R108, row 3); the last samples are kept, and so are the lifts' base and max step,
which the row does not name (DEDUCED, log 4). -/
def lmnWithoutPlan (l : Lmn) : Lmn :=
  { l with
    contacts := Vector.replicate 16 unusedContact
    lifts := tabulate fun k => { liftPowerOn with base := l.lifts[k].base, maxStep := l.lifts[k].maxStep } }

/-! ### Sampling (R106) -/

/-- The sample of every line: its level, turned over by an Inverted polarity of the line table in force. -/
def sampleLines (p : Psc) (levels : BitVec 32) : Vector Bool 32 :=
  tabulate fun n => levels.getLsbD n.val ^^ (p.valid && lineInverted p.planSpace n.val)

/-! ### Contacts (R110, R111) -/

/-- The report of a contact's change to active. -/
def activationReport : ContactKind → ReportKind
  | .supervisoryContact => .supervisory
  | _ => .alarm

/-- The report of a contact's change to Normal. -/
def clearingReport : ContactKind → ReportKind
  | .supervisoryContact => .supervisoryClear
  | _ => .restore

/-- The change to active accepted (R111). -/
def acceptActive (c : Contact) : Contact :=
  { c with
    accepted := if c.capture = .latched then .latchedActive else .active
    count := 0
    pending := some (activationReport c.kind) }

/-- The change to Normal accepted (R111): the effective capture takes the table capture again. -/
def acceptNormal (c : Contact) : Contact :=
  { c with accepted := .normal, capture := c.tableCapture, count := 0, pending := some (clearingReport c.kind) }

/-- A contact debounced by one sample (R110); a contact of kind Unused is left as it is (R109). -/
def debounce (sample : Bool) (c : Contact) : Contact :=
  if c.kind = .unused then c
  else
    match c.accepted, sample with
    | .normal, false | .active, true | .latchedActive, _ => { c with count := 0 }
    | .normal, true => if c.count = 2 then acceptActive c else { c with count := c.count + 1 }
    | .active, false => if c.count = 2 then acceptNormal c else { c with count := c.count + 1 }

/-! ### Lifts (R115 to R117) -/

/-- The Gray decoding of R116: b6 = g6, and bi = b(i+1) XOR gi. -/
def grayDecode (g : BitVec 7) : BitVec 7 :=
  let b6 := g.getLsbD 6
  let b5 := b6 ^^ g.getLsbD 5
  let b4 := b5 ^^ g.getLsbD 4
  let b3 := b4 ^^ g.getLsbD 3
  let b2 := b3 ^^ g.getLsbD 2
  let b1 := b2 ^^ g.getLsbD 1
  let b0 := b1 ^^ g.getLsbD 0
  BitVec.ofNat 7 (64 * b6.toNat + 32 * b5.toNat + 16 * b4.toNat + 8 * b3.toNat + 4 * b2.toNat + 2 * b1.toNat + b0.toNat)

/-- The shown floor moved towards a candidate by at most the max step (R117). -/
def stepTowards (shown candidate maxStep : Nat) : Nat :=
  if shown ≤ candidate then min candidate (shown + maxStep) else max candidate (shown - maxStep)

/-- The position of a lift judged against the building and the shown floor (R117), from its decoded value (R116). -/
def judgePosition (floors : Nat) (value : BitVec 7) (l : Lift) : Lift :=
  let candidate : Int := (value.toNat : Int) - l.base.toNat
  let l := { l with decoded := some value }
  if candidate < 0 ∨ (floors : Int) ≤ candidate then { l with implausible := true }
  else
    let c := candidate.toNat
    match l.shown with
    | none => { l with shown := some c, implausible := false, tracking := false }
    | some shown =>
      if max c shown - min c shown ≤ l.maxStep.toNat then
        { l with shown := some c, implausible := false, tracking := false }
      else { l with shown := some (stepTowards shown c l.maxStep.toNat), implausible := false, tracking := true }

/-- A lift examined at a scan (R115 to R117): its fault line first, then, when no fault stands, its position. A disabled
lift is not examined (R114). -/
def examineLift (floors : Nat) (faultSample : Bool) (gray : BitVec 7) (l : Lift) : Lift :=
  if l.enabled then
    if faultSample then
      if l.fault then l else { l with fault := true, pending := some .trouble }
    else
      judgePosition floors (grayDecode gray)
        (if l.fault then { l with fault := false, pending := some .troubleClear } else l)
  else l

/-- The seven Gray bits of a lift, its first line carrying g0 (R106). -/
def grayBits (samples : Vector Bool 32) (line : Nat) : BitVec 7 :=
  BitVec.ofNat 7 (((List.range 7).map fun i => (samples[line + i]?.getD false).toNat * 2 ^ i).sum)

/-! ### The scan (R109, R112) -/

/-- Parts 1 to 3 of a scan: samples, contacts, lifts. -/
def scanLines (p : Psc) (levels : BitVec 32) (l : Lmn) : Lmn :=
  let samples := sampleLines p levels
  { samples := samples
    contacts := tabulate fun k => debounce samples[contactLine k] l.contacts[k]
    lifts := tabulate fun k =>
      examineLift (headerFloors p.planSpace) (samples[liftLine k + 7]?.getD false) (grayBits samples (liftLine k)) l.lifts[k] }

/-- A line-derived report (R111, R115): detection level 0. -/
def lineReport (kind : ReportKind) (loop : Fin 16) (address : Nat) (hint : Fin 16) : Report :=
  { source := .line, kind := kind, loop := loop, address := byteOf address, hint := some hint, detection := 0 }

/-- A pending report offered to the RIN (R54): on Taken it is cleared, on Full it stays pending. -/
def offerPending (report : Report) (clear : Lmn → Lmn) (s : State) : State :=
  if (offerLine report s.rin).1 then { s with rin := (offerLine report s.rin).2, lmn := clear s.lmn } else s

/-- A lift's pending report offered (R115): loop 1, address 0 or 1, class hint 13. -/
def offerLift (s : State) (k : Fin 2) : State :=
  match s.lmn.lifts[k].pending with
  | none => s
  | some kind =>
    offerPending (lineReport kind 1 k.val 13)
      (fun l => { l with lifts := updateAt l.lifts k fun r => { r with pending := none } }) s

/-- A contact's pending report offered (R111): loop 0, its line as address, the class of its line table entry as hint. -/
def offerContact (s : State) (k : Fin 16) : State :=
  match s.lmn.contacts[k].pending with
  | none => s
  | some kind =>
    offerPending (lineReport kind 0 (contactLine k) (classOf (lineClass s.psc.planSpace (contactLine k))))
      (fun l => { l with contacts := updateAt l.contacts k fun r => { r with pending := none } }) s

/-- Part 4 of a scan (R112): Lift A's report, Lift B's, then the contacts' in rising line number. -/
def offerReports (s : State) : State :=
  (List.finRange 16).foldl offerContact ((List.finRange 2).foldl offerLift s)

/-- LINE_SCAN (R109). -/
def execLineScan (levels : BitVec 32) (s : State) : Host.Outcome State Fault Refusal :=
  event (fun s => offerReports { s with lmn := scanLines s.psc levels s.lmn }) s

/-! ### Unlatch Line (R113) -/

/-- The contact record of a line number, for lines 16 to 31. -/
def contactOf (line : Byte) : Option (Fin 16) :=
  if h : 16 ≤ line.toNat ∧ line.toNat ≤ 31 then some ⟨line.toNat - 16, by omega⟩ else none

/-- A Latched Active contact unlatched, by its last sample (R113). -/
def unlatched (sample : Bool) (c : Contact) : Contact :=
  if sample then { c with accepted := .active, capture := .follow, count := 0 }
  else acceptNormal c

/-- An accepted state's code. -/
def Accepted.code : Accepted → Byte
  | .normal => 0
  | .active => 1
  | .latchedActive => 2

/-- A report kind's code. -/
def ReportKind.code : ReportKind → Byte
  | .alarm => 1
  | .restore => 2
  | .supervisory => 3
  | .supervisoryClear => 4
  | .trouble => 5
  | .troubleClear => 6
  | .panelReset => 7

/-- A pending report's kind code in a 1-byte field whose layout does not say otherwise: 255 for none (R171). The line state
record, whose layout says 0 for none, has its own (`linePending`). -/
def pendingCode (k : Option ReportKind) : Byte := (k.map ReportKind.code).getD 0xFF

/-- Unlatch Line carried out (R113). -/
def unlatchLineBody (cmd : InFlight) (s : State) : State × CommandOutcome :=
  match contactOf (commandByte cmd 1) with
  | none => (s, .refused .badLine)
  | some k =>
    let c := s.lmn.contacts[k]
    if c.kind = .unused then (s, .refused .badLine)
    else if c.accepted ≠ .latchedActive then (s, .refused .wrongState)
    else
      let c' := unlatched s.lmn.samples[contactLine k] c
      ({ s with lmn.contacts := s.lmn.contacts.set k c' },
        .done [commandByte cmd 1, c.accepted.code, c'.accepted.code, pendingCode c'.pending])

/-- UNLATCH_LINE (R113). -/
def execUnlatchLine (slot : Slot) (s : State) : Host.Outcome State Fault Refusal :=
  event (carryOut slot .unlatchLine unlatchLineBody) s

end Sys2Proof.Machine
end

