-- ==== Sys2Proof/Machine/Brief.lean ====
section
/-!
DEFINITION. The Brief Composer's own events (R142 to R146, R148, R151 to R153): COMPOSITION_START, WALK_STEP and SEAL, with
the items' layouts of 11_formats.md.
-/

namespace Sys2Proof.Machine

/-! ### Sizes (R145) -/

/-- Bytes of a brief buffer. -/
def bufferBytes : Nat := 8192

/-- Bytes of a brief's header. -/
def headerBytes : Nat := 32

/-- Bytes of a brief's trailer. -/
def trailerBytes : Nat := 16

/-- The offset a Floor Head, Feature, Zone or Entry item must end by: 8192 less the Lift items and the trailer. -/
def itemLimit : Nat := 8152

/-! ### What the walk reads -/

/-- The feature list of a floor: its elements' plan offsets, in list order. -/
def floorFeatures (p : Psc) (floor : Nat) : List Nat :=
  match p.floorRecord floor with
  | none => []
  | some loc =>
    ((resolve p.planSpace .featureList (pointerAt p.planSpace (loc + 16))).loc?.map
      (listElements p.planSpace .featureElement)).getD []

/-- The zone list of a floor: its elements' plan offsets, in list order. -/
def floorZones (p : Psc) (floor : Nat) : List Nat :=
  match p.floorRecord floor with
  | none => []
  | some loc =>
    ((resolve p.planSpace .zoneList (pointerAt p.planSpace (loc + 12))).loc?.map
      (listElements p.planSpace .zoneElement)).getD []

/-- A phase's code; the lower the code, the worse the phase (R144). -/
def Phase.code : Phase → Nat
  | .active => 1
  | .acknowledged => 2
  | .restored => 3
  | .discounted => 4
  | .cleared => 5

/-- A category's code. -/
def Category.code : Category → Nat
  | .fire => 1
  | .supervisory => 2
  | .trouble => 3

/-- The worst phase of a set of entries as its code, 0 for an empty set (R144). -/
def worstPhase (es : List Entry) : Byte :=
  match es with
  | [] => 0
  | _ => byteOf (es.foldl (fun w e => min w e.phase.code) 5)

/-- The in-use entries of a zone, in Alarm List order (R143). -/
def zoneEntries (a : Ale) (zone : Nat) : List (EntryNo × Entry) :=
  a.alarmList.filterMap fun i => a.places[i].entry.bind fun e => if e.zone = some zone then some (i, e) else none

/-- The in-use entries of a floor. -/
def floorEntries (a : Ale) (floor : Nat) : List Entry := (a.inUse.map (·.2)).filter fun e => e.floor == some floor

/-- The in-use unplaced entries. -/
def unplacedEntries (a : Ale) : List Entry := (a.inUse.map (·.2)).filter fun e => e.floor == none

/-! ### Item layouts (R144, 11_formats.md) -/

/-- A floor label's 4 bytes; the empty label is four bytes of 0xFF (R171). -/
def labelBytes : Option FloorLabel → List Byte
  | some l => [l.prefixCode, l.hundreds, l.tens, l.units]
  | none => [0xFF, 0xFF, 0xFF, 0xFF]

/-- A Floor Head item. -/
def floorHeadItem (s : State) (floor : Nat) : List Byte :=
  let m := markAt s floor
  [1, 24, byteOf floor, ((s.psc.floorRecord floor).map fun loc => s.psc.planSpace.read (loc + 1)).getD 0]
    ++ labelBytes (s.psc.labelOf floor) ++ [m.mark.code, contextByte m.context] ++ leHalf m.time
    ++ [worstPhase (floorEntries s.ale floor)] ++ zeros 3
    ++ (match s.psc.floorRecord floor with
        | some loc => noteLocation s.psc.planSpace .floorNote (loc + 20)
        | none => zeros 4)
    ++ zeros 4

/-- A Feature item, of the Feature record at `loc`. -/
def featureItem (s : State) (loc : Nat) : List Byte :=
  [2, 20] ++ s.psc.planSpace.readAll (loc + 1) 3 ++ [0] ++ s.psc.planSpace.readAll (loc + 4) 4 ++ zeros 2
    ++ noteLocation s.psc.planSpace .featureNote (loc + 8) ++ zeros 4

/-- A zone's roll-up count. -/
def zoneRollup (a : Ale) (zone : Nat) : Byte := a.zoneRollups[zone]?.getD 0

/-- A Zone item. -/
def zoneItem (s : State) (zone : Nat) : List Byte :=
  [3, 16] ++ le16 zone ++ [worstPhase ((zoneEntries s.ale zone).map (·.2)), zoneRollup s.ale zone]
    ++ le16 (zoneEntries s.ale zone).length ++ zeros 8

/-- A detection level in an Entry item (R144): absent shows 255, by R171, since the item's layout says nothing else (DEDUCED,
unsafe, log 30: a level of 255 shows the same byte). -/
def itemDetection (level : Byte) : Byte := if level = 0 then 0xFF else level

/-- An Entry item. Its note is its Device record's: none for an unmapped or panel-6 entry. -/
def entryItem (s : State) (i : EntryNo) (e : Entry) : List Byte :=
  [4, 24, byteOf i.val, byteOf e.key.panel.val, byteOf e.key.loop.val, e.key.address, byteOf e.category.code,
    byteOf e.cls.val, byteOf e.phase.code, e.standing, byteOf e.level.val, e.reactivations]
    ++ leHalf e.firstAlarm ++ leHalf e.lastChange ++ [itemDetection e.detection] ++ zeros 3
    ++ (match s.psc.deviceRecord e.key with
        | some loc => noteLocation s.psc.planSpace .deviceNote (loc + 12)
        | none => zeros 4)

/-- A lift's flags as one byte: bit 0 Fault, bit 1 Implausible, bit 2 Tracking. -/
def liftFlags (l : Lift) : Byte :=
  byteOf ((if l.fault then 1 else 0) + (if l.implausible then 2 else 0) + (if l.tracking then 4 else 0))

/-- A Lift item. -/
def liftItem (s : State) (k : Fin 2) : List Byte :=
  [5, 12, byteOf k.val, flagByte s.lmn.lifts[k].enabled, orNone s.lmn.lifts[k].shown, liftFlags s.lmn.lifts[k]] ++ zeros 6

/-! ### The composition under way -/

/-- The composition replaced. -/
def setComposition (c : Composition) (s : State) : State := { s with bcm.composition := some c }

/-- Bytes stored into the composition's working buffer. -/
def storeBytes (c : Composition) (off : Nat) (bytes : List Byte) (s : State) : State :=
  { s with bcm.buffers := updateAt s.bcm.buffers c.buffer fun m => m.writeAll off bytes }

/-- An item that is written: its bytes, and the walk moved past them. -/
def writeItem (c : Composition) (bytes : List Byte) (sw : State × Walk) : State × Walk :=
  (storeBytes c sw.2.offset bytes sw.1,
    { sw.2 with offset := sw.2.offset + bytes.length, items := sw.2.items + 1 })

/-- An item tested for space (R145): written when it fits, otherwise omitted and counted. -/
def putItem (c : Composition) (bytes : List Byte) (sw : State × Walk) : State × Walk :=
  if sw.2.offset + bytes.length ≤ itemLimit then writeItem c bytes sw
  else (sw.1, { sw.2 with omitted := min 65535 (sw.2.omitted + 1) })

/-! ### COMPOSITION_START (R142) -/

/-- The head of the composer request queue: the oldest Urgent request, or the oldest Normal one (R137). -/
def Bcm.head (b : Bcm) : Option CtxNo := b.urgent.head?.or b.normal.head?

/-- The lowest-numbered buffer of the pool (R151). -/
def Bcm.lowestFree (b : Bcm) : Option BufNo := (List.finRange 33).find? fun k => b.pool[k]

/-- The start of a walk over a range (R143, R145). -/
def newWalk (r : FloorRange) : Walk :=
  { pos := .floorHead r.low, offset := headerBytes, items := 0, omitted := 0, flags := noFlags, unplacedRollup := 0
    unplacedEntries := 0 }

/-- A composition starts (R142): the head request leaves the queue, the lowest buffer leaves the pool, and the snapshot is
taken. -/
def startComposition (s : State) : State :=
  match s.bcm.composition, s.bcm.head, s.bcm.lowestFree with
  | none, some c, some b =>
    match currentRange s c with
    | none => s
    | some r =>
      { s with
        bcm.urgent := s.bcm.urgent.tail
        bcm.normal := if s.bcm.urgent.isEmpty then s.bcm.normal.tail else s.bcm.normal
        bcm.pool := s.bcm.pool.set b false
        bcm.composition := some
          { context := c, buffer := b, range := r, mode := s.cxm.contexts[c].mode, restarts := 0, disturbed := false
            phase := .walking, walk := newWalk r } }
  | _, _, _ => s

/-- COMPOSITION_START (R142): an Idle composer with a non-empty queue starts the composition of its head. -/
def execCompositionStart (s : State) : Host.Outcome State Fault Refusal := event startComposition s

/-! ### WALK_STEP (R143, R148) -/

/-- The step after a floor's last: the next floor of the snapshot, or Lift A. -/
def afterFloor (c : Composition) (floor : Nat) : WalkPos :=
  if floor < c.range.high then .floorHead (floor + 1) else .lift 0

/-- The step that stands at element `j` of a floor's zone list, or after the list's end. -/
def zoneStep (p : Psc) (c : Composition) (floor j : Nat) : WalkPos :=
  if j < (floorZones p floor).length then .zone floor j else afterFloor c floor

/-- The step that stands at element `j` of a floor's feature list, or after the list's end. -/
def featureStep (p : Psc) (c : Composition) (floor j : Nat) : WalkPos :=
  if j < (floorFeatures p floor).length then .feature floor j else zoneStep p c floor 0

/-- The Entry items that follow a Zone item, one after another (R143). -/
def putEntries (c : Composition) (floor : Nat) (es : List (EntryNo × Entry)) (sw : State × Walk) : State × Walk :=
  es.foldl (fun sw x =>
    putItem c (entryItem sw.1 x.1 x.2)
      (sw.1, { sw.2 with flags := sw.2.flags.meetEntry (floor == c.range.low) x.2 })) sw

/-- The composition judged at the completion of a walk (R148): Sealing, or a new walk into the same buffer. -/
def completeWalk (c : Composition) : Composition :=
  if c.disturbed ∧ c.restarts ≠ 2 then
    { c with restarts := c.restarts + 1, disturbed := false, walk := newWalk c.range }
  else { c with phase := .sealing }

/-- One step of a walk (R143): the state with the item written, and the composition moved on. -/
def walkStep (c : Composition) (s : State) : State :=
  let go (sw : State × Walk) (pos : WalkPos) : State := setComposition { c with walk := { sw.2 with pos := pos } } sw.1
  match c.walk.pos with
  | .floorHead f =>
    go (putItem c (floorHeadItem s f) (s, { c.walk with flags := c.walk.flags.meetFloor (markAt s f).mark }))
      (featureStep s.psc c f 0)
  | .feature f j =>
    match (floorFeatures s.psc f)[j]? with
    | none => go (s, c.walk) (featureStep s.psc c f (j + 1))
    | some loc =>
      go (putItem c (featureItem s loc) (s, { c.walk with flags := c.walk.flags.meetFeature (s.psc.planSpace.u8 (loc + 1)) }))
        (featureStep s.psc c f (j + 1))
  | .zone f j =>
    match (floorZones s.psc f)[j]? with
    | none => go (s, c.walk) (zoneStep s.psc c f (j + 1))
    | some loc =>
      let zone := s.psc.planSpace.u16 (loc + 2)
      go (putEntries c f (zoneEntries s.ale zone) (putItem c (zoneItem s zone) (s, c.walk)))
        (zoneStep s.psc c f (j + 1))
  | .lift k => go (writeItem c (liftItem s k) (s, c.walk)) (if k = 0 then .lift 1 else .unplaced)
  | .unplaced =>
    setComposition
      (completeWalk { c with walk := { c.walk with unplacedRollup := s.ale.unplacedRollup
                                                   unplacedEntries := (unplacedEntries s.ale).length } }) s

/-- WALK_STEP (R143): one step of the walk under way. -/
def execWalkStep (s : State) : Host.Outcome State Fault Refusal :=
  event (fun s =>
    match s.bcm.composition with
    | none => s
    | some c => if c.phase = .walking then walkStep c s else s) s

/-! ### SEAL (R152, R153) -/

/-- The brief's length: the items written and the Lift items, then the trailer (R145). -/
def briefLength (c : Composition) : Nat := c.walk.offset + trailerBytes

/-- The header at the seal (R152). -/
def briefHeader (s : State) (c : Composition) (epoch : Half) : List Byte :=
  leHalf epoch ++ [byteOf c.context.val, c.mode.code] ++ s.cxm.contexts[c.context].crewLabel.toList
    ++ leHalf (headerRevision s.psc.planSpace) ++ le16 (briefLength c) ++ [byteOf c.range.low, byteOf c.range.high]
    ++ le16 (summaryBits c.walk.flags c.range.clipped c.disturbed (c.walk.omitted != 0) s.ale.focus.isNone)
    ++ le16 c.walk.items ++ le16 c.walk.omitted ++ [byteOf c.restarts.val, orNone s.ale.focus] ++ leHalf s.ale.clock
    ++ zeros 8

/-- The trailer at the seal (R152). -/
def briefTrailer (c : Composition) (epoch : Half) : List Byte :=
  leHalf epoch ++ le16 (briefLength c) ++ [c.walk.unplacedRollup, 0] ++ le16 c.walk.unplacedEntries ++ zeros 8

/-- The seal (R153): header and trailer written with the new epoch, the buffer published and the earlier one returned, Fresh
set, the context requeued Normal when Unsettled, the composer Idle. -/
def sealBrief (c : Composition) (s : State) : State :=
  let old := s.cxm.contexts[c.context]
  let epoch := old.briefEpoch + 1
  let framed :=
    storeBytes c c.walk.offset (briefTrailer c epoch) (storeBytes c 0 (briefHeader s c epoch) s)
  let published := setContext c.context { old with briefEpoch := epoch, published := some c.buffer, fresh := true } framed
  let returned := match old.published with
    | some b => { published with bcm.pool := published.bcm.pool.set b true }
    | none => published
  { returned with
    bcm.normal := if c.disturbed then returned.bcm.normal ++ [c.context] else returned.bcm.normal
    bcm.composition := none }

/-- SEAL (R153): the composition in Sealing ends. -/
def execSeal (s : State) : Host.Outcome State Fault Refusal :=
  event (fun s =>
    match s.bcm.composition with
    | none => s
    | some c => if c.phase = .sealing then sealBrief c s else s) s

end Sys2Proof.Machine
end

