-- ==== Sys2Proof/Machine/Validation.lean ====
section
/-!
DEFINITION. The seven stages of a validation run: what each examines and the first failure it finds (R20, R41, R42, and
the ranges of R3 to R6, R10 to R16). A failure names its reason and the plan offset of the offending record or entry.
-/

namespace Sys2Proof.Machine

/-- What a stage records when it finds a failure (R43). -/
structure PlanFailure where
  reason : PlanReason
  offset : Nat
  deriving DecidableEq, Repr

/-- A range fault of the record at `loc`, when `bad`. -/
def rangeFault (bad : Bool) (loc : Nat) : Option PlanFailure :=
  if bad then some { reason := .outOfRange, offset := loc } else none

/-- A fault of the record at `loc` under another name, when `bad`. -/
def faultOf (bad : Bool) (reason : PlanReason) (loc : Nat) : Option PlanFailure :=
  if bad then some { reason := reason, offset := loc } else none

/-- One of the `n` bytes from `a` on is no text character (R3). -/
def badText (m : Memory) (a n : Nat) : Bool := (List.range n).any fun k => !isTextByte (m.u8 (a + k))

/-! ### Stages 1 to 3: the header and the plan as a whole (R41) -/

/-- Stage 1: the format number is 3. -/
def stageFormat (m : Memory) : Option PlanFailure := rangeFault (m.u16 0 != 3) 0

/-- Stage 2: every header field but the line table and the three pointers. Every breach is OutOfRange at offset 0. -/
def stageHeader (m : Memory) (loader : Slot) : Option PlanFailure :=
  rangeFault
    (badText m 4 24
      || headerFloors m < 1 || 128 < headerFloors m
      || headerFloors m ≤ headerAccessFloor m
      || headerZones m < 1 || 2048 < headerZones m
      || 24576 < m.u16 32
      || 4096 < m.u16 34
      || headerLength m % 4 != 0 || headerLength m < 512 || 2097152 < headerLength m
      || (List.finRange 8).any (fun slot => slot != loader && !slotEntryOk m loader slot)
      || (List.range 6).any (fun k => decide (m.u8 (52 + k) < 0x40) || decide (0x5F < m.u8 (52 + k)))
      || (List.range 16).any (fun c => decide (160 < headerWeight m c))) 0

/-- The sum of stage 3: every 32-bit word below the plan length, modulo 2³², the check word counted as 0. A word is the
sum of its bytes at their places, and an unlisted byte is 0, so the sum runs over the listed bytes. -/
def planSum (m : Memory) : Nat :=
  (m.foldl (fun acc c =>
    if c.1 < headerLength m ∧ ¬(40 ≤ c.1 ∧ c.1 < 44) then acc + c.2.toNat * 256 ^ (c.1 % 4) else acc) 0) % 2 ^ 32

/-- Stage 3: the sum equals the check word. -/
def stageChecksum (m : Memory) : Option PlanFailure := faultOf (planSum m != m.u32 40) .badChecksum 0

/-! ### Stage 4: labels (R10, R20, R42) -/

/-- Entry `i` of the Floor Label Table at `base`: its ranges, then its uniqueness among the entries below it. -/
def labelFailure (m : Memory) (base i : Nat) : Option PlanFailure :=
  (rangeFault (!(labelAt m (base + 4 * i)).inRange) (base + 4 * i)).or
    (faultOf ((List.range i).any fun j => labelAt m (base + 4 * j) == labelAt m (base + 4 * i)) .duplicateLabel
      (base + 4 * i))

/-- Stage 4. -/
def stageLabels (m : Memory) : Option PlanFailure :=
  match resolve m .labelTable (pointerAt m 76) with
  | .failed r => some { reason := r, offset := 0 }
  | .absent => none
  | .found base => (List.range (headerFloors m)).findSome? (labelFailure m base)

/-! ### Stage 5: floors (R11 to R13, R16, R42) -/

/-- The Note record at `loc` (R16). -/
def noteFailure (m : Memory) (loc : Nat) : Option PlanFailure :=
  rangeFault (m.u8 (loc + 1) == 0 || decide (240 < m.u8 (loc + 1)) || badText m (loc + 4) (m.u8 (loc + 1))) loc

/-- The note of the record at `owner`, whose note pointer stands at `place`. -/
def noteOf (m : Memory) (field : PointerField) (owner place : Nat) : Option PlanFailure :=
  match resolve m field (pointerAt m place) with
  | .failed r => some { reason := r, offset := owner }
  | .absent => none
  | .found loc => noteFailure m loc

/-- The fields of the Floor record at `loc`, reached by Floor Table entry `floor`, in layout order (R11); `labels` is the
Floor Label Table. A label digit out of range is named before the mismatch: DEDUCED (log 15). -/
def floorFailure (m : Memory) (labels loc floor : Nat) : Option PlanFailure :=
  (rangeFault (5 < m.u8 (loc + 1)) loc).or <|
  (rangeFault (headerFloors m ≤ m.u8 (loc + 2)) loc).or <|
  (faultOf (m.u8 (loc + 2) != floor) .indexMismatch loc).or <|
  (rangeFault (!(labelAt m (loc + 4)).inRange) loc).or <|
  faultOf (labelAt m (loc + 4) != labelAt m (labels + 4 * floor)) .labelMismatch loc

/-- The Zone record at `loc`, reached from `floor`, against the zones seen before it (R13). -/
def zoneFailure (m : Memory) (seen : List ZonePlace) (loc floor : Nat) : Option PlanFailure :=
  (faultOf (m.u8 (loc + 1) != floor) .zoneFloorMismatch loc).or <|
  (rangeFault (headerZones m ≤ m.u16 (loc + 2)) loc).or <|
  (faultOf (seen.any fun z => z.zone == m.u16 (loc + 2) && z.loc != loc) .duplicateZone loc).or <|
  rangeFault (badText m (loc + 4) 16) loc

/-- The zones seen, with the Zone record at `loc` added when it is met for the first time. -/
def seeZone (m : Memory) (seen : List ZonePlace) (loc floor : Nat) : List ZonePlace :=
  if seen.any fun z => z.loc == loc then seen
  else seen ++ [{ zone := m.u16 (loc + 2), loc := loc, floor := floor }]

/-- The elements of the zone list at `list`, one after another: the zones seen afterwards, or the first failure. -/
def checkZones (m : Memory) (list floor : Nat) : List Nat → List ZonePlace → Except PlanFailure (List ZonePlace)
  | [], seen => .ok seen
  | i :: rest, seen =>
    match resolve m .zoneElement (pointerAt m (list + 4 + 4 * i)) with
    | .failed r => .error { reason := r, offset := list }
    | .absent => checkZones m list floor rest seen
    | .found loc =>
      match zoneFailure m seen loc floor with
      | some f => .error f
      | none => checkZones m list floor rest (seeZone m seen loc floor)

/-- Element `i` of the feature list at `list`: its resolution, its Feature record (R16) and that record's note. -/
def featureFailure (m : Memory) (list i : Nat) : Option PlanFailure :=
  match resolve m .featureElement (pointerAt m (list + 4 + 4 * i)) with
  | .failed r => some { reason := r, offset := list }
  | .absent => none
  | .found loc =>
    (rangeFault (7 < m.u8 (loc + 1)) loc).or <|
    (rangeFault (3 < m.u8 (loc + 3)) loc).or <|
    noteOf m .featureNote loc (loc + 8)

/-- What stage 5 carries from floor to floor: the zones seen and the total of the feature list counts. -/
structure FloorTally where
  seen     : List ZonePlace
  features : Nat
  deriving DecidableEq, Repr

/-- The floor whose Floor record lies at `loc`, its fields checked: the note, the zone list and its elements, the
feature list and its elements (R42, stage 5). -/
def checkFloorLists (m : Memory) (loc floor : Nat) (tally : FloorTally) : Except PlanFailure FloorTally :=
  match noteOf m .floorNote loc (loc + 20) with
  | some f => .error f
  | none =>
    match resolve m .zoneList (pointerAt m (loc + 12)) with
    | .failed r => .error { reason := r, offset := loc }
    | .absent => .ok tally
    | .found zones =>
      match checkZones m zones floor (List.range (m.u8 (zones + 2))) tally.seen with
      | .error f => .error f
      | .ok seen =>
        match resolve m .featureList (pointerAt m (loc + 16)) with
        | .failed r => .error { reason := r, offset := loc }
        | .absent => .ok tally
        | .found features =>
          match (List.range (m.u8 (features + 2))).findSome? (featureFailure m features) with
          | some f => .error f
          | none => .ok { seen := seen, features := tally.features + m.u8 (features + 2) }

/-- The floors one after another, in rising index order: entry `i` of the Floor Table at `table`, then its floor. -/
def checkFloors (m : Memory) (labels table : Nat) : List Nat → FloorTally → Except PlanFailure FloorTally
  | [], tally => .ok tally
  | i :: rest, tally =>
    match resolve m .floorEntry (pointerAt m (table + 4 * i)) with
    | .failed r => .error { reason := r, offset := table + 4 * i }
    | .absent => checkFloors m labels table rest tally
    | .found loc =>
      match floorFailure m labels loc i with
      | some f => .error f
      | none =>
        match checkFloorLists m loc i tally with
        | .error f => .error f
        | .ok tally' => checkFloors m labels table rest tally'

/-- Stage 5: the zone floor lookup it builds, or its first failure. -/
def stageFloors (m : Memory) : Except PlanFailure (List ZonePlace) :=
  match resolve m .floorTable (pointerAt m 80) with
  | .failed r => .error { reason := r, offset := 0 }
  | .absent => .ok []
  | .found table =>
    match checkFloors m ((labelTableAt m).getD 0) table (List.range (headerFloors m)) { seen := [], features := 0 } with
    | .error f => .error f
    | .ok tally =>
      if tally.features = m.u16 34 then .ok tally.seen else .error { reason := .countMismatch, offset := 0 }

/-! ### Stage 6: devices (R14, R15, R42) -/

/-- The non-Null entries of the Device Index at `base`, in entry order: an entry is Null when its form byte is 0, and the
bytes that are not 0 are exactly those the memory lists. -/
def deviceEntries (m : Memory) (base : Nat) : List Nat :=
  m.filterMap fun c =>
    if base ≤ c.1 ∧ c.1 < base + 98304 ∧ (c.1 - base) % 4 = 3 ∧ c.2 ≠ 0 then some ((c.1 - base) / 4) else none

/-- The Device record at `loc`, reached by entry `e`, in layout order, and its note (R14). -/
def deviceFailure (m : Memory) (zones : List ZonePlace) (loc e : Nat) : Option PlanFailure :=
  (rangeFault (15 < m.u8 (loc + 1)) loc).or <|
  (rangeFault (5 < m.u8 (loc + 2)) loc).or <|
  (rangeFault (15 < m.u8 (loc + 3)) loc).or <|
  (faultOf (deviceEntryNumber (m.u8 (loc + 2)) (m.u8 (loc + 3)) (m.u8 (loc + 4)) != e) .keyMismatch loc).or <|
  (rangeFault (headerZones m ≤ m.u16 (loc + 6)) loc).or <|
  (faultOf (!zones.any fun z => z.zone == m.u16 (loc + 6)) .zoneUnknown loc).or <|
  noteOf m .deviceNote loc (loc + 12)

/-- Entry `e` of the Device Index at `base`. -/
def deviceEntryFailure (m : Memory) (zones : List ZonePlace) (base e : Nat) : Option PlanFailure :=
  match resolve m .deviceEntry (pointerAt m (base + 4 * e)) with
  | .failed r => some { reason := r, offset := base + 4 * e }
  | .absent => none
  | .found loc => deviceFailure m zones loc e

/-- Stage 6, with the zone floor lookup of stage 5. -/
def stageDevices (m : Memory) (zones : List ZonePlace) : Option PlanFailure :=
  match resolve m .deviceIndex (pointerAt m 84) with
  | .failed r => some { reason := r, offset := 0 }
  | .absent => none
  | .found base =>
    ((deviceEntries m base).findSome? (deviceEntryFailure m zones base)).or
      (faultOf ((deviceEntries m base).length != m.u16 32) .countMismatch 0)

/-! ### Stage 7: the line table (R6, R42) -/

/-- A breach of R6 in the line table entry of a line. -/
def lineBreach (m : Memory) (line : Nat) : Bool :=
  if line = 0 ∨ line = 8 then
    1 < m.u8 (lineEntryAt line + 1) ||
      (m.u8 (lineEntryAt line + 1) == 1 &&
        (127 < m.u8 (lineEntryAt line + 2) || m.u8 (lineEntryAt line + 3) < 1 || 7 < m.u8 (lineEntryAt line + 3)))
  else if 16 ≤ line then
    2 < lineKind m line ||
      (lineKind m line != 0 && (headerFloors m ≤ lineFloor m line || headerZones m ≤ lineZone m line)) ||
      (lineKind m line == 1 && 8 < lineClass m line) ||
      (lineKind m line == 2 && (lineClass m line < 9 || 11 < lineClass m line))
  else false

/-- Stage 7. -/
def stageLines (m : Memory) : Option PlanFailure := rangeFault ((List.range 32).any (lineBreach m)) 0

/-! ### One stage of the run -/

/-- The verdict of a stage: the zone floor lookup as it stands afterwards, or the first failure. -/
def stageVerdict (p : Psc) (loader : Slot) : Except PlanFailure (List ZonePlace) :=
  let pass (f : Option PlanFailure) : Except PlanFailure (List ZonePlace) :=
    match f with
    | some failure => .error failure
    | none => .ok p.zonePlaces
  match p.stage with
  | 1 => pass (stageFormat p.planSpace)
  | 2 => pass (stageHeader p.planSpace loader)
  | 3 => pass (stageChecksum p.planSpace)
  | 4 => pass (stageLabels p.planSpace)
  | 5 => stageFloors p.planSpace
  | 6 => pass (stageDevices p.planSpace p.zonePlaces)
  | 7 => pass (stageLines p.planSpace)
  | _ => .ok p.zonePlaces

end Sys2Proof.Machine
end

