-- ==== Sys2Proof/Machine/Loader.lean ====
section
/-!
DEFINITION. Plan Loading and Validation (R34 to R47): the Loader commands, VALIDATION_STAGE, and what the plan's becoming
Valid and its leaving Valid do to the other blocks.
-/

namespace Sys2Proof.Machine

/-- The plan state settles (R34): the Loader's attention flag is set (R167). -/
def settle (s : State) : State := { s with pbi.loaderFlag := true }

/-- The plan status fields other than the state, set together. -/
def setStatus (state : PlanState) (origin : RunOrigin) (stage : Fin 8) (reason : PlanReason) (offset : Nat)
    (revision : Half) (s : State) : State :=
  { s with
    psc := { s.psc with state := state, origin := origin, stage := stage, reason := reason, offset := offset
                        revision := revision } }

/-! ### Leaving Valid (R46, R86) -/

/-- The plan, no longer Valid in `s`, leaves the other blocks, as one event whose table before was `before`. -/
def leaveValid (before : Ale) (s : State) : State :=
  let mapped := setMap (loaderOnlyMap s.pbi.loaderSlot) s
  completeEvent before noNews (abandon false { mapped with lmn := lmnWithoutPlan mapped.lmn })

/-! ### The Loader commands (R35 to R38) -/

/-- The incident condition fails (R35): a context is Assigned, an entry is neither Cleared nor free, or a report waits. -/
def incidentOpen (s : State) : Bool :=
  (List.finRange 32).any (fun c => s.cxm.contexts[c].assigned)
    || s.ale.inUse.any (fun x => x.2.phase != .cleared)
    || !s.rin.queue.isEmpty

/-- The checks of Begin Load and Erase Plan in their order (R35, R38). -/
def openingCheck (s : State) : Option CommandReason :=
  if s.psc.state = .absent ∨ s.psc.state = .valid ∨ s.psc.state = .invalid then
    if incidentOpen s then some .incident else none
  else some .wrongState

/-- Begin Load carried out (R35). -/
def beginLoadBody (_cmd : InFlight) (s : State) : State × CommandOutcome :=
  match openingCheck s with
  | some r => (s, .refused r)
  | none =>
    let opened := setStatus .loading .noRun 0 .noReason 0 0 s
    (if s.psc.valid then leaveValid s.ale opened else opened, .done [])

/-- Commit Plan carried out (R36). -/
def commitPlanBody (_cmd : InFlight) (s : State) : State × CommandOutcome :=
  if s.psc.state = .loading then (setStatus .validating .commit 1 .noReason 0 s.psc.revision s, .done [])
  else (s, .refused .wrongState)

/-- Abort Load carried out (R37). -/
def abortLoadBody (_cmd : InFlight) (s : State) : State × CommandOutcome :=
  if s.psc.state = .loading then (settle (setStatus .invalid .noRun 0 .aborted 0 s.psc.revision s), .done [])
  else (s, .refused .wrongState)

/-- Erase Plan carried out (R38): every byte of plan space becomes zero and the state becomes Absent, as one event. -/
def erasePlanBody (_cmd : InFlight) (s : State) : State × CommandOutcome :=
  match openingCheck s with
  | some r => (s, .refused r)
  | none =>
    let erased := settle (setStatus .absent .noRun 0 .noReason 0 0 { s with psc.planSpace := [] })
    (if s.psc.valid then leaveValid s.ale erased else erased, .done [])

/-! ### The end of a run (R43, R45, R47) -/

/-- A run ends on a failure (R43). After a run of origin Power-on the Intake Queue is emptied and the map shows the Loader
slot alone (R47, R156). -/
def endInvalid (f : PlanFailure) (s : State) : State :=
  let settled := settle (setStatus .invalid s.psc.origin s.psc.stage f.reason f.offset s.psc.revision s)
  if s.psc.origin = .powerOn then
    setMap (loaderOnlyMap s.pbi.loaderSlot) { settled with rin.queue := [] }
  else settled

/-- The ALE's own settings when the plan becomes Valid: the panel records afresh (R58), the roll-up counts from the new Z
upwards 0 (R78), every in-use entry resolved again (R85). -/
def aleTakesPlan (p : Psc) (a : Ale) : Ale :=
  { a with
    places := tabulate fun i => resolveAgain p a.places[i]
    zoneRollups := tabulate fun z => if z.val < headerZones p.planSpace then a.zoneRollups[z] else 0
    panels := Vector.replicate 6 emptyPanelRecord }

/-- The plan becomes Valid (R43, R45), with the zone floor lookup of the run: every block takes the new plan within the
event. -/
def becomeValid (zones : List ZonePlace) (s : State) : State :=
  let valid := settle (setStatus .valid s.psc.origin 0 .noReason 0 (headerRevision s.psc.planSpace)
    { s with psc.zonePlaces := zones })
  let mapped := setMap (headerMap valid.psc.planSpace valid.pbi.loaderSlot) valid
  requestNormal (fun _ => true) (completeEvent s.ale noNews
    { mapped with
      ale := aleTakesPlan mapped.psc mapped.ale
      lmn := lmnFromPlan mapped.psc.planSpace mapped.lmn
      cxm.marks := Vector.replicate 128 (unsearchedAt 0) })

/-- The stage under way completes (R41 to R43): its first failure ends the run, a pass goes to the next stage, and the pass
of stage 7 makes the plan Valid. -/
def completeStage (s : State) : State :=
  match stageVerdict s.psc s.pbi.loaderSlot with
  | .error f => endInvalid f s
  | .ok zones =>
    if s.psc.stage = 7 then becomeValid zones s
    else { s with psc.stage := s.psc.stage + 1, psc.zonePlaces := zones }

/-! ### The meanings -/

/-- BEGIN_LOAD (R35). -/
def execBeginLoad (slot : Slot) (s : State) : Host.Outcome State Fault Refusal :=
  event (carryOut slot .beginLoad beginLoadBody) s

/-- COMMIT_PLAN (R36). -/
def execCommitPlan (slot : Slot) (s : State) : Host.Outcome State Fault Refusal :=
  event (carryOut slot .commitPlan commitPlanBody) s

/-- ABORT_LOAD (R37). -/
def execAbortLoad (slot : Slot) (s : State) : Host.Outcome State Fault Refusal :=
  event (carryOut slot .abortLoad abortLoadBody) s

/-- ERASE_PLAN (R38). -/
def execErasePlan (slot : Slot) (s : State) : Host.Outcome State Fault Refusal :=
  event (carryOut slot .erasePlan erasePlanBody) s

/-- VALIDATION_STAGE (R42): while a run is in progress, the stage under way completes. -/
def execValidationStage (s : State) : Host.Outcome State Fault Refusal :=
  event (fun s => if s.psc.state = .validating then completeStage s else s) s

end Sys2Proof.Machine
end

