-- ==== Sys2Proof/Machine/Incident.lean ====
section
/-!
DEFINITION. The incident clock (R87), hold expiry (R83) and Incident Clear (R32, R88), and the events of power and bus
reset (R40, R44, R168).
-/

namespace Sys2Proof.Machine

/-- INCIDENT_CLOCK_TICK (R87): the clock rises by 1 and holds at 65535; nothing else comes of it. -/
def execIncidentClockTick (s : State) : Host.Outcome State Fault Refusal :=
  event (fun s => { s with ale.clock := saturatingSucc16 s.ale.clock }) s

/-- HOLD_EXPIRY (R83): the slot's hold timer runs out and its hold ends. A timer that does not run cannot run out. -/
def execHoldExpiry (slot : Slot) (s : State) : Host.Outcome State Fault Refusal :=
  event (fun s => if s.ale.holdTimers[slot] then { s with ale := endHold slot s.ale } else s) s

/-! ### Incident Clear (R88) -/

/-- The ALE after an accepted Incident Clear (R88, R99). -/
def clearedAle (a : Ale) : Ale :=
  { a with
    places := tabulate fun i => freePlace a.places[i]
    alarmList := []
    listEpoch := if a.inUse.isEmpty then a.listEpoch else a.listEpoch + 1
    zoneRollups := Vector.replicate 2048 0
    unplacedRollup := 0
    panels := tabulate fun p => { a.panels[p] with gap := false }
    clock := 0
    focus := none
    focusEntry := none
    previousFocus := none
    focusTime := 0
    holdTimers := Vector.replicate 8 false }

/-- What an accepted Incident Clear does to the composition (R88): when the focus was not None and the snapshot mode is
Follow Focus it is abandoned and requeued Urgent; otherwise it is disturbed while Walking. -/
def clearComposition (hadFocus : Bool) (s : State) : State :=
  if hadFocus && s.bcm.composition.any fun c => c.mode == .followFocus then abandon true s
  else if s.bcm.walking then disturb s
  else s

/-- Incident Clear carried out (R88, R32). The CXM's requests of R32 go to Assigned contexts that R88 requests as well, at the same
urgency, and are merged with those (log 18). -/
def incidentClearBody (_cmd : InFlight) (s : State) : State × CommandOutcome :=
  if s.ale.inUse.any fun x => x.2.phase.standingLive then (s, .refused .entriesLive)
  else
    let cleared := { s with ale := clearedAle s.ale, cxm.marks := Vector.replicate 128 (unsearchedAt 0) }
    (requestNormal (fun _ => true) (clearComposition s.ale.focus.isSome cleared), .done [])

/-- INCIDENT_CLEAR (R88). -/
def execIncidentClear (slot : Slot) (s : State) : Host.Outcome State Fault Refusal :=
  event (carryOut slot .incidentClear incidentClearBody) s

/-! ### Power and bus reset -/

/-- The plan store at power-on (R44): what is stored decides the state; the rest of the status is set afresh. -/
def pscPowerOn (p : Psc) : Psc :=
  let status (state : PlanState) (origin : RunOrigin) (stage : Fin 8) (reason : PlanReason) : Psc :=
    { planSpace := p.planSpace, state := state, origin := origin, stage := stage, reason := reason, offset := 0
      revision := 0, zonePlaces := [] }
  match p.state with
  | .absent => status .absent .noRun 0 .noReason
  | .loading => status .invalid .noRun 0 .interrupted
  | .validating | .valid | .invalid => status .validating .powerOn 1 .noReason

/-- The slot class map at power-on (R156): provisional from the stored header when a run starts, the Loader slot alone
otherwise. -/
def mapPowerOn (p : Psc) (loader : Slot) : Vector SlotClass 8 :=
  match p.state with
  | .absent | .loading => loaderOnlyMap loader
  | .validating | .valid | .invalid => headerMap p.planSpace loader

/-- The slot number the straps give (R157): a binary number with the first strap as its least significant bit. -/
def strapSlot (straps : Straps) : Slot :=
  ⟨straps.first.toNat + 2 * straps.second.toNat + 4 * straps.third.toNat, by
    have := straps.first.toNat_le; have := straps.second.toNat_le; have := straps.third.toNat_le; omega⟩

/-- Power-on with this Loader slot: plan space and the stored state are read, and every block takes its power-on values. -/
def powerOnState (loader : Slot) (s : State) : State :=
  { s with
    psc := pscPowerOn s.psc
    rin := { queue := [] }
    ale := alePowerOn
    lmn := lmnPowerOn
    cxm := cxmPowerOn
    bcm := bcmPowerOn
    pbi := pbiPowerOn loader (mapPowerOn s.psc loader) (s.psc.state == .absent || s.psc.state == .loading)
    power := true }

/-- POWER_ON (R44): the straps are sampled, and the slot they name is the Loader slot until the next power-on (R157). -/
def execPowerOn (straps : Straps) (s : State) : Host.Outcome State Fault Refusal :=
  .next (driveAttention (powerOnState (strapSlot straps) s))

/-- LOSS_OF_POWER (R40): plan space and the stored state are kept; all working state ends. What stands in its fields while
the power is off is never seen (log 9). -/
def execLossOfPower (s : State) : Host.Outcome State Fault Refusal :=
  .next { s with
    psc := { planSpace := s.psc.planSpace, state := s.psc.state, origin := .noRun, stage := 0, reason := .noReason
             offset := 0, revision := 0, zonePlaces := [] }
    rin := { queue := [] }
    ale := alePowerOn
    lmn := lmnPowerOn
    cxm := cxmPowerOn
    bcm := bcmPowerOn
    pbi := pbiPowerOn s.pbi.loaderSlot (Vector.replicate 8 .noClass) false
    power := false }

/-- A result record after a bus reset (R168): Idle, reason none, returned values zero. The command code, which the rule
does not name, stays that of the slot's last command (R164; DEDUCED, log 3). -/
def resetResult (r : ResultRecord) : ResultRecord := { idleResult with code := r.code }

/-- A bus reset (R168). -/
def busResetState (s : State) : State :=
  { s with
    ale := endHolds (fun _ => true) s.ale
    pbi.selectors := Vector.replicate 8 none
    pbi.results := tabulate fun slot => resetResult s.pbi.results[slot]
    pbi.inFlight := tabulate fun slot => s.pbi.inFlight[slot].map fun cmd => { cmd with lost := true }
    pbi.response := none }

/-- BUS_RESET (R168). -/
def execBusReset (s : State) : Host.Outcome State Fault Refusal := event busResetState s

end Sys2Proof.Machine
end

