-- ==== Sys2Proof/Machine/Views.lean ====
section
/-!
DEFINITION. The records masters read, as the bytes of 11_formats.md (R136, R155, R162, R170, R171).
-/

namespace Sys2Proof.Machine

/-! ### Port bank -/

/-- A slot's class and panel number as the identity record codes them: class in bits 0 to 3, panel number in bits 4 to 6. -/
def SlotClass.code : SlotClass → Byte
  | .noClass => 0
  | .panel p => byteOf (1 + 16 * p.val)
  | .console => 2
  | .gateway => 3
  | .loader => 4

/-- The identity and map record (R162). -/
def identityRecord (s : State) : List Byte :=
  le16 0x2D6E ++ le16 0x0418 ++ [1, byteOf s.pbi.loaderSlot.val, 0, 0] ++ s.pbi.classes.toList.map SlotClass.code

/-- A plan state's code. -/
def PlanState.code : PlanState → Byte
  | .absent => 0
  | .loading => 1
  | .validating => 2
  | .valid => 3
  | .invalid => 4

/-- A run origin's code. -/
def RunOrigin.code : RunOrigin → Byte
  | .noRun => 0
  | .commit => 1
  | .powerOn => 2

/-- A plan status reason's code: 0 None, 1 Aborted, 2 Interrupted, then 3 to 19 in the order of R34. -/
def PlanReason.code : PlanReason → Byte
  | .noReason => 0
  | .aborted => 1
  | .interrupted => 2
  | .outOfRange => 3
  | .badForm => 4
  | .nullRequired => 5
  | .badBank => 6
  | .misaligned => 7
  | .beyondPlan => 8
  | .wrongKind => 9
  | .crossesBank => 10
  | .indexMismatch => 11
  | .labelMismatch => 12
  | .duplicateLabel => 13
  | .zoneFloorMismatch => 14
  | .duplicateZone => 15
  | .keyMismatch => 16
  | .zoneUnknown => 17
  | .countMismatch => 18
  | .badChecksum => 19

/-- The plan status (R34). -/
def planStatusRecord (p : Psc) : List Byte :=
  [p.state.code, p.origin.code, byteOf p.stage.val, p.reason.code] ++ le32 p.offset ++ leHalf p.revision ++ zeros 6

/-- A result outcome's code. -/
def ResultOutcome.code : ResultOutcome → Byte
  | .idle => 0
  | .busy => 1
  | .done => 2
  | .refused => 3

/-- A command reason's code: 1 to 16 in the order of the reason table of R166. -/
def CommandReason.code : CommandReason → Byte
  | .badCommand => 1
  | .notPermitted => 2
  | .badContext => 3
  | .notOwner => 4
  | .contextInUse => 5
  | .contextFree => 6
  | .badSlot => 7
  | .noPlan => 8
  | .unknownLabel => 9
  | .outOfWindow => 10
  | .floorTaken => 11
  | .queueEmpty => 12
  | .wrongState => 13
  | .incident => 14
  | .entriesLive => 15
  | .badLine => 16

/-- A result record (R164). -/
def resultBytes (r : ResultRecord) : List Byte :=
  [r.outcome.code, r.code, (r.reason.map CommandReason.code).getD 0, 0] ++ r.returned.toList

/-! ### Live bank -/

/-- The entry record of a place (R64): a free place shows its change number and zeros. -/
def entryRecord (a : Ale) (i : EntryNo) : List Byte :=
  match a.places[i].entry with
  | none => [0, 0] ++ leHalf a.places[i].change ++ zeros 28
  | some e =>
    [byteOf i.val, 1] ++ leHalf a.places[i].change
      ++ [byteOf e.key.panel.val, byteOf e.key.loop.val, e.key.address, byteOf e.category.code, byteOf e.cls.val,
        byteOf e.phase.code, orNone e.floor, byteOf e.level.val]
      ++ le16 (e.zone.getD 0xFFFF) ++ [e.standing, e.reactivations] ++ leHalf e.firstAlarm ++ leHalf e.lastChange
      ++ [e.detection, orNone (e.holder.map (·.val))] ++ leHalf e.holdStart ++ zeros 8

/-- One position of the Alarm List view (R74). -/
def positionBytes (a : Ale) (i : EntryNo) : List Byte :=
  match a.places[i].entry with
  | none => zeros 8
  | some e =>
    [byteOf i.val, byteOf e.category.code, byteOf e.phase.code, orNone e.floor, e.standing, byteOf e.level.val, 0, 0]

/-- The Alarm List view (R74): positions beyond the count read as zero. -/
def alarmListView (a : Ale) : List Byte :=
  let positions := a.alarmList.flatMap (positionBytes a)
  leHalf a.listEpoch ++ le16 a.alarmList.length ++ positions ++ zeros (2048 - positions.length)
    ++ leHalf a.listEpoch ++ [0, 0]

/-- The panel sequence and gap record (R52, R58). -/
def panelSequenceRecord (s : State) : List Byte :=
  (s.ale.panels.toList.flatMap fun p =>
      [p.last.getD 0xFF, byteOf ((if p.last.isSome then 1 else 0) + (if p.gap then 2 else 0))])
    ++ [byteOf s.rin.queue.length, 0, 0, 0]

/-- A contact kind's code. -/
def ContactKind.code : ContactKind → Nat
  | .unused => 0
  | .alarmContact => 1
  | .supervisoryContact => 2

/-- A capture's code. -/
def Capture.code : Capture → Nat
  | .follow => 0
  | .latched => 1

/-- A pending report's kind code in the line state record, 0 for none as the record's layout says (11_formats.md). -/
def linePending (k : Option ReportKind) : Byte := (k.map ReportKind.code).getD 0

/-- A contact's part of the line state record. -/
def contactBytes (c : Contact) : List Byte :=
  [byteOf (c.kind.code + 4 * c.tableCapture.code + 8 * c.capture.code),
    byteOf (c.accepted.code.toNat + 16 * c.count.val), linePending c.pending]

/-- The line state record (R107). -/
def lineStateRecord (l : Lmn) : List Byte :=
  ((List.range 16).flatMap fun n => [flagByte (l.samples[n]?.getD false), 0, 0, 0])
    ++ (List.finRange 16).flatMap fun k => flagByte l.samples[contactLine k] :: contactBytes l.contacts[k]

/-- A lift record (R114); what is Unknown, none or None in it shows 255 (R171). -/
def liftRecord (l : Lift) : List Byte :=
  [flagByte l.enabled, l.base, l.maxStep, orNone l.shown, liftFlags l, orNone (l.decoded.map (·.toNat)),
    pendingCode l.pending, 0]

/-- The focus record (R99). -/
def focusRecord (a : Ale) : List Byte :=
  [orNone a.focus, orNone a.previousFocus] ++ le16 ((a.focusEntry.map (·.val)).getD 0xFFFF) ++ leHalf a.focusTime
    ++ leHalf a.clock

/-- The floor marks record (R26). -/
def floorMarksRecord (c : Cxm) : List Byte :=
  c.marks.toList.flatMap fun m => [m.mark.code, contextByte m.context] ++ leHalf m.time

/-- The roll-up record (R78, R171): while the plan is Valid, zones Z to 2047 read 0. -/
def rollupRecord (s : State) : List Byte :=
  ((List.range 2048).map fun z =>
      if s.psc.valid && decide (headerZones s.psc.planSpace ≤ z) then 0 else zoneRollup s.ale z)
    ++ [s.ale.unplacedRollup]

/-! ### Context window and brief window -/

/-- The length of a published brief, from its header. -/
def publishedLength (s : State) (c : Context) : Nat :=
  match c.published with
  | some b => s.bcm.buffers[b].u16 10
  | none => 0

/-- The context record (R136). -/
def contextRecord (s : State) (c : CtxNo) : List Byte :=
  let ctx := s.cxm.contexts[c]
  [byteOf c.val, flagByte ctx.assigned, orNone (ctx.owner.map (·.val)), ctx.mode.code] ++ ctx.crewLabel.toList
    ++ [byteOf ctx.fixedFloor, orNone ctx.previousFloor, byteOf ctx.below.val, byteOf ctx.above.val, byteOf ctx.mask.val,
      byteOf ctx.ceiling.val]
    ++ rangeBytes (currentRange s c)
    ++ [byteOf ctx.queue.notices.length, flagByte ctx.queue.overrun, flagByte ctx.fresh]
    ++ labelBytes (s.psc.labelOf ctx.fixedFloor) ++ labelBytes (ctx.previousFloor.bind s.psc.labelOf)
    ++ leHalf ctx.briefEpoch ++ le16 (publishedLength s ctx)
    ++ (match ctx.queue.notices with
        | n :: _ => noticeBytes n
        | [] => zeros 10)
    ++ zeros 22

/-- `n` bytes of a published brief from an offset on: offsets at or beyond the brief's length read as zero (R155). -/
def briefBytesAt (m : Memory) (off n : Nat) : List Byte :=
  (List.range n).map fun k => if off + k < m.u16 10 then m.read (off + k) else 0

end Sys2Proof.Machine
end

