-- ==== Sys2Proof/Machine/Bus.lean ====
section
/-!
DEFINITION. The Panel Bus Interface (R156 to R167): the judgement of a transfer, the owners' answers, the taking of
commands, and the meanings of the transfer rows and of the entry actions.
-/

namespace Sys2Proof.Machine

/-! ### Places (R170) -/

/-- A place of the address map (R170). -/
inductive BusPlace where
  | identity | planStatus
  | commandSlot (slot : Slot) | resultRecord (slot : Slot) | selector (slot : Slot)
  | intake
  | entry (i : EntryNo)
  | alarmList | panelRecord | lineState | liftRecords | focusRecord | floorMarks | rollup
  | contextRecord
  | briefWindow
  | planSpace (bank : Fin 32)
  deriving DecidableEq, Repr

/-- The offset a place starts at within its bank (R170). -/
def BusPlace.start : BusPlace → Nat
  | .identity | .intake | .contextRecord | .briefWindow | .planSpace _ => 0x0000
  | .planStatus => 0x0010
  | .commandSlot k => 0x0100 + 0x40 * k.val
  | .resultRecord k => 0x0110 + 0x40 * k.val
  | .selector k => 0x0120 + 0x40 * k.val
  | .entry i => 32 * i.val
  | .alarmList => 0x2000
  | .panelRecord => 0x2900
  | .lineState => 0x2A00
  | .liftRecords => 0x2B00
  | .focusRecord => 0x2C00
  | .floorMarks => 0x3000
  | .rollup => 0x4000

/-- How many bytes a place has (R170). -/
def BusPlace.bytes : BusPlace → Nat
  | .identity | .planStatus | .commandSlot _ | .resultRecord _ | .intake | .panelRecord | .liftRecords => 16
  | .selector _ => 1
  | .entry _ => 32
  | .alarmList => 0x808
  | .lineState => 128
  | .focusRecord => 8
  | .floorMarks => 512
  | .rollup => 2049
  | .contextRecord => 64
  | .briefWindow => 8192
  | .planSpace _ => 65536

/-- The `n` bytes from `off` on lie wholly within the place. -/
def BusPlace.covers (p : BusPlace) (off n : Nat) : Bool := p.start ≤ off && off + n ≤ p.start + p.bytes

/-- The places a bank has that `off` could lie in. -/
def bankPlaces (bank off : Nat) : List BusPlace :=
  if bank = 0x00 then
    [.identity, .planStatus] ++ (List.finRange 8).flatMap fun k => [.commandSlot k, .resultRecord k, .selector k]
  else if bank = 0x08 then [.intake]
  else if bank = 0x10 then
    if h : off / 32 < 256 then [.entry ⟨off / 32, h⟩]
    else [.alarmList, .panelRecord, .lineState, .liftRecords, .focusRecord, .floorMarks, .rollup]
  else if bank = 0x18 then [.contextRecord]
  else if bank = 0x20 then [.briefWindow]
  else if h : 0x40 ≤ bank ∧ bank ≤ 0x5F then [.planSpace ⟨bank - 0x40, by omega⟩]
  else []

/-- The place that a transfer of `n` bytes lies wholly within (R170). -/
def locate (bank off n : Nat) : Option BusPlace := (bankPlaces bank off).find? fun p => p.covers off n

/-! ### The judgement of a transfer (R158 to R161) -/

/-- Class access by place (R159), for a class other than None. -/
def accessAllowed (cls : SlotClass) (slot : Slot) (write : Bool) : BusPlace → Bool
  | .identity | .planStatus => !write
  | .commandSlot k => k == slot && write
  | .resultRecord k => k == slot && !write
  | .selector k => k == slot && (!write || !cls.isPanel)
  | .intake => write && cls.isPanel
  | .entry _ => true
  | .alarmList | .panelRecord | .lineState | .liftRecords | .focusRecord | .floorMarks | .rollup => !write
  | .contextRecord => !write && !cls.isPanel
  | .briefWindow => !write && (cls == .console || cls == .gateway)
  | .planSpace _ => !write || cls == .loader

/-- The transfer is a burst that the place carries as one (R160). -/
def carriedAsOne (t : Transfer) (p : BusPlace) : Bool :=
  t.size == .burst &&
    match p with
    | .commandSlot _ | .intake | .planSpace _ | .briefWindow => true
    | _ => false

/-- The transfer is an inhibited burst (R160). -/
def inhibited (t : Transfer) (p : BusPlace) : Bool := t.size == .burst && !carriedAsOne t p

/-- The bytes a transfer moves at a place. -/
def movedBytes (t : Transfer) (p : BusPlace) : Nat := if inhibited t p then 4 else t.size.bytes

/-- Size, alignment and burst rules (R160; R50 for the intake window, R2 for plan space, R155 for the brief window): the
command slot and the intake window take nothing but a burst from their first byte, and a burst carried as one stays within
its place. -/
def shapeAllowed (t : Transfer) (p : BusPlace) : Bool :=
  aligned t && p.covers t.offset.toNat (movedBytes t p) &&
    match p with
    | .commandSlot _ | .intake => t.size == .burst && t.offset.toNat == p.start
    | _ => true

/-- The lock attributes (R161). -/
def locksAllowed (t : Transfer) (write : Bool) : BusPlace → Bool
  | .entry _ => (!t.lock && !t.lockEnd) || (t.size != .burst && t.lock == !write && t.lockEnd == write)
  | _ => !t.lock && !t.lockEnd

/-- The five steps of R158: the place a transfer goes to, or none when a step ends it with Fault. -/
def judge (t : Transfer) (write : Bool) (s : State) : Option BusPlace :=
  if slotClass s t.slot = .noClass then none
  else
    match locate t.bank.toNat t.offset.toNat (singleBytes t) with
    | none => none
    | some p =>
      if accessAllowed (slotClass s t.slot) t.slot write p && shapeAllowed t p && locksAllowed t write p then some p
      else none

/-! ### Reads -/

/-- What an owner answers to a read: the termination, the bytes, and the state afterwards. -/
structure ReadAnswer where
  termination : Termination
  data        : List Byte
  state       : State

/-- A read refused by its owner, with nothing changed. -/
def refuseRead (termination : Termination) (s : State) : ReadAnswer :=
  { termination := termination, data := [], state := s }

/-- A read that returns `n` bytes of a record from `off` on and changes nothing. -/
def readFrom (record : List Byte) (off n : Nat) (s : State) : ReadAnswer :=
  { termination := .done, data := slice record off n, state := s }

/-- The slot that holds entry `i`, when that is not `slot` (R80). -/
def heldByOther (a : Ale) (i : EntryNo) (slot : Slot) : Bool :=
  (a.places[i].entry.bind (·.holder)).any fun h => h != slot

/-- A plain read within an entry record (R80). -/
def plainEntryRead (t : Transfer) (i : EntryNo) (off n : Nat) (s : State) : ReadAnswer :=
  if heldByOther s.ale i t.slot then refuseRead .retry s else readFrom (entryRecord s.ale i) off n s

/-- A locked read within an entry record (R79, R81). The bytes show the hold just made: DEDUCED (log 13). -/
def lockedEntryRead (t : Transfer) (i : EntryNo) (off n : Nat) (s : State) : ReadAnswer :=
  if slotClass s t.slot ≠ .console then refuseRead .fault s
  else if s.ale.places[i].entry.isNone then refuseRead .fault s
  else if heldByOther s.ale i t.slot then refuseRead .retry s
  else
    let held := { s with ale := startHold t.slot i s.ale }
    readFrom (entryRecord held.ale i) off n held

/-- A read of the plan status (R162): the Loader's read of the state field clears its attention flag. -/
def planStatusAnswer (t : Transfer) (off n : Nat) (s : State) : ReadAnswer :=
  readFrom (planStatusRecord s.psc) off n
    (if slotClass s t.slot = .loader ∧ off = 0 then { s with pbi.loaderFlag := false } else s)

/-- A context selector's byte. -/
def selectorByte (c : Option CtxNo) : Byte := contextByte c

/-- The context window (R136). -/
def contextWindowRead (t : Transfer) (off n : Nat) (s : State) : ReadAnswer :=
  match s.pbi.selectors[t.slot] with
  | none => refuseRead .fault s
  | some c => readFrom (contextRecord s c) off n s

/-- The read returns both bytes of the trailer's epoch field, which lies 16 bytes before the brief's end, and the epoch they
form is the context's (R154). -/
def returnsEpoch (m : Memory) (epoch : Half) (off n : Nat) : Bool :=
  let place := m.u16 10 - trailerBytes
  decide (off ≤ place) && decide (place + 2 ≤ off + n) && BitVec.ofNat 16 (m.u16 place) == epoch

/-- A read of the brief window (R154, R155). -/
def briefRead (t : Transfer) (off n : Nat) (s : State) : ReadAnswer :=
  match s.pbi.selectors[t.slot] with
  | none => refuseRead .fault s
  | some c =>
    match s.cxm.contexts[c].published with
    | none => refuseRead .fault s
    | some b =>
      { termination := .done
        data := briefBytesAt s.bcm.buffers[b] off n
        state :=
          if s.cxm.contexts[c].owner = some t.slot ∧ returnsEpoch s.bcm.buffers[b] s.cxm.contexts[c].briefEpoch off n then
            setContext c { s.cxm.contexts[c] with fresh := false } s
          else s }

/-- A read of plan space (R2). -/
def planSpaceRead (t : Transfer) (bank : Fin 32) (off n : Nat) (s : State) : ReadAnswer :=
  match s.psc.state, slotClass s t.slot with
  | .absent, _ => { termination := .done, data := zeros n, state := s }
  | .validating, .loader | .loading, _ | .valid, _ | .invalid, _ =>
    { termination := .done, data := s.psc.planSpace.readAll (65536 * bank.val + off) n, state := s }
  | .validating, _ => refuseRead .retry s

/-- The owner's answer to a read at a place; `off` is the offset within the place. -/
def ownerRead (t : Transfer) (p : BusPlace) (off n : Nat) (s : State) : ReadAnswer :=
  match p with
  | .identity => readFrom (identityRecord s) off n s
  | .planStatus => planStatusAnswer t off n s
  | .resultRecord k => readFrom (resultBytes s.pbi.results[k]) off n s
  | .selector k => readFrom [selectorByte s.pbi.selectors[k]] off n s
  | .entry i => if t.lock then lockedEntryRead t i off n s else plainEntryRead t i off n s
  | .alarmList => readFrom (alarmListView s.ale) off n s
  | .panelRecord => readFrom (panelSequenceRecord s) off n s
  | .lineState => readFrom (lineStateRecord s.lmn) off n s
  | .liftRecords => readFrom (s.lmn.lifts.toList.flatMap liftRecord) off n s
  | .focusRecord => readFrom (focusRecord s.ale) off n s
  | .floorMarks => readFrom (floorMarksRecord s.cxm) off n s
  | .rollup => readFrom (rollupRecord s) off n s
  | .contextRecord => contextWindowRead t off n s
  | .briefWindow => briefRead t off n s
  | .planSpace bank => planSpaceRead t bank off n s
  | .commandSlot _ | .intake => refuseRead .fault s

/-- A read transfer (R158, R160): judged, answered by its owner, and terminated. -/
def busRead (t : Transfer) (s : State) : State :=
  match judge t false s with
  | none => answer t .fault false [] s
  | some p =>
    let a := ownerRead t p (t.offset.toNat - p.start) (movedBytes t p) s
    answer t a.termination (inhibited t p && a.termination == .done) a.data a.state

/-! ### Writes -/

/-- What an owner answers to a write: the termination, and the state afterwards. -/
structure WriteAnswer where
  termination : Termination
  state       : State

/-- A write refused by its owner, with nothing changed. -/
def refuseWrite (termination : Termination) (s : State) : WriteAnswer := { termination := termination, state := s }

/-- An entry action (R71). -/
inductive EntryAction where
  | acknowledge | discount | clearEntry
  deriving DecidableEq, Repr

/-- An action code (11_formats.md, action word). -/
def EntryAction.ofByte (b : Byte) : Option EntryAction :=
  if b = 1 then some .acknowledge else if b = 2 then some .discount else if b = 3 then some .clearEntry else none

/-- The phase an action gives, when it is allowed from the present one (R71). -/
def EntryAction.result : EntryAction → Phase → Option Phase
  | .acknowledge, .active => some .acknowledged
  | .discount, .active | .discount, .acknowledged | .discount, .restored => some .discounted
  | .clearEntry, .restored | .clearEntry, .discounted => some .cleared
  | _, _ => none

/-- An entry after an allowed action (R71): the new phase and the present clock value. -/
def actedEntry (phase : Phase) (clock : Half) (e : Entry) : Entry := { e with phase := phase, lastChange := clock }

/-- A lock-end write answered with Fault: every hold of the writing slot ends (R82). -/
def faultAction (slot : Slot) (s : State) : WriteAnswer :=
  { termination := .fault, state := { s with ale := endHold slot s.ale } }

/-- The phase that the action word gives the entry in place `i` held by `slot`, or none when a case of R82 ends in Fault: no
hold on this entry, a stale change number, or an action not allowed. -/
def actionResult (a : Ale) (slot : Slot) (i : EntryNo) (word : List Byte) : Option Phase :=
  match a.places[i].entry with
  | none => none
  | some e =>
    if e.holder = some slot ∧ halfOf (word.getD 2 0) (word.getD 3 0) = a.places[i].change then
      (EntryAction.ofByte (word.getD 0 0)).bind fun action => action.result e.phase
    else none

/-- A lock-end write to the action word of entry `i` that no other slot holds (R82): the action applied with the hold's
end, as one ALE event (R71, R73), or Fault. -/
def actionWrite (slot : Slot) (i : EntryNo) (word : List Byte) (s : State) : WriteAnswer :=
  match actionResult s.ale slot i word with
  | none => faultAction slot s
  | some phase =>
    { termination := .done
      state := completeEvent s.ale noNews
        { s with ale := endHold slot (changeEntry i (actedEntry phase s.ale.clock) s.ale) } }

/-- A write within an entry record (R80, R82, R159): Retry while another slot holds the entry; otherwise a plain write is
answered with Fault, and so is a lock-end write that is not a 4-byte write of the action word. -/
def entryWrite (t : Transfer) (i : EntryNo) (off : Nat) (data : List Byte) (s : State) : WriteAnswer :=
  if heldByOther s.ale i t.slot then refuseWrite .retry s
  else if t.lockEnd then
    if off = 24 ∧ t.size = .four then actionWrite t.slot i data s else faultAction t.slot s
  else refuseWrite .fault s

/-- A 1-byte write of a context selector (R163). -/
def selectorWrite (slot : Slot) (b : Byte) (s : State) : WriteAnswer :=
  if h : b.toNat < 32 then
    { termination := .done, state := { s with pbi.selectors := s.pbi.selectors.set slot (some ⟨b.toNat, h⟩) } }
  else if b = 0xFF then { termination := .done, state := { s with pbi.selectors := s.pbi.selectors.set slot none } }
  else refuseWrite .fault s

/-- An intake burst from a Panel slot (R50, R51), completed with the slot's panel number in the present map. -/
def intakeAnswer (t : Transfer) (data : List Byte) (s : State) : WriteAnswer :=
  match slotClass s t.slot with
  | .panel p => { termination := (arrival p data s.rin).1, state := { s with rin := (arrival p data s.rin).2 } }
  | _ => refuseWrite .fault s

/-- The reason checks 1 and 2 of R165 refuse a command for, when they do. -/
def takingCheck (cls : SlotClass) (code : Byte) : Option CommandReason :=
  match CommandCode.ofByte code with
  | none => some .badCommand
  | some c => if c.permittedClass = cls then none else some .notPermitted

/-- The result record of a command just taken and handed on (R164). -/
def busyResult (code : Byte) : ResultRecord :=
  { outcome := .busy, code := code, reason := none, returned := padded 12 [] }

/-- What is attached to a command when it is taken (R164). -/
def takenCommand (slot : Slot) (data : List Byte) (s : State) : InFlight :=
  { record := padded 16 data, selector := s.pbi.selectors[slot], cls := slotClass s slot
    console := if slotClass s slot = .console then ownedConsole s.pbi.classes slot else none, lost := false }

/-- A command burst (R164, R165): Retry while the slot has a command in flight; otherwise the command is taken, and it is
refused in the same event or handed on. -/
def commandAnswer (slot : Slot) (data : List Byte) (s : State) : WriteAnswer :=
  if (s.pbi.inFlight[slot]).isSome then refuseWrite .retry s
  else
    let code := data.getD 0 0
    match takingCheck (slotClass s slot) code with
    | some r =>
      { termination := .done
        state := { s with pbi.results := s.pbi.results.set slot ((CommandOutcome.refused r).toResult code) } }
    | none =>
      { termination := .done
        state := { s with
          pbi.results := s.pbi.results.set slot (busyResult code)
          pbi.inFlight := s.pbi.inFlight.set slot (some (takenCommand slot data s)) } }

/-- A write to plan space (R2). -/
def planSpaceStore (t : Transfer) (bank : Fin 32) (off : Nat) (data : List Byte) (s : State) : WriteAnswer :=
  if slotClass s t.slot = .loader ∧ s.psc.state = .loading then
    { termination := .done
      state := { s with psc.planSpace := s.psc.planSpace.writeAll (65536 * bank.val + off) data } }
  else refuseWrite .fault s

/-- The owner's answer to a write at a place; `off` is the offset within the place. -/
def ownerWrite (t : Transfer) (p : BusPlace) (off : Nat) (data : List Byte) (s : State) : WriteAnswer :=
  match p with
  | .entry i => entryWrite t i off data s
  | .commandSlot k => commandAnswer k data s
  | .selector k => selectorWrite k (data.getD 0 0) s
  | .intake => intakeAnswer t data s
  | .planSpace bank => planSpaceStore t bank off data s
  | _ => refuseWrite .fault s

/-- A write transfer (R158, R160): judged, answered by its owner, and terminated. Of an inhibited burst the first beat's 4
bytes are written. -/
def busWrite (t : Transfer) (data : List Byte) (s : State) : State :=
  match judge t true s with
  | none => answer t .fault false [] s
  | some p =>
    let a := ownerWrite t p (t.offset.toNat - p.start) (slice data 0 (movedBytes t p)) s
    answer t a.termination (inhibited t p && a.termination == .done) [] a.state

/-- The lock-end write that carries an entry action (R71, R82): the action word of `entry`, 4 bytes at offset 24 of its
record. -/
def actionTransfer (slot : Slot) (entry : EntryNo) : Transfer :=
  { slot := slot, bank := 0x10, offset := BitVec.ofNat 16 (32 * entry.val + 24), size := .four, lock := false
    lockEnd := true }

/-- An action word as written: action code, zero, change number. -/
def actionWord (code : Byte) (change : Half) : List Byte := [code, 0] ++ leHalf change

/-! ### The meanings -/

/-- PLAN_SPACE_WRITE (R2). -/
def execPlanSpaceWrite (t : Transfer) (data : List Byte) (s : State) : Host.Outcome State Fault Refusal :=
  event (busWrite t data) s

/-- PLAN_STATUS_READ (R162). -/
def execPlanStatusRead (t : Transfer) (s : State) : Host.Outcome State Fault Refusal := event (busRead t) s

/-- INTAKE_WRITE (R51). -/
def execIntakeWrite (t : Transfer) (data : List Byte) (s : State) : Host.Outcome State Fault Refusal :=
  event (busWrite t data) s

/-- LOCKED_READ (R79, R81). -/
def execLockedRead (t : Transfer) (s : State) : Host.Outcome State Fault Refusal := event (busRead t) s

/-- ACKNOWLEDGE (R71, R82). -/
def execAcknowledge (slot : Slot) (entry : EntryNo) (change : Half) (s : State) : Host.Outcome State Fault Refusal :=
  event (busWrite (actionTransfer slot entry) (actionWord 1 change)) s

/-- DISCOUNT (R71, R82). -/
def execDiscount (slot : Slot) (entry : EntryNo) (change : Half) (s : State) : Host.Outcome State Fault Refusal :=
  event (busWrite (actionTransfer slot entry) (actionWord 2 change)) s

/-- CLEAR_ENTRY (R71, R82). -/
def execClearEntry (slot : Slot) (entry : EntryNo) (change : Half) (s : State) : Host.Outcome State Fault Refusal :=
  event (busWrite (actionTransfer slot entry) (actionWord 3 change)) s

/-- REGISTER_WRITE (R158, R159). -/
def execRegisterWrite (t : Transfer) (data : List Byte) (s : State) : Host.Outcome State Fault Refusal :=
  event (busWrite t data) s

/-- CONTEXT_SELECTOR_WRITE (R163). -/
def execContextSelectorWrite (t : Transfer) (data : List Byte) (s : State) : Host.Outcome State Fault Refusal :=
  event (busWrite t data) s

/-- BRIEF_WINDOW_READ (R154, R155). -/
def execBriefWindowRead (t : Transfer) (s : State) : Host.Outcome State Fault Refusal := event (busRead t) s

/-- COMMAND_SLOT_WRITE (R164, R165). -/
def execCommandSlotWrite (t : Transfer) (data : List Byte) (s : State) : Host.Outcome State Fault Refusal :=
  event (busWrite t data) s

end Sys2Proof.Machine
end

