-- ==== Sys2Proof/Machine/Dispatch.lean ====
section
/-!
DEFINITION. The meaning of every command, one arm each.
-/

namespace Sys2Proof.Machine

def exec (i : Instr) (s : State) : Host.Outcome State Fault Refusal :=
  match i with
  | .powerOn straps => Sys2Proof.Machine.execPowerOn straps s
  | .busReset => Sys2Proof.Machine.execBusReset s
  | .planSpaceWrite t data => Sys2Proof.Machine.execPlanSpaceWrite t data s
  | .planStatusRead t => Sys2Proof.Machine.execPlanStatusRead t s
  | .beginLoad slot => Sys2Proof.Machine.execBeginLoad slot s
  | .commitPlan slot => Sys2Proof.Machine.execCommitPlan slot s
  | .abortLoad slot => Sys2Proof.Machine.execAbortLoad slot s
  | .erasePlan slot => Sys2Proof.Machine.execErasePlan slot s
  | .validationStage => Sys2Proof.Machine.execValidationStage s
  | .intakeWrite t data => Sys2Proof.Machine.execIntakeWrite t data s
  | .reportTake => Sys2Proof.Machine.execReportTake s
  | .lockedRead t => Sys2Proof.Machine.execLockedRead t s
  | .acknowledge slot entry change => Sys2Proof.Machine.execAcknowledge slot entry change s
  | .discount slot entry change => Sys2Proof.Machine.execDiscount slot entry change s
  | .clearEntry slot entry change => Sys2Proof.Machine.execClearEntry slot entry change s
  | .holdExpiry slot => Sys2Proof.Machine.execHoldExpiry slot s
  | .registerWrite t data => Sys2Proof.Machine.execRegisterWrite t data s
  | .contextSelectorWrite t data => Sys2Proof.Machine.execContextSelectorWrite t data s
  | .briefWindowRead t => Sys2Proof.Machine.execBriefWindowRead t s
  | .incidentClockTick => Sys2Proof.Machine.execIncidentClockTick s
  | .incidentClear slot => Sys2Proof.Machine.execIncidentClear slot s
  | .assignCrew slot => Sys2Proof.Machine.execAssignCrew slot s
  | .moveCrew slot => Sys2Proof.Machine.execMoveCrew slot s
  | .withdrawCrew slot => Sys2Proof.Machine.execWithdrawCrew slot s
  | .setConsoleMask slot => Sys2Proof.Machine.execSetConsoleMask slot s
  | .takeConsoleNotice slot => Sys2Proof.Machine.execTakeConsoleNotice slot s
  | .briefNow slot => Sys2Proof.Machine.execBriefNow slot s
  | .unlatchLine slot => Sys2Proof.Machine.execUnlatchLine slot s
  | .resetMark slot => Sys2Proof.Machine.execResetMark slot s
  | .requestBrief slot => Sys2Proof.Machine.execRequestBrief slot s
  | .takeNotice slot => Sys2Proof.Machine.execTakeNotice slot s
  | .setMask slot => Sys2Proof.Machine.execSetMask slot s
  | .markFloor slot => Sys2Proof.Machine.execMarkFloor slot s
  | .lineScan levels => Sys2Proof.Machine.execLineScan levels s
  | .compositionStart => Sys2Proof.Machine.execCompositionStart s
  | .walkStep => Sys2Proof.Machine.execWalkStep s
  | .seal => Sys2Proof.Machine.execSeal s
  | .commandSlotWrite t data => Sys2Proof.Machine.execCommandSlotWrite t data s
  | .lossOfPower => Sys2Proof.Machine.execLossOfPower s

end Sys2Proof.Machine
end

