-- ==== Sys2Proof/Safety.lean ====
section
/-!
DEFINITION. What a sound state of the part is: the laws the manual says it keeps at every moment, each a predicate of the
state; and the words in which the statements speak of commands and transfers.
-/

namespace Sys2Proof.Machine

/-! ### Laws the part keeps -/

/-- Plan space and the brief buffers are in canonical form. -/
def State.memoriesWf (s : State) : Prop := s.psc.planSpace.wf ∧ ∀ b : BufNo, s.bcm.buffers[b].wf

/-- With the power on, every attention line shows its condition (R167). -/
def State.attentionTrue (s : State) : Prop :=
  s.power = true → ∀ slot : Slot, s.pbi.attention[slot] = attentionCondition s slot

/-- The plan status while a run is in progress (R34, R40): a stage 1 to 7 and an origin. -/
def State.runNamed (s : State) : Prop :=
  s.power = true → s.psc.state = .validating → s.psc.stage ≠ 0 ∧ s.psc.origin ≠ .noRun

/-- The Loader slot is class Loader in the present map, and no other slot is (R156, R157). -/
def State.oneLoader (s : State) : Prop :=
  s.power = true → ∀ slot : Slot, s.pbi.classes[slot] = .loader ↔ slot = s.pbi.loaderSlot

/-- The Intake Queue holds at most 32 reports (R52). -/
def State.intakeBounded (s : State) : Prop := s.rin.queue.length ≤ intakePlaces

/-- No two in-use entries share a key and category (R65). -/
def State.keysUnique (s : State) : Prop :=
  ∀ (i j : EntryNo) (e f : Entry), s.ale.places[i].entry = some e → s.ale.places[j].entry = some f →
    e.key = f.key → e.category = f.category → i = j

/-- The holder slot of the entry in place `i`. -/
def holderAt (s : State) (i : EntryNo) : Option Slot := s.ale.places[i].entry.bind (·.holder)

/-- The law of holds (R80): a slot holds at most one entry, every holder is of class Console, and a slot's hold timer runs
while it holds an entry and at no other time (R79, R83). -/
def State.holdsSound (s : State) : Prop :=
  (∀ (i j : EntryNo) (slot : Slot), holderAt s i = some slot → holderAt s j = some slot → i = j) ∧
  (∀ (i : EntryNo) (slot : Slot), holderAt s i = some slot → s.pbi.classes[slot] = .console) ∧
  (∀ slot : Slot, s.ale.holdTimers[slot] = true ↔ ∃ i : EntryNo, holderAt s i = some slot)

/-- Every in-use entry carries the standing of R91 to R95. -/
def State.standingsTrue (s : State) : Prop :=
  ∀ (i : EntryNo) (e : Entry), s.ale.places[i].entry = some e → e.standing = standingOf s.psc s.ale.inUse i e

/-- The Alarm List holds every in-use entry exactly once, by standing descending, first-alarm time ascending and entry
number ascending (R74). -/
def State.listOrdered (s : State) : Prop :=
  s.ale.alarmList.Nodup ∧
  (∀ i : EntryNo, i ∈ s.ale.alarmList ↔ s.ale.places[i].entry.isSome = true) ∧
  s.ale.alarmList.Pairwise fun i j =>
    ∀ e f : Entry, s.ale.places[i].entry = some e → s.ale.places[j].entry = some f →
      f.standing.toNat < e.standing.toNat ∨ f.standing = e.standing ∧
        (e.firstAlarm.toNat < f.firstAlarm.toNat ∨ e.firstAlarm = f.firstAlarm ∧ i < j)

/-- An entry that may give the focus: of category Fire, in phase Active, Acknowledged or Restored, and placed (R98). -/
def eligible (s : State) (i : EntryNo) (floor : Nat) : Prop :=
  ∃ e : Entry, s.ale.places[i].entry = some e ∧ e.category = .fire ∧
    (e.phase = .active ∨ e.phase = .acknowledged ∨ e.phase = .restored) ∧ e.floor = some floor

/-- The focus is the floor of the first eligible entry in Alarm List order, which is the focus entry; both are none when no
entry is eligible (R98). -/
def State.focusTrue (s : State) : Prop :=
  (∃ (before after : List EntryNo) (i : EntryNo) (floor : Nat),
      s.ale.alarmList = before ++ i :: after ∧ eligible s i floor ∧ (∀ j ∈ before, ∀ f, ¬eligible s j f) ∧
        s.ale.focus = some floor ∧ s.ale.focusEntry = some i) ∨
  (∀ j ∈ s.ale.alarmList, ∀ f, ¬eligible s j f) ∧ s.ale.focus = none ∧ s.ale.focusEntry = none

/-- The lifts keep to the building (R114, R117): a lift is enabled only while the plan is Valid, and a shown floor lies in 0
to F − 1. -/
def State.liftsSound (s : State) : Prop :=
  ∀ k : Fin 2, (s.lmn.lifts[k].enabled = true → s.psc.valid = true) ∧
    ∀ f, s.lmn.lifts[k].shown = some f → s.psc.valid = true ∧ f < headerFloors s.psc.planSpace

/-- A contact of kind Unused is Normal with count 0 and nothing pending, and a Latched Active contact has count 0
(R107, R110). -/
def State.contactsSound (s : State) : Prop :=
  ∀ k : Fin 16,
    (s.lmn.contacts[k].kind = .unused →
      s.lmn.contacts[k].accepted = .normal ∧ s.lmn.contacts[k].count = 0 ∧ s.lmn.contacts[k].pending = none) ∧
    (s.lmn.contacts[k].accepted = .latchedActive → s.lmn.contacts[k].count = 0)

/-- A context is Assigned only while the plan is Valid (R46, R140). -/
def State.crewsNeedPlan (s : State) : Prop :=
  ∀ c : CtxNo, s.cxm.contexts[c].assigned = true → s.psc.valid = true

/-- A Free context holds the Free values of R119, whatever its brief epoch. -/
def State.freeIsBlank (s : State) : Prop :=
  ∀ c : CtxNo, s.cxm.contexts[c].assigned = false → s.cxm.contexts[c] = freeContext s.cxm.contexts[c].briefEpoch

/-- A context's mask never exceeds its ceiling (R122, R126). -/
def State.masksBelowCeilings (s : State) : Prop :=
  ∀ c : CtxNo, s.cxm.contexts[c].mask ≤ s.cxm.contexts[c].ceiling

/-- A notice queue keeps the law of R131 and R132: within its capacity, one notice per key, and Overrun only while it holds
notices. -/
def NoticeQueue.sound (capacity : Nat) (q : NoticeQueue) : Prop :=
  q.notices.length ≤ capacity ∧ q.notices.Pairwise (fun m n => m.sameKey n = false) ∧
    (q.overrun = true → q.notices ≠ [])

/-- Every notice queue keeps the law of R131 and R132. -/
def State.queuesSound (s : State) : Prop :=
  (∀ c : CtxNo, s.cxm.contexts[c].queue.sound contextCapacity) ∧
  ∀ q : Fin 2, s.cxm.consoles[q].queue.sound consoleCapacity

/-- A floor that is Searching names an Assigned context (R31), and an Unsearched floor names none (R26). -/
def State.marksSound (s : State) : Prop :=
  ∀ f : Fin 128,
    (s.cxm.marks[f].mark = .searching → ∃ c, s.cxm.marks[f].context = some c ∧ s.cxm.contexts[c].assigned = true) ∧
    (s.cxm.marks[f].mark = .unsearched → s.cxm.marks[f].context = none)

/-- The law of the composer request queue (R137): Assigned contexts alone, none twice, and never the context being
composed, which is Assigned itself. -/
def State.requestsSound (s : State) : Prop :=
  (s.bcm.urgent ++ s.bcm.normal).Nodup ∧
  (∀ c ∈ s.bcm.urgent ++ s.bcm.normal, s.cxm.contexts[c].assigned = true) ∧
  ∀ x, s.bcm.composition = some x →
    x.context ∉ s.bcm.urgent ++ s.bcm.normal ∧ s.cxm.contexts[x.context].assigned = true

/-- The places a buffer stands in: the pool, a context that publishes it, the composition that works in it (R151). -/
def bufferPlaces (s : State) (b : BufNo) : Nat :=
  (if s.bcm.pool[b] then 1 else 0)
    + ((List.finRange 32).countP fun c => s.cxm.contexts[c].published == some b)
    + (if s.bcm.composition.any fun x => x.buffer == b then 1 else 0)

/-- Each brief buffer is in exactly one place (R151). -/
def State.buffersPlaced (s : State) : Prop := ∀ b : BufNo, bufferPlaces s b = 1

/-- How far a walk may have written when it stands at a place (R145): the items end by 8152, each Lift item takes 12. -/
def walkRoom : WalkPos → Nat
  | .floorHead _ | .feature _ _ | .zone _ _ => itemLimit
  | .lift k => itemLimit + 12 * k.val
  | .unplaced => itemLimit + 24

/-- A composition never writes past its working buffer (R145). -/
def State.briefFits (s : State) : Prop :=
  ∀ x, s.bcm.composition = some x → headerBytes ≤ x.walk.offset ∧
    x.walk.offset ≤ (if x.phase = .sealing then itemLimit + 24 else walkRoom x.walk.pos)

/-- A published brief is whole: the length its header gives lies within the buffer, and its header and its trailer both carry
the context's brief epoch (R152, R153, R154). -/
def State.briefsWhole (s : State) : Prop :=
  ∀ (c : CtxNo) (b : BufNo), s.cxm.contexts[c].published = some b →
    let m := s.bcm.buffers[b]
    headerBytes + trailerBytes ≤ m.u16 10 ∧ m.u16 10 ≤ bufferBytes ∧
      m.u16 0 = s.cxm.contexts[c].briefEpoch.toNat ∧ m.u16 (m.u16 10 - trailerBytes) = s.cxm.contexts[c].briefEpoch.toNat

/-! ### The words of the statements -/

/-- The row of the table that the owning block's completion of a command is. -/
def CommandCode.row : CommandCode → Slot → Instr
  | .assignCrew => .assignCrew
  | .moveCrew => .moveCrew
  | .withdrawCrew => .withdrawCrew
  | .setConsoleMask => .setConsoleMask
  | .takeConsoleNotice => .takeConsoleNotice
  | .briefNow => .briefNow
  | .unlatchLine => .unlatchLine
  | .resetMark => .resetMark
  | .incidentClear => .incidentClear
  | .requestBrief => .requestBrief
  | .takeNotice => .takeNotice
  | .setMask => .setMask
  | .markFloor => .markFloor
  | .beginLoad => .beginLoad
  | .commitPlan => .commitPlan
  | .abortLoad => .abortLoad
  | .erasePlan => .erasePlan

/-- The row of the table that an entry action is. -/
def EntryAction.row : EntryAction → Slot → EntryNo → Half → Instr
  | .acknowledge => .acknowledge
  | .discount => .discount
  | .clearEntry => .clearEntry

/-- The part has power and the command `cmd`, of code `code`, is in flight at `slot` (R164). -/
def Ready (s : State) (slot : Slot) (code : CommandCode) (cmd : InFlight) : Prop :=
  s.power = true ∧ s.pbi.inFlight[slot] = some cmd ∧ CommandCode.ofByte (commandByte cmd 0) = some code

/-- The slot's command has ended with `outcome` (R164): the in-flight mark is clear and the result record shows the outcome,
unless a bus reset came between; of the rest of the PBI only the attention lines may have moved, and, where the command says
so, the class map and the Loader's flag. -/
def Completed (s t : State) (slot : Slot) (cmd : InFlight) (outcome : CommandOutcome) : Prop :=
  t.pbi = { s.pbi with
    inFlight := s.pbi.inFlight.set slot none
    results := if cmd.lost then s.pbi.results else s.pbi.results.set slot (outcome.toResult (commandByte cmd 0))
    classes := t.pbi.classes
    loaderFlag := t.pbi.loaderFlag
    attention := t.pbi.attention }

/-- The class map and the Loader's flag are as they were. -/
def SameMap (s t : State) : Prop := t.pbi.classes = s.pbi.classes ∧ t.pbi.loaderFlag = s.pbi.loaderFlag

/-- A transfer was answered with this termination and these bytes; of the PBI nothing else moved but, where the statement says
so, a selector, a result record, a command in flight or the Loader's flag. -/
def Answered (s t : State) (tr : Transfer) (termination : Termination) (inhibit : Bool) (data : List Byte) : Prop :=
  t.pbi = { s.pbi with
    selectors := t.pbi.selectors
    results := t.pbi.results
    inFlight := t.pbi.inFlight
    loaderFlag := t.pbi.loaderFlag
    attention := t.pbi.attention
    response := some { slot := tr.slot, termination := termination, burstInhibit := inhibit, data := data } }

/-- The slots' own areas are as they were (R159). -/
def SameAreas (s t : State) : Prop :=
  t.pbi.selectors = s.pbi.selectors ∧ t.pbi.results = s.pbi.results ∧ t.pbi.inFlight = s.pbi.inFlight

/-- Two entries agree in everything but their standing. -/
def sameButStanding (x y : Option Entry) : Prop :=
  x.map (fun e => { e with standing := 0 }) = y.map fun e => { e with standing := 0 }

/-- What an ALE event leaves (R73): every context but for its queue, the console masks, the marks, the buffers, and every
block it does not name. -/
def EventFrame (s t : State) : Prop :=
  t.psc = s.psc ∧ t.lmn = s.lmn ∧ t.cxm.marks = s.cxm.marks ∧
    (∀ c : CtxNo, t.cxm.contexts[c] = { s.cxm.contexts[c] with queue := t.cxm.contexts[c].queue }) ∧
    (∀ q : Fin 2, t.cxm.consoles[q].mask = s.cxm.consoles[q].mask) ∧ t.bcm.buffers = s.bcm.buffers ∧
    t.power = s.power ∧ t.pending = s.pending

/-- The fields of the ALE that no report and no action touches. -/
def CountersFrame (s t : State) : Prop :=
  t.ale.clock = s.ale.clock ∧ t.ale.zoneRollups = s.ale.zoneRollups ∧ t.ale.unplacedRollup = s.ale.unplacedRollup

/-- A report that is no duplicate (R59): line-derived, or from a panel with a sequence other than its last. -/
def notDuplicate (s : State) (r : Report) : Prop :=
  r.source = .line ∨ ∃ p sequence, r.source = .panel p sequence ∧ s.ale.panels[p].last ≠ some sequence

/-- The panel records after a report that is no duplicate and no Panel Reset (R59, R63). -/
def panelsAfter (s : State) (r : Report) (panels : Vector PanelRecord 6) : Prop :=
  match r.source with
  | .line => panels = s.ale.panels
  | .panel p sequence =>
    panels[p].last = some sequence ∧
      panels[p].gap = (s.ale.panels[p].gap || (s.ale.panels[p].last.any fun last => sequence != last + 1)) ∧
      ∀ q : PanelNo, q ≠ p → panels[q] = s.ale.panels[q]

/-! ### What an event hands on (R73, R100 to R104, R129, R130) -/

/-- A notice passes the tests of context `c` (R129): the context is Assigned, its mask lets the level through, and the notice is
tower-wide or names a placed floor of the context's range. -/
def Reaches (t : State) (c : CtxNo) (n : Notice) : Prop :=
  t.cxm.contexts[c].assigned = true ∧ t.cxm.contexts[c].mask ≤ n.level ∧
    (n.kind = .focusMoved ∨ n.kind = .tableFull ∨ ∃ f, n.floor = .placed f ∧ inRange t c f = true)

/-- A notice passes the tests of Console Queue `q` (R130): the queue is in use, for the map has more Console slots than queues
before it, and its console mask lets the level through. -/
def ConsoleReaches (t : State) (q : Fin 2) (n : Notice) : Prop :=
  q.val < ((List.finRange 8).filter fun k => decide (t.pbi.classes[k] = .console)).length ∧
    t.cxm.consoles[q].mask ≤ n.level

/-- A queue takes, of the notices offered to it one after another, those that pass its tests (R103, R131). -/
def QueueTakes (capacity : Nat) (passes : Notice → Prop) : List Notice → NoticeQueue → NoticeQueue → Prop
  | [], q, q' => q' = q
  | n :: rest, q, q' =>
    (passes n → QueueTakes capacity passes rest (enqueue capacity q n) q') ∧
      (¬passes n → QueueTakes capacity passes rest q q')

/-- The notices `ns` were offered to every destination in this order, and nothing else came into a queue or left one: a context's
queue holds up to 16 notices and a Console Queue up to 32. -/
def Told (s t : State) (ns : List Notice) : Prop :=
  (∀ c : CtxNo, QueueTakes 16 (Reaches t c) ns s.cxm.contexts[c].queue t.cxm.contexts[c].queue) ∧
  ∀ q : Fin 2, QueueTakes 32 (ConsoleReaches t q) ns s.cxm.consoles[q].queue t.cxm.consoles[q].queue

/-- The notice an event posts about the entry in place `i` (R73, R102, R127, R128): with the entry's level and floor after the
event, and the event's clock value. -/
def EntrySays (t : State) (kind : NoticeKind) (i : EntryNo) (n : Notice) : Prop :=
  ∃ e : Entry, t.ale.places[i].entry = some e ∧
    n = { kind := kind, level := e.level, time := t.ale.clock, entry := some i, floor := noticeFloor e.floor
          context := none, panel := none }

/-- The notices of an ALE event from `s` to `t`, in the order of R103: the Panel Gap notice (R61), the event's own entry notices
(R73), an Escalated notice for every other entry whose level rose, in rising entry number (R102), the Focus Moved notice of a
focus that changed (R100), and the Table Full notice of a report rolled up (R77). -/
def EventNotices (s t : State) (news : EventNews) (ns : List Notice) : Prop :=
  ∃ (own raised : List Notice) (risen : List EntryNo),
    List.Forall₂ (fun o n => EntrySays t o.1 o.2 n) news.own own ∧
    risen.Pairwise (· < ·) ∧
    (∀ i : EntryNo, i ∈ risen ↔ (∀ o ∈ news.own, o.2 ≠ i) ∧ ∃ e f : Entry,
      s.ale.places[i].entry = some e ∧ t.ale.places[i].entry = some f ∧ e.level < f.level) ∧
    List.Forall₂ (EntrySays t .escalated) risen raised ∧
    ns = (match news.gap with
        | some p => [{ kind := .panelGap, level := 5, time := t.ale.clock, entry := none, floor := .absent, context := none
                       panel := some p }]
        | none => [])
      ++ own ++ raised
      ++ (if t.ale.focus = s.ale.focus then []
          else [{ kind := .focusMoved, level := 7, time := t.ale.clock, entry := none
                  floor := (match t.ale.focus with
                    | some f => .placed f
                    | none => .absent)
                  context := none, panel := none }])
      ++ (if news.rolledUp = true then
            [{ kind := .tableFull, level := 7, time := t.ale.clock, entry := none, floor := .absent, context := none
               panel := none }]
          else [])

/-- The previous focus and the focus time (R100, step 1): set when the focus changes, and at no other time. -/
def FocusAfter (s t : State) : Prop :=
  (t.ale.focus = s.ale.focus → t.ale.previousFocus = s.ale.previousFocus ∧ t.ale.focusTime = s.ale.focusTime) ∧
  (t.ale.focus ≠ s.ale.focus → t.ale.previousFocus = s.ale.focus ∧ t.ale.focusTime = s.ale.clock)

/-- An event touches floor `f` (R73): the floor of an entry it freed, of one it made or changed or whose standing it altered, or
of a rolled-up report's zone. -/
def Touches (s t : State) (news : EventNews) (f : Nat) : Prop :=
  (∃ (i : EntryNo) (e : Entry), s.ale.places[i].entry = some e ∧ e.floor = some f ∧
    ∀ e', t.ale.places[i].entry = some e' → e.key ≠ e'.key ∨ e.category ≠ e'.category) ∨
  (∃ (i : EntryNo) (e' : Entry), t.ale.places[i].entry = some e' ∧ e'.floor = some f ∧
    ∀ e, s.ale.places[i].entry = some e → e.key ≠ e'.key ∨ e.category ≠ e'.category ∨
      s.ale.places[i].change ≠ t.ale.places[i].change ∨ e.standing ≠ e'.standing) ∨
  f ∈ news.floors

/-- An event owes context `c` an Urgent request (R73, R100, R104): the focus changed and the context follows it, or a New Entry
or Rearmed notice of level 6 or above was posted on a floor of its range. -/
def OwedUrgent (s t : State) (news : EventNews) (c : CtxNo) : Prop :=
  t.cxm.contexts[c].assigned = true ∧
    (t.ale.focus ≠ s.ale.focus ∧ t.cxm.contexts[c].mode = .followFocus ∨
      ∃ o ∈ news.own, (o.1 = .newEntry ∨ o.1 = .rearmed) ∧ ∃ (e : Entry) (f : Nat),
        t.ale.places[o.2].entry = some e ∧ 6 ≤ e.level.val ∧ e.floor = some f ∧ inRange t c f = true)

/-- An event owes context `c` a request (R73, R104): an Urgent one, or a Normal one for a touched floor of its range. -/
def Owed (s t : State) (news : EventNews) (c : CtxNo) : Prop :=
  OwedUrgent s t news c ∨ t.cxm.contexts[c].assigned = true ∧ ∃ f, Touches s t news f ∧ inRange t c f = true

/-- What an event hands the BCM (R73, R100, R103, R104, R138, R147, R149). A focus change abandons a composition whose snapshot
mode is Follow Focus and requeues it Urgent; any other composition stays, disturbed when its context is owed a request or a
touched floor lies in its walk. Every other context owed a request is then queued once: `raised` are those that join the
Urgent group, whether they stood in the Normal group or in none, `joined` those that join the Normal one. -/
def Requested (s t : State) (news : EventNews) : Prop :=
  ∃ (requeued raised joined : List CtxNo),
    (∀ x, s.bcm.composition = some x → t.ale.focus ≠ s.ale.focus → x.mode = .followFocus →
      t.bcm.composition = none ∧ t.bcm.pool = s.bcm.pool.set x.buffer true ∧ requeued = [x.context]) ∧
    (∀ x, s.bcm.composition = some x → (t.ale.focus = s.ale.focus ∨ x.mode ≠ .followFocus) →
      t.bcm.pool = s.bcm.pool ∧ requeued = [] ∧ ∃ disturbed, t.bcm.composition = some { x with disturbed := disturbed } ∧
        (disturbed = true ↔ x.disturbed = true ∨ Owed s t news x.context ∨
          x.phase = .walking ∧ ∃ f, Touches s t news f ∧ x.range.holds f = true)) ∧
    (s.bcm.composition = none → t.bcm.composition = none ∧ t.bcm.pool = s.bcm.pool ∧ requeued = []) ∧
    t.bcm.urgent = s.bcm.urgent ++ requeued ++ raised ∧
    t.bcm.normal = (s.bcm.normal.filter fun c => decide (c ∉ raised)) ++ joined ∧ raised.Nodup ∧ joined.Nodup ∧
    (∀ c, c ∈ raised ↔ OwedUrgent s t news c ∧ c ∉ s.bcm.urgent ++ requeued ∧ t.bcm.composing ≠ some c) ∧
    ∀ c, c ∈ joined ↔ Owed s t news c ∧ ¬OwedUrgent s t news c ∧ c ∉ s.bcm.urgent ++ requeued ∧ c ∉ s.bcm.normal ∧
      t.bcm.composing ≠ some c

/-- Steps 4 and 5 of an ALE event from `s` to `t` (R73), with what the event says of itself: the focus fields, the notices, and,
where the composer request queue keeps its law (R137), the requests and the disturbance. -/
def HandedOn (s t : State) (news : EventNews) : Prop :=
  FocusAfter s t ∧ (∃ ns, EventNotices s t news ns ∧ Told s t ns) ∧ (s.requestsSound → Requested s t news)

/-- The panel whose sequence a report skips (R59, R61). -/
def gapOf (s : State) (r : Report) : Option PanelNo :=
  match r.source with
  | .line => none
  | .panel p sequence => if s.ale.panels[p].last.any fun last => sequence != last + 1 then some p else none

/-! ### Refusals, holds and lines -/

/-- Of checks made in order, each with the reason it fails for, the first that fails has this reason. -/
def FirstFails : List (Prop × CommandReason) → CommandReason → Prop
  | [], _ => False
  | (holds, reason) :: rest, r => ¬holds ∧ r = reason ∨ holds ∧ FirstFails rest r

/-- The command of this row is refused with this reason, and nothing but its result record comes of it (R165). -/
def Refused (s : State) (row : Instr) (slot : Slot) (cmd : InFlight) (reason : CommandReason) : Prop :=
  ∃ t, exec row s = .next t ∧ Completed s t slot cmd (.refused reason) ∧ SameMap s t ∧ t = { s with pbi := t.pbi }

/-- The label at bytes `k` to `k + 3` of a command is that of a floor (R21). -/
def labelKnown (s : State) (cmd : InFlight) (k : Fin 13) : Prop := ∃ f, s.psc.floorOf (commandLabel cmd k) = .floor f

/-- The checks of every Gateway command (R120), in order. -/
def gatewayTable (s : State) (slot : Slot) (cmd : InFlight) : List (Prop × CommandReason) :=
  [(cmd.selector ≠ none, .badContext),
    (∃ c : CtxNo, cmd.selector = some c ∧ s.cxm.contexts[c].assigned = true ∧ s.cxm.contexts[c].owner = some slot,
      .notOwner)]

/-- The checks of Begin Load and Erase Plan (R35, R38). -/
def openingTable (s : State) : List (Prop × CommandReason) :=
  [(s.psc.state = .absent ∨ s.psc.state = .valid ∨ s.psc.state = .invalid, .wrongState),
    ((∀ c : CtxNo, s.cxm.contexts[c].assigned = false) ∧
      (∀ (i : EntryNo) (e : Entry), s.ale.places[i].entry = some e → e.phase = .cleared) ∧ s.rin.queue = [], .incident)]

/-- The checks of Assign Crew (R121). -/
def assignTable (s : State) (cmd : InFlight) : List (Prop × CommandReason) :=
  [((commandByte cmd 1).toNat ≤ 31, .badContext),
    (s.psc.valid = true, .noPlan),
    (∀ c : CtxNo, (commandByte cmd 1).toNat = c.val → s.cxm.contexts[c].assigned = false, .contextInUse),
    (∃ owner : Slot, (commandByte cmd 6).toNat = owner.val ∧ s.pbi.classes[owner] = .gateway, .badSlot),
    ((∃ mode : Mode, commandByte cmd 7 = mode.code) ∧
      ∀ k : Fin 4, isTextByte (cmd.record[2 + k.val]).toNat = true, .badCommand),
    (labelKnown s cmd 8, .unknownLabel)]

/-- The checks of a command that names an Assigned context by its number (R124). -/
def numberTable (s : State) (cmd : InFlight) : List (Prop × CommandReason) :=
  [((commandByte cmd 1).toNat ≤ 31, .badContext),
    (∀ c : CtxNo, (commandByte cmd 1).toNat = c.val → s.cxm.contexts[c].assigned = true, .contextFree)]

/-- The checks of Move Crew (R123), whose byte 2 is `p`; a label while the plan is not Valid is refused by R21. -/
def moveTable (s : State) (cmd : InFlight) (p : Nat) : List (Prop × CommandReason) :=
  numberTable s cmd ++
  [(p % 8 ≠ 0 ∧ (p % 2 = 1 → ∃ mode : Mode, commandByte cmd 3 = mode.code), .badCommand),
    (p / 2 % 2 = 1 → s.psc.valid = true, .noPlan),
    (p / 2 % 2 = 1 → labelKnown s cmd 4, .unknownLabel)]

/-- The checks of a floor label (R21). -/
def labelTable (s : State) (cmd : InFlight) (k : Fin 13) : List (Prop × CommandReason) :=
  [(s.psc.valid = true, .noPlan), (labelKnown s cmd k, .unknownLabel)]

/-- The checks of Mark Floor (R27). -/
def markTable (s : State) (slot : Slot) (cmd : InFlight) : List (Prop × CommandReason) :=
  gatewayTable s slot cmd ++ [(1 ≤ (commandByte cmd 1).toNat ∧ (commandByte cmd 1).toNat ≤ 3, .badCommand)]
    ++ labelTable s cmd 4 ++
  [(∀ (c : CtxNo) (f : Nat), cmd.selector = some c → s.psc.floorOf (commandLabel cmd 4) = .floor f →
      inRange s c f = true, .outOfWindow),
    (∀ (c : CtxNo) (f : Fin 128), cmd.selector = some c → s.psc.floorOf (commandLabel cmd 4) = .floor f.val →
      (commandByte cmd 1).toNat = 1 → s.cxm.marks[f].mark = .searching → s.cxm.marks[f].context = some c, .floorTaken)]

/-- Every hold of a slot ends with no action, and its timer stops (R82, R84); nothing else of the ALE changes. -/
def HoldsEnd (s t : State) (slot : Slot) : Prop :=
  (∀ j : EntryNo, t.ale.places[j].change = s.ale.places[j].change ∧
    t.ale.places[j].entry = s.ale.places[j].entry.map fun f =>
      { f with holder := if f.holder = some slot then none else f.holder }) ∧
  (∀ k : Slot, t.ale.holdTimers[k] = if k = slot then false else s.ale.holdTimers[k]) ∧
  t.ale = { s.ale with places := t.ale.places, holdTimers := t.ale.holdTimers }

/-- A lift's pending report after part 3 of a scan (R115), by the sample of its fault line. -/
def liftPending (x : Lift) (fault : Bool) : Option ReportKind :=
  if x.enabled = true ∧ fault = true ∧ x.fault = false then some .trouble
  else if x.enabled = true ∧ fault = false ∧ x.fault = true then some .troubleClear
  else x.pending

/-- A contact's pending report after part 2 of a scan (R110, R111): of the third sample in a row that differs from the accepted
state, the report of the change; otherwise what was pending. -/
def contactPending (x : Contact) (sample : Bool) : Option ReportKind :=
  if x.kind ≠ .unused ∧ x.accepted ≠ .latchedActive ∧ x.count = 2 ∧ (x.accepted = .active ↔ sample = false) then
    some (match x.kind, sample with
      | .supervisoryContact, true => .supervisory
      | .supervisoryContact, false => .supervisoryClear
      | _, true => .alarm
      | _, false => .restore)
  else x.pending

/-- The reports that stand for these pending kinds, in the order of R112: Lift A's and Lift B's (R115), then the contacts' in
rising line number, with the class of the line table entry (R111). -/
def reportsOffered (m : Memory) (lifts : Fin 2 → Option ReportKind) (contacts : Fin 16 → Option ReportKind) : List Report :=
  ((List.finRange 2).filterMap fun k => (lifts k).map fun kind =>
    { source := .line, kind := kind, loop := 1, address := byteOf k.val, hint := some 13, detection := 0 })
  ++ (List.finRange 16).filterMap fun k => (contacts k).map fun kind =>
    { source := .line, kind := kind, loop := 0, address := byteOf (16 + k.val)
      hint := some (classOf (lineClass m (16 + k.val))), detection := 0 }

/-! ### Items of a brief -/

/-- The bytes that items tested one after another leave in the buffer from `off` on (R145): each that ends by 8152. -/
def laidDown (off : Nat) : List (List Byte) → List Byte
  | [] => []
  | item :: rest => if off + item.length ≤ 8152 then item ++ laidDown (off + item.length) rest else laidDown off rest

/-- How many of them are omitted (R145). -/
def leftOut (off : Nat) : List (List Byte) → Nat
  | [] => 0
  | item :: rest => if off + item.length ≤ 8152 then leftOut (off + item.length) rest else leftOut off rest + 1

/-- The walk of composition `y` has tested these items from where the walk of `x` stood (R143, R145): the bytes of those that
fit stand in the buffer, the others are counted as omitted. -/
def ItemsPut (t : State) (x y : Composition) (items : List (List Byte)) : Prop :=
  y.walk.offset = x.walk.offset + (laidDown x.walk.offset items).length ∧
  t.bcm.buffers[x.buffer].readAll x.walk.offset (laidDown x.walk.offset items).length = laidDown x.walk.offset items ∧
  y.walk.items + leftOut x.walk.offset items = x.walk.items + items.length ∧
  y.walk.omitted = if leftOut x.walk.offset items = 0 then x.walk.omitted
    else min 65535 (x.walk.omitted + leftOut x.walk.offset items)

/-- Where a walk over floors up to `high` stands after floor `f`'s Floor Head, its first `features` features and its first
`zones` zones (R143). -/
def placeAfter (p : Psc) (high f features zones : Nat) : WalkPos :=
  if features < (floorFeatures p f).length then .feature f features
  else if zones < (floorZones p f).length then .zone f zones
  else if f < high then .floorHead (f + 1) else .lift 0

end Sys2Proof.Machine
end

