-- ==== Sys2Proof/Certificates/Slice0/Obligations.lean ====
section
/-!
DEFINITION. The statements for the provers.
-/

open Sys2Proof Sys2Proof.Machine

/-! ### The machine as a whole -/

/-- A step takes the command at the front of the queue, whole; with nothing waiting the part idles (log 6). -/
def Obligations.StepTakesFrontCommand : Prop :=
  ∀ (c : Instr) (rest : List Instr) (s : State),
    step { s with pending := c :: rest } = exec c { s with pending := rest } ∧
      step { s with pending := [] } = .next { s with pending := [] }

/-- No command stops the part, and none touches the commands still waiting. -/
def Obligations.EveryCommandIsTaken : Prop :=
  ∀ (c : Instr) (s : State), ∃ t, exec c s = .next t ∧ t.pending = s.pending

/-- What the machine holds after reset, where the manual gives the value. That the machine after reset is the factory part
after its first power-on is the model's reading (log 1, log 2). -/
def Obligations.ResetHoldsPowerOnValues : Prop :=
  let s := State.reset
  (s.psc.state = .absent ∧ s.psc.origin = .noRun ∧ s.psc.stage = 0 ∧ s.psc.reason = .noReason ∧ s.psc.offset = 0 ∧
      s.psc.revision = 0 ∧ (∀ a, s.psc.planSpace.read a = 0)) ∧
    s.rin.queue = [] ∧
    ((∀ i : EntryNo, s.ale.places[i] = emptyPlace) ∧ s.ale.alarmList = [] ∧ s.ale.listEpoch = 0 ∧
      (∀ z : Fin 2048, s.ale.zoneRollups[z] = 0) ∧ s.ale.unplacedRollup = 0 ∧
      (∀ p : PanelNo, s.ale.panels[p] = { last := none, gap := false }) ∧ s.ale.clock = 0 ∧ s.ale.focus = none ∧
      s.ale.focusEntry = none ∧ s.ale.previousFocus = none ∧ s.ale.focusTime = 0 ∧
      ∀ k : Slot, s.ale.holdTimers[k] = false) ∧
    ((∀ n : Fin 32, s.lmn.samples[n] = false) ∧
      (∀ k : Fin 16, s.lmn.contacts[k].kind = .unused ∧ s.lmn.contacts[k].accepted = .normal ∧
        s.lmn.contacts[k].pending = none) ∧
      ∀ k : Fin 2, s.lmn.lifts[k].enabled = false ∧ s.lmn.lifts[k].shown = none ∧ s.lmn.lifts[k].pending = none) ∧
    ((∀ c : CtxNo, s.cxm.contexts[c] = freeContext 0) ∧
      (∀ q : Fin 2, s.cxm.consoles[q].queue = emptyQueue ∧ s.cxm.consoles[q].mask = 0) ∧
      ∀ f : Fin 128, s.cxm.marks[f] = { mark := .unsearched, context := none, time := 0 }) ∧
    (s.bcm.urgent = [] ∧ s.bcm.normal = [] ∧ s.bcm.composition = none ∧ ∀ b : BufNo, s.bcm.pool[b] = true) ∧
    (∀ k : Slot, s.pbi.classes[k] = (if k = s.pbi.loaderSlot then .loader else .noClass) ∧ s.pbi.selectors[k] = none ∧
      s.pbi.inFlight[k] = none ∧ s.pbi.results[k].outcome = .idle ∧ s.pbi.results[k].reason = none ∧
      s.pbi.attention[k] = decide (k = s.pbi.loaderSlot)) ∧
    s.pbi.loaderFlag = true

/-- The machine after reset keeps every law. -/
def Obligations.ResetKeepsEveryLaw : Prop :=
  State.reset.memoriesWf ∧ State.reset.attentionTrue ∧ State.reset.runNamed ∧ State.reset.oneLoader ∧
    State.reset.intakeBounded ∧ State.reset.keysUnique ∧ State.reset.holdsSound ∧ State.reset.standingsTrue ∧
    State.reset.listOrdered ∧ State.reset.focusTrue ∧ State.reset.liftsSound ∧ State.reset.contactsSound ∧
    State.reset.crewsNeedPlan ∧ State.reset.freeIsBlank ∧ State.reset.masksBelowCeilings ∧ State.reset.queuesSound ∧
    State.reset.marksSound ∧ State.reset.requestsSound ∧ State.reset.buffersPlaced ∧ State.reset.briefFits ∧
    State.reset.briefsWhole

/-! ### Laws that every step keeps -/

/-- Every step keeps plan space and the buffers in canonical form. -/
def Obligations.StepKeepsMemories : Prop :=
  ∀ s t : State, s.memoriesWf → step s = .next t → t.memoriesWf

/-- Every step leaves every attention line at its condition (R167). -/
def Obligations.StepKeepsAttention : Prop :=
  ∀ s t : State, s.attentionTrue → step s = .next t → t.attentionTrue

/-- The plain laws: a run in progress has its stage and origin, exactly one slot is the Loader, the Intake Queue stays within
its 32 places, contacts are in order, masks stay at or below ceilings, crews are Assigned only under a Valid plan, a shown
floor lies in the building and only a Valid plan has enabled lifts (R117), a floor that is Searching names an Assigned
context (R31), and no two in-use entries share a key and category (R65). -/
def Obligations.StepKeepsPlainLaws : Prop :=
  ∀ s t : State, step s = .next t →
    (s.runNamed → t.runNamed) ∧ (s.oneLoader → t.oneLoader) ∧ (s.intakeBounded → t.intakeBounded) ∧
      (s.contactsSound → t.contactsSound) ∧ (s.masksBelowCeilings → t.masksBelowCeilings) ∧
      (s.crewsNeedPlan → t.crewsNeedPlan) ∧ (s.liftsSound → t.liftsSound) ∧ (s.marksSound → t.marksSound) ∧
      (s.keysUnique → t.keysUnique)

/-- Every step keeps the law of holds (R80). -/
def Obligations.StepKeepsHolds : Prop :=
  ∀ s t : State, s.holdsSound → step s = .next t → t.holdsSound

/-- After every step each in-use entry carries the standing the formula gives for the table as it stands (R91). -/
def Obligations.StepKeepsStandings : Prop :=
  ∀ s t : State, s.standingsTrue → step s = .next t → t.standingsTrue

/-- After every step the Alarm List holds every in-use entry exactly once, in its order (R74). -/
def Obligations.StepKeepsAlarmList : Prop :=
  ∀ s t : State, s.listOrdered → step s = .next t → t.listOrdered

/-- After every step the focus is the floor of the first eligible entry of the Alarm List (R98). -/
def Obligations.StepKeepsFocus : Prop :=
  ∀ s t : State, s.focusTrue → step s = .next t → t.focusTrue

/-- Every step keeps the law of the composer request queue (R137), and with it the blankness of Free contexts (R119). -/
def Obligations.StepKeepsRequests : Prop :=
  ∀ s t : State, s.requestsSound → step s = .next t →
    t.requestsSound ∧ (s.freeIsBlank → t.freeIsBlank)

/-- Every step keeps every notice queue within its capacity, with one notice per key (R131). -/
def Obligations.StepKeepsQueues : Prop :=
  ∀ s t : State, s.queuesSound → step s = .next t → t.queuesSound

/-- After every step each of the 33 brief buffers is in exactly one place (R151). -/
def Obligations.StepKeepsBuffers : Prop :=
  ∀ s t : State, s.buffersPlaced → step s = .next t → t.buffersPlaced

/-- No composition writes past its buffer, and every published brief is whole: header and trailer carry the context's brief
epoch (R145, R152 to R154). -/
def Obligations.StepKeepsBriefs : Prop :=
  ∀ s t : State, s.memoriesWf → s.buffersPlaced → s.briefFits → s.briefsWhole → step s = .next t →
    t.briefFits ∧ t.briefsWhole

/-! ### Rules of the whole machine -/

/-- A command refused at any check has no effect beyond its result record (R165). -/
def Obligations.RefusedCommandChangesNothing : Prop :=
  ∀ (code : CommandCode) (slot : Slot) (cmd : InFlight) (s t : State),
    Ready s slot code cmd → cmd.lost = false → exec (code.row slot) s = .next t →
      t.pbi.results[slot].outcome = .refused →
        t = { s with pbi := t.pbi } ∧ SameMap s t ∧ ∃ reason, Completed s t slot cmd (.refused reason)

/-- A transfer answered with Retry leaves every place as it stood (R158). -/
def Obligations.RetryChangesNothing : Prop :=
  ∀ (tr : Transfer) (data : List Byte) (s t : State), s.power = true →
    (exec (.registerWrite tr data) s = .next t ∨ exec (.lockedRead tr) s = .next t) →
      (t.pbi.response.map (·.termination)) = some .retry →
        t = { s with pbi := t.pbi } ∧ SameMap s t ∧ SameAreas s t ∧ ∃ inhibit, Answered s t tr .retry inhibit []

/-- A transfer never reaches another slot's command slot, result record or selector (R159), nor the class map. -/
def Obligations.SlotAreasAreApart : Prop :=
  ∀ (tr : Transfer) (data : List Byte) (s t : State),
    (exec (.registerWrite tr data) s = .next t ∨ exec (.commandSlotWrite tr data) s = .next t ∨
        exec (.contextSelectorWrite tr data) s = .next t ∨ exec (.planSpaceWrite tr data) s = .next t ∨
        exec (.intakeWrite tr data) s = .next t ∨ exec (.planStatusRead tr) s = .next t ∨
        exec (.lockedRead tr) s = .next t ∨ exec (.briefWindowRead tr) s = .next t) →
      t.pbi.classes = s.pbi.classes ∧ t.pbi.loaderSlot = s.pbi.loaderSlot ∧
        ∀ k : Slot, k ≠ tr.slot →
          t.pbi.selectors[k] = s.pbi.selectors[k] ∧ t.pbi.results[k] = s.pbi.results[k] ∧
            t.pbi.inFlight[k] = s.pbi.inFlight[k]

/-- The incident clock rises by 1 at a tick and holds at 65535, a tick changes nothing else, and no other command lowers
the clock but Incident Clear and the events of power (R87). -/
def Obligations.ClockOnlyRises : Prop :=
  (∀ s : State, s.power = true → ∃ t, exec .incidentClockTick s = .next t ∧
      t.ale.clock.toNat = min 65535 (s.ale.clock.toNat + 1) ∧
      t = { s with ale := { s.ale with clock := t.ale.clock }, pbi := { s.pbi with attention := t.pbi.attention } }) ∧
  ∀ (c : Instr) (s t : State), exec c s = .next t → (∀ slot, c ≠ .incidentClear slot) → (∀ k, c ≠ .powerOn k) →
    c ≠ .lossOfPower → s.ale.clock.toNat ≤ t.ale.clock.toNat

/-- Plan space changes by nothing but a plan-space write of the Loader while Loading, and Erase Plan (R2, R38, R40). -/
def Obligations.PlanSpaceIsGuarded : Prop :=
  ∀ (c : Instr) (s t : State), exec c s = .next t → t.psc.planSpace ≠ s.psc.planSpace →
    (∃ slot, c = .erasePlan slot) ∨
      (s.psc.state = .loading ∧ ∃ tr data,
        (c = .planSpaceWrite tr data ∨ c = .registerWrite tr data ∨ c = .commandSlotWrite tr data ∨
          c = .intakeWrite tr data ∨ c = .contextSelectorWrite tr data) ∧
        s.pbi.classes[tr.slot] = .loader ∧ 0x40 ≤ tr.bank.toNat ∧ tr.bank.toNat ≤ 0x5F)

/-- The List Epoch rises by 1 at each event after which the list differs from what it was, stands otherwise, and is 0 after
power-on (R75). -/
def Obligations.ListEpochCountsChanges : Prop :=
  (∀ (c : Instr) (s t : State), s.listOrdered → exec c s = .next t → (∀ k, c ≠ .powerOn k) → c ≠ .lossOfPower →
    t.ale.listEpoch = if listPositions t.ale = listPositions s.ale then s.ale.listEpoch else s.ale.listEpoch + 1) ∧
  ∀ (k : Straps) (s t : State), exec (.powerOn k) s = .next t → t.ale.listEpoch = 0

/-! ### Shared rules -/

/-- Queueing one notice: the four cases, the first that applies deciding; the law they keep; and the capacities, 16 for a
context and 32 for a Console Queue (R131). -/
def Obligations.QueueingFollowsFourCases : Prop :=
  contextCapacity = 16 ∧ consoleCapacity = 32 ∧
  ∀ (capacity : Nat) (q : NoticeQueue) (n : Notice), 0 < capacity → q.sound capacity →
    (enqueue capacity q n).sound capacity ∧
    (∀ (pre post : List Notice) (m : Notice), q.notices = pre ++ m :: post → m.sameKey n = true →
      enqueue capacity q n = { q with notices := pre ++ n :: post }) ∧
    ((∀ m ∈ q.notices, m.sameKey n = false) → q.notices.length < capacity →
      enqueue capacity q n = { q with notices := q.notices ++ [n] }) ∧
    (∀ (pre post : List Notice) (m : Notice), q.notices = pre ++ m :: post → (∀ x ∈ q.notices, x.sameKey n = false) →
      q.notices.length = capacity → m.level < n.level → (∀ x ∈ pre, m.level < x.level) →
      (∀ x ∈ post, m.level ≤ x.level) → enqueue capacity q n = { q with notices := pre ++ post ++ [n] }) ∧
    ((∀ m ∈ q.notices, m.sameKey n = false) → q.notices.length = capacity → (∀ m ∈ q.notices, n.level ≤ m.level) →
      enqueue capacity q n = { q with overrun := true })

/-- A range holds its centre, lies in the building, holds at most 7 floors, and is clipped when an end was moved (R24). -/
def Obligations.RangeHoldsItsCentre : Prop :=
  ∀ (floors centre : Nat) (below above : Fin 4), centre < floors →
    let r := rangeAround floors centre below above
    r.low ≤ centre ∧ centre ≤ r.high ∧ r.high < floors ∧ r.high < r.low + 7 ∧
      (r.clipped = false ↔ r.low + below.val = centre ∧ r.high = centre + above.val) ∧
      (centre < below.val → r.low = 0) ∧ (floors ≤ centre + above.val → r.high = floors - 1)

/-- Corroboration credits a Fire entry of a zone with 20 for each other graded Fire entry of that zone within 90
seconds, up to three, and the test is symmetric (R93). -/
def Obligations.CorroborationCountsNeighbours : Prop :=
  (∀ (entries : List (EntryNo × Entry)) (i : EntryNo) (e : Entry),
    corroboration entries i e =
      if e.category = .fire ∧ e.zone ≠ none then
        20 * min 3 (entries.filter fun o => decide (o.1 ≠ i ∧ o.2.zone = e.zone ∧ o.2.category = .fire ∧
          (o.2.phase = .active ∨ o.2.phase = .acknowledged ∨ o.2.phase = .restored) ∧
          o.2.firstAlarm.toNat ≤ e.firstAlarm.toNat + 90 ∧ e.firstAlarm.toNat ≤ o.2.firstAlarm.toNat + 90)).length
      else 0) ∧
  ∀ e f : Entry, e.category = .fire → f.category = .fire → e.phase.graded = true → f.phase.graded = true →
    e.zone = f.zone → (corroborates e f = true ↔ corroborates f e = true)

/-- A pointer that resolves names a record that lies at a multiple of 4 in its bank, within the plan, of the field's kind, and
within its bank, the Device Index excepted (R9). -/
def Obligations.ResolutionIsSound : Prop :=
  ∀ (m : Memory) (field : PointerField) (p : PlanPointer) (loc : Nat), resolve m field p = .found loc →
    (p.form = 1 ∧ field.nearAllowed = true ∨ p.form = 2) ∧ loc % 4 = p.offset % 4 ∧ p.offset % 4 = 0 ∧
      kindMatches m loc field = true ∧ loc + recordLength m loc field ≤ headerLength m ∧ loc + 4 ≤ headerLength m ∧
      (field ≠ .deviceIndex → p.offset + recordLength m loc field ≤ 65536) ∧
      ∃ bank, 0x40 ≤ bank ∧ bank ≤ 0x5F ∧ loc = (bank - 0x40) * 65536 + p.offset ∧
        bank = if p.form = 1 then m.u8 (52 + field.defaultBank) else p.bank

/-- Validation requires the labels to differ: stage 4 fails with DuplicateLabel at the first entry whose label equals one at
a lower index, and where it passes every label names one floor (R20). -/
def Obligations.LabelsAreUnique : Prop :=
  ∀ (m : Memory) (base : Nat), resolve m .labelTable (pointerAt m 76) = .found base →
    (∀ i, i < headerFloors m → (∀ j, j ≤ i → (labelAt m (base + 4 * j)).inRange = true) →
      (∀ j k, j < k → k < i → labelAt m (base + 4 * j) ≠ labelAt m (base + 4 * k)) →
      (∃ j, j < i ∧ labelAt m (base + 4 * j) = labelAt m (base + 4 * i)) →
      stageLabels m = some { reason := .duplicateLabel, offset := base + 4 * i }) ∧
    (stageLabels m = none → ∀ i j, i < headerFloors m → j < headerFloors m →
      labelAt m (base + 4 * i) = labelAt m (base + 4 * j) → i = j)

/-! ### Power and bus reset -/

/-- Power-on reads plan space and the stored state, samples the straps, a binary number with the first strap as its least
significant bit, and gives every block its power-on values (R44, R108, R156, R157); loss of power keeps plan space and the
stored state (R40). Three things in it are the model's: which of several slot class entries together breach a limit in a
provisional map (`slotEntryOk`, log 12), a lift's base and max step before a plan sets them (in `lmnPowerOn`, log 4), and the
bytes of brief buffers that nothing has written (in `bcmPowerOn`, log 5). -/
def Obligations.PowerOnReadsTheStore : Prop :=
  (∀ (straps : Straps) (s : State), ∃ (t : State) (loader : Slot), exec (.powerOn straps) s = .next t ∧
    loader.val = straps.first.toNat + 2 * straps.second.toNat + 4 * straps.third.toNat ∧
    t.power = true ∧ t.psc.planSpace = s.psc.planSpace ∧ t.psc.offset = 0 ∧ t.psc.revision = 0 ∧
    (s.psc.state = .absent → t.psc.state = .absent ∧ t.psc.origin = .noRun ∧ t.psc.stage = 0 ∧
      t.psc.reason = .noReason) ∧
    (s.psc.state = .loading → t.psc.state = .invalid ∧ t.psc.origin = .noRun ∧ t.psc.stage = 0 ∧
      t.psc.reason = .interrupted) ∧
    (s.psc.state ≠ .absent → s.psc.state ≠ .loading → t.psc.state = .validating ∧ t.psc.origin = .powerOn ∧
      t.psc.stage = 1 ∧ t.psc.reason = .noReason) ∧
    t.pbi.loaderSlot = loader ∧ t.pbi.classes[loader] = .loader ∧
    (∀ k : Slot, k ≠ loader → t.pbi.classes[k] =
      if s.psc.state ≠ .absent ∧ s.psc.state ≠ .loading ∧ slotEntryOk s.psc.planSpace loader k = true then
        slotEntryClass s.psc.planSpace k
      else .noClass) ∧
    (t.pbi.loaderFlag = true ↔ t.psc.state ≠ .validating) ∧
    (∀ k : Slot, t.pbi.selectors[k] = none ∧ t.pbi.inFlight[k] = none ∧ t.pbi.results[k].outcome = .idle ∧
      t.pbi.results[k].reason = none ∧ t.pbi.results[k].returned = Vector.replicate 12 0) ∧
    t.rin.queue = [] ∧ t.ale = alePowerOn ∧ t.lmn = lmnPowerOn ∧ t.cxm = cxmPowerOn ∧ t.bcm = bcmPowerOn ∧
    t.pending = s.pending) ∧
  ∀ s : State, ∃ t, exec .lossOfPower s = .next t ∧ t.power = false ∧ t.psc.planSpace = s.psc.planSpace ∧
    t.psc.state = s.psc.state ∧ t.pending = s.pending

/-- A bus reset ends every hold, empties selectors and result records, keeps commands in flight without their results, and
leaves all else (R168). -/
def Obligations.BusResetEndsHolds : Prop :=
  ∀ s : State, s.power = true → s.attentionTrue → ∃ t, exec .busReset s = .next t ∧
    t = { s with ale := t.ale, pbi := t.pbi } ∧
    t.ale = { s.ale with places := t.ale.places, holdTimers := t.ale.holdTimers } ∧
    (∀ i : EntryNo, t.ale.places[i].change = s.ale.places[i].change ∧
      t.ale.places[i].entry = s.ale.places[i].entry.map fun e => { e with holder := none }) ∧
    (∀ k : Slot, t.ale.holdTimers[k] = false ∧ t.pbi.selectors[k] = none ∧
      t.pbi.results[k].outcome = .idle ∧ t.pbi.results[k].reason = none ∧
      t.pbi.results[k].returned = Vector.replicate 12 0 ∧
      t.pbi.inFlight[k] = s.pbi.inFlight[k].map (fun x => { x with lost := true }) ∧
      t.pbi.attention[k] = s.pbi.attention[k]) ∧
    t.pbi.classes = s.pbi.classes ∧ t.pbi.loaderSlot = s.pbi.loaderSlot ∧ t.pbi.loaderFlag = s.pbi.loaderFlag

/-! ### Plan space, the plan status and the Loader's commands -/

/-- A Loader's write to plan space while Loading stores its bytes and no others; any other write to plan space stores nothing
and is answered with Fault (R2). -/
def Obligations.PlanSpaceWriteStores : Prop :=
  (∀ (s : State) (tr : Transfer) (data : List Byte) (bank : Fin 32), s.power = true → s.psc.planSpace.wf →
    s.psc.state = .loading → s.pbi.classes[tr.slot] = .loader → tr.bank.toNat = 0x40 + bank.val → tr.lock = false →
    tr.lockEnd = false → aligned tr = true → tr.offset.toNat + tr.size.bytes ≤ 65536 → data.length = tr.size.bytes →
    ∃ t, exec (.planSpaceWrite tr data) s = .next t ∧
      (∀ a, t.psc.planSpace.read a =
        if 65536 * bank.val + tr.offset.toNat ≤ a ∧ a < 65536 * bank.val + tr.offset.toNat + data.length then
          data.getD (a - (65536 * bank.val + tr.offset.toNat)) 0
        else s.psc.planSpace.read a) ∧
      t = { s with psc := { s.psc with planSpace := t.psc.planSpace }, pbi := t.pbi } ∧ SameMap s t ∧ SameAreas s t ∧
      Answered s t tr .done false []) ∧
  ∀ (s : State) (tr : Transfer) (data : List Byte), s.power = true → 0x40 ≤ tr.bank.toNat → tr.bank.toNat ≤ 0x5F →
    ¬(s.psc.state = .loading ∧ s.pbi.classes[tr.slot] = .loader) →
    ∃ t, exec (.planSpaceWrite tr data) s = .next t ∧ t = { s with pbi := t.pbi } ∧ SameMap s t ∧ SameAreas s t ∧
      Answered s t tr .fault false []

/-- The Loader's read of the state field clears its attention flag and lowers its line; it returns the record's bytes. A read
by another slot, or of another byte, leaves the flag (R162). -/
def Obligations.PlanStatusReadClearsFlag : Prop :=
  (∀ (s : State) (tr : Transfer), s.power = true → s.pbi.classes[tr.slot] = .loader → tr.bank = 0 → tr.offset = 0x10 →
    tr.lock = false → tr.lockEnd = false →
    ∃ t, exec (.planStatusRead tr) s = .next t ∧ t.pbi.loaderFlag = false ∧ t.pbi.attention[tr.slot] = false ∧
      t = { s with pbi := t.pbi } ∧ t.pbi.classes = s.pbi.classes ∧ SameAreas s t ∧
      Answered s t tr .done (tr.size == .burst) ((planStatusRecord s.psc).take (singleBytes tr))) ∧
  ∀ (s t : State) (tr : Transfer), exec (.planStatusRead tr) s = .next t →
    (s.pbi.classes[tr.slot] ≠ .loader ∨ tr.bank ≠ 0 ∨ tr.offset ≠ 0x10) → t.pbi.loaderFlag = s.pbi.loaderFlag

/-- Begin Load, accepted, opens plan space and keeps its bytes; Erase Plan, accepted, empties it and settles at Absent. Where
the plan was Valid it leaves the other blocks, the contacts and lifts by row 3 of R108 (R35, R38, R46). Their checks, in order, are the state and the incident
condition, refused with WrongState and Incident (R35). -/
def Obligations.BeginLoadAndErasePlan : Prop :=
  ∀ (s : State) (slot : Slot) (cmd : InFlight) (erase : Bool),
    Ready s slot (if erase then .erasePlan else .beginLoad) cmd →
    ((s.psc.state = .absent ∨ s.psc.state = .valid ∨ s.psc.state = .invalid) →
      (∀ c : CtxNo, s.cxm.contexts[c].assigned = false) →
      (∀ (i : EntryNo) (e : Entry), s.ale.places[i].entry = some e → e.phase = .cleared) → s.rin.queue = [] →
      s.requestsSound →
      ∃ t, exec (if erase then .erasePlan slot else .beginLoad slot) s = .next t ∧
        t.psc.state = (if erase then .absent else .loading) ∧ t.psc.origin = .noRun ∧ t.psc.stage = 0 ∧
        t.psc.reason = .noReason ∧ t.psc.offset = 0 ∧ t.psc.revision = 0 ∧
        (∀ a, t.psc.planSpace.read a = if erase then 0 else s.psc.planSpace.read a) ∧
        Completed s t slot cmd (.done []) ∧
        t.pbi.loaderFlag = (if erase then true else s.pbi.loaderFlag) ∧
        t.rin = s.rin ∧ t.cxm = s.cxm ∧ t.bcm = s.bcm ∧ t.pending = s.pending ∧
        (s.psc.state ≠ .valid → t.ale = s.ale ∧ t.lmn = s.lmn ∧ t.pbi.classes = s.pbi.classes) ∧
        (s.psc.state = .valid →
          (∀ k : Slot, t.pbi.classes[k] = if k = s.pbi.loaderSlot then .loader else .noClass) ∧
          (∀ k : Fin 16, t.lmn.contacts[k] = { kind := .unused, tableCapture := .follow, capture := .follow
                                               accepted := .normal, count := 0, pending := none }) ∧
          (∀ k : Fin 2, t.lmn.lifts[k].enabled = false ∧ t.lmn.lifts[k].shown = none ∧ t.lmn.lifts[k].fault = false ∧
            t.lmn.lifts[k].implausible = false ∧ t.lmn.lifts[k].tracking = false ∧ t.lmn.lifts[k].decoded = none ∧
            t.lmn.lifts[k].pending = none) ∧ t.lmn.samples = s.lmn.samples ∧
          (∀ i : EntryNo, t.ale.places[i].change = s.ale.places[i].change ∧
            sameButStanding t.ale.places[i].entry (s.ale.places[i].entry.map fun e => { e with holder := none })))) ∧
    ∀ reason, FirstFails (openingTable s) reason →
      Refused s (if erase then .erasePlan slot else .beginLoad slot) slot cmd reason

/-- Commit Plan in Loading moves the state to Validating with origin Commit, stage 1, reason None and offset 0 (R36). Abort Load
in Loading settles the state at Invalid with reason Aborted, keeps the bytes, and from then on every write to plan space is
answered with Fault (R37). In any other state each is refused with WrongState. -/
def Obligations.CommitAndAbortEndLoading : Prop :=
  ∀ (s : State) (slot : Slot) (cmd : InFlight),
    (Ready s slot .commitPlan cmd →
      (s.psc.state = .loading → ∃ t, exec (.commitPlan slot) s = .next t ∧
        t.psc = { s.psc with state := .validating, origin := .commit, stage := 1, reason := .noReason, offset := 0 } ∧
        Completed s t slot cmd (.done []) ∧ SameMap s t ∧ t = { s with psc := t.psc, pbi := t.pbi }) ∧
      (s.psc.state ≠ .loading → ∃ t, exec (.commitPlan slot) s = .next t ∧
        Completed s t slot cmd (.refused .wrongState) ∧ SameMap s t ∧ t = { s with pbi := t.pbi })) ∧
    (Ready s slot .abortLoad cmd →
      (s.psc.state = .loading → ∃ t, exec (.abortLoad slot) s = .next t ∧
        t.psc = { s.psc with state := .invalid, origin := .noRun, stage := 0, reason := .aborted, offset := 0 } ∧
        Completed s t slot cmd (.done []) ∧ t.pbi.classes = s.pbi.classes ∧ t.pbi.loaderFlag = true ∧
        t = { s with psc := t.psc, pbi := t.pbi } ∧
        ∀ (tr : Transfer) (data : List Byte), 0x40 ≤ tr.bank.toNat → tr.bank.toNat ≤ 0x5F →
          ∃ u, exec (.planSpaceWrite tr data) t = .next u ∧ u.psc = t.psc ∧
            u.pbi.response.map (·.termination) = some .fault) ∧
      (s.psc.state ≠ .loading → ∃ t, exec (.abortLoad slot) s = .next t ∧
        Completed s t slot cmd (.refused .wrongState) ∧ SameMap s t ∧ t = { s with pbi := t.pbi }))

/-- The completion of a stage. A pass goes to the next stage; a failure settles the run at Invalid with its reason and offset.
The pass of stage 7 makes the plan Valid in every block: the map, the marks, the panel records and the roll-up counts; every
entry resolved again, its change number raised when its class, floor or zone changes; the lines and the lifts as the line
table sets them; the notices of the event; and a request for every Assigned context (R41 to R43, R45, R47, R84, R85, R108). -/
def Obligations.ValidationStageCompletes : Prop :=
  ∀ s : State, s.power = true → s.psc.state = .validating →
    (∀ zones, stageVerdict s.psc s.pbi.loaderSlot = .ok zones → s.psc.stage ≠ 7 →
      ∃ t, exec .validationStage s = .next t ∧
        t.psc = { s.psc with stage := s.psc.stage + 1, zonePlaces := zones } ∧
        t = { s with psc := t.psc, pbi := { s.pbi with attention := t.pbi.attention } }) ∧
    (∀ f, stageVerdict s.psc s.pbi.loaderSlot = .error f →
      ∃ t, exec .validationStage s = .next t ∧
        t.psc = { s.psc with state := .invalid, reason := f.reason, offset := f.offset } ∧ t.pbi.loaderFlag = true ∧
        t.lmn = s.lmn ∧ t.cxm = s.cxm ∧ t.bcm = s.bcm ∧ t.pending = s.pending ∧
        (s.psc.origin ≠ .powerOn → t.rin = s.rin ∧ t.ale = s.ale ∧ t.pbi.classes = s.pbi.classes) ∧
        (s.psc.origin = .powerOn → t.rin.queue = [] ∧
          ∀ k : Slot, t.pbi.classes[k] = if k = s.pbi.loaderSlot then .loader else .noClass)) ∧
    (∀ zones, stageVerdict s.psc s.pbi.loaderSlot = .ok zones → s.psc.stage = 7 →
      ∃ t, exec .validationStage s = .next t ∧
        t.psc = { s.psc with state := .valid, stage := 0, reason := .noReason, offset := 0
                             revision := headerRevision s.psc.planSpace, zonePlaces := zones } ∧
        t.pbi.loaderFlag = true ∧
        (∀ k : Slot, t.pbi.classes[k] =
          if k = s.pbi.loaderSlot then .loader
          else if slotEntryOk s.psc.planSpace s.pbi.loaderSlot k = true then slotEntryClass s.psc.planSpace k
          else .noClass) ∧
        (∀ f : Fin 128, t.cxm.marks[f] = { mark := .unsearched, context := none, time := 0 }) ∧
        (∀ p : PanelNo, t.ale.panels[p] = { last := none, gap := false }) ∧
        (∀ z : Fin 2048, t.ale.zoneRollups[z] = if z.val < headerZones s.psc.planSpace then s.ale.zoneRollups[z] else 0) ∧
        t.ale.unplacedRollup = s.ale.unplacedRollup ∧
        (∀ i : EntryNo, s.ale.places[i].entry = none →
          t.ale.places[i].entry = none ∧ t.ale.places[i].change = s.ale.places[i].change) ∧
        (∀ (i : EntryNo) (e : Entry), s.ale.places[i].entry = some e →
          ∃ (cls : Fin 16) (floor zone : Option Nat),
            (∀ d, t.psc.deviceLookup e.key = some d → cls = d.cls ∧ floor = d.floor ∧ zone = some d.zone) ∧
            (t.psc.deviceLookup e.key = none → cls = e.cls ∧ floor = none ∧ zone = none) ∧
            sameButStanding t.ale.places[i].entry (some { e with
              cls := cls, floor := floor, zone := zone
              holder := e.holder.filter fun h => decide (t.pbi.classes[h] = .console) }) ∧
            t.ale.places[i].change = if cls = e.cls ∧ floor = e.floor ∧ zone = e.zone then s.ale.places[i].change
              else s.ale.places[i].change + 1) ∧
        (∀ k : Slot, t.ale.holdTimers[k] = (s.ale.holdTimers[k] && decide (t.pbi.classes[k] = .console))) ∧
        FocusAfter s t ∧ (∃ ns, EventNotices s t noNews ns ∧ Told s t ns) ∧
        (∀ c : CtxNo, t.cxm.contexts[c] = { s.cxm.contexts[c] with queue := t.cxm.contexts[c].queue }) ∧
        (∀ q : Fin 2, t.cxm.consoles[q].mask = s.cxm.consoles[q].mask) ∧
        (∀ c : CtxNo, t.cxm.contexts[c].assigned = true →
          c ∈ t.bcm.urgent ∨ c ∈ t.bcm.normal ∨ t.bcm.composing = some c) ∧
        t.lmn.samples = s.lmn.samples ∧
        (∀ k : Fin 16, t.lmn.contacts[k] = {
          kind := ContactKind.ofCode (lineKind s.psc.planSpace (16 + k.val))
          tableCapture := Capture.ofCode (lineCapture s.psc.planSpace (16 + k.val))
          capture := Capture.ofCode (lineCapture s.psc.planSpace (16 + k.val))
          accepted := .normal, count := 0, pending := none }) ∧
        (∀ k : Fin 2, (t.lmn.lifts[k].enabled = true ↔ s.psc.planSpace.u8 (lineEntryAt (8 * k.val) + 1) = 1) ∧
          t.lmn.lifts[k] = {
            enabled := t.lmn.lifts[k].enabled
            base := s.psc.planSpace.read (lineEntryAt (8 * k.val) + 2)
            maxStep := s.psc.planSpace.read (lineEntryAt (8 * k.val) + 3)
            shown := none, fault := false, implausible := false, tracking := false, decoded := none, pending := none }) ∧
        t.rin = s.rin ∧ t.ale.clock = s.ale.clock ∧ t.bcm.buffers = s.bcm.buffers ∧ t.pending = s.pending)

/-! ### Reports -/

/-- A Panel's burst to the intake window: Fault when malformed, Retry at 28 or more occupied places, and otherwise Done with
the report at the tail, completed with the slot's panel number (R49, R51, R53). -/
def Obligations.IntakeWriteJudgesArrival : Prop :=
  ∀ (s : State) (tr : Transfer) (panel : PanelNo) (d0 d1 d2 d3 d4 d5 : Byte) (unused : List Byte), s.power = true →
    s.pbi.classes[tr.slot] = .panel panel → tr.bank = 0x08 → tr.offset = 0 → tr.size = .burst → tr.lock = false →
    tr.lockEnd = false → unused.length = 10 →
    ∃ t, exec (.intakeWrite tr ([d0, d1, d2, d3, d4, d5] ++ unused)) s = .next t ∧
      t = { s with rin := t.rin, pbi := t.pbi } ∧ SameMap s t ∧ SameAreas s t ∧
      ((d1 = 0 ∨ 7 < d1.toNat ∨ 15 < d2.toNat ∨ 15 < d4.toNat ∧ d4.toNat < 255) →
        t.rin = s.rin ∧ Answered s t tr .fault false []) ∧
      (1 ≤ d1.toNat → d1.toNat ≤ 7 → d2.toNat ≤ 15 → (d4.toNat ≤ 15 ∨ d4 = 0xFF) →
        (28 ≤ s.rin.queue.length → t.rin = s.rin ∧ Answered s t tr .retry false []) ∧
        (s.rin.queue.length < 28 → Answered s t tr .done false [] ∧
          ∃ r : Report, t.rin.queue = s.rin.queue ++ [r] ∧ r.source = .panel panel d0 ∧ r.kind.code = d1 ∧
            r.loop.val = d2.toNat ∧ r.address = d3 ∧ orNone (r.hint.map (·.val)) = d4 ∧ r.detection = d5))

/-- An activation report that finds no entry makes one in the lowest free place, posts a New Entry notice for it, and hands on
the event (R59, R61, R65, R67, R68, R72, R73). -/
def Obligations.ReportTakeMakesEntry : Prop :=
  ∀ (s : State) (r : Report) (rest : List Report) (i : EntryNo), s.power = true → deferring s = false →
    s.rin.queue = r :: rest → notDuplicate s r → r.kind.activates = true →
    (∀ (j : EntryNo) (f : Entry), s.ale.places[j].entry = some f → f.key = r.key → f.category ≠ r.kind.category) →
    s.ale.places[i].entry = none → (∀ j : EntryNo, j < i → s.ale.places[j].entry ≠ none) →
    ∃ (t : State) (e : Entry), exec .reportTake s = .next t ∧ t.rin.queue = rest ∧
      t.ale.places[i].entry = some e ∧ t.ale.places[i].change = s.ale.places[i].change + 1 ∧
      e.key = r.key ∧ e.category = r.kind.category ∧ e.phase = .active ∧ e.firstAlarm = s.ale.clock ∧
      e.lastChange = s.ale.clock ∧ e.detection = r.detection ∧ e.reactivations = 0 ∧ e.holder = none ∧
      (∀ d, s.psc.deviceLookup r.key = some d → e.cls = d.cls ∧ e.floor = d.floor ∧ e.zone = some d.zone) ∧
      (s.psc.deviceLookup r.key = none → e.cls = r.hint.getD 0 ∧ e.floor = none ∧ e.zone = none) ∧
      (∀ j : EntryNo, j ≠ i → t.ale.places[j].change = s.ale.places[j].change ∧
        sameButStanding t.ale.places[j].entry s.ale.places[j].entry) ∧
      HandedOn s t { gap := gapOf s r, own := [(.newEntry, i)], rolledUp := false, floors := [] } ∧
      panelsAfter s r t.ale.panels ∧ CountersFrame s t ∧ t.ale.holdTimers = s.ale.holdTimers ∧ EventFrame s t ∧
      t.pbi = { s.pbi with attention := t.pbi.attention }

/-- A report that finds the entry of its key and category: an activation refreshes, rearms or starts it afresh by its phase,
with no notice, Rearmed or New Entry; a clearing report restores an Active or Acknowledged entry, with Restored, and has no
effect on another (R69, R70, R72). A clearing report that finds no entry has no effect either (R70). A report without effect
hands on nothing but the Panel Gap notice of a sequence it skips (R61, R73). -/
def Obligations.ReportTakeMovesEntry : Prop :=
  (∀ (s : State) (r : Report) (rest : List Report) (i : EntryNo) (e : Entry), s.power = true → deferring s = false →
    s.rin.queue = r :: rest → notDuplicate s r → r.kind ≠ .panelReset → s.keysUnique →
    s.ale.places[i].entry = some e → e.key = r.key → e.category = r.kind.category →
    ∃ (t : State) (own : List (NoticeKind × EntryNo)), exec .reportTake s = .next t ∧ t.rin.queue = rest ∧
      HandedOn s t { gap := gapOf s r, own := own, rolledUp := false, floors := [] } ∧
      (r.kind.activates = true →
        t.ale.places[i].change = s.ale.places[i].change + 1 ∧
        ((e.phase = .active ∨ e.phase = .acknowledged) → own = [] ∧ sameButStanding t.ale.places[i].entry
          (some { e with lastChange := s.ale.clock, detection := r.detection })) ∧
        ((e.phase = .restored ∨ e.phase = .discounted) → own = [(.rearmed, i)] ∧
          sameButStanding t.ale.places[i].entry
            (some { e with phase := .active, lastChange := s.ale.clock, detection := r.detection
                           reactivations := BitVec.ofNat 8 (min 255 (e.reactivations.toNat + 1)) })) ∧
        (e.phase = .cleared → own = [(.newEntry, i)] ∧ sameButStanding t.ale.places[i].entry
          (some { e with phase := .active, firstAlarm := s.ale.clock, lastChange := s.ale.clock, reactivations := 0
                         detection := r.detection }))) ∧
      (r.kind.activates = false →
        ((e.phase = .active ∨ e.phase = .acknowledged) → own = [(.restored, i)] ∧
          t.ale.places[i].change = s.ale.places[i].change + 1 ∧
          sameButStanding t.ale.places[i].entry (some { e with phase := .restored, lastChange := s.ale.clock })) ∧
        (e.phase ≠ .active → e.phase ≠ .acknowledged → own = [] ∧
          t.ale = { s.ale with panels := t.ale.panels } ∧ t.bcm = s.bcm ∧ t.cxm.contexts = s.cxm.contexts)) ∧
      (∀ j : EntryNo, j ≠ i → t.ale.places[j].change = s.ale.places[j].change ∧
        sameButStanding t.ale.places[j].entry s.ale.places[j].entry) ∧
      panelsAfter s r t.ale.panels ∧ CountersFrame s t ∧ t.ale.holdTimers = s.ale.holdTimers ∧ EventFrame s t ∧
      t.pbi = { s.pbi with attention := t.pbi.attention }) ∧
  ∀ (s : State) (r : Report) (rest : List Report), s.power = true → deferring s = false → s.rin.queue = r :: rest →
    notDuplicate s r → r.kind.activates = false → r.kind ≠ .panelReset →
    (∀ (j : EntryNo) (f : Entry), s.ale.places[j].entry = some f → f.key = r.key → f.category ≠ r.kind.category) →
    ∃ t, exec .reportTake s = .next t ∧ t.rin.queue = rest ∧
      HandedOn s t { gap := gapOf s r, own := [], rolledUp := false, floors := [] } ∧
      t.ale = { s.ale with panels := t.ale.panels } ∧ t.bcm = s.bcm ∧ t.cxm.contexts = s.cxm.contexts ∧
      panelsAfter s r t.ale.panels ∧ EventFrame s t ∧ t.pbi = { s.pbi with attention := t.pbi.attention }

/-- An activation report that finds no entry in a full table: the Cleared entry with the oldest last-change time, the lowest
number among equals, gives its place to the new entry and its hold ends (R76); with no Cleared entry the report is counted in
its zone's roll-up count, or in the unplaced one, up to 255, no entry and no standing moves, and a Table Full notice is
posted; the zone's floor is touched (R73, R77). -/
def Obligations.ReportTakeAtFullTable : Prop :=
  ∀ (s : State) (r : Report) (rest : List Report), s.power = true → deferring s = false → s.rin.queue = r :: rest →
    notDuplicate s r → r.kind.activates = true →
    (∀ (j : EntryNo) (f : Entry), s.ale.places[j].entry = some f → f.key = r.key → f.category ≠ r.kind.category) →
    (∀ j : EntryNo, s.ale.places[j].entry ≠ none) →
    ∃ t, exec .reportTake s = .next t ∧ t.rin.queue = rest ∧ panelsAfter s r t.ale.panels ∧ EventFrame s t ∧
      t.pbi = { s.pbi with attention := t.pbi.attention } ∧
      (∀ (i : EntryNo) (e : Entry), s.ale.places[i].entry = some e → e.phase = .cleared →
        (∀ (j : EntryNo) (f : Entry), s.ale.places[j].entry = some f → f.phase = .cleared → j ≠ i →
          e.lastChange.toNat < f.lastChange.toNat ∨ e.lastChange = f.lastChange ∧ i < j) →
        t.ale.places[i].change = s.ale.places[i].change + 1 ∧ CountersFrame s t ∧
        HandedOn s t { gap := gapOf s r, own := [(.newEntry, i)], rolledUp := false, floors := [] } ∧
        (∃ x, t.ale.places[i].entry = some x ∧ x.key = r.key ∧ x.category = r.kind.category ∧ x.phase = .active ∧
          x.firstAlarm = s.ale.clock ∧ x.lastChange = s.ale.clock ∧ x.detection = r.detection ∧ x.reactivations = 0 ∧
          x.holder = none ∧
          (∀ d, s.psc.deviceLookup r.key = some d → x.cls = d.cls ∧ x.floor = d.floor ∧ x.zone = some d.zone) ∧
          (s.psc.deviceLookup r.key = none → x.cls = r.hint.getD 0 ∧ x.floor = none ∧ x.zone = none)) ∧
        (∀ j : EntryNo, j ≠ i → t.ale.places[j].change = s.ale.places[j].change ∧
          sameButStanding t.ale.places[j].entry (s.ale.places[j].entry.map fun f =>
            { f with holder := if f.holder = e.holder then none else f.holder })) ∧
        (∀ k : Slot, t.ale.holdTimers[k] = if e.holder = some k then false else s.ale.holdTimers[k])) ∧
      ((∀ (i : EntryNo) (e : Entry), s.ale.places[i].entry = some e → e.phase ≠ .cleared) →
        t.ale = { s.ale with
          panels := t.ale.panels, zoneRollups := t.ale.zoneRollups, unplacedRollup := t.ale.unplacedRollup } ∧
        HandedOn s t { gap := gapOf s r, own := [], rolledUp := true
                       floors := ((s.psc.deviceLookup r.key).bind fun d => s.psc.zoneFloor d.zone).toList } ∧
        (∀ d, s.psc.deviceLookup r.key = some d → t.ale.unplacedRollup = s.ale.unplacedRollup ∧
          ∀ z : Fin 2048, t.ale.zoneRollups[z].toNat =
            if z.val = d.zone then min 255 (s.ale.zoneRollups[z].toNat + 1) else s.ale.zoneRollups[z].toNat) ∧
        (s.psc.deviceLookup r.key = none → t.ale.zoneRollups = s.ale.zoneRollups ∧
          t.ale.unplacedRollup.toNat = min 255 (s.ale.unplacedRollup.toNat + 1)))

/-- A Panel Reset that is no duplicate sets the panel's record and restores every Active or Acknowledged entry of the panel at
the present clock, with a Restored notice for each in rising entry number; every other entry stands but for its standing, and
with no such entry the panel record alone changes (R62, R73). -/
def Obligations.PanelResetRestoresEntries : Prop :=
  ∀ (s : State) (r : Report) (rest : List Report) (p : PanelNo) (sequence : Byte), s.power = true → deferring s = false →
    s.rin.queue = r :: rest → r.kind = .panelReset → r.source = .panel p sequence →
    s.ale.panels[p].last ≠ some sequence →
    ∃ (t : State) (moved : List EntryNo), exec .reportTake s = .next t ∧ t.rin.queue = rest ∧
      moved.Pairwise (· < ·) ∧
      (∀ i : EntryNo, i ∈ moved ↔ ∃ e, s.ale.places[i].entry = some e ∧ e.key.panel.val = p.val ∧
        (e.phase = .active ∨ e.phase = .acknowledged)) ∧
      HandedOn s t { gap := none, own := moved.map fun i => (.restored, i), rolledUp := false, floors := [] } ∧
      t.ale.panels = s.ale.panels.set p { last := some sequence, gap := false } ∧
      (∀ (i : EntryNo) (e : Entry), s.ale.places[i].entry = some e → e.key.panel.val = p.val →
        (e.phase = .active ∨ e.phase = .acknowledged) →
        t.ale.places[i].change = s.ale.places[i].change + 1 ∧
        sameButStanding t.ale.places[i].entry (some { e with phase := .restored, lastChange := s.ale.clock })) ∧
      (∀ i : EntryNo, (∀ e, s.ale.places[i].entry = some e →
          e.key.panel.val ≠ p.val ∨ e.phase ≠ .active ∧ e.phase ≠ .acknowledged) →
        t.ale.places[i].change = s.ale.places[i].change ∧
          sameButStanding t.ale.places[i].entry s.ale.places[i].entry) ∧
      ((∀ (i : EntryNo) (e : Entry), s.ale.places[i].entry = some e →
          e.key.panel.val ≠ p.val ∨ e.phase ≠ .active ∧ e.phase ≠ .acknowledged) →
        t.ale = { s.ale with panels := t.ale.panels } ∧ t.cxm = s.cxm ∧ t.bcm = s.bcm) ∧
      CountersFrame s t ∧ t.ale.holdTimers = s.ale.holdTimers ∧ EventFrame s t ∧
      t.pbi = { s.pbi with attention := t.pbi.attention }

/-- A duplicate is discarded when it is taken: it changes nothing but the place it held in the queue (R60). -/
def Obligations.DuplicateIsDiscarded : Prop :=
  ∀ (s : State) (r : Report) (rest : List Report) (panel : PanelNo) (sequence : Byte), s.power = true →
    deferring s = false → s.rin.queue = r :: rest → r.source = .panel panel sequence →
    s.ale.panels[panel].last = some sequence → s.attentionTrue →
    exec .reportTake s = .next { s with rin := { queue := rest } }

/-! ### Holds and entry actions -/

/-- A Console's locked read of an in-use entry that no other slot holds starts the slot's hold on it, or starts its period again
and keeps the hold start of a hold the slot already has, and ends its hold on any other (R64, R79, R81). The bytes returned
show the hold just made, which is the model's reading (log 13). A slot of another class and a free place are answered with
Fault, an entry held by another slot with Retry, and nothing changes (R79). The expiry of the hold timer ends the hold and
changes nothing else (R83). -/
def Obligations.HoldStartsAndExpires : Prop :=
  (∀ (s : State) (tr : Transfer) (i : EntryNo) (off : Nat), s.power = true → tr.bank = 0x10 →
    tr.offset.toNat = 32 * i.val + off → tr.size ≠ .burst → off + tr.size.bytes ≤ 32 → aligned tr = true →
    tr.lock = true → tr.lockEnd = false →
    (∀ e : Entry, s.pbi.classes[tr.slot] = .console → s.ale.places[i].entry = some e →
      (e.holder = none ∨ e.holder = some tr.slot) →
      ∃ t, exec (.lockedRead tr) s = .next t ∧
        t.ale.places[i].entry = some { e with
          holder := some tr.slot, holdStart := if e.holder = some tr.slot then e.holdStart else s.ale.clock } ∧
        (∀ j : EntryNo, t.ale.places[j].change = s.ale.places[j].change ∧
          (j ≠ i → t.ale.places[j].entry = s.ale.places[j].entry.map fun f =>
            { f with holder := if f.holder = some tr.slot then none else f.holder })) ∧
        (∀ k : Slot, t.ale.holdTimers[k] = if k = tr.slot then true else s.ale.holdTimers[k]) ∧
        t.ale = { s.ale with places := t.ale.places, holdTimers := t.ale.holdTimers } ∧
        t = { s with ale := t.ale, pbi := t.pbi } ∧ SameMap s t ∧ SameAreas s t ∧
        Answered s t tr .done false (slice (entryRecord t.ale i) off tr.size.bytes)) ∧
    ∀ termination,
      ((s.pbi.classes[tr.slot] ≠ .console ∨ s.ale.places[i].entry = none) ∧ termination = .fault ∨
        s.pbi.classes[tr.slot] = .console ∧ (∃ h, holderAt s i = some h ∧ h ≠ tr.slot) ∧ termination = .retry) →
      ∃ t, exec (.lockedRead tr) s = .next t ∧ t = { s with pbi := t.pbi } ∧ SameMap s t ∧ SameAreas s t ∧
        Answered s t tr termination false []) ∧
  ∀ (s : State) (slot : Slot), s.power = true → s.ale.holdTimers[slot] = true →
    ∃ t, exec (.holdExpiry slot) s = .next t ∧ HoldsEnd s t slot ∧
      t = { s with ale := t.ale, pbi := { s.pbi with attention := t.pbi.attention } }

/-- An entry action by the holder, with the entry's change number and allowed from its phase, gives the new phase and the
present clock as last-change time, ends the hold, hands on the event and is answered with Done; a stale change number or an
action not allowed is answered with Fault, ends the hold, and leaves the entry (R71, R72, R73, R82). An action on an entry that
another slot holds is answered with Retry and changes nothing, and so is every other lock-end write within its record (R80); an
action on an entry the slot does not hold, or on a free place, an action code that names no action, and a lock-end write in an
entry record that is no 4-byte write of the action word, are answered with Fault and end the slot's holds (R82). -/
def Obligations.EntryActionNeedsHoldAndPhase : Prop :=
  (∀ (s : State) (action : EntryAction) (slot : Slot) (i : EntryNo) (e : Entry) (change : Half), s.power = true →
    s.pbi.classes[slot] ≠ .noClass → s.ale.places[i].entry = some e → e.holder = some slot →
    ∃ t, exec (action.row slot i change) s = .next t ∧
      (∀ phase, change = s.ale.places[i].change →
        (action = .acknowledge ∧ e.phase = .active ∧ phase = .acknowledged ∨
          action = .discount ∧ (e.phase = .active ∨ e.phase = .acknowledged ∨ e.phase = .restored) ∧
            phase = .discounted ∨
          action = .clearEntry ∧ (e.phase = .restored ∨ e.phase = .discounted) ∧ phase = .cleared) →
        t.ale.places[i].change = s.ale.places[i].change + 1 ∧
        sameButStanding t.ale.places[i].entry
          (some { e with phase := phase, lastChange := s.ale.clock, holder := none }) ∧
        HandedOn s t noNews ∧
        t.pbi.response = some { slot := slot, termination := .done, burstInhibit := false, data := [] }) ∧
      ((change ≠ s.ale.places[i].change ∨ action = .acknowledge ∧ e.phase ≠ .active ∨
          action = .discount ∧ (e.phase = .discounted ∨ e.phase = .cleared) ∨
          action = .clearEntry ∧ (e.phase = .active ∨ e.phase = .acknowledged ∨ e.phase = .cleared)) →
        t.ale.places[i].change = s.ale.places[i].change ∧ t.ale.places[i].entry = some { e with holder := none } ∧
        HoldsEnd s t slot ∧ t.cxm = s.cxm ∧ t.bcm = s.bcm ∧
        t.pbi.response = some { slot := slot, termination := .fault, burstInhibit := false, data := [] }) ∧
      (∀ j : EntryNo, j ≠ i → t.ale.places[j].change = s.ale.places[j].change ∧
        sameButStanding t.ale.places[j].entry (s.ale.places[j].entry.map fun f =>
          { f with holder := if f.holder = some slot then none else f.holder })) ∧
      (∀ k : Slot, t.ale.holdTimers[k] = if k = slot then false else s.ale.holdTimers[k]) ∧
      t.ale.panels = s.ale.panels ∧ t.rin = s.rin ∧ CountersFrame s t ∧ EventFrame s t ∧ SameMap s t ∧ SameAreas s t) ∧
  (∀ (s : State) (action : EntryAction) (slot : Slot) (i : EntryNo) (change : Half), s.power = true →
    s.pbi.classes[slot] ≠ .noClass → holderAt s i ≠ some slot →
    ∃ t, exec (action.row slot i change) s = .next t ∧ SameMap s t ∧ SameAreas s t ∧
      (∀ h, holderAt s i = some h → t = { s with pbi := t.pbi } ∧
        t.pbi.response = some { slot := slot, termination := .retry, burstInhibit := false, data := [] }) ∧
      (holderAt s i = none → HoldsEnd s t slot ∧ t = { s with ale := t.ale, pbi := t.pbi } ∧
        t.pbi.response = some { slot := slot, termination := .fault, burstInhibit := false, data := [] })) ∧
  ∀ (s : State) (tr : Transfer) (data : List Byte) (i : EntryNo) (off : Nat), s.power = true →
    s.pbi.classes[tr.slot] ≠ .noClass → tr.bank = 0x10 → tr.offset.toNat = 32 * i.val + off → tr.size ≠ .burst →
    off + tr.size.bytes ≤ 32 → aligned tr = true → tr.lock = false → tr.lockEnd = true →
    ∃ t, exec (.registerWrite tr data) s = .next t ∧ SameMap s t ∧ SameAreas s t ∧
      (∀ h, holderAt s i = some h → h ≠ tr.slot → t = { s with pbi := t.pbi } ∧ Answered s t tr .retry false []) ∧
      ((holderAt s i = none ∨ holderAt s i = some tr.slot) →
        (off ≠ 24 ∨ tr.size ≠ .four ∨ data.getD 0 0 = 0 ∨ 3 < (data.getD 0 0).toNat) →
        HoldsEnd s t tr.slot ∧ t = { s with ale := t.ale, pbi := t.pbi } ∧ Answered s t tr .fault false [])

/-! ### The other transfers -/

/-- A write to the Live bank without lock-end changes nothing: it is answered with Retry when it lies within an entry record
that another slot holds, and with Fault otherwise (R80, R158, R159). -/
def Obligations.PlainWriteChangesNothing : Prop :=
  ∀ (s : State) (tr : Transfer) (data : List Byte), s.power = true → tr.bank = 0x10 → tr.lockEnd = false →
    ∃ (t : State) (e : Termination), exec (.registerWrite tr data) s = .next t ∧ t = { s with pbi := t.pbi } ∧
      SameMap s t ∧ SameAreas s t ∧ Answered s t tr e false [] ∧ (e = .retry ∨ e = .fault) ∧
      (e = .retry ↔ s.pbi.classes[tr.slot] ≠ .noClass ∧ tr.lock = false ∧ aligned tr = true ∧
        ∃ (i : EntryNo) (h : Slot), 32 * i.val ≤ tr.offset.toNat ∧
          tr.offset.toNat + singleBytes tr ≤ 32 * i.val + 32 ∧ holderAt s i = some h ∧ h ≠ tr.slot)

/-- A 1-byte write of a Console, Gateway or Loader slot to its own selector sets it to a context 0 to 31 or, for 255, to none;
another value is answered with Fault and changes nothing (R163). -/
def Obligations.SelectorWriteSets : Prop :=
  ∀ (s : State) (tr : Transfer) (b : Byte), s.power = true →
    (s.pbi.classes[tr.slot] = .console ∨ s.pbi.classes[tr.slot] = .gateway ∨ s.pbi.classes[tr.slot] = .loader) →
    tr.bank = 0 → tr.offset.toNat = 0x0120 + 0x40 * tr.slot.val → tr.size = .one → tr.lock = false →
    tr.lockEnd = false →
    ∃ t, exec (.contextSelectorWrite tr [b]) s = .next t ∧ t = { s with pbi := t.pbi } ∧ SameMap s t ∧
      t.pbi.results = s.pbi.results ∧ t.pbi.inFlight = s.pbi.inFlight ∧
      (∀ k : Slot, k ≠ tr.slot → t.pbi.selectors[k] = s.pbi.selectors[k]) ∧
      (∀ c : CtxNo, b.toNat = c.val → t.pbi.selectors[tr.slot] = some c ∧ Answered s t tr .done false []) ∧
      (b = 0xFF → t.pbi.selectors[tr.slot] = none ∧ Answered s t tr .done false []) ∧
      (32 ≤ b.toNat → b ≠ 0xFF → t.pbi.selectors = s.pbi.selectors ∧ Answered s t tr .fault false [])

/-- A Console or Gateway slot whose selector names a context with a published brief reads the buffer's bytes, zero beyond the
brief's length; Fresh is cleared when the reader owns the context and the read returns both bytes of a trailer epoch equal to
the context's, and nothing else changes (R154, R155). -/
def Obligations.BriefReadReturnsBuffer : Prop :=
  ∀ (s : State) (tr : Transfer) (c : CtxNo) (b : BufNo), s.power = true →
    (s.pbi.classes[tr.slot] = .console ∨ s.pbi.classes[tr.slot] = .gateway) → s.pbi.selectors[tr.slot] = some c →
    s.cxm.contexts[c].published = some b → tr.bank = 0x20 → tr.lock = false → tr.lockEnd = false → aligned tr = true →
    tr.offset.toNat + tr.size.bytes ≤ 8192 →
    ∃ (t : State) (data : List Byte), exec (.briefWindowRead tr) s = .next t ∧ Answered s t tr .done false data ∧
      SameMap s t ∧ SameAreas s t ∧ data.length = tr.size.bytes ∧
      (∀ k, k < tr.size.bytes → data[k]? =
        some (if tr.offset.toNat + k < s.bcm.buffers[b].u16 10 then s.bcm.buffers[b].read (tr.offset.toNat + k) else 0)) ∧
      t = { s with cxm := { s.cxm with contexts := t.cxm.contexts }, pbi := t.pbi } ∧
      (∀ d : CtxNo, d ≠ c → t.cxm.contexts[d] = s.cxm.contexts[d]) ∧
      t.cxm.contexts[c] = { s.cxm.contexts[c] with fresh := t.cxm.contexts[c].fresh } ∧
      (t.cxm.contexts[c].fresh = true ↔ s.cxm.contexts[c].fresh = true ∧
        ¬(s.cxm.contexts[c].owner = some tr.slot ∧ tr.offset.toNat ≤ s.bcm.buffers[b].u16 10 - 16 ∧
          s.bcm.buffers[b].u16 10 - 16 + 2 ≤ tr.offset.toNat + tr.size.bytes ∧
          s.bcm.buffers[b].u16 (s.bcm.buffers[b].u16 10 - 16) = s.cxm.contexts[c].briefEpoch.toNat))

/-- A command burst to a slot's own command slot: Retry while a command is in flight; otherwise Done, and the command is
refused at once for an unknown code or a class that may not give it, or taken with its selector, class and Console Queue
attached and its result Busy (R164, R165, R166). -/
def Obligations.CommandSlotWriteTakes : Prop :=
  ∀ (s : State) (tr : Transfer) (data : List Byte), s.power = true → s.pbi.classes[tr.slot] ≠ .noClass →
    tr.bank = 0 → tr.offset.toNat = 0x0100 + 0x40 * tr.slot.val → tr.size = .burst → tr.lock = false →
    tr.lockEnd = false → data.length = 16 →
    ∃ t, exec (.commandSlotWrite tr data) s = .next t ∧ t = { s with pbi := t.pbi } ∧ SameMap s t ∧
      t.pbi.selectors = s.pbi.selectors ∧
      (∀ k : Slot, k ≠ tr.slot → t.pbi.results[k] = s.pbi.results[k] ∧ t.pbi.inFlight[k] = s.pbi.inFlight[k]) ∧
      (s.pbi.inFlight[tr.slot] ≠ none → SameAreas s t ∧ Answered s t tr .retry false []) ∧
      (s.pbi.inFlight[tr.slot] = none → Answered s t tr .done false [] ∧ t.pbi.results[tr.slot].code = data.getD 0 0 ∧
        t.pbi.results[tr.slot].returned = Vector.replicate 12 0 ∧
        (CommandCode.ofByte (data.getD 0 0) = none → t.pbi.inFlight[tr.slot] = none ∧
          t.pbi.results[tr.slot].outcome = .refused ∧ t.pbi.results[tr.slot].reason = some .badCommand) ∧
        (∀ code, CommandCode.ofByte (data.getD 0 0) = some code →
          (code.permittedClass ≠ s.pbi.classes[tr.slot] → t.pbi.inFlight[tr.slot] = none ∧
            t.pbi.results[tr.slot].outcome = .refused ∧ t.pbi.results[tr.slot].reason = some .notPermitted) ∧
          (code.permittedClass = s.pbi.classes[tr.slot] →
            t.pbi.results[tr.slot].outcome = .busy ∧ t.pbi.results[tr.slot].reason = none ∧
            ∃ cmd, t.pbi.inFlight[tr.slot] = some cmd ∧ cmd.record.toList = data ∧
              cmd.selector = s.pbi.selectors[tr.slot] ∧ cmd.cls = s.pbi.classes[tr.slot] ∧ cmd.lost = false ∧
              (s.pbi.classes[tr.slot] = .console → cmd.console = ownedConsole s.pbi.classes tr.slot))))

/-! ### Contexts -/

/-- Assign Crew, its checks passed, makes the context Assigned with the windows clamped to 3, the ceiling to 7 and the mask to
the ceiling, makes an Urgent request, and returns what it applied with the range (R121, R122). The first of its six checks that
fails refuses it with its reason (R121). -/
def Obligations.AssignCrewAssigns : Prop :=
  (∀ (s : State) (slot : Slot) (cmd : InFlight) (c : CtxNo) (owner : Slot) (mode : Mode) (floor : Nat),
    Ready s slot .assignCrew cmd → s.requestsSound → (commandByte cmd 1).toNat = c.val → s.psc.valid = true →
    s.cxm.contexts[c].assigned = false → (commandByte cmd 6).toNat = owner.val → s.pbi.classes[owner] = .gateway →
    commandByte cmd 7 = mode.code → (∀ k : Fin 4, isTextByte (cmd.record[2 + k.val]).toNat = true) →
    s.psc.floorOf (commandLabel cmd 8) = .floor floor →
    ∃ t, exec (.assignCrew slot) s = .next t ∧
      (∃ x, t.cxm.contexts[c] = x ∧ x.assigned = true ∧ (∀ k : Fin 4, x.crewLabel[k] = cmd.record[2 + k.val]) ∧
        x.owner = some owner ∧ x.mode = mode ∧ x.fixedFloor = floor ∧ x.previousFloor = none ∧
        x.below.val = min (commandByte cmd 12).toNat 3 ∧ x.above.val = min (commandByte cmd 13).toNat 3 ∧
        x.ceiling.val = min (commandByte cmd 15).toNat 7 ∧
        x.mask.val = min (commandByte cmd 14).toNat (min (commandByte cmd 15).toNat 7) ∧
        x.queue = s.cxm.contexts[c].queue ∧ x.published = s.cxm.contexts[c].published ∧
        x.briefEpoch = s.cxm.contexts[c].briefEpoch ∧ x.fresh = s.cxm.contexts[c].fresh ∧
        Completed s t slot cmd (.done ([byteOf c.val, byteOf floor, byteOf x.below.val, byteOf x.above.val,
          byteOf x.mask.val, byteOf x.ceiling.val] ++ rangeBytes (currentRange t c)))) ∧
      (∀ d : CtxNo, d ≠ c → t.cxm.contexts[d] = s.cxm.contexts[d]) ∧ t.cxm.consoles = s.cxm.consoles ∧
      t.cxm.marks = s.cxm.marks ∧ t.bcm = { s.bcm with urgent := s.bcm.urgent ++ [c] } ∧ SameMap s t ∧
      t = { s with cxm := t.cxm, bcm := t.bcm, pbi := t.pbi }) ∧
  ∀ (s : State) (slot : Slot) (cmd : InFlight) (reason : CommandReason), Ready s slot .assignCrew cmd →
    FirstFails (assignTable s cmd) reason →
    Refused s (.assignCrew slot) slot cmd reason

/-- Move Crew, its checks passed, applies the changes present together, gives the context an Urgent request, and abandons a
composition for it (R123, R149). The first check that fails refuses it with its reason; a label while the plan is not Valid is
refused with NoPlan (R21, R123). That the bits of byte 2 above the three presence bits are passed over is the model's reading
(log 14). -/
def Obligations.MoveCrewMoves : Prop :=
  (∀ (s : State) (slot : Slot) (cmd : InFlight) (c : CtxNo) (mode : Mode) (floor : Nat) (p : Nat),
    Ready s slot .moveCrew cmd → s.requestsSound → (commandByte cmd 1).toNat = c.val →
    s.cxm.contexts[c].assigned = true → p = (commandByte cmd 2).toNat → p % 8 ≠ 0 →
    (p % 2 = 1 → commandByte cmd 3 = mode.code) → (p / 2 % 2 = 1 → s.psc.floorOf (commandLabel cmd 4) = .floor floor) →
    ∃ t, exec (.moveCrew slot) s = .next t ∧
      t.cxm.contexts[c] = { s.cxm.contexts[c] with
        mode := if p % 2 = 1 then mode else s.cxm.contexts[c].mode
        fixedFloor := if p / 2 % 2 = 1 then floor else s.cxm.contexts[c].fixedFloor
        previousFloor := if p / 2 % 2 = 1 then some s.cxm.contexts[c].fixedFloor else s.cxm.contexts[c].previousFloor
        below := if p / 4 % 2 = 1 then clampWindow (commandByte cmd 8) else s.cxm.contexts[c].below
        above := if p / 4 % 2 = 1 then clampWindow (commandByte cmd 9) else s.cxm.contexts[c].above } ∧
      (∀ d : CtxNo, d ≠ c → t.cxm.contexts[d] = s.cxm.contexts[d]) ∧ t.cxm.consoles = s.cxm.consoles ∧
      t.cxm.marks = s.cxm.marks ∧ t.bcm.buffers = s.bcm.buffers ∧ c ∈ t.bcm.urgent ∧ c ∉ t.bcm.normal ∧
      t.bcm.composing ≠ some c ∧ (s.bcm.composing ≠ some c → t.bcm.composition = s.bcm.composition) ∧
      (∀ d, d ≠ c → (d ∈ t.bcm.urgent ↔ d ∈ s.bcm.urgent) ∧ (d ∈ t.bcm.normal ↔ d ∈ s.bcm.normal)) ∧
      Completed s t slot cmd (.done
        ([orNone t.cxm.contexts[c].previousFloor, byteOf t.cxm.contexts[c].fixedFloor, t.cxm.contexts[c].mode.code,
          byteOf t.cxm.contexts[c].below.val, byteOf t.cxm.contexts[c].above.val] ++
          rangeBytes (currentRange s c) ++ rangeBytes (currentRange t c))) ∧
      SameMap s t ∧ t = { s with cxm := t.cxm, bcm := t.bcm, pbi := t.pbi }) ∧
  ∀ (s : State) (slot : Slot) (cmd : InFlight) (p : Nat) (reason : CommandReason), Ready s slot .moveCrew cmd →
    p = (commandByte cmd 2).toNat →
    FirstFails (moveTable s cmd p) reason →
    Refused s (.moveCrew slot) slot cmd reason

/-- Withdraw Crew frees the context with its Free values, its requests and its composition gone, its buffers back in the pool,
and every floor it was searching Unsearched (R31, R124). Each of these floors, in rising order, has the effects of a mark change
(R30): a Floor Marked notice of level 1 with the withdrawn context's number, offered to the other contexts and the Console
Queues by R129 and R130; a Normal request for every other context whose range holds the floor; and the disturbance of a walk
over it. A number outside 0 to 31 is refused with BadContext, a Free context
with ContextFree (R124). -/
def Obligations.WithdrawCrewReleases : Prop :=
  (∀ (s : State) (slot : Slot) (cmd : InFlight) (c : CtxNo), Ready s slot .withdrawCrew cmd → s.requestsSound →
    (commandByte cmd 1).toNat = c.val → s.cxm.contexts[c].assigned = true →
    ∃ t, exec (.withdrawCrew slot) s = .next t ∧
      t.cxm.contexts[c] = freeContext s.cxm.contexts[c].briefEpoch ∧
      (∀ d : CtxNo, d ≠ c → t.cxm.contexts[d] = { s.cxm.contexts[d] with queue := t.cxm.contexts[d].queue }) ∧
      (∀ q : Fin 2, t.cxm.consoles[q].mask = s.cxm.consoles[q].mask) ∧
      (∀ f : Fin 128, t.cxm.marks[f] =
        if s.cxm.marks[f].mark = .searching ∧ s.cxm.marks[f].context = some c then
          { mark := .unsearched, context := none, time := s.ale.clock }
        else s.cxm.marks[f]) ∧
      (∃ floors : List (Fin 128), floors.Pairwise (· < ·) ∧
        (∀ f, f ∈ floors ↔ s.cxm.marks[f].mark = .searching ∧ s.cxm.marks[f].context = some c) ∧
        Told { s with cxm := { s.cxm with contexts := s.cxm.contexts.set c (freeContext s.cxm.contexts[c].briefEpoch) } } t
          (floors.map fun f => { kind := .floorMarked, level := 1, time := s.ale.clock, entry := none
                                 floor := .placed f.val, context := some c, panel := none }) ∧
        (∀ d, d ∈ t.bcm.normal ↔ d ≠ c ∧ d ∈ s.bcm.normal ∨
          (∃ f ∈ floors, inRange t d f.val = true) ∧ d ∉ s.bcm.urgent ∧ t.bcm.composing ≠ some d) ∧
        ∀ x, s.bcm.composition = some x → x.context ≠ c → t.bcm.composition = some { x with
          disturbed := x.disturbed || floors.any fun f =>
            inRange t x.context f.val || (x.phase == .walking && x.range.holds f.val) }) ∧
      t.bcm.urgent = s.bcm.urgent.erase c ∧ (s.bcm.composition = none → t.bcm.composition = none) ∧
      c ∉ t.bcm.urgent ∧ c ∉ t.bcm.normal ∧ t.bcm.composing ≠ some c ∧
      (∀ b, s.cxm.contexts[c].published = some b → t.bcm.pool[b] = true) ∧
      (∀ x, s.bcm.composition = some x → x.context = c → t.bcm.composition = none ∧ t.bcm.pool[x.buffer] = true) ∧
      t.bcm.buffers = s.bcm.buffers ∧ SameMap s t ∧
      Completed s t slot cmd (.done ([byteOf c.val] ++ s.cxm.contexts[c].crewLabel.toList ++
        [orNone (s.cxm.contexts[c].owner.map (·.val)), byteOf s.cxm.contexts[c].queue.notices.length])) ∧
      t.psc = s.psc ∧ t.rin = s.rin ∧ t.ale = s.ale ∧ t.lmn = s.lmn ∧ t.pending = s.pending) ∧
  ∀ (s : State) (slot : Slot) (cmd : InFlight) (reason : CommandReason), Ready s slot .withdrawCrew cmd →
    FirstFails (numberTable s cmd) reason →
    Refused s (.withdrawCrew slot) slot cmd reason

/-- Set Mask gives the selected owned context the requested value or its ceiling, whichever is lower (R120, R126); Set Console
Mask gives the attached Console Queue the requested value held to 7 (R130). Nothing else changes. Set Mask is refused with
BadContext where the selector names no context, and then with NotOwner (R120). -/
def Obligations.MasksAreSet : Prop :=
  (∀ (s : State) (slot : Slot) (cmd : InFlight) (c : CtxNo), Ready s slot .setMask cmd → cmd.selector = some c →
    s.cxm.contexts[c].assigned = true → s.cxm.contexts[c].owner = some slot →
    ∃ t, exec (.setMask slot) s = .next t ∧
      t.cxm.contexts[c].mask.val = min (commandByte cmd 1).toNat s.cxm.contexts[c].ceiling.val ∧
      t.cxm = { s.cxm with
        contexts := s.cxm.contexts.set c { s.cxm.contexts[c] with mask := t.cxm.contexts[c].mask } } ∧
      Completed s t slot cmd (.done [byteOf t.cxm.contexts[c].mask.val]) ∧ SameMap s t ∧
      t = { s with cxm := t.cxm, pbi := t.pbi }) ∧
  (∀ (s : State) (slot : Slot) (cmd : InFlight) (q : Fin 2), Ready s slot .setConsoleMask cmd → cmd.console = some q →
    ∃ t, exec (.setConsoleMask slot) s = .next t ∧
      t.cxm.consoles[q].mask.val = min (commandByte cmd 1).toNat 7 ∧
      t.cxm = { s.cxm with
        consoles := s.cxm.consoles.set q { s.cxm.consoles[q] with mask := t.cxm.consoles[q].mask } } ∧
      Completed s t slot cmd (.done [byteOf t.cxm.consoles[q].mask.val]) ∧ SameMap s t ∧
      t = { s with cxm := t.cxm, pbi := t.pbi }) ∧
  ∀ (s : State) (slot : Slot) (cmd : InFlight) (reason : CommandReason), Ready s slot .setMask cmd →
    FirstFails (gatewayTable s slot cmd) reason → Refused s (.setMask slot) slot cmd reason

/-- Take Notice removes and returns the head of the selected owned context's queue, with the number left and the Overrun
held before, and Overrun goes when the queue becomes empty; an empty queue is refused, after the checks of R120 (R120, R132,
R133). Take Console Notice does the same with the attached Console Queue (R134). The bytes returned are the notice's layout
(R171), where what an absent field shows is the model's reading (log 16). -/
def Obligations.TakesRemoveTheHead : Prop :=
  (∀ (s : State) (slot : Slot) (cmd : InFlight) (c : CtxNo), Ready s slot .takeNotice cmd → cmd.selector = some c →
    s.cxm.contexts[c].assigned = true → s.cxm.contexts[c].owner = some slot →
    ∃ t, exec (.takeNotice slot) s = .next t ∧ SameMap s t ∧ t = { s with cxm := t.cxm, pbi := t.pbi } ∧
      (s.cxm.contexts[c].queue.notices = [] → t.cxm = s.cxm ∧ Completed s t slot cmd (.refused .queueEmpty)) ∧
      ∀ n rest, s.cxm.contexts[c].queue.notices = n :: rest →
        t.cxm = { s.cxm with contexts := s.cxm.contexts.set c { s.cxm.contexts[c] with
          queue := { notices := rest, overrun := if rest = [] then false else s.cxm.contexts[c].queue.overrun } } } ∧
        Completed s t slot cmd (.done (noticeBytes n ++
          [byteOf rest.length, flagByte s.cxm.contexts[c].queue.overrun]))) ∧
  (∀ (s : State) (slot : Slot) (cmd : InFlight) (reason : CommandReason), Ready s slot .takeNotice cmd →
    FirstFails (gatewayTable s slot cmd) reason → Refused s (.takeNotice slot) slot cmd reason) ∧
  ∀ (s : State) (slot : Slot) (cmd : InFlight) (q : Fin 2), Ready s slot .takeConsoleNotice cmd → cmd.console = some q →
    ∃ t, exec (.takeConsoleNotice slot) s = .next t ∧ SameMap s t ∧ t = { s with cxm := t.cxm, pbi := t.pbi } ∧
      (s.cxm.consoles[q].queue.notices = [] → t.cxm = s.cxm ∧ Completed s t slot cmd (.refused .queueEmpty)) ∧
      ∀ n rest, s.cxm.consoles[q].queue.notices = n :: rest →
        t.cxm = { s.cxm with consoles := s.cxm.consoles.set q { s.cxm.consoles[q] with
          queue := { notices := rest, overrun := if rest = [] then false else s.cxm.consoles[q].queue.overrun } } } ∧
        Completed s t slot cmd (.done (noticeBytes n ++
          [byteOf rest.length, flagByte s.cxm.consoles[q].queue.overrun]))

/-- Brief Now refuses a number outside 0 to 31 with BadContext and a Free context with ContextFree; otherwise the BCM takes an
Urgent request for the context, and the result is Done with the disposition and the context's brief epoch (R141). -/
def Obligations.BriefNowRequestsUrgently : Prop :=
  ∀ (s : State) (slot : Slot) (cmd : InFlight), Ready s slot .briefNow cmd →
    (31 < (commandByte cmd 1).toNat → ∃ t, exec (.briefNow slot) s = .next t ∧
      Completed s t slot cmd (.refused .badContext) ∧ SameMap s t ∧ t = { s with pbi := t.pbi }) ∧
    ∀ c : CtxNo, (commandByte cmd 1).toNat = c.val →
      (s.cxm.contexts[c].assigned = false → ∃ t, exec (.briefNow slot) s = .next t ∧
        Completed s t slot cmd (.refused .contextFree) ∧ SameMap s t ∧ t = { s with pbi := t.pbi }) ∧
      (s.cxm.contexts[c].assigned = true → ∃ (t : State) (disposition : Byte), exec (.briefNow slot) s = .next t ∧
        Completed s t slot cmd (.done ([disposition, 0] ++ leHalf s.cxm.contexts[c].briefEpoch)) ∧ SameMap s t ∧
        t = { s with bcm := t.bcm, pbi := t.pbi } ∧
        (s.bcm.composing = some c → disposition = 4 ∧ ∃ x, s.bcm.composition = some x ∧
          t.bcm = { s.bcm with composition := some { x with disturbed := true } }) ∧
        (s.bcm.composing ≠ some c → c ∈ s.bcm.urgent → disposition = 2 ∧ t.bcm = s.bcm) ∧
        (s.bcm.composing ≠ some c → c ∉ s.bcm.urgent → c ∈ s.bcm.normal → disposition = 3 ∧
          t.bcm = { s.bcm with normal := s.bcm.normal.erase c, urgent := s.bcm.urgent ++ [c] }) ∧
        (s.bcm.composing ≠ some c → c ∉ s.bcm.urgent → c ∉ s.bcm.normal → disposition = 1 ∧
          t.bcm = { s.bcm with urgent := s.bcm.urgent ++ [c] }))

/-- Request Brief on a selected owned context makes a Normal request and returns the disposition and the brief epoch
(R120, R138, R140). It is refused by the checks of R120 in order, and then with NoPlan while the plan is not Valid (R140). -/
def Obligations.RequestBriefRequestsNormally : Prop :=
  (∀ (s : State) (slot : Slot) (cmd : InFlight) (c : CtxNo), Ready s slot .requestBrief cmd → cmd.selector = some c →
    s.cxm.contexts[c].assigned = true → s.cxm.contexts[c].owner = some slot → s.psc.valid = true →
    ∃ (t : State) (disposition : Byte), exec (.requestBrief slot) s = .next t ∧
      Completed s t slot cmd (.done ([disposition, 0] ++ leHalf s.cxm.contexts[c].briefEpoch)) ∧ SameMap s t ∧
      t = { s with bcm := t.bcm, pbi := t.pbi } ∧
      (s.bcm.composing = some c → disposition = 4 ∧ ∃ x, s.bcm.composition = some x ∧
        t.bcm = { s.bcm with composition := some { x with disturbed := true } }) ∧
      (s.bcm.composing ≠ some c → (c ∈ s.bcm.urgent ∨ c ∈ s.bcm.normal) → disposition = 2 ∧ t.bcm = s.bcm) ∧
      (s.bcm.composing ≠ some c → c ∉ s.bcm.urgent → c ∉ s.bcm.normal → disposition = 1 ∧
        t.bcm = { s.bcm with normal := s.bcm.normal ++ [c] })) ∧
  ∀ (s : State) (slot : Slot) (cmd : InFlight) (reason : CommandReason), Ready s slot .requestBrief cmd →
    FirstFails (gatewayTable s slot cmd ++ [(s.psc.valid = true, .noPlan)]) reason →
    Refused s (.requestBrief slot) slot cmd reason

/-! ### Marks, the incident, the lines -/

/-- Mark Floor, its checks passed, sets the floor's mark with the commanding context and the present clock, or leaves it when
both are held already; Reset Mark makes a marked floor Unsearched. A change offers its Floor Marked notice, of level 6 for
Hazard, 2 for Clear and 1 otherwise, to every Assigned context whose range holds the floor and to the Console Queues in use,
each by its mask (R129, R130); it requests every Assigned context whose range holds the floor, and disturbs a walk over it
(R27 to R30). The first check that fails refuses the command with its reason (R21, R27, R29, R120). -/
def Obligations.MarksChange : Prop :=
  (∀ (s : State) (slot : Slot) (cmd : InFlight) (floor : Fin 128) (new : FloorMark) (carried : Option CtxNo) (row : Instr)
    (returned : List Byte),
    ((∃ c : CtxNo, Ready s slot .markFloor cmd ∧ row = .markFloor slot ∧ cmd.selector = some c ∧
        s.cxm.contexts[c].assigned = true ∧ s.cxm.contexts[c].owner = some slot ∧ inRange s c floor.val = true ∧
        new.mark ≠ .unsearched ∧ commandByte cmd 1 = new.mark.code ∧ new.context = some c ∧ carried = some c ∧
        (new.mark = .searching → s.cxm.marks[floor].mark = .searching → s.cxm.marks[floor].context = some c) ∧
        returned = [new.mark.code, byteOf c.val]) ∨
      (Ready s slot .resetMark cmd ∧ row = .resetMark slot ∧ new.mark = .unsearched ∧ new.context = none ∧
        carried = (if s.cxm.marks[floor].mark = .searching then s.cxm.marks[floor].context else none) ∧
        returned = [])) →
    new.time = s.ale.clock → s.psc.floorOf (commandLabel cmd 4) = .floor floor.val → s.marksSound →
    ∃ t, exec row s = .next t ∧
      Completed s t slot cmd (.done ([byteOf floor.val, s.cxm.marks[floor].mark.code,
        contextByte s.cxm.marks[floor].context] ++ returned)) ∧ SameMap s t ∧
      (s.cxm.marks[floor].mark = new.mark → s.cxm.marks[floor].context = new.context →
        t = { s with pbi := t.pbi }) ∧
      (¬(s.cxm.marks[floor].mark = new.mark ∧ s.cxm.marks[floor].context = new.context) →
        t.cxm.marks = s.cxm.marks.set floor new ∧
        Told s t [{
          kind := .floorMarked
          level := (match new.mark with
            | .hazard => 6
            | .clear => 2
            | .searching | .unsearched => 1)
          time := s.ale.clock, entry := none, floor := .placed floor.val, context := carried, panel := none }] ∧
        (∀ c : CtxNo, t.cxm.contexts[c] = { s.cxm.contexts[c] with queue := t.cxm.contexts[c].queue }) ∧
        (∀ q : Fin 2, t.cxm.consoles[q].mask = s.cxm.consoles[q].mask) ∧
        (∀ d : CtxNo, d ∈ t.bcm.urgent ↔ d ∈ s.bcm.urgent) ∧
        (∀ d : CtxNo, d ∈ t.bcm.normal ↔ d ∈ s.bcm.normal ∨
          inRange s d floor.val = true ∧ d ∉ s.bcm.urgent ∧ s.bcm.composing ≠ some d) ∧
        (∀ x, s.bcm.composition = some x → t.bcm.composition = some { x with
          disturbed := x.disturbed || inRange s x.context floor.val ||
            (x.phase == .walking && x.range.holds floor.val) }) ∧
        (s.bcm.composition = none → t.bcm.composition = none) ∧ t.bcm.buffers = s.bcm.buffers ∧
        t.bcm.pool = s.bcm.pool ∧ t.psc = s.psc ∧ t.rin = s.rin ∧ t.ale = s.ale ∧ t.lmn = s.lmn ∧
        t.pending = s.pending)) ∧
  (∀ (s : State) (slot : Slot) (cmd : InFlight) (reason : CommandReason), Ready s slot .markFloor cmd →
    FirstFails (markTable s slot cmd) reason →
    Refused s (.markFloor slot) slot cmd reason) ∧
  ∀ (s : State) (slot : Slot) (cmd : InFlight) (reason : CommandReason), Ready s slot .resetMark cmd →
    FirstFails (labelTable s cmd 4) reason →
    Refused s (.resetMark slot) slot cmd reason

/-- Incident Clear with no entry Active or Acknowledged frees every entry, ends every hold, zeroes the clock, the counts, the
focus and the focus time, clears the gap flags and the marks, posts no notice, and makes a Normal request for every Assigned
context. A composition in Follow Focus is abandoned and requeued Urgent when the focus was not None; any other is disturbed
while Walking, and by the request for its own context. With an entry Active or Acknowledged the command is refused with
EntriesLive (R32, R88, R99, R147, R149). -/
def Obligations.IncidentClearEmptiesTable : Prop :=
  ∀ (s : State) (slot : Slot) (cmd : InFlight), Ready s slot .incidentClear cmd →
    ((∀ (i : EntryNo) (e : Entry), s.ale.places[i].entry = some e → e.phase ≠ .active ∧ e.phase ≠ .acknowledged) →
      ∃ t, exec (.incidentClear slot) s = .next t ∧
        (∀ i : EntryNo, t.ale.places[i] = { change := s.ale.places[i].change, entry := none }) ∧
        t.ale.alarmList = [] ∧
        ((∃ i : EntryNo, s.ale.places[i].entry ≠ none) → t.ale.listEpoch = s.ale.listEpoch + 1) ∧
        ((∀ i : EntryNo, s.ale.places[i].entry = none) → t.ale.listEpoch = s.ale.listEpoch) ∧
        (∀ k : Slot, t.ale.holdTimers[k] = false) ∧ t.ale.clock = 0 ∧ (∀ z : Fin 2048, t.ale.zoneRollups[z] = 0) ∧
        t.ale.unplacedRollup = 0 ∧ t.ale.focus = none ∧ t.ale.focusEntry = none ∧ t.ale.previousFocus = none ∧
        t.ale.focusTime = 0 ∧
        (∀ p : PanelNo, t.ale.panels[p] = { last := s.ale.panels[p].last, gap := false }) ∧
        (∀ f : Fin 128, t.cxm.marks[f] = { mark := .unsearched, context := none, time := 0 }) ∧
        t.cxm.contexts = s.cxm.contexts ∧ t.cxm.consoles = s.cxm.consoles ∧
        (∀ c : CtxNo, s.cxm.contexts[c].assigned = true →
          c ∈ t.bcm.urgent ∨ c ∈ t.bcm.normal ∨ t.bcm.composing = some c) ∧
        (∀ x, s.bcm.composition = some x → s.ale.focus ≠ none → x.mode = .followFocus → t.bcm.composition = none ∧
          t.bcm.pool = s.bcm.pool.set x.buffer true ∧ t.bcm.urgent = s.bcm.urgent ++ [x.context]) ∧
        (∀ x, s.bcm.composition = some x → (s.ale.focus = none ∨ x.mode ≠ .followFocus) →
          t.bcm.composition = some { x with
            disturbed := x.disturbed || x.phase == .walking || s.cxm.contexts[x.context].assigned } ∧
          t.bcm.pool = s.bcm.pool ∧ t.bcm.urgent = s.bcm.urgent) ∧
        (s.bcm.composition = none → t.bcm.composition = none ∧ t.bcm.pool = s.bcm.pool ∧ t.bcm.urgent = s.bcm.urgent) ∧
        (∀ d, d ∈ t.bcm.normal ↔ d ∈ s.bcm.normal ∨
          s.cxm.contexts[d].assigned = true ∧ d ∉ t.bcm.urgent ∧ t.bcm.composing ≠ some d) ∧
        t.bcm.buffers = s.bcm.buffers ∧ Completed s t slot cmd (.done []) ∧ SameMap s t ∧
        t.psc = s.psc ∧ t.rin = s.rin ∧ t.lmn = s.lmn ∧ t.pending = s.pending) ∧
    (∀ (i : EntryNo) (e : Entry), s.ale.places[i].entry = some e → (e.phase = .active ∨ e.phase = .acknowledged) →
      ∃ t, exec (.incidentClear slot) s = .next t ∧ Completed s t slot cmd (.refused .entriesLive) ∧ SameMap s t ∧
        t = { s with pbi := t.pbi })

/-- A Latched Active contact is unlatched by its last sample: to Normal with a clearing report pending and the table's
capture again, or to Active with capture Follow; a line that is no contact, or Unused, is refused with BadLine, and a contact
not Latched Active with WrongState (R111, R113). In the bytes returned a pending report that is None shows 255, as R171 has it
for a field of a layout that says nothing else. -/
def Obligations.UnlatchLineFollowsSample : Prop :=
  ∀ (s : State) (slot : Slot) (cmd : InFlight), Ready s slot .unlatchLine cmd →
    ∃ t, exec (.unlatchLine slot) s = .next t ∧ SameMap s t ∧
      (((commandByte cmd 1).toNat < 16 ∨ 31 < (commandByte cmd 1).toNat) →
        t = { s with pbi := t.pbi } ∧ Completed s t slot cmd (.refused .badLine)) ∧
      ∀ k : Fin 16, (commandByte cmd 1).toNat = 16 + k.val →
        (s.lmn.contacts[k].kind = .unused →
          t = { s with pbi := t.pbi } ∧ Completed s t slot cmd (.refused .badLine)) ∧
        (s.lmn.contacts[k].kind ≠ .unused → s.lmn.contacts[k].accepted ≠ .latchedActive →
          t = { s with pbi := t.pbi } ∧ Completed s t slot cmd (.refused .wrongState)) ∧
        (s.lmn.contacts[k].kind ≠ .unused → s.lmn.contacts[k].accepted = .latchedActive →
          t = { s with lmn := { s.lmn with contacts := s.lmn.contacts.set k t.lmn.contacts[k] }, pbi := t.pbi } ∧
          t.lmn.contacts[k] =
            (if s.lmn.samples[16 + k.val] = true then
              { s.lmn.contacts[k] with accepted := .active, capture := .follow, count := 0 }
            else
              { s.lmn.contacts[k] with
                accepted := .normal, capture := s.lmn.contacts[k].tableCapture, count := 0
                pending := some (if s.lmn.contacts[k].kind = .alarmContact then .restore else .supervisoryClear) }) ∧
          Completed s t slot cmd (.done [commandByte cmd 1, 2, t.lmn.contacts[k].accepted.code,
            pendingCode t.lmn.contacts[k].pending]))

/-- A scan samples every line after its polarity and debounces every contact in use by the third differing sample; an accepted
change makes the contact's report pending, by its kind, and a fault line that moved the lift's Trouble or Trouble Clear. The
pending reports are offered in order, Lift A's, Lift B's, then the contacts' in rising line number: those that find a place
stand at the tail of the Intake Queue, the others stay pending. Nothing beyond the LMN and the queue changes (R54, R106, R109
to R112, R115). -/
def Obligations.LineScanDebounces : Prop :=
  ∀ (s : State) (levels : BitVec 32), s.power = true → ∃ t, exec (.lineScan levels) s = .next t ∧
    t = { s with rin := t.rin, lmn := t.lmn, pbi := { s.pbi with attention := t.pbi.attention } } ∧
    (∀ n : Fin 32, t.lmn.samples[n] = (levels.getLsbD n.val ^^ (s.psc.valid && lineInverted s.psc.planSpace n.val))) ∧
    (∀ k : Fin 16, ∃ x y, s.lmn.contacts[k] = x ∧ t.lmn.contacts[k] = y ∧ y.kind = x.kind ∧
      y.tableCapture = x.tableCapture ∧
      (x.kind = .unused → y.accepted = x.accepted ∧ y.count = x.count ∧ y.capture = x.capture) ∧
      (x.kind ≠ .unused →
        (x.accepted = .latchedActive → y.accepted = .latchedActive ∧ y.count = 0 ∧ y.capture = x.capture) ∧
        (x.accepted ≠ .latchedActive → (x.accepted = .active ↔ t.lmn.samples[16 + k.val] = true) →
          y.accepted = x.accepted ∧ y.count = 0 ∧ y.capture = x.capture) ∧
        (x.accepted ≠ .latchedActive → ¬(x.accepted = .active ↔ t.lmn.samples[16 + k.val] = true) →
          (x.count ≠ 2 → y.accepted = x.accepted ∧ y.count.val = x.count.val + 1 ∧ y.capture = x.capture) ∧
          (x.count = 2 → y.count = 0 ∧
            (x.accepted = .normal →
              y.accepted = (if x.capture = .latched then .latchedActive else .active) ∧ y.capture = x.capture) ∧
            (x.accepted = .active → y.accepted = .normal ∧ y.capture = x.tableCapture))))) ∧
    ∃ (lifts : Fin 2 → Option ReportKind) (contacts : Fin 16 → Option ReportKind),
      (∀ k : Fin 2, lifts k = liftPending s.lmn.lifts[k] t.lmn.samples[8 * k.val + 7]) ∧
      (∀ k : Fin 16, contacts k = contactPending s.lmn.contacts[k] t.lmn.samples[16 + k.val]) ∧
      t.rin.queue = s.rin.queue ++
        (reportsOffered s.psc.planSpace lifts contacts).take (32 - s.rin.queue.length) ∧
      reportsOffered s.psc.planSpace (fun k => t.lmn.lifts[k].pending) (fun k => t.lmn.contacts[k].pending) =
        (reportsOffered s.psc.planSpace lifts contacts).drop (32 - s.rin.queue.length) ∧
      (∀ k : Fin 2, t.lmn.lifts[k].pending = none ∨ t.lmn.lifts[k].pending = lifts k) ∧
      ∀ k : Fin 16, t.lmn.contacts[k].pending = none ∨ t.lmn.contacts[k].pending = contacts k

/-- An enabled lift without fault decodes its position from its Gray lines and moves its shown floor by the table of R117,
never further than its max step once it is known; a disabled lift is left alone (R114 to R117). -/
def Obligations.LiftFollowsItsLines : Prop :=
  ∀ (s : State) (levels : BitVec 32) (k : Fin 2), s.power = true → ∃ (t : State) (x y : Lift),
    exec (.lineScan levels) s = .next t ∧ s.lmn.lifts[k] = x ∧ t.lmn.lifts[k] = y ∧
    y.enabled = x.enabled ∧ y.base = x.base ∧ y.maxStep = x.maxStep ∧
    (x.enabled = false → { y with pending := none } = { x with pending := none }) ∧
    (x.enabled = true → t.lmn.samples[8 * k.val + 7] = true →
      y.fault = true ∧ y.shown = x.shown ∧ y.decoded = x.decoded ∧ y.implausible = x.implausible ∧
        y.tracking = x.tracking) ∧
    (x.enabled = true → t.lmn.samples[8 * k.val + 7] = false →
      y.fault = false ∧ ∃ v : BitVec 7, y.decoded = some v ∧ v.getLsbD 6 = t.lmn.samples[8 * k.val + 6] ∧
        (∀ i : Fin 6, v.getLsbD i.val = (v.getLsbD (i.val + 1) ^^ t.lmn.samples[8 * k.val + i.val])) ∧
        ((v.toNat < x.base.toNat ∨ x.base.toNat + headerFloors s.psc.planSpace ≤ v.toNat) →
          y.shown = x.shown ∧ y.implausible = true ∧ y.tracking = x.tracking) ∧
        (∀ c, v.toNat = x.base.toNat + c → c < headerFloors s.psc.planSpace → y.implausible = false ∧
          (x.shown = none → y.shown = some c ∧ y.tracking = false) ∧
          ∀ f, x.shown = some f →
            (c ≤ f + x.maxStep.toNat → f ≤ c + x.maxStep.toNat → y.shown = some c ∧ y.tracking = false) ∧
            (f + x.maxStep.toNat < c → y.shown = some (f + x.maxStep.toNat) ∧ y.tracking = true) ∧
            (c + x.maxStep.toNat < f → y.shown = some (f - x.maxStep.toNat) ∧ y.tracking = true)))

/-! ### Composing -/

/-- An Idle composer with work takes the head of its queue and the lowest buffer of the pool, and starts a walk over the
context's present range (R137, R142, R151). -/
def Obligations.CompositionStarts : Prop :=
  ∀ (s : State) (c : CtxNo) (b : BufNo), s.power = true → s.bcm.composition = none →
    (s.bcm.urgent.head? = some c ∨ s.bcm.urgent = [] ∧ s.bcm.normal.head? = some c) →
    s.bcm.pool[b] = true → (∀ k : BufNo, k < b → s.bcm.pool[k] = false) → s.cxm.contexts[c].assigned = true →
    s.psc.valid = true →
    ∃ (t : State) (x : Composition), exec .compositionStart s = .next t ∧
      t = { s with bcm := t.bcm, pbi := { s.pbi with attention := t.pbi.attention } } ∧
      t.bcm.composition = some x ∧ x.context = c ∧ x.buffer = b ∧ currentRange s c = some x.range ∧
      x.mode = s.cxm.contexts[c].mode ∧ x.restarts = 0 ∧ x.disturbed = false ∧ x.phase = .walking ∧
      x.walk.pos = .floorHead x.range.low ∧ x.walk.offset = 32 ∧ x.walk.items = 0 ∧ x.walk.omitted = 0 ∧
      c :: (t.bcm.urgent ++ t.bcm.normal) = s.bcm.urgent ++ s.bcm.normal ∧
      (s.bcm.urgent ≠ [] → t.bcm.normal = s.bcm.normal) ∧
      t.bcm.pool = s.bcm.pool.set b false ∧ t.bcm.buffers = s.bcm.buffers

/-- A walk step touches nothing but its composition and its buffer. A Floor Head, a Feature, or a Zone item with the Entry
items of its zone in Alarm List order is written, each item when it ends by 8152 and counted as omitted otherwise, and the
walk comes to the next element of the floor's feature list, then of its zone list, then to the next floor, then to Lift A; a
Lift item is always written; the unplaced step ends the walk, and a disturbed walk starts again twice at most (R143, R145,
R148). In the items' bytes a Null note's four zeros and the 255 of an absent detection level are the model's readings
(log 16, log 30). -/
def Obligations.WalkStepWritesItems : Prop :=
  ∀ (s : State) (x : Composition), s.power = true → s.bcm.composition = some x → x.phase = .walking →
    s.bcm.buffers[x.buffer].wf →
    ∃ (t : State) (y : Composition), exec .walkStep s = .next t ∧
      t = { s with bcm := t.bcm, pbi := { s.pbi with attention := t.pbi.attention } } ∧ t.bcm.composition = some y ∧
      y.context = x.context ∧ y.buffer = x.buffer ∧ y.range = x.range ∧ y.mode = x.mode ∧ t.bcm.urgent = s.bcm.urgent ∧
      t.bcm.normal = s.bcm.normal ∧ t.bcm.pool = s.bcm.pool ∧
      (∀ b : BufNo, b ≠ x.buffer → t.bcm.buffers[b] = s.bcm.buffers[b]) ∧
      (∀ a, a < x.walk.offset ∨ max x.walk.offset y.walk.offset ≤ a →
        t.bcm.buffers[x.buffer].read a = s.bcm.buffers[x.buffer].read a) ∧
      (∀ f, x.walk.pos = .floorHead f → ItemsPut t x y [floorHeadItem s f] ∧
        y.walk.pos = placeAfter s.psc x.range.high f 0 0 ∧
        y.walk.flags = x.walk.flags.meetFloor (markAt s f).mark) ∧
      (∀ f j, x.walk.pos = .feature f j → y.walk.pos = placeAfter s.psc x.range.high f (j + 1) 0 ∧
        (∀ loc, (floorFeatures s.psc f)[j]? = some loc → ItemsPut t x y [featureItem s loc] ∧
          y.walk.flags = x.walk.flags.meetFeature (s.psc.planSpace.u8 (loc + 1))) ∧
        ((floorFeatures s.psc f)[j]? = none → ItemsPut t x y [] ∧ y.walk.flags = x.walk.flags)) ∧
      (∀ f j, x.walk.pos = .zone f j →
        y.walk.pos = placeAfter s.psc x.range.high f (floorFeatures s.psc f).length (j + 1) ∧
        (∀ loc zone, (floorZones s.psc f)[j]? = some loc → zone = s.psc.planSpace.u16 (loc + 2) →
          ItemsPut t x y (zoneItem s zone :: (zoneEntries s.ale zone).map fun e => entryItem s e.1 e.2) ∧
          y.walk.flags = ((zoneEntries s.ale zone).foldl (fun flags e => flags.meetEntry (f == x.range.low) e.2)
            x.walk.flags)) ∧
        ((floorZones s.psc f)[j]? = none → ItemsPut t x y [] ∧ y.walk.flags = x.walk.flags)) ∧
      (∀ k : Fin 2, x.walk.pos = .lift k →
        y.walk.items = x.walk.items + 1 ∧ y.walk.omitted = x.walk.omitted ∧ y.walk.offset = x.walk.offset + 12 ∧
          t.bcm.buffers[x.buffer].readAll x.walk.offset 12 = liftItem s k ∧ y.walk.flags = x.walk.flags ∧
          y.walk.pos = if k = 0 then .lift 1 else .unplaced) ∧
      (x.walk.pos = .unplaced → t.bcm.buffers = s.bcm.buffers ∧
        (x.disturbed = false ∨ x.restarts = 2 → y.phase = .sealing ∧ y.disturbed = x.disturbed ∧
          y.restarts = x.restarts ∧ y.walk = { x.walk with
            unplacedRollup := s.ale.unplacedRollup, unplacedEntries := (unplacedEntries s.ale).length }) ∧
        (x.disturbed = true → x.restarts ≠ 2 → y.phase = .walking ∧ y.disturbed = false ∧
          y.restarts.val = x.restarts.val + 1 ∧ y.walk.pos = .floorHead x.range.low ∧ y.walk.offset = 32 ∧
          y.walk.items = 0 ∧ y.walk.omitted = 0)) ∧
      (x.walk.pos ≠ .unplaced → y.phase = .walking ∧ y.disturbed = x.disturbed ∧ y.restarts = x.restarts)

/-- The seal writes header and trailer with the next epoch, publishes the buffer, returns the earlier one to the pool, sets
Fresh, requeues the context Normal when Unsettled, and makes the composer Idle (R152, R153). -/
def Obligations.SealPublishes : Prop :=
  ∀ (s : State) (x : Composition), s.power = true → s.bcm.composition = some x → x.phase = .sealing →
    s.bcm.buffers[x.buffer].wf → 32 ≤ x.walk.offset →
    ∃ t, exec .seal s = .next t ∧
      t = { s with cxm := t.cxm, bcm := t.bcm, pbi := { s.pbi with attention := t.pbi.attention } } ∧
      t.cxm = { s.cxm with contexts := s.cxm.contexts.set x.context { s.cxm.contexts[x.context] with
        briefEpoch := s.cxm.contexts[x.context].briefEpoch + 1, published := some x.buffer, fresh := true } } ∧
      t.bcm.composition = none ∧ t.bcm.urgent = s.bcm.urgent ∧
      t.bcm.normal = (if x.disturbed then s.bcm.normal ++ [x.context] else s.bcm.normal) ∧
      (∀ b : BufNo, t.bcm.pool[b] = (s.bcm.pool[b] || s.cxm.contexts[x.context].published == some b)) ∧
      (∀ b : BufNo, b ≠ x.buffer → t.bcm.buffers[b] = s.bcm.buffers[b]) ∧
      t.bcm.buffers[x.buffer].readAll 0 32 = briefHeader s x (s.cxm.contexts[x.context].briefEpoch + 1) ∧
      t.bcm.buffers[x.buffer].readAll x.walk.offset 16 = briefTrailer x (s.cxm.contexts[x.context].briefEpoch + 1) ∧
      (∀ a, 32 ≤ a → a < x.walk.offset → t.bcm.buffers[x.buffer].read a = s.bcm.buffers[x.buffer].read a)
end

