-- ==== Sys2Proof/Laws/Memory.lean ====
section
/-!
SUPPORT. The laws of a byte memory: a read after a write, and the canonical form that every operation keeps.
-/

namespace Sys2Proof.Machine

/-- What the canonical form says of a memory with a first entry. -/
theorem Memory.wf_cons {k : Nat} {c : Byte} {m : Memory} :
    Memory.wf ((k, c) :: m) ↔ (∀ x ∈ m, k < x.1) ∧ c ≠ 0 ∧ Memory.wf m := by
  simp only [Memory.wf, List.pairwise_cons, List.forall_mem_cons]
  tauto

theorem Memory.wf_nil : Memory.wf [] := by simp [Memory.wf]

/-- A byte below every listed address reads 0. -/
theorem Memory.read_below {m : Memory} {a : Nat} (h : ∀ x ∈ m, a < x.1) : m.read a = 0 := by
  cases m with
  | nil => rfl
  | cons x m =>
    have hx : a < x.1 := h x (by simp)
    obtain ⟨k, c⟩ := x
    simp only [Memory.read]
    rw [if_neg (by simp only at hx; omega), if_pos hx]

/-- An address listed after a write was listed before it or is the one written. -/
theorem Memory.write_mem {m : Memory} {a : Nat} {b : Byte} {x : Host.Cell} (h : x ∈ m.write a b) :
    x ∈ m ∨ x = (a, b) := by
  induction m with
  | nil => by_cases hb : b = 0 <;> simp_all [Memory.write]
  | cons y m ih =>
    obtain ⟨k, c⟩ := y
    simp only [Memory.write] at h
    split at h
    · split at h
      · exact Or.inl h
      · rcases List.mem_cons.mp h with h | h
        · exact Or.inr h
        · exact Or.inl h
    · split at h
      · split at h
        · exact Or.inl (List.mem_cons_of_mem _ h)
        · rcases List.mem_cons.mp h with h | h
          · exact Or.inr h
          · exact Or.inl (List.mem_cons_of_mem _ h)
      · rcases List.mem_cons.mp h with h | h
        · simp [h]
        · rcases ih h with h | h <;> simp [h]

/-- A write keeps the canonical form. -/
theorem Memory.write_wf {m : Memory} (a : Nat) (b : Byte) (h : m.wf) : (m.write a b).wf := by
  induction m with
  | nil =>
    by_cases hb : b = 0
    · simp [Memory.write, hb, Memory.wf]
    · rw [Memory.write, if_neg hb]
      exact Memory.wf_cons.mpr ⟨by simp, hb, Memory.wf_nil⟩
  | cons y m ih =>
    obtain ⟨k, c⟩ := y
    obtain ⟨hk, hc, hm⟩ := Memory.wf_cons.mp h
    simp only [Memory.write]
    split
    · split
      · exact h
      · rename_i hak hb
        refine Memory.wf_cons.mpr ⟨fun x hx => ?_, hb, h⟩
        rcases List.mem_cons.mp hx with rfl | hx
        · exact hak
        · exact lt_trans hak (hk x hx)
    · split
      · split
        · exact hm
        · rename_i hak hb
          exact Memory.wf_cons.mpr ⟨fun x hx => hak ▸ hk x hx, hb, hm⟩
      · refine Memory.wf_cons.mpr ⟨fun x hx => ?_, hc, ih hm⟩
        rcases Memory.write_mem hx with hx | rfl
        · exact hk x hx
        · show k < a
          omega

/-- Bytes stored one after another keep the canonical form. -/
theorem Memory.writeAll_wf {m : Memory} (a : Nat) (bs : List Byte) (h : m.wf) : (m.writeAll a bs).wf := by
  induction bs generalizing m a with
  | nil => exact h
  | cons b bs ih => exact ih (a + 1) (Memory.write_wf a b h)

/-- A read after a write to the same place gives the byte written; a write leaves every other place alone. -/
theorem Memory.read_write {m : Memory} (h : m.wf) (a a' : Nat) (b : Byte) :
    (m.write a b).read a' = if a' = a then b else m.read a' := by
  induction m with
  | nil =>
    by_cases hb : b = 0
    · simp [Memory.write, Memory.read, hb]
    · rw [Memory.write, if_neg hb]
      by_cases ha : a' = a
      · simp [Memory.read, ha]
      · simp [Memory.read, ha, Ne.symm ha]
  | cons y m ih =>
    obtain ⟨k, c⟩ := y
    obtain ⟨hk, hc, hm⟩ := Memory.wf_cons.mp h
    simp only [Memory.write]
    split
    · rename_i hak
      split
      · rename_i hb
        by_cases ha : a' = a
        · subst ha
          simp [Memory.read, hb, hak, show k ≠ a' by omega]
        · simp [ha]
      · by_cases ha : a' = a
        · simp [Memory.read, ha]
        · by_cases hlt : a' < a
          · simp [Memory.read, ha, Ne.symm ha, hlt, show k ≠ a' by omega, show a' < k by omega]
          · simp [Memory.read, ha, Ne.symm ha, hlt]
    · split
      · rename_i hak
        subst hak
        by_cases ha : a' = a
        · subst ha
          split
          · rename_i hb; rw [Memory.read_below hk]; simp [hb]
          · simp [Memory.read]
        · by_cases hlt : a' < a
          · split
            · rw [Memory.read_below fun x hx => lt_trans hlt (hk x hx)]
              simp [Memory.read, Ne.symm ha, hlt]
            · simp [Memory.read, Ne.symm ha, hlt]
          · split <;> simp [Memory.read, Ne.symm ha, hlt]
      · rename_i h1 h2
        by_cases hka : k = a'
        · subst hka
          simp [Memory.read, Ne.symm h2]
        · by_cases hlt : a' < k
          · simp [Memory.read, hka, hlt, show a' ≠ a by omega]
          · simp [Memory.read, hka, hlt, ih hm]

/-- What a run of stored bytes reads as, byte by byte. -/
theorem Memory.read_writeAll {m : Memory} (h : m.wf) (a a' : Nat) (bs : List Byte) :
    (m.writeAll a bs).read a' = if a ≤ a' ∧ a' < a + bs.length then bs.getD (a' - a) 0 else m.read a' := by
  induction bs generalizing m a with
  | nil => simp [Memory.writeAll]
  | cons b bs ih =>
    simp only [Memory.writeAll]
    rw [ih (Memory.write_wf a b h), Memory.read_write h]
    by_cases h1 : a' = a
    · subst h1; simp
    · by_cases h2 : a + 1 ≤ a' ∧ a' < a + 1 + bs.length
      · rw [if_pos h2, if_pos (by simp only [List.length_cons]; omega)]
        obtain ⟨d, rfl⟩ : ∃ d, a' = a + 1 + d := ⟨a' - (a + 1), by omega⟩
        simp [show a + 1 + d - a = d + 1 by omega]
      · rw [if_neg h2, if_neg h1, if_neg (by simp only [List.length_cons]; omega)]

/-- The memories of the machine after reset are in canonical form. -/
theorem reset_memories_wf : State.reset.psc.planSpace.wf ∧ ∀ b : BufNo, State.reset.bcm.buffers[b].wf := by
  refine ⟨Memory.wf_nil, fun b => ?_⟩
  have h : State.reset.bcm.buffers = Vector.replicate 33 [] := rfl
  rw [h, Fin.getElem_fin, Vector.getElem_replicate]
  exact Memory.wf_nil

@[simp] theorem Memory.length_readAll (m : Memory) (a n : Nat) : (m.readAll a n).length = n := by simp [Memory.readAll]

@[simp] theorem length_slice (r : List Byte) (off n : Nat) : (slice r off n).length = n := by simp [slice]

@[simp] theorem length_leHalf (h : Half) : (leHalf h).length = 2 := rfl

@[simp] theorem length_le16 (n : Nat) : (le16 n).length = 2 := rfl

@[simp] theorem length_le32 (n : Nat) : (le32 n).length = 4 := rfl

@[simp] theorem length_zeros (n : Nat) : (zeros n).length = n := by simp [zeros]

end Sys2Proof.Machine
end

