-- ==== Sys2Proof/Laws/Tables.lean ====
section
/-!
SUPPORT. Reading a table that was rebuilt or changed at one place.
-/

namespace Sys2Proof

@[simp] theorem getElem_tabulate {α : Type} {n : Nat} (f : Fin n → α) (i : Nat) (h : i < n) :
    (tabulate f)[i] = f ⟨i, h⟩ := by
  simp [tabulate]

@[simp] theorem getElem_updateAt {α : Type} {n : Nat} (v : Vector α n) (i : Fin n) (f : α → α) (k : Nat) (h : k < n) :
    (updateAt v i f)[k] = if k = i.val then f v[k] else v[k] := by
  unfold updateAt
  by_cases hk : k = i.val
  · subst hk; simp
  · simp [hk, Ne.symm hk]

/-- Two tables with the same places are equal. -/
theorem table_ext {α : Type} {n : Nat} {v w : Vector α n} (h : ∀ i : Fin n, v[i] = w[i]) : v = w := by
  apply Vector.ext
  intro i hi
  exact h ⟨i, hi⟩

/-- A table rebuilt from its own places is the same table. -/
theorem tabulate_getElem {α : Type} {n : Nat} (v : Vector α n) : (tabulate fun i : Fin n => v[i]) = v :=
  table_ext fun i => by simp

end Sys2Proof
end

