-- ==== Sys2Proof/Laws/State.lean ====
section
/-!
SUPPORT. What each named update of the state does to each of its fields, each proved by unfolding it alone.
-/

namespace Sys2Proof.Machine

/-! ### `driveAttention` -/

@[simp] theorem driveAttention_psc (s : State) : (driveAttention s).psc = s.psc := rfl
@[simp] theorem driveAttention_rin (s : State) : (driveAttention s).rin = s.rin := rfl
@[simp] theorem driveAttention_ale (s : State) : (driveAttention s).ale = s.ale := rfl
@[simp] theorem driveAttention_lmn (s : State) : (driveAttention s).lmn = s.lmn := rfl
@[simp] theorem driveAttention_cxm (s : State) : (driveAttention s).cxm = s.cxm := rfl
@[simp] theorem driveAttention_bcm (s : State) : (driveAttention s).bcm = s.bcm := rfl
@[simp] theorem driveAttention_pbi (s : State) :
    (driveAttention s).pbi = { s.pbi with attention := tabulate (attentionCondition s) } := rfl
@[simp] theorem driveAttention_power (s : State) : (driveAttention s).power = s.power := rfl
@[simp] theorem driveAttention_freeCount (s : State) : (driveAttention s).freeCount = s.freeCount := rfl
@[simp] theorem driveAttention_pending (s : State) : (driveAttention s).pending = s.pending := rfl

/-! ### `answer` -/

@[simp] theorem answer_psc (t : Transfer) (e : Termination) (b : Bool) (d : List Byte) (s : State) :
    (answer t e b d s).psc = s.psc := rfl
@[simp] theorem answer_rin (t : Transfer) (e : Termination) (b : Bool) (d : List Byte) (s : State) :
    (answer t e b d s).rin = s.rin := rfl
@[simp] theorem answer_ale (t : Transfer) (e : Termination) (b : Bool) (d : List Byte) (s : State) :
    (answer t e b d s).ale = s.ale := rfl
@[simp] theorem answer_lmn (t : Transfer) (e : Termination) (b : Bool) (d : List Byte) (s : State) :
    (answer t e b d s).lmn = s.lmn := rfl
@[simp] theorem answer_cxm (t : Transfer) (e : Termination) (b : Bool) (d : List Byte) (s : State) :
    (answer t e b d s).cxm = s.cxm := rfl
@[simp] theorem answer_bcm (t : Transfer) (e : Termination) (b : Bool) (d : List Byte) (s : State) :
    (answer t e b d s).bcm = s.bcm := rfl
@[simp] theorem answer_pbi (t : Transfer) (e : Termination) (b : Bool) (d : List Byte) (s : State) :
    (answer t e b d s).pbi =
      { s.pbi with response := some { slot := t.slot, termination := e, burstInhibit := b, data := d } } := rfl
@[simp] theorem answer_power (t : Transfer) (e : Termination) (b : Bool) (d : List Byte) (s : State) :
    (answer t e b d s).power = s.power := rfl
@[simp] theorem answer_freeCount (t : Transfer) (e : Termination) (b : Bool) (d : List Byte) (s : State) :
    (answer t e b d s).freeCount = s.freeCount := rfl
@[simp] theorem answer_pending (t : Transfer) (e : Termination) (b : Bool) (d : List Byte) (s : State) :
    (answer t e b d s).pending = s.pending := rfl

/-! ### `completeCommand` -/

@[simp] theorem completeCommand_psc (k : Slot) (x : InFlight) (o : CommandOutcome) (s : State) :
    (completeCommand k x o s).psc = s.psc := rfl
@[simp] theorem completeCommand_rin (k : Slot) (x : InFlight) (o : CommandOutcome) (s : State) :
    (completeCommand k x o s).rin = s.rin := rfl
@[simp] theorem completeCommand_ale (k : Slot) (x : InFlight) (o : CommandOutcome) (s : State) :
    (completeCommand k x o s).ale = s.ale := rfl
@[simp] theorem completeCommand_lmn (k : Slot) (x : InFlight) (o : CommandOutcome) (s : State) :
    (completeCommand k x o s).lmn = s.lmn := rfl
@[simp] theorem completeCommand_cxm (k : Slot) (x : InFlight) (o : CommandOutcome) (s : State) :
    (completeCommand k x o s).cxm = s.cxm := rfl
@[simp] theorem completeCommand_bcm (k : Slot) (x : InFlight) (o : CommandOutcome) (s : State) :
    (completeCommand k x o s).bcm = s.bcm := rfl
@[simp] theorem completeCommand_pbi (k : Slot) (x : InFlight) (o : CommandOutcome) (s : State) :
    (completeCommand k x o s).pbi = { s.pbi with
      inFlight := s.pbi.inFlight.set k none
      results := if x.lost then s.pbi.results else s.pbi.results.set k (o.toResult (commandByte x 0)) } := rfl
@[simp] theorem completeCommand_power (k : Slot) (x : InFlight) (o : CommandOutcome) (s : State) :
    (completeCommand k x o s).power = s.power := rfl
@[simp] theorem completeCommand_freeCount (k : Slot) (x : InFlight) (o : CommandOutcome) (s : State) :
    (completeCommand k x o s).freeCount = s.freeCount := rfl
@[simp] theorem completeCommand_pending (k : Slot) (x : InFlight) (o : CommandOutcome) (s : State) :
    (completeCommand k x o s).pending = s.pending := rfl

/-! ### `setContext` -/

@[simp] theorem setContext_psc (c : CtxNo) (x : Context) (s : State) : (setContext c x s).psc = s.psc := rfl
@[simp] theorem setContext_rin (c : CtxNo) (x : Context) (s : State) : (setContext c x s).rin = s.rin := rfl
@[simp] theorem setContext_ale (c : CtxNo) (x : Context) (s : State) : (setContext c x s).ale = s.ale := rfl
@[simp] theorem setContext_lmn (c : CtxNo) (x : Context) (s : State) : (setContext c x s).lmn = s.lmn := rfl
@[simp] theorem setContext_cxm (c : CtxNo) (x : Context) (s : State) :
    (setContext c x s).cxm = { s.cxm with contexts := s.cxm.contexts.set c x } := rfl
@[simp] theorem setContext_bcm (c : CtxNo) (x : Context) (s : State) : (setContext c x s).bcm = s.bcm := rfl
@[simp] theorem setContext_pbi (c : CtxNo) (x : Context) (s : State) : (setContext c x s).pbi = s.pbi := rfl
@[simp] theorem setContext_power (c : CtxNo) (x : Context) (s : State) : (setContext c x s).power = s.power := rfl
@[simp] theorem setContext_freeCount (c : CtxNo) (x : Context) (s : State) :
    (setContext c x s).freeCount = s.freeCount := rfl
@[simp] theorem setContext_pending (c : CtxNo) (x : Context) (s : State) :
    (setContext c x s).pending = s.pending := rfl

/-! ### `setComposition` -/

@[simp] theorem setComposition_psc (x : Composition) (s : State) : (setComposition x s).psc = s.psc := rfl
@[simp] theorem setComposition_rin (x : Composition) (s : State) : (setComposition x s).rin = s.rin := rfl
@[simp] theorem setComposition_ale (x : Composition) (s : State) : (setComposition x s).ale = s.ale := rfl
@[simp] theorem setComposition_lmn (x : Composition) (s : State) : (setComposition x s).lmn = s.lmn := rfl
@[simp] theorem setComposition_cxm (x : Composition) (s : State) : (setComposition x s).cxm = s.cxm := rfl
@[simp] theorem setComposition_bcm (x : Composition) (s : State) :
    (setComposition x s).bcm = { s.bcm with composition := some x } := rfl
@[simp] theorem setComposition_pbi (x : Composition) (s : State) : (setComposition x s).pbi = s.pbi := rfl
@[simp] theorem setComposition_power (x : Composition) (s : State) : (setComposition x s).power = s.power := rfl
@[simp] theorem setComposition_freeCount (x : Composition) (s : State) :
    (setComposition x s).freeCount = s.freeCount := rfl
@[simp] theorem setComposition_pending (x : Composition) (s : State) : (setComposition x s).pending = s.pending := rfl

/-! ### `storeBytes` -/

@[simp] theorem storeBytes_psc (x : Composition) (o : Nat) (d : List Byte) (s : State) :
    (storeBytes x o d s).psc = s.psc := rfl
@[simp] theorem storeBytes_rin (x : Composition) (o : Nat) (d : List Byte) (s : State) :
    (storeBytes x o d s).rin = s.rin := rfl
@[simp] theorem storeBytes_ale (x : Composition) (o : Nat) (d : List Byte) (s : State) :
    (storeBytes x o d s).ale = s.ale := rfl
@[simp] theorem storeBytes_lmn (x : Composition) (o : Nat) (d : List Byte) (s : State) :
    (storeBytes x o d s).lmn = s.lmn := rfl
@[simp] theorem storeBytes_cxm (x : Composition) (o : Nat) (d : List Byte) (s : State) :
    (storeBytes x o d s).cxm = s.cxm := rfl
@[simp] theorem storeBytes_bcm (x : Composition) (o : Nat) (d : List Byte) (s : State) :
    (storeBytes x o d s).bcm =
      { s.bcm with buffers := updateAt s.bcm.buffers x.buffer fun m => m.writeAll o d } := rfl
@[simp] theorem storeBytes_pbi (x : Composition) (o : Nat) (d : List Byte) (s : State) :
    (storeBytes x o d s).pbi = s.pbi := rfl
@[simp] theorem storeBytes_power (x : Composition) (o : Nat) (d : List Byte) (s : State) :
    (storeBytes x o d s).power = s.power := rfl
@[simp] theorem storeBytes_freeCount (x : Composition) (o : Nat) (d : List Byte) (s : State) :
    (storeBytes x o d s).freeCount = s.freeCount := rfl
@[simp] theorem storeBytes_pending (x : Composition) (o : Nat) (d : List Byte) (s : State) :
    (storeBytes x o d s).pending = s.pending := rfl

/-! ### `disturb` -/

@[simp] theorem disturb_psc (s : State) : (disturb s).psc = s.psc := rfl
@[simp] theorem disturb_rin (s : State) : (disturb s).rin = s.rin := rfl
@[simp] theorem disturb_ale (s : State) : (disturb s).ale = s.ale := rfl
@[simp] theorem disturb_lmn (s : State) : (disturb s).lmn = s.lmn := rfl
@[simp] theorem disturb_cxm (s : State) : (disturb s).cxm = s.cxm := rfl
@[simp] theorem disturb_bcm (s : State) :
    (disturb s).bcm = { s.bcm with composition := s.bcm.composition.map fun c => { c with disturbed := true } } := rfl
@[simp] theorem disturb_pbi (s : State) : (disturb s).pbi = s.pbi := rfl
@[simp] theorem disturb_power (s : State) : (disturb s).power = s.power := rfl
@[simp] theorem disturb_freeCount (s : State) : (disturb s).freeCount = s.freeCount := rfl
@[simp] theorem disturb_pending (s : State) : (disturb s).pending = s.pending := rfl

/-! ### `setMap` -/

@[simp] theorem setMap_psc (m : Vector SlotClass 8) (s : State) : (setMap m s).psc = s.psc := by rw [setMap]
@[simp] theorem setMap_rin (m : Vector SlotClass 8) (s : State) : (setMap m s).rin = s.rin := by rw [setMap]
@[simp] theorem setMap_ale (m : Vector SlotClass 8) (s : State) :
    (setMap m s).ale = endHolds (fun slot => m[slot] != .console) s.ale := by rw [setMap]
@[simp] theorem setMap_lmn (m : Vector SlotClass 8) (s : State) : (setMap m s).lmn = s.lmn := by rw [setMap]
@[simp] theorem setMap_cxm (m : Vector SlotClass 8) (s : State) : (setMap m s).cxm = s.cxm := by rw [setMap]
@[simp] theorem setMap_bcm (m : Vector SlotClass 8) (s : State) : (setMap m s).bcm = s.bcm := by rw [setMap]
@[simp] theorem setMap_pbi (m : Vector SlotClass 8) (s : State) :
    (setMap m s).pbi = { s.pbi with classes := m } := by rw [setMap]
@[simp] theorem setMap_power (m : Vector SlotClass 8) (s : State) : (setMap m s).power = s.power := by rw [setMap]
@[simp] theorem setMap_freeCount (m : Vector SlotClass 8) (s : State) : (setMap m s).freeCount = s.freeCount := by rw [setMap]
@[simp] theorem setMap_pending (m : Vector SlotClass 8) (s : State) : (setMap m s).pending = s.pending := by rw [setMap]

/-! ### `settle` -/

@[simp] theorem settle_psc (s : State) : (settle s).psc = s.psc := rfl
@[simp] theorem settle_rin (s : State) : (settle s).rin = s.rin := rfl
@[simp] theorem settle_ale (s : State) : (settle s).ale = s.ale := rfl
@[simp] theorem settle_lmn (s : State) : (settle s).lmn = s.lmn := rfl
@[simp] theorem settle_cxm (s : State) : (settle s).cxm = s.cxm := rfl
@[simp] theorem settle_bcm (s : State) : (settle s).bcm = s.bcm := rfl
@[simp] theorem settle_pbi (s : State) : (settle s).pbi = { s.pbi with loaderFlag := true } := rfl
@[simp] theorem settle_power (s : State) : (settle s).power = s.power := rfl
@[simp] theorem settle_freeCount (s : State) : (settle s).freeCount = s.freeCount := rfl
@[simp] theorem settle_pending (s : State) : (settle s).pending = s.pending := rfl

/-! ### `setStatus` -/

@[simp] theorem setStatus_psc (a : PlanState) (b : RunOrigin) (c : Fin 8) (d : PlanReason) (e : Nat)
    (r : Half) (s : State) :
    (setStatus a b c d e r s).psc =
      { s.psc with
      state := a, origin := b, stage := c, reason := d, offset := e, revision := r } := rfl
@[simp] theorem setStatus_rin (a : PlanState) (b : RunOrigin) (c : Fin 8) (d : PlanReason) (e : Nat)
    (r : Half) (s : State) :
    (setStatus a b c d e r s).rin =
      s.rin := rfl
@[simp] theorem setStatus_ale (a : PlanState) (b : RunOrigin) (c : Fin 8) (d : PlanReason) (e : Nat)
    (r : Half) (s : State) :
    (setStatus a b c d e r s).ale =
      s.ale := rfl
@[simp] theorem setStatus_lmn (a : PlanState) (b : RunOrigin) (c : Fin 8) (d : PlanReason) (e : Nat)
    (r : Half) (s : State) :
    (setStatus a b c d e r s).lmn =
      s.lmn := rfl
@[simp] theorem setStatus_cxm (a : PlanState) (b : RunOrigin) (c : Fin 8) (d : PlanReason) (e : Nat)
    (r : Half) (s : State) :
    (setStatus a b c d e r s).cxm =
      s.cxm := rfl
@[simp] theorem setStatus_bcm (a : PlanState) (b : RunOrigin) (c : Fin 8) (d : PlanReason) (e : Nat)
    (r : Half) (s : State) :
    (setStatus a b c d e r s).bcm =
      s.bcm := rfl
@[simp] theorem setStatus_pbi (a : PlanState) (b : RunOrigin) (c : Fin 8) (d : PlanReason) (e : Nat)
    (r : Half) (s : State) :
    (setStatus a b c d e r s).pbi =
      s.pbi := rfl
@[simp] theorem setStatus_power (a : PlanState) (b : RunOrigin) (c : Fin 8) (d : PlanReason) (e : Nat)
    (r : Half) (s : State) :
    (setStatus a b c d e r s).power =
      s.power := rfl
@[simp] theorem setStatus_freeCount (a : PlanState) (b : RunOrigin) (c : Fin 8) (d : PlanReason) (e : Nat)
    (r : Half) (s : State) :
    (setStatus a b c d e r s).freeCount =
      s.freeCount := rfl
@[simp] theorem setStatus_pending (a : PlanState) (b : RunOrigin) (c : Fin 8) (d : PlanReason) (e : Nat)
    (r : Half) (s : State) :
    (setStatus a b c d e r s).pending =
      s.pending := rfl

/-! ### `offer` -/

@[simp] theorem offer_psc (n : Notice) (s : State) : (offer n s).psc = s.psc := by simp only [offer]
@[simp] theorem offer_rin (n : Notice) (s : State) : (offer n s).rin = s.rin := by simp only [offer]
@[simp] theorem offer_ale (n : Notice) (s : State) : (offer n s).ale = s.ale := by simp only [offer]
@[simp] theorem offer_lmn (n : Notice) (s : State) : (offer n s).lmn = s.lmn := by simp only [offer]
@[simp] theorem offer_bcm (n : Notice) (s : State) : (offer n s).bcm = s.bcm := by simp only [offer]
@[simp] theorem offer_pbi (n : Notice) (s : State) : (offer n s).pbi = s.pbi := by simp only [offer]
@[simp] theorem offer_power (n : Notice) (s : State) : (offer n s).power = s.power := by simp only [offer]
@[simp] theorem offer_freeCount (n : Notice) (s : State) : (offer n s).freeCount = s.freeCount := by simp only [offer]
@[simp] theorem offer_pending (n : Notice) (s : State) : (offer n s).pending = s.pending := by simp only [offer]

end Sys2Proof.Machine
end

