-- ==== Sys2Proof/Laws/Brief.lean ====
section
/-!
SUPPORT. What the space test leaves of the items of one walk step (R143, R145).
-/

namespace Sys2Proof.Machine

/-- Bytes stored one run after another are stored together. -/
theorem writeAll_append (m : Memory) (a : Nat) (xs ys : List Byte) :
    m.writeAll a (xs ++ ys) = (m.writeAll a xs).writeAll (a + xs.length) ys := by
  induction xs generalizing m a with
  | nil => rfl
  | cons x xs ih =>
    simp only [List.cons_append, Memory.writeAll, ih, List.length_cons]
    congr 1; omega

/-- Two runs of bytes stored one after another in the working buffer are stored together. -/
theorem storeBytes_append (c : Composition) (off : Nat) (xs ys : List Byte) (s : State) :
    storeBytes c (off + xs.length) ys (storeBytes c off xs s) = storeBytes c off (xs ++ ys) s := by
  have h : (updateAt (updateAt s.bcm.buffers c.buffer fun m => m.writeAll off xs) c.buffer
      fun m => m.writeAll (off + xs.length) ys) = updateAt s.bcm.buffers c.buffer fun m => m.writeAll off (xs ++ ys) := by
    refine table_ext fun i => ?_
    simp only [Fin.getElem_fin, getElem_updateAt]
    split <;> simp [writeAll_append]
  unfold storeBytes
  simp only [h]

/-- Nothing stored leaves the state as it stands. -/
theorem storeBytes_nil (c : Composition) (off : Nat) (s : State) : storeBytes c off [] s = s := by
  have h : (updateAt s.bcm.buffers c.buffer fun m => m.writeAll off []) = s.bcm.buffers := by
    refine table_ext fun i => ?_
    simp only [Fin.getElem_fin, getElem_updateAt, Memory.writeAll, ite_self]
  unfold storeBytes
  rw [h]

/-- Everything that items tested one after another leave (R145): the bytes of those that fit, one after another, and the counts;
`flags` is what meeting an item does to the walk's flags. -/
theorem putItems_cases {α : Type} (c : Composition) (bytes : α → List Byte) (flags : α → WalkFlags → WalkFlags) (l : List α)
    (sw : State × Walk) :
    let r := l.foldl (fun sw x => putItem c (bytes x) (sw.1, { sw.2 with flags := flags x sw.2.flags })) sw
    let laid := laidDown sw.2.offset (l.map bytes)
    let left := leftOut sw.2.offset (l.map bytes)
    r.1 = storeBytes c sw.2.offset laid sw.1 ∧
      r.2 = { sw.2 with
        offset := sw.2.offset + laid.length, items := sw.2.items + l.length - left
        omitted := if left = 0 then sw.2.omitted else min 65535 (sw.2.omitted + left)
        flags := l.foldl (fun f x => flags x f) sw.2.flags } ∧
      left ≤ l.length := by
  induction l generalizing sw with
  | nil => simp [laidDown, leftOut, storeBytes_nil]
  | cons x l ih =>
    obtain ⟨s, w⟩ := sw
    simp only [List.foldl_cons, List.map_cons, laidDown, leftOut, List.length_cons]
    by_cases hfit : w.offset + (bytes x).length ≤ 8152
    · have hput : putItem c (bytes x) (s, { w with flags := flags x w.flags }) =
          (storeBytes c w.offset (bytes x) s,
            { w with flags := flags x w.flags, offset := w.offset + (bytes x).length, items := w.items + 1 }) := if_pos hfit
      rw [hput, if_pos hfit, if_pos hfit]
      obtain ⟨h1, h2, h3⟩ := ih (storeBytes c w.offset (bytes x) s,
        { w with flags := flags x w.flags, offset := w.offset + (bytes x).length, items := w.items + 1 })
      refine ⟨by rw [h1, storeBytes_append], ?_, by simp only at h3; omega⟩
      rw [h2]
      simp only [List.length_append, Walk.mk.injEq, true_and, and_true]
      omega
    · have hput : putItem c (bytes x) (s, { w with flags := flags x w.flags }) =
          (s, { w with flags := flags x w.flags, omitted := min 65535 (w.omitted + 1) }) := if_neg hfit
      rw [hput, if_neg hfit, if_neg hfit]
      obtain ⟨h1, h2, h3⟩ := ih (s, { w with flags := flags x w.flags, omitted := min 65535 (w.omitted + 1) })
      refine ⟨h1, ?_, by simp only at h3; omega⟩
      rw [h2]
      simp only [Walk.mk.injEq, true_and, and_true]
      refine ⟨by omega, ?_⟩
      split <;> simp_all; all_goals omega

end Sys2Proof.Machine
end

