-- ==== Sys2Proof/Laws/Frames.lean ====
section
/-!
SUPPORT. Frames: which blocks each shared operation of the composer, the notices and an ALE event leaves as they stand.
-/

namespace Sys2Proof.Machine

/-! ### `offerAll` -/

@[simp] theorem offerAll_psc (ns : List Notice) (s : State) :
    (offerAll ns s).psc = s.psc := by
  induction ns generalizing s with
  | nil => rfl
  | cons n ns ih => exact (ih (offer n s)).trans (offer_psc n s)
@[simp] theorem offerAll_rin (ns : List Notice) (s : State) :
    (offerAll ns s).rin = s.rin := by
  induction ns generalizing s with
  | nil => rfl
  | cons n ns ih => exact (ih (offer n s)).trans (offer_rin n s)
@[simp] theorem offerAll_ale (ns : List Notice) (s : State) :
    (offerAll ns s).ale = s.ale := by
  induction ns generalizing s with
  | nil => rfl
  | cons n ns ih => exact (ih (offer n s)).trans (offer_ale n s)
@[simp] theorem offerAll_lmn (ns : List Notice) (s : State) :
    (offerAll ns s).lmn = s.lmn := by
  induction ns generalizing s with
  | nil => rfl
  | cons n ns ih => exact (ih (offer n s)).trans (offer_lmn n s)
@[simp] theorem offerAll_bcm (ns : List Notice) (s : State) :
    (offerAll ns s).bcm = s.bcm := by
  induction ns generalizing s with
  | nil => rfl
  | cons n ns ih => exact (ih (offer n s)).trans (offer_bcm n s)
@[simp] theorem offerAll_pbi (ns : List Notice) (s : State) :
    (offerAll ns s).pbi = s.pbi := by
  induction ns generalizing s with
  | nil => rfl
  | cons n ns ih => exact (ih (offer n s)).trans (offer_pbi n s)
@[simp] theorem offerAll_power (ns : List Notice) (s : State) :
    (offerAll ns s).power = s.power := by
  induction ns generalizing s with
  | nil => rfl
  | cons n ns ih => exact (ih (offer n s)).trans (offer_power n s)
@[simp] theorem offerAll_freeCount (ns : List Notice) (s : State) :
    (offerAll ns s).freeCount = s.freeCount := by
  induction ns generalizing s with
  | nil => rfl
  | cons n ns ih => exact (ih (offer n s)).trans (offer_freeCount n s)
@[simp] theorem offerAll_pending (ns : List Notice) (s : State) :
    (offerAll ns s).pending = s.pending := by
  induction ns generalizing s with
  | nil => rfl
  | cons n ns ih => exact (ih (offer n s)).trans (offer_pending n s)

/-! ### `disturbFloors` -/

@[simp] theorem disturbFloors_psc (fs : List Nat) (s : State) :
    (disturbFloors fs s).psc = s.psc := by
  unfold disturbFloors; split <;> simp
@[simp] theorem disturbFloors_rin (fs : List Nat) (s : State) :
    (disturbFloors fs s).rin = s.rin := by
  unfold disturbFloors; split <;> simp
@[simp] theorem disturbFloors_ale (fs : List Nat) (s : State) :
    (disturbFloors fs s).ale = s.ale := by
  unfold disturbFloors; split <;> simp
@[simp] theorem disturbFloors_lmn (fs : List Nat) (s : State) :
    (disturbFloors fs s).lmn = s.lmn := by
  unfold disturbFloors; split <;> simp
@[simp] theorem disturbFloors_cxm (fs : List Nat) (s : State) :
    (disturbFloors fs s).cxm = s.cxm := by
  unfold disturbFloors; split <;> simp
@[simp] theorem disturbFloors_pbi (fs : List Nat) (s : State) :
    (disturbFloors fs s).pbi = s.pbi := by
  unfold disturbFloors; split <;> simp
@[simp] theorem disturbFloors_power (fs : List Nat) (s : State) :
    (disturbFloors fs s).power = s.power := by
  unfold disturbFloors; split <;> simp
@[simp] theorem disturbFloors_freeCount (fs : List Nat) (s : State) :
    (disturbFloors fs s).freeCount = s.freeCount := by
  unfold disturbFloors; split <;> simp
@[simp] theorem disturbFloors_pending (fs : List Nat) (s : State) :
    (disturbFloors fs s).pending = s.pending := by
  unfold disturbFloors; split <;> simp

/-! ### `abandon` -/

@[simp] theorem abandon_psc (b : Bool) (s : State) :
    (abandon b s).psc = s.psc := by
  unfold abandon; split <;> rfl
@[simp] theorem abandon_rin (b : Bool) (s : State) :
    (abandon b s).rin = s.rin := by
  unfold abandon; split <;> rfl
@[simp] theorem abandon_ale (b : Bool) (s : State) :
    (abandon b s).ale = s.ale := by
  unfold abandon; split <;> rfl
@[simp] theorem abandon_lmn (b : Bool) (s : State) :
    (abandon b s).lmn = s.lmn := by
  unfold abandon; split <;> rfl
@[simp] theorem abandon_cxm (b : Bool) (s : State) :
    (abandon b s).cxm = s.cxm := by
  unfold abandon; split <;> rfl
@[simp] theorem abandon_pbi (b : Bool) (s : State) :
    (abandon b s).pbi = s.pbi := by
  unfold abandon; split <;> rfl
@[simp] theorem abandon_power (b : Bool) (s : State) :
    (abandon b s).power = s.power := by
  unfold abandon; split <;> rfl
@[simp] theorem abandon_freeCount (b : Bool) (s : State) :
    (abandon b s).freeCount = s.freeCount := by
  unfold abandon; split <;> rfl
@[simp] theorem abandon_pending (b : Bool) (s : State) :
    (abandon b s).pending = s.pending := by
  unfold abandon; split <;> rfl

/-! ### `briefRequest` -/

@[simp] theorem briefRequest_psc (c : CtxNo) (u : Urgency) (b : Bool) (s : State) :
    (briefRequest c u b s).psc = s.psc := by
  unfold briefRequest; split <;> first | rfl | (split <;> rfl) | simp
@[simp] theorem briefRequest_rin (c : CtxNo) (u : Urgency) (b : Bool) (s : State) :
    (briefRequest c u b s).rin = s.rin := by
  unfold briefRequest; split <;> first | rfl | (split <;> rfl) | simp
@[simp] theorem briefRequest_ale (c : CtxNo) (u : Urgency) (b : Bool) (s : State) :
    (briefRequest c u b s).ale = s.ale := by
  unfold briefRequest; split <;> first | rfl | (split <;> rfl) | simp
@[simp] theorem briefRequest_lmn (c : CtxNo) (u : Urgency) (b : Bool) (s : State) :
    (briefRequest c u b s).lmn = s.lmn := by
  unfold briefRequest; split <;> first | rfl | (split <;> rfl) | simp
@[simp] theorem briefRequest_cxm (c : CtxNo) (u : Urgency) (b : Bool) (s : State) :
    (briefRequest c u b s).cxm = s.cxm := by
  unfold briefRequest; split <;> first | rfl | (split <;> rfl) | simp
@[simp] theorem briefRequest_pbi (c : CtxNo) (u : Urgency) (b : Bool) (s : State) :
    (briefRequest c u b s).pbi = s.pbi := by
  unfold briefRequest; split <;> first | rfl | (split <;> rfl) | simp
@[simp] theorem briefRequest_power (c : CtxNo) (u : Urgency) (b : Bool) (s : State) :
    (briefRequest c u b s).power = s.power := by
  unfold briefRequest; split <;> first | rfl | (split <;> rfl) | simp
@[simp] theorem briefRequest_freeCount (c : CtxNo) (u : Urgency) (b : Bool) (s : State) :
    (briefRequest c u b s).freeCount = s.freeCount := by
  unfold briefRequest; split <;> first | rfl | (split <;> rfl) | simp
@[simp] theorem briefRequest_pending (c : CtxNo) (u : Urgency) (b : Bool) (s : State) :
    (briefRequest c u b s).pending = s.pending := by
  unfold briefRequest; split <;> first | rfl | (split <;> rfl) | simp

/-! ### `focusChanged` -/

@[simp] theorem focusChanged_psc (s : State) :
    (focusChanged s).psc = s.psc := by
  unfold focusChanged; split <;> simp
@[simp] theorem focusChanged_rin (s : State) :
    (focusChanged s).rin = s.rin := by
  unfold focusChanged; split <;> simp
@[simp] theorem focusChanged_ale (s : State) :
    (focusChanged s).ale = s.ale := by
  unfold focusChanged; split <;> simp
@[simp] theorem focusChanged_lmn (s : State) :
    (focusChanged s).lmn = s.lmn := by
  unfold focusChanged; split <;> simp
@[simp] theorem focusChanged_cxm (s : State) :
    (focusChanged s).cxm = s.cxm := by
  unfold focusChanged; split <;> simp
@[simp] theorem focusChanged_pbi (s : State) :
    (focusChanged s).pbi = s.pbi := by
  unfold focusChanged; split <;> simp
@[simp] theorem focusChanged_power (s : State) :
    (focusChanged s).power = s.power := by
  unfold focusChanged; split <;> simp
@[simp] theorem focusChanged_freeCount (s : State) :
    (focusChanged s).freeCount = s.freeCount := by
  unfold focusChanged; split <;> simp
@[simp] theorem focusChanged_pending (s : State) :
    (focusChanged s).pending = s.pending := by
  unfold focusChanged; split <;> simp

/-! ### Requests -/

/-- What every request keeps, all the requests of an event keep. -/
theorem foldl_briefRequest {α : Type} (get : State → α) (h : ∀ c u b s, get (briefRequest c u b s) = get s)
    (rs : List (CtxNo × Urgency)) (s : State) :
    get (rs.foldl (fun s r => briefRequest r.1 r.2 false s) s) = get s := by
  induction rs generalizing s with
  | nil => rfl
  | cons r rs ih => exact (ih _).trans (h _ _ _ _)

@[simp] theorem handRequests_psc (rs : List (CtxNo × Urgency)) (s : State) :
    (handRequests rs s).psc = s.psc := by
  unfold handRequests; rw [foldl_briefRequest (·.psc) (by simp)]
@[simp] theorem handRequests_rin (rs : List (CtxNo × Urgency)) (s : State) :
    (handRequests rs s).rin = s.rin := by
  unfold handRequests; rw [foldl_briefRequest (·.rin) (by simp)]
@[simp] theorem handRequests_ale (rs : List (CtxNo × Urgency)) (s : State) :
    (handRequests rs s).ale = s.ale := by
  unfold handRequests; rw [foldl_briefRequest (·.ale) (by simp)]
@[simp] theorem handRequests_lmn (rs : List (CtxNo × Urgency)) (s : State) :
    (handRequests rs s).lmn = s.lmn := by
  unfold handRequests; rw [foldl_briefRequest (·.lmn) (by simp)]
@[simp] theorem handRequests_cxm (rs : List (CtxNo × Urgency)) (s : State) :
    (handRequests rs s).cxm = s.cxm := by
  unfold handRequests; rw [foldl_briefRequest (·.cxm) (by simp)]
@[simp] theorem handRequests_pbi (rs : List (CtxNo × Urgency)) (s : State) :
    (handRequests rs s).pbi = s.pbi := by
  unfold handRequests; rw [foldl_briefRequest (·.pbi) (by simp)]
@[simp] theorem handRequests_power (rs : List (CtxNo × Urgency)) (s : State) :
    (handRequests rs s).power = s.power := by
  unfold handRequests; rw [foldl_briefRequest (·.power) (by simp)]
@[simp] theorem handRequests_pending (rs : List (CtxNo × Urgency)) (s : State) :
    (handRequests rs s).pending = s.pending := by
  unfold handRequests; rw [foldl_briefRequest (·.pending) (by simp)]

/-! ### `requestNormal` -/

@[simp] theorem requestNormal_psc (p : CtxNo → Bool) (s : State) :
    (requestNormal p s).psc = s.psc := by
  unfold requestNormal; simp
@[simp] theorem requestNormal_rin (p : CtxNo → Bool) (s : State) :
    (requestNormal p s).rin = s.rin := by
  unfold requestNormal; simp
@[simp] theorem requestNormal_ale (p : CtxNo → Bool) (s : State) :
    (requestNormal p s).ale = s.ale := by
  unfold requestNormal; simp
@[simp] theorem requestNormal_lmn (p : CtxNo → Bool) (s : State) :
    (requestNormal p s).lmn = s.lmn := by
  unfold requestNormal; simp
@[simp] theorem requestNormal_cxm (p : CtxNo → Bool) (s : State) :
    (requestNormal p s).cxm = s.cxm := by
  unfold requestNormal; simp
@[simp] theorem requestNormal_pbi (p : CtxNo → Bool) (s : State) :
    (requestNormal p s).pbi = s.pbi := by
  unfold requestNormal; simp
@[simp] theorem requestNormal_power (p : CtxNo → Bool) (s : State) :
    (requestNormal p s).power = s.power := by
  unfold requestNormal; simp
@[simp] theorem requestNormal_pending (p : CtxNo → Bool) (s : State) :
    (requestNormal p s).pending = s.pending := by
  unfold requestNormal; simp

/-! ### ALE events -/

@[simp] theorem handOn_psc (a : Ale) (n : EventNews) (s : State) :
    (handOn a n s).psc = s.psc := by
  unfold handOn; simp only; split <;> simp
@[simp] theorem handOn_rin (a : Ale) (n : EventNews) (s : State) :
    (handOn a n s).rin = s.rin := by
  unfold handOn; simp only; split <;> simp
@[simp] theorem handOn_ale (a : Ale) (n : EventNews) (s : State) :
    (handOn a n s).ale = s.ale := by
  unfold handOn; simp only; split <;> simp
@[simp] theorem handOn_lmn (a : Ale) (n : EventNews) (s : State) :
    (handOn a n s).lmn = s.lmn := by
  unfold handOn; simp only; split <;> simp
@[simp] theorem handOn_pbi (a : Ale) (n : EventNews) (s : State) :
    (handOn a n s).pbi = s.pbi := by
  unfold handOn; simp only; split <;> simp
@[simp] theorem handOn_power (a : Ale) (n : EventNews) (s : State) :
    (handOn a n s).power = s.power := by
  unfold handOn; simp only; split <;> simp
@[simp] theorem handOn_pending (a : Ale) (n : EventNews) (s : State) :
    (handOn a n s).pending = s.pending := by
  unfold handOn; simp only; split <;> simp

@[simp] theorem completeEvent_psc (a : Ale) (n : EventNews) (s : State) :
    (completeEvent a n s).psc = s.psc := by
  unfold completeEvent; simp
@[simp] theorem completeEvent_rin (a : Ale) (n : EventNews) (s : State) :
    (completeEvent a n s).rin = s.rin := by
  unfold completeEvent; simp
@[simp] theorem completeEvent_ale (a : Ale) (n : EventNews) (s : State) :
    (completeEvent a n s).ale = raiseEpoch a (recompute s.psc s.ale) := by
  unfold completeEvent; simp
@[simp] theorem completeEvent_lmn (a : Ale) (n : EventNews) (s : State) :
    (completeEvent a n s).lmn = s.lmn := by
  unfold completeEvent; simp
@[simp] theorem completeEvent_pbi (a : Ale) (n : EventNews) (s : State) :
    (completeEvent a n s).pbi = s.pbi := by
  unfold completeEvent; simp
@[simp] theorem completeEvent_power (a : Ale) (n : EventNews) (s : State) :
    (completeEvent a n s).power = s.power := by
  unfold completeEvent; simp
@[simp] theorem completeEvent_pending (a : Ale) (n : EventNews) (s : State) :
    (completeEvent a n s).pending = s.pending := by
  unfold completeEvent; simp

/-! ### `changeMark` -/

@[simp] theorem changeMark_psc (f : Nat) (m : FloorMark) (c : Option CtxNo) (s : State) :
    (changeMark f m c s).psc = s.psc := by
  unfold changeMark; simp
@[simp] theorem changeMark_rin (f : Nat) (m : FloorMark) (c : Option CtxNo) (s : State) :
    (changeMark f m c s).rin = s.rin := by
  unfold changeMark; simp
@[simp] theorem changeMark_ale (f : Nat) (m : FloorMark) (c : Option CtxNo) (s : State) :
    (changeMark f m c s).ale = s.ale := by
  unfold changeMark; simp
@[simp] theorem changeMark_lmn (f : Nat) (m : FloorMark) (c : Option CtxNo) (s : State) :
    (changeMark f m c s).lmn = s.lmn := by
  unfold changeMark; simp
@[simp] theorem changeMark_pbi (f : Nat) (m : FloorMark) (c : Option CtxNo) (s : State) :
    (changeMark f m c s).pbi = s.pbi := by
  unfold changeMark; simp
@[simp] theorem changeMark_power (f : Nat) (m : FloorMark) (c : Option CtxNo) (s : State) :
    (changeMark f m c s).power = s.power := by
  unfold changeMark; simp
@[simp] theorem changeMark_pending (f : Nat) (m : FloorMark) (c : Option CtxNo) (s : State) :
    (changeMark f m c s).pending = s.pending := by
  unfold changeMark; simp

/-! ### `unmark` -/

@[simp] theorem unmark_psc (f : Nat) (s : State) :
    (unmark f s).psc = s.psc := by
  unfold unmark; simp
@[simp] theorem unmark_rin (f : Nat) (s : State) :
    (unmark f s).rin = s.rin := by
  unfold unmark; simp
@[simp] theorem unmark_ale (f : Nat) (s : State) :
    (unmark f s).ale = s.ale := by
  unfold unmark; simp
@[simp] theorem unmark_lmn (f : Nat) (s : State) :
    (unmark f s).lmn = s.lmn := by
  unfold unmark; simp
@[simp] theorem unmark_pbi (f : Nat) (s : State) :
    (unmark f s).pbi = s.pbi := by
  unfold unmark; simp
@[simp] theorem unmark_power (f : Nat) (s : State) :
    (unmark f s).power = s.power := by
  unfold unmark; simp
@[simp] theorem unmark_pending (f : Nat) (s : State) :
    (unmark f s).pending = s.pending := by
  unfold unmark; simp

/-! ### The buffers, which no request and no notice touches -/

@[simp] theorem disturb_buffers (s : State) : (disturb s).bcm.buffers = s.bcm.buffers := rfl

@[simp] theorem disturbFloors_buffers (fs : List Nat) (s : State) :
    (disturbFloors fs s).bcm.buffers = s.bcm.buffers := by
  unfold disturbFloors; split <;> simp

@[simp] theorem abandon_buffers (b : Bool) (s : State) : (abandon b s).bcm.buffers = s.bcm.buffers := by
  unfold abandon; split <;> rfl

@[simp] theorem briefRequest_buffers (c : CtxNo) (u : Urgency) (b : Bool) (s : State) :
    (briefRequest c u b s).bcm.buffers = s.bcm.buffers := by
  unfold briefRequest; split <;> first | rfl | (split <;> rfl) | simp

@[simp] theorem focusChanged_buffers (s : State) : (focusChanged s).bcm.buffers = s.bcm.buffers := by
  unfold focusChanged; split <;> simp

@[simp] theorem handRequests_buffers (rs : List (CtxNo × Urgency)) (s : State) :
    (handRequests rs s).bcm.buffers = s.bcm.buffers := by
  unfold handRequests; rw [foldl_briefRequest (·.bcm.buffers) (by simp)]

@[simp] theorem requestNormal_buffers (p : CtxNo → Bool) (s : State) :
    (requestNormal p s).bcm.buffers = s.bcm.buffers := by
  unfold requestNormal; simp

@[simp] theorem handOn_buffers (a : Ale) (n : EventNews) (s : State) :
    (handOn a n s).bcm.buffers = s.bcm.buffers := by
  unfold handOn; simp only; split <;> simp

@[simp] theorem completeEvent_buffers (a : Ale) (n : EventNews) (s : State) :
    (completeEvent a n s).bcm.buffers = s.bcm.buffers := by
  unfold completeEvent; simp

@[simp] theorem changeMark_buffers (f : Nat) (m : FloorMark) (c : Option CtxNo) (s : State) :
    (changeMark f m c s).bcm.buffers = s.bcm.buffers := by
  unfold changeMark; simp

end Sys2Proof.Machine
end

