-- ==== Sys2Proof/Laws/Commands.lean ====
section
/-!
SUPPORT. What one event and one completion of a command can do.
-/

namespace Sys2Proof.Machine

/-- An event always answers a next state: its effect with the attention lines driven, or nothing while the power is off. -/
theorem event_next (f : State → State) (s : State) :
    event f s = .next (if s.power = true then driveAttention (f s) else s) := by
  unfold event; split <;> rfl

/-- The next state of an event while the part has power. -/
theorem event_powered {f : State → State} {s t : State} (hp : s.power = true) (h : event f s = .next t) :
    t = driveAttention (f s) := by
  rw [event_next, if_pos hp] at h
  injection h with h
  exact h.symm

/-- The next state of an event while the power is off. -/
theorem event_unpowered {f : State → State} {s t : State} (hp : s.power = false) (h : event f s = .next t) : t = s := by
  rw [event_next, if_neg (by simp [hp])] at h
  injection h with h
  exact h.symm

/-- Everything a completion can do: carry out a command of its code that is in flight, or nothing. -/
theorem carryOut_cases (slot : Slot) (code : CommandCode) (body : InFlight → State → State × CommandOutcome) (s : State) :
    (∃ cmd, s.pbi.inFlight[slot] = some cmd ∧ CommandCode.ofByte (commandByte cmd 0) = some code ∧
      carryOut slot code body s = completeCommand slot cmd (body cmd s).2 (body cmd s).1) ∨
    carryOut slot code body s = s := by
  unfold carryOut
  split
  · exact Or.inr rfl
  · rename_i cmd hcmd
    split
    · exact Or.inl ⟨cmd, hcmd, ‹_›, rfl⟩
    · exact Or.inr rfl

/-- A completion of a command that is in flight carries it out. -/
theorem carryOut_ready {slot : Slot} {code : CommandCode} {cmd : InFlight} {s : State}
    (body : InFlight → State → State × CommandOutcome) (hf : s.pbi.inFlight[slot] = some cmd)
    (hc : CommandCode.ofByte (commandByte cmd 0) = some code) :
    carryOut slot code body s = completeCommand slot cmd (body cmd s).2 (body cmd s).1 := by
  unfold carryOut
  rw [hf]
  exact if_pos hc

/-- An attention line after an event shows its condition. -/
theorem attention_driveAttention (s : State) (slot : Slot) :
    (driveAttention s).pbi.attention[slot] = attentionCondition s slot := by
  simp

/-- The attention conditions do not read the attention lines. -/
@[simp] theorem attentionCondition_driveAttention (s : State) (slot : Slot) :
    attentionCondition (driveAttention s) slot = attentionCondition s slot := rfl

end Sys2Proof.Machine
end

