-- ==== Sys2Proof/Laws/Notices.lean ====
section
/-!
SUPPORT. Keys of notices, the four cases of queueing, and what an offer does to each queue.
-/

namespace Sys2Proof.Machine

theorem Notice.sameKey_refl (n : Notice) : n.sameKey n = true := by
  unfold Notice.sameKey; cases n.kind <;> simp

theorem Notice.sameKey_symm {m n : Notice} (h : m.sameKey n = true) : n.sameKey m = true := by
  cases m; cases n
  simp only [Notice.sameKey, Bool.and_eq_true, beq_iff_eq] at *
  obtain ⟨rfl, hf⟩ := h
  refine ⟨rfl, ?_⟩
  revert hf
  split <;> simp_all

theorem Notice.sameKey_trans {l m n : Notice} (h : l.sameKey m = true) (h' : m.sameKey n = true) :
    l.sameKey n = true := by
  cases l; cases m; cases n
  simp only [Notice.sameKey, Bool.and_eq_true, beq_iff_eq] at *
  obtain ⟨rfl, hf⟩ := h
  obtain ⟨rfl, hf'⟩ := h'
  refine ⟨rfl, ?_⟩
  revert hf hf'
  split <;> simp_all

/-- Everything queueing one notice can do (R131). -/
theorem enqueue_cases (capacity : Nat) (q : NoticeQueue) (n : Notice) :
    ((∃ m ∈ q.notices, m.sameKey n = true) ∧
      enqueue capacity q n = { q with notices := q.notices.map fun m => if m.sameKey n then n else m }) ∨
    ((∀ m ∈ q.notices, m.sameKey n = false) ∧
      ((q.notices.length < capacity ∧ enqueue capacity q n = { q with notices := q.notices ++ [n] }) ∨
       (capacity ≤ q.notices.length ∧ lowestLevel q.notices < n.level ∧
          enqueue capacity q n =
            { q with notices := (q.notices.eraseP fun m => m.level == lowestLevel q.notices) ++ [n] }) ∨
       (capacity ≤ q.notices.length ∧ n.level ≤ lowestLevel q.notices ∧
          enqueue capacity q n = { q with overrun := true }))) := by
  unfold enqueue
  by_cases h1 : (q.notices.any fun m => m.sameKey n) = true
  · rw [if_pos h1]
    exact Or.inl ⟨by simpa using h1, rfl⟩
  · rw [if_neg h1]
    refine Or.inr ⟨by simpa using h1, ?_⟩
    by_cases h2 : q.notices.length < capacity
    · exact Or.inl ⟨h2, if_pos h2⟩
    · rw [if_neg h2]
      by_cases h3 : lowestLevel q.notices < n.level
      · exact Or.inr (Or.inl ⟨Nat.le_of_not_lt h2, h3, if_pos h3⟩)
      · exact Or.inr (Or.inr ⟨Nat.le_of_not_lt h2, not_lt.mp h3, if_neg h3⟩)

/-- Everything taking the head of a queue can do (R132, R133). -/
theorem takeHead_cases (q : NoticeQueue) :
    (q.notices = [] ∧ takeHead q = none) ∨
    ∃ n rest, q.notices = n :: rest ∧ takeHead q = some (n, { notices := rest, overrun := q.overrun && !rest.isEmpty }) := by
  unfold takeHead
  cases q.notices with
  | nil => exact Or.inl ⟨rfl, rfl⟩
  | cons n rest => exact Or.inr ⟨n, rest, rfl, rfl⟩

@[simp] theorem offer_marks (n : Notice) (s : State) : (offer n s).cxm.marks = s.cxm.marks := rfl

/-- An offer changes a context in its queue alone, and that only when the notice is delivered to it (R129). -/
theorem offer_context (n : Notice) (s : State) (c : CtxNo) :
    (offer n s).cxm.contexts[c] =
      if deliveredTo (currentRange s c) s.cxm.contexts[c] n then
        { s.cxm.contexts[c] with queue := enqueue contextCapacity s.cxm.contexts[c].queue n }
      else s.cxm.contexts[c] := by
  simp [offer]

/-- An offer changes a Console Queue that has an owner and whose mask the notice reaches (R130). -/
theorem offer_console (n : Notice) (s : State) (q : Fin 2) :
    (offer n s).cxm.consoles[q] =
      if (consoleOwner s.pbi.classes q).isSome && decide (s.cxm.consoles[q].mask ≤ n.level) then
        { s.cxm.consoles[q] with queue := enqueue consoleCapacity s.cxm.consoles[q].queue n }
      else s.cxm.consoles[q] := by
  simp [offer]

/-- An offer leaves all of a context but its queue. -/
theorem offer_context_rest (n : Notice) (s : State) (c : CtxNo) :
    (offer n s).cxm.contexts[c] = { s.cxm.contexts[c] with queue := (offer n s).cxm.contexts[c].queue } := by
  rw [offer_context]; split <;> rfl

@[simp] theorem offerAll_marks (ns : List Notice) (s : State) : (offerAll ns s).cxm.marks = s.cxm.marks := by
  induction ns generalizing s with
  | nil => rfl
  | cons n ns ih => exact (ih (offer n s)).trans (offer_marks n s)

/-- Offers one after another leave all of a context but its queue. -/
theorem offerAll_context_rest (ns : List Notice) (s : State) (c : CtxNo) :
    (offerAll ns s).cxm.contexts[c] = { s.cxm.contexts[c] with queue := (offerAll ns s).cxm.contexts[c].queue } := by
  induction ns generalizing s with
  | nil => rfl
  | cons n ns ih =>
    have h := ih (offer n s)
    rw [offer_context_rest n s c] at h
    exact h

end Sys2Proof.Machine
end

