-- ==== Sys2Proof/Laws/Requests.lean ====
section
/-!
SUPPORT. What a brief request, a disturbance and an abandonment can do to the composer.
-/

namespace Sys2Proof.Machine

/-- The bcm with its composition disturbed. -/
theorem disturb_cases (s : State) :
    (s.bcm.composition = none ∧ disturb s = s) ∨
    ∃ x, s.bcm.composition = some x ∧
      (disturb s).bcm = { s.bcm with composition := some { x with disturbed := true } } := by
  rcases s with ⟨_, _, _, _, _, ⟨_, _, x, _, _⟩, _, _, _, _⟩
  cases x <;> simp [disturb]

/-- Everything an abandonment can do (R149). -/
theorem abandon_cases (requeue : Bool) (s : State) :
    (s.bcm.composition = none ∧ abandon requeue s = s) ∨
    ∃ x, s.bcm.composition = some x ∧
      (abandon requeue s).bcm =
        { s.bcm with
          composition := none
          pool := s.bcm.pool.set x.buffer true
          urgent := if requeue then s.bcm.urgent ++ [x.context] else s.bcm.urgent } := by
  unfold abandon
  cases h : s.bcm.composition with
  | none => exact Or.inl ⟨rfl, rfl⟩
  | some x => exact Or.inr ⟨x, rfl, rfl⟩

/-- Everything one brief request can do (R138), by its disposition. -/
theorem briefRequest_cases (c : CtxNo) (u : Urgency) (fromMove : Bool) (s : State) :
    (s.cxm.contexts[c].assigned = false ∧ briefRequest c u fromMove s = s) ∨
    (s.cxm.contexts[c].assigned = true ∧ s.bcm.composing = some c ∧
      briefRequest c u fromMove s = if fromMove then abandon true s else disturb s) ∨
    (s.cxm.contexts[c].assigned = true ∧ s.bcm.composing ≠ some c ∧
      ((c ∈ s.bcm.urgent ∧ briefRequest c u fromMove s = s) ∨
       (c ∉ s.bcm.urgent ∧ c ∈ s.bcm.normal ∧ u = .normal ∧ briefRequest c u fromMove s = s) ∨
       (c ∉ s.bcm.urgent ∧ c ∈ s.bcm.normal ∧ u = .urgent ∧
          (briefRequest c u fromMove s).bcm =
            { s.bcm with normal := s.bcm.normal.erase c, urgent := s.bcm.urgent ++ [c] }) ∨
       (c ∉ s.bcm.urgent ∧ c ∉ s.bcm.normal ∧
          (briefRequest c u fromMove s).bcm =
            { s.bcm with
              urgent := if u = .urgent then s.bcm.urgent ++ [c] else s.bcm.urgent
              normal := if u = .urgent then s.bcm.normal else s.bcm.normal ++ [c] }))) := by
  unfold briefRequest disposition
  by_cases ha : s.cxm.contexts[c].assigned = true
  · by_cases hc : s.bcm.composing = some c
    · refine Or.inr (Or.inl ⟨ha, hc, ?_⟩)
      cases fromMove <;> simp_all
    · refine Or.inr (Or.inr ⟨ha, hc, ?_⟩)
      by_cases hu : c ∈ s.bcm.urgent
      · exact Or.inl ⟨hu, by simp_all⟩
      · by_cases hn : c ∈ s.bcm.normal
        · cases u
          · exact Or.inr (Or.inr (Or.inl ⟨hu, hn, rfl, by simp_all⟩))
          · exact Or.inr (Or.inl ⟨hu, hn, rfl, by simp_all⟩)
        · refine Or.inr (Or.inr (Or.inr ⟨hu, hn, ?_⟩))
          cases u <;> simp_all
  · simp only [Bool.not_eq_true] at ha
    exact Or.inl ⟨ha, by simp_all⟩

end Sys2Proof.Machine
end

