-- ==== Sys2Proof/Laws/Table.lean ====
section
/-!
SUPPORT. The Live Alarm Table: membership, the ends and starts of holds, changes of entries, and what the recomputation of
an ALE event leaves.
-/

namespace Sys2Proof.Machine

/-- The in-use entries are those that the places hold. -/
theorem mem_inUse {a : Ale} {i : EntryNo} {e : Entry} : (i, e) ∈ a.inUse ↔ a.places[i].entry = some e := by
  unfold Ale.inUse
  simp only [List.mem_filterMap, List.mem_finRange, true_and, Option.map_eq_some_iff, Prod.mk.injEq]
  constructor
  · rintro ⟨j, f, hf, rfl, rfl⟩; exact hf
  · intro h; exact ⟨i, e, h, rfl, rfl⟩

/-- No place stands twice among the in-use entries. -/
theorem inUse_nodup (a : Ale) : (a.inUse.map (·.1)).Nodup := by
  unfold Ale.inUse
  rw [List.map_filterMap]
  refine (List.nodup_finRange 256).filterMap ?_
  intro i j x hi hj
  simp only [Option.mem_def, Option.map_eq_some_iff, Prod.exists] at hi hj
  obtain ⟨_, _, h, rfl⟩ := hi
  obtain ⟨_, _, h', h2⟩ := hj
  obtain ⟨_, _, h3⟩ := h
  obtain ⟨_, _, h4⟩ := h'
  simp_all

/-! ### Holds -/

@[simp] theorem endHolds_entry (released : Slot → Bool) (a : Ale) (i : Nat) (h : i < 256) :
    (endHolds released a).places[i].entry = a.places[i].entry.map fun e => e.releasedBy released := by
  simp [endHolds]

@[simp] theorem endHolds_change (released : Slot → Bool) (a : Ale) (i : Nat) (h : i < 256) :
    (endHolds released a).places[i].change = a.places[i].change := by
  simp [endHolds]

@[simp] theorem endHolds_timer (released : Slot → Bool) (a : Ale) (k : Nat) (h : k < 8) :
    (endHolds released a).holdTimers[k] = (a.holdTimers[k] && !released ⟨k, h⟩) := by
  simp [endHolds]

/-- Everything the end of holds can do to an entry: its holder goes when it is released, and nothing else. -/
theorem releasedBy_cases (released : Slot → Bool) (e : Entry) :
    (∃ slot, e.holder = some slot ∧ released slot = true ∧ e.releasedBy released = { e with holder := none }) ∨
    ((∀ slot, e.holder = some slot → released slot = false) ∧ e.releasedBy released = e) := by
  unfold Entry.releasedBy
  cases h : e.holder with
  | none => exact Or.inr ⟨by simp, by simp⟩
  | some slot =>
    by_cases hr : released slot = true
    · exact Or.inl ⟨slot, rfl, hr, by simp [hr]⟩
    · exact Or.inr ⟨by simpa using hr, by simp [hr]⟩

/-- The end of holds leaves all of an entry but its holder. -/
theorem releasedBy_rest (released : Slot → Bool) (e : Entry) :
    e.releasedBy released = { e with holder := (e.releasedBy released).holder } := by
  unfold Entry.releasedBy; split <;> rfl

/-- The end of holds leaves everything of the ALE but the places and the timers. -/
theorem endHolds_rest (released : Slot → Bool) (a : Ale) :
    endHolds released a =
      { a with places := (endHolds released a).places, holdTimers := (endHolds released a).holdTimers } := rfl

@[simp] theorem startHold_change (slot : Slot) (i : EntryNo) (a : Ale) (j : Nat) (h : j < 256) :
    (startHold slot i a).places[j].change = a.places[j].change := by
  simp only [startHold, getElem_updateAt]
  split <;> simp [endHold]

/-- Everything a hold that starts or starts again does to the places (R79, R81). -/
theorem startHold_entry (slot : Slot) (i : EntryNo) (a : Ale) (j : Nat) (h : j < 256) :
    (startHold slot i a).places[j].entry =
      if j = i.val then a.places[j].entry.map fun e => e.heldBy slot a.clock
      else a.places[j].entry.map fun e => e.releasedBy (· == slot) := by
  simp only [startHold, getElem_updateAt]
  split
  · subst j; rfl
  · simp [endHold]

/-- Everything a hold does to its entry: the holder, and the hold start of a hold that starts (R64, R79). -/
theorem heldBy_cases (e : Entry) (slot : Slot) (clock : Half) :
    (e.holder = some slot ∧ e.heldBy slot clock = e) ∨
    (e.holder ≠ some slot ∧ e.heldBy slot clock = { e with holder := some slot, holdStart := clock }) := by
  unfold Entry.heldBy
  split
  · exact Or.inl ⟨‹_›, rfl⟩
  · exact Or.inr ⟨‹_›, rfl⟩

/-! ### Changes -/

@[simp] theorem changeEntry_entry (i : EntryNo) (f : Entry → Entry) (a : Ale) (j : Nat) (h : j < 256) :
    (changeEntry i f a).places[j].entry = if j = i.val then a.places[j].entry.map f else a.places[j].entry := by
  simp only [changeEntry, getElem_updateAt]; split <;> rfl

@[simp] theorem changeEntry_change (i : EntryNo) (f : Entry → Entry) (a : Ale) (j : Nat) (h : j < 256) :
    (changeEntry i f a).places[j].change = if j = i.val then a.places[j].change + 1 else a.places[j].change := by
  simp only [changeEntry, getElem_updateAt]; split <;> rfl

/-! ### The recomputation -/

@[simp] theorem raiseEpoch_places (b a : Ale) : (raiseEpoch b a).places = a.places := by
  unfold raiseEpoch; split <;> rfl

@[simp] theorem raiseEpoch_alarmList (b a : Ale) : (raiseEpoch b a).alarmList = a.alarmList := by
  unfold raiseEpoch; split <;> rfl

@[simp] theorem raiseEpoch_focus (b a : Ale) : (raiseEpoch b a).focus = a.focus := by
  unfold raiseEpoch; split <;> rfl

@[simp] theorem raiseEpoch_focusEntry (b a : Ale) : (raiseEpoch b a).focusEntry = a.focusEntry := by
  unfold raiseEpoch; split <;> rfl

@[simp] theorem raiseEpoch_holdTimers (b a : Ale) : (raiseEpoch b a).holdTimers = a.holdTimers := by
  unfold raiseEpoch; split <;> rfl

@[simp] theorem raiseEpoch_clock (b a : Ale) : (raiseEpoch b a).clock = a.clock := by
  unfold raiseEpoch; split <;> rfl

@[simp] theorem recompute_places (p : Psc) (a : Ale) : (recompute p a).places = (regraded p a).places := by
  unfold recompute; simp only; split <;> rfl

@[simp] theorem recompute_holdTimers (p : Psc) (a : Ale) : (recompute p a).holdTimers = a.holdTimers := by
  unfold recompute; simp only; split <;> rfl

@[simp] theorem recompute_clock (p : Psc) (a : Ale) : (recompute p a).clock = a.clock := by
  unfold recompute; simp only; split <;> rfl

@[simp] theorem recompute_alarmList (p : Psc) (a : Ale) : (recompute p a).alarmList = rankedList (regraded p a) := by
  unfold recompute; simp only; split <;> rfl

@[simp] theorem regraded_change (p : Psc) (a : Ale) (i : Nat) (h : i < 256) :
    (regraded p a).places[i].change = a.places[i].change := by
  simp only [regraded, getElem_tabulate]; split <;> rfl

/-- The recomputation changes an entry in its standing alone, which becomes that of the formula. -/
@[simp] theorem regraded_entry (p : Psc) (a : Ale) (i : Nat) (h : i < 256) :
    (regraded p a).places[i].entry =
      a.places[i].entry.map fun e => { e with standing := standingOf p a.inUse ⟨i, h⟩ e } := by
  simp only [regraded, getElem_tabulate]
  cases he : a.places[i].entry <;> simp [he]

end Sys2Proof.Machine
end

