-- ==== Sys2Proof/Laws/Events.lean ====
section
/-!
SUPPORT. What an ALE event hands on, said once in the words of Safety: its notices, what the queues take of them, and its
requests (R73, R100 to R104).
-/

namespace Sys2Proof.Machine

/-! ### Offers -/

@[simp] theorem offer_range (n : Notice) (s : State) (c : CtxNo) : currentRange (offer n s) c = currentRange s c := by
  unfold currentRange rangeOf
  rw [offer_context_rest n s c]
  rfl

@[simp] theorem offer_inRange (n : Notice) (s : State) (c : CtxNo) (f : Nat) : inRange (offer n s) c f = inRange s c f := by
  unfold inRange; rw [offer_range]

/-- The model's test of delivery is that of R129. -/
theorem deliveredTo_iff (s : State) (c : CtxNo) (n : Notice) :
    deliveredTo (currentRange s c) s.cxm.contexts[c] n = true ↔ Reaches s c n := by
  unfold deliveredTo Reaches inRange
  simp only [Bool.and_eq_true, Bool.or_eq_true, decide_eq_true_eq, and_assoc]
  refine and_congr_right fun _ => and_congr_right fun _ => ?_
  have hk : n.kind.towerWide = true ↔ n.kind = .focusMoved ∨ n.kind = .tableFull := by cases n.kind <;> decide
  rw [hk, or_assoc]
  refine or_congr_right (or_congr_right ?_)
  cases n.floor <;> simp

/-- The model's test of delivery to a Console Queue is that of R130. -/
theorem console_iff (s : State) (q : Fin 2) (n : Notice) :
    ((consoleOwner s.pbi.classes q).isSome && decide (s.cxm.consoles[q].mask ≤ n.level)) = true ↔ ConsoleReaches s q n := by
  unfold ConsoleReaches consoleOwner consoleSlots
  have h : ∀ l : List Slot, l[q.val]?.isSome = true ↔ q.val < l.length := fun l => by simp
  rw [Bool.and_eq_true, h, decide_eq_true_eq]
  exact Iff.rfl

/-- The tests of R129 do not depend on the queues. -/
theorem reaches_congr {s t : State} {c : CtxNo} (hx : t.cxm.contexts[c] = { s.cxm.contexts[c] with
      queue := t.cxm.contexts[c].queue }) (hr : currentRange t c = currentRange s c) (n : Notice) :
    Reaches t c n ↔ Reaches s c n := by
  unfold Reaches inRange
  rw [hx, hr]

/-- What offers one after another leave in a context's queue. -/
theorem offerAll_context_takes (ns : List Notice) (s : State) (c : CtxNo) :
    QueueTakes 16 (Reaches s c) ns s.cxm.contexts[c].queue (offerAll ns s).cxm.contexts[c].queue := by
  induction ns generalizing s with
  | nil => rfl
  | cons n ns ih =>
    have h := ih (offer n s)
    have hc : Reaches (offer n s) c = Reaches s c :=
      funext fun m => propext (reaches_congr (offer_context_rest n s c) (offer_range n s c) m)
    rw [hc] at h
    constructor
    · intro hp
      rw [offer_context, if_pos ((deliveredTo_iff s c n).2 hp)] at h
      exact h
    · intro hp
      rw [offer_context, if_neg (mt (deliveredTo_iff s c n).1 hp)] at h
      exact h

theorem offer_console_mask (n : Notice) (s : State) (q : Fin 2) :
    (offer n s).cxm.consoles[q].mask = s.cxm.consoles[q].mask := by
  rw [offer_console]; split <;> rfl

@[simp] theorem offerAll_console_mask (ns : List Notice) (s : State) (q : Fin 2) :
    (offerAll ns s).cxm.consoles[q].mask = s.cxm.consoles[q].mask := by
  induction ns generalizing s with
  | nil => rfl
  | cons n ns ih => exact (ih (offer n s)).trans (offer_console_mask n s q)

/-- What offers one after another leave in a Console Queue. -/
theorem offerAll_console_takes (ns : List Notice) (s : State) (q : Fin 2) :
    QueueTakes 32 (ConsoleReaches s q) ns s.cxm.consoles[q].queue (offerAll ns s).cxm.consoles[q].queue := by
  induction ns generalizing s with
  | nil => rfl
  | cons n ns ih =>
    have h := ih (offer n s)
    have hc : ConsoleReaches (offer n s) q = ConsoleReaches s q := by
      funext m
      unfold ConsoleReaches
      rw [offer_console_mask, offer_pbi]
    rw [hc] at h
    constructor
    · intro hp
      rw [offer_console, if_pos ((console_iff s q n).2 hp)] at h
      exact h
    · intro hp
      rw [offer_console, if_neg (mt (console_iff s q n).1 hp)] at h
      exact h

/-- Offers tell their notices, as any later state sees it that has the same contexts, Console Queues, ranges and map. -/
theorem offerAll_told {s u t : State} (ns : List Notice) (hc : u.cxm.contexts = s.cxm.contexts)
    (hq : u.cxm.consoles = s.cxm.consoles) (ht : t.cxm.contexts = (offerAll ns u).cxm.contexts)
    (htq : t.cxm.consoles = (offerAll ns u).cxm.consoles) (hp : t.psc = u.psc)
    (hf : t.ale.focus = u.ale.focus) (hm : t.pbi.classes = u.pbi.classes) : Told s t ns := by
  constructor
  · intro c
    have h := offerAll_context_takes ns u c
    have hr : Reaches t c = Reaches u c := by
      funext n
      refine propext (reaches_congr ?_ ?_ n)
      · rw [ht]; exact offerAll_context_rest ns u c
      · unfold currentRange rangeOf
        rw [ht, hp, hf, offerAll_context_rest ns u c]
        rfl
    rw [hr, ht, ← hc]
    exact h
  · intro q
    have h := offerAll_console_takes ns u q
    have hr : ConsoleReaches t q = ConsoleReaches u q := by
      funext n
      unfold ConsoleReaches
      rw [htq, hm, offerAll_console_mask]
    rw [hr, htq, ← hq]
    exact h

/-! ### Notices -/

/-- The notice of an entry is the one the words name. -/
theorem entryNotice_says {t : State} {kind : NoticeKind} {i : EntryNo} {n : Notice} :
    entryNotice t.ale kind i = some n ↔ EntrySays t kind i n := by
  unfold entryNotice EntrySays
  cases t.ale.places[i].entry <;> simp [eq_comm]

/-- The notices of entries that all exist, one for each. -/
theorem filterMap_says {t : State} {α : Type} (kind : α → NoticeKind) (entry : α → EntryNo) (l : List α)
    (h : ∀ a ∈ l, ∃ e, t.ale.places[entry a].entry = some e) :
    List.Forall₂ (fun a n => EntrySays t (kind a) (entry a) n) l
      (l.filterMap fun a => entryNotice t.ale (kind a) (entry a)) := by
  induction l with
  | nil => exact List.Forall₂.nil
  | cons a l ih =>
    obtain ⟨e, he⟩ := h a List.mem_cons_self
    obtain ⟨n, hn⟩ : ∃ n, entryNotice t.ale (kind a) (entry a) = some n := by
      unfold entryNotice; rw [he]; exact ⟨_, rfl⟩
    rw [show ((a :: l).filterMap fun a => entryNotice t.ale (kind a) (entry a)) =
      n :: l.filterMap fun a => entryNotice t.ale (kind a) (entry a) from List.filterMap_cons_some hn]
    exact List.Forall₂.cons (entryNotice_says.1 hn) (ih fun b hb => h b (List.mem_cons_of_mem a hb))

theorem mem_escalatedEntries {s t : State} {own : List EntryNo} {i : EntryNo} :
    i ∈ escalatedEntries s.ale t.ale own ↔ i ∉ own ∧ ∃ e f : Entry,
      s.ale.places[i].entry = some e ∧ t.ale.places[i].entry = some f ∧ e.level < f.level := by
  unfold escalatedEntries
  simp only [List.mem_filter, List.mem_finRange, true_and]
  cases s.ale.places[i].entry <;> cases t.ale.places[i].entry <;> simp [and_comm]

/-- The notices of an event are those of R103, when the entries its own notices name are in the table. -/
theorem eventNotices_are {s t : State} {news : EventNews}
    (h : ∀ o ∈ news.own, ∃ e, t.ale.places[o.2].entry = some e) :
    EventNotices s t news (eventNotices s.ale t.ale news) := by
  refine ⟨_, _, escalatedEntries s.ale t.ale (news.own.map (·.2)), filterMap_says (·.1) (·.2) news.own h,
    List.Pairwise.filter _ (List.pairwise_lt_finRange 256), fun i => ?_, filterMap_says (fun _ => .escalated) id _ ?_, ?_⟩
  · rw [mem_escalatedEntries]
    simp [List.mem_map]
    intro _ _ _ _ _
    constructor
    · intro hx k j hkj hji; subst hji; exact hx k hkj
    · intro hx k hk; exact hx k i hk rfl
  · intro i hi
    obtain ⟨-, -, f, -, hf, -⟩ := mem_escalatedEntries.1 hi
    exact ⟨f, hf⟩
  · unfold eventNotices focusNotice
    cases news.gap <;> cases news.rolledUp <;> cases t.ale.focus <;> cases s.ale.focus <;>
      simp [gapNotice, bareNotice, eq_comm]

/-! ### Requests -/

/-- Everything the requests of one event can do, each for a context of its own, in whatever order they come. -/
theorem foldl_requests (rs : List (CtxNo × Urgency)) (s : State) (hd : (rs.map (·.1)).Nodup) (hn : s.bcm.normal.Nodup)
    (ha : ∀ r ∈ rs, s.cxm.contexts[r.1].assigned = true) :
    let t := rs.foldl (fun s r => briefRequest r.1 r.2 false s) s
    t.bcm.pool = s.bcm.pool ∧
    (s.bcm.composition = none → t.bcm.composition = none) ∧
    (∀ x, s.bcm.composition = some x → ∃ d, t.bcm.composition = some { x with disturbed := d } ∧
      (d = true ↔ x.disturbed = true ∨ ∃ u, (x.context, u) ∈ rs)) ∧
    ∃ raised joined : List CtxNo, t.bcm.urgent = s.bcm.urgent ++ raised ∧
      t.bcm.normal = (s.bcm.normal.filter fun c => decide (c ∉ raised)) ++ joined ∧ raised.Nodup ∧ joined.Nodup ∧
      (∀ c, c ∈ raised ↔ (c, .urgent) ∈ rs ∧ c ∉ s.bcm.urgent ∧ s.bcm.composing ≠ some c) ∧
      ∀ c, c ∈ joined ↔ (c, .normal) ∈ rs ∧ c ∉ s.bcm.urgent ∧ c ∉ s.bcm.normal ∧ s.bcm.composing ≠ some c := by
  induction rs generalizing s with
  | nil => exact ⟨rfl, id, fun x hx => ⟨x.disturbed, hx, by simp⟩, [], [], by simp⟩
  | cons r rs ih =>
    obtain ⟨c, u⟩ := r
    simp only [List.map_cons, List.nodup_cons] at hd
    have hc : ∀ v, (c, v) ∉ rs := fun v hv => hd.1 (List.mem_map.2 ⟨_, hv, rfl⟩)
    have hac := ha (c, u) List.mem_cons_self
    have ha' : ∀ r ∈ rs, (briefRequest c u false s).cxm.contexts[r.1].assigned = true := fun r hr => by
      rw [briefRequest_cxm]; exact ha r (List.mem_cons_of_mem _ hr)
    simp only [List.foldl_cons]
    rcases briefRequest_cases c u false s with ⟨hf, -⟩ | ⟨-, hk, hb⟩ | ⟨-, hk, ⟨hu, hb⟩ | ⟨hu, hm, rfl, hb⟩ |
      ⟨hu, hm, rfl, hb⟩ | ⟨hu, hm, hb⟩⟩
    · rw [hf] at hac; cases hac
    · have hb' : briefRequest c u false s = disturb s := hb
      rw [hb'] at ha' ⊢
      obtain ⟨h1, h2, h3, raised, joined, h4, h5, h6, h7, h8, h9⟩ := ih (disturb s) hd.2 hn ha'
      have hk' : (disturb s).bcm.composing = s.bcm.composing := by
        simp only [Bcm.composing, disturb_bcm]; cases s.bcm.composition <;> rfl
      rw [hk'] at h8 h9
      refine ⟨h1, fun hx => h2 (by simp [hx]), fun x hx => ?_, raised, joined, h4, h5, h6, h7, fun d => ?_, fun d => ?_⟩
      · obtain ⟨d, hd1, hd2⟩ := h3 { x with disturbed := true } (by simp [hx])
        have he : x.context = c := by simpa [Bcm.composing, hx] using hk
        exact ⟨d, hd1, by simp_all⟩
      · rw [h8]; simp only [disturb_bcm]; grind
      · rw [h9]; simp only [disturb_bcm]; grind
    · rw [hb]
      obtain ⟨h1, h2, h3, raised, joined, h4, h5, h6, h7, h8, h9⟩ := ih s hd.2 hn fun r hr => ha r (List.mem_cons_of_mem _ hr)
      refine ⟨h1, h2, fun x hx => ?_, raised, joined, h4, h5, h6, h7, by grind, by grind⟩
      obtain ⟨d, hd1, hd2⟩ := h3 x hx
      have hne : x.context ≠ c := fun he => hk (by simp [Bcm.composing, hx, he])
      exact ⟨d, hd1, hd2.trans (by simp [hne])⟩
    · rw [hb]
      obtain ⟨h1, h2, h3, raised, joined, h4, h5, h6, h7, h8, h9⟩ := ih s hd.2 hn fun r hr => ha r (List.mem_cons_of_mem _ hr)
      refine ⟨h1, h2, fun x hx => ?_, raised, joined, h4, h5, h6, h7, by grind, by grind⟩
      obtain ⟨d, hd1, hd2⟩ := h3 x hx
      have hne : x.context ≠ c := fun he => hk (by simp [Bcm.composing, hx, he])
      exact ⟨d, hd1, hd2.trans (by simp [hne])⟩
    · have hn' : (briefRequest c .urgent false s).bcm.normal.Nodup := by rw [hb]; exact hn.erase c
      obtain ⟨h1, h2, h3, raised, joined, h4, h5, h6, h7, h8, h9⟩ := ih _ hd.2 hn' ha'
      rw [hb] at h1 h2 h3 h4 h5 h8 h9
      have hk' : ({ s.bcm with normal := s.bcm.normal.erase c, urgent := s.bcm.urgent ++ [c] } : Bcm).composing =
        s.bcm.composing := rfl
      rw [hk'] at h8 h9
      refine ⟨h1, h2, fun x hx => ?_, c :: raised, joined, ?_, ?_, ?_, h7, by grind, ?_⟩
      · obtain ⟨d, hd1, hd2⟩ := h3 x hx
        have hne : x.context ≠ c := fun he => hk (by simp [Bcm.composing, hx, he])
        exact ⟨d, hd1, hd2.trans (by simp [hne])⟩
      · rw [h4]; simp
      · rw [h5, hn.erase_eq_filter, List.filter_filter]
        congr 2; funext d; grind
      · exact List.nodup_cons.2 ⟨by grind, h6⟩
      · intro d; rw [h9, hn.mem_erase_iff]; grind
    · have hd' : ∀ x, s.bcm.composition = some x → x.context ≠ c := fun x hx he => hk (by simp [Bcm.composing, hx, he])
      cases u with
      | urgent =>
        simp only [if_true] at hb
        obtain ⟨h1, h2, h3, raised, joined, h4, h5, h6, h7, h8, h9⟩ := ih _ hd.2 (by rw [hb]; exact hn) ha'
        rw [hb] at h1 h2 h3 h4 h5 h8 h9
        have hk' : ({ s.bcm with urgent := s.bcm.urgent ++ [c], normal := s.bcm.normal } : Bcm).composing =
          s.bcm.composing := rfl
        rw [hk'] at h8 h9
        refine ⟨h1, h2, fun x hx => ?_, c :: raised, joined, ?_, ?_, ?_, h7, by grind, by grind⟩
        · obtain ⟨d, hd1, hd2⟩ := h3 x hx
          exact ⟨d, hd1, hd2.trans (by simp [hd' x hx])⟩
        · rw [h4]; simp
        · rw [h5]
          congr 1
          exact List.filter_congr fun d hd => by grind
        · exact List.nodup_cons.2 ⟨by grind, h6⟩
      | normal =>
        simp only [reduceCtorEq, if_false] at hb
        obtain ⟨h1, h2, h3, raised, joined, h4, h5, h6, h7, h8, h9⟩ :=
          ih _ hd.2 (by rw [hb]; exact List.nodup_append.2 ⟨hn, List.nodup_singleton c, by grind⟩) ha'
        rw [hb] at h1 h2 h3 h4 h5 h8 h9
        have hk' : ({ s.bcm with urgent := s.bcm.urgent, normal := s.bcm.normal ++ [c] } : Bcm).composing =
          s.bcm.composing := rfl
        rw [hk'] at h8 h9
        have hr : c ∉ raised := by grind
        refine ⟨h1, h2, fun x hx => ?_, raised, c :: joined, h4, ?_, h6, ?_, by grind, by grind⟩
        · obtain ⟨d, hd1, hd2⟩ := h3 x hx
          exact ⟨d, hd1, hd2.trans (by simp [hd' x hx])⟩
        · rw [h5, List.filter_append]; simp [hr]
        · exact List.nodup_cons.2 ⟨by grind, h7⟩

/-- The floors the model takes as touched are those of R73. -/
theorem mem_touched {s t : State} {news : EventNews} {f : Nat} :
    f ∈ touchedFloors s.ale t.ale ++ news.floors ↔ Touches s t news f := by
  unfold touchedFloors Touches
  rw [List.mem_append, ← or_assoc]
  refine or_congr_left ?_
  simp only [List.mem_flatMap, List.mem_finRange, true_and]
  rw [← exists_or]
  refine exists_congr fun i => ?_
  unfold touchedAt
  cases hb : s.ale.places[i].entry <;> cases ha : t.ale.places[i].entry
  · simp
  · simp
  · simp
  · rename_i e e'
    simp only [Option.some.injEq]
    by_cases hk : e.key ≠ e'.key ∨ e.category ≠ e'.category
    · rw [if_pos hk]
      simp only [List.mem_append, Option.mem_toList]
      constructor
      · rintro (h | h)
        · exact Or.inl ⟨e, rfl, h, fun x hx => hx ▸ hk⟩
        · exact Or.inr ⟨e', rfl, h, fun x hx => by subst hx; tauto⟩
      · rintro (⟨x, rfl, h, -⟩ | ⟨x, rfl, h, -⟩)
        · exact Or.inl h
        · exact Or.inr h
    · rw [if_neg hk]
      split
      · rename_i hc
        simp only [Option.mem_toList]
        constructor
        · exact fun h => Or.inr ⟨e', rfl, h, fun x hx => by subst hx; tauto⟩
        · rintro (⟨x, rfl, h, hx⟩ | ⟨x, rfl, h, -⟩)
          · exact absurd (hx e' rfl) hk
          · exact h
      · rename_i hc
        simp only [List.not_mem_nil, false_iff]
        rintro (⟨x, rfl, h, hx⟩ | ⟨x, rfl, h, hx⟩)
        · exact absurd (hx e' rfl) hk
        · have := hx e rfl; tauto

/-- The floors of the Urgent requests (R73). -/
theorem mem_urgentFloors {a : Ale} {news : EventNews} {f : Nat} :
    f ∈ urgentFloors a news ↔ ∃ o ∈ news.own, (o.1 = .newEntry ∨ o.1 = .rearmed) ∧ ∃ e : Entry,
      a.places[o.2].entry = some e ∧ 6 ≤ e.level.val ∧ e.floor = some f := by
  unfold urgentFloors
  rw [List.mem_flatMap]
  refine exists_congr fun o => and_congr_right fun _ => ?_
  cases ho : o.1 <;> cases he : a.places[o.2].entry <;> simp

/-- The model's request for a context is the one R73 and R104 owe it. -/
theorem owedRequest_iff {s t u : State} {news : EventNews} {c : CtxNo} (ha : t.ale = u.ale)
    (hx : t.cxm.contexts[c].assigned = u.cxm.contexts[c].assigned) (hm : t.cxm.contexts[c].mode = u.cxm.contexts[c].mode)
    (hr : ∀ f, inRange t c f = inRange u c f) (v : Urgency) :
    owedRequest u (decide (s.ale.focus ≠ u.ale.focus)) (touchedFloors s.ale u.ale ++ news.floors) (urgentFloors u.ale news) c
        = some v ↔
      (v = .urgent ∧ OwedUrgent s t news c) ∨ (v = .normal ∧ Owed s t news c ∧ ¬OwedUrgent s t news c) := by
  have hu : OwedUrgent s t news c ↔ u.cxm.contexts[c].assigned = true ∧
      (s.ale.focus ≠ u.ale.focus ∧ u.cxm.contexts[c].mode = .followFocus ∨
        (urgentFloors u.ale news).any (fun f => inRange u c f) = true) := by
    unfold OwedUrgent
    rw [hx, hm, ha]
    refine and_congr_right fun _ => or_congr (by rw [ne_comm]) ?_
    simp only [List.any_eq_true, mem_urgentFloors, hr]
    constructor
    · rintro ⟨o, ho, hk, e, f, he, hl, hf, hi⟩
      exact ⟨f, ⟨o, ho, hk, e, he, hl, hf⟩, hi⟩
    · rintro ⟨f, ⟨o, ho, hk, e, he, hl, hf⟩, hi⟩
      exact ⟨o, ho, hk, e, f, he, hl, hf, hi⟩
  have ho : Owed s t news c ↔ OwedUrgent s t news c ∨ u.cxm.contexts[c].assigned = true ∧
      (touchedFloors s.ale u.ale ++ news.floors).any (fun f => inRange u c f) = true := by
    unfold Owed
    rw [hx]
    refine or_congr_right (and_congr_right fun _ => ?_)
    simp only [List.any_eq_true, ← ha, mem_touched, hr]
  rw [ho, hu]
  unfold owedRequest
  cases u.cxm.contexts[c].assigned <;> simp
  cases u.cxm.contexts[c].mode <;> cases v <;> simp <;> grind

/-- Everything a focus change does to the composer (R100, R149). -/
theorem focusChanged_cases (s : State) :
    (∃ x, s.bcm.composition = some x ∧ x.mode = .followFocus ∧ (focusChanged s).bcm =
      { s.bcm with composition := none, pool := s.bcm.pool.set x.buffer true, urgent := s.bcm.urgent ++ [x.context] }) ∨
    (∀ x, s.bcm.composition = some x → x.mode ≠ .followFocus) ∧ focusChanged s = s := by
  unfold focusChanged
  cases hc : s.bcm.composition with
  | none => exact Or.inr ⟨fun x hx => (by cases hx), by simp⟩
  | some x =>
    by_cases hm : x.mode = .followFocus
    · refine Or.inl ⟨x, rfl, hm, ?_⟩
      simp [hm, abandon, hc]
    · exact Or.inr ⟨fun y hy => (by cases hy; exact hm), by simp [hm]⟩

/-- Everything the disturbance by touched floors does to the composer (R147). -/
theorem disturbFloors_bcm (fs : List Nat) (s : State) :
    (disturbFloors fs s).bcm = { s.bcm with composition := s.bcm.composition.map fun x =>
      { x with disturbed := x.disturbed || (x.phase == .walking && fs.any fun f => x.range.holds f) } } := by
  unfold disturbFloors
  rcases s with ⟨_, _, _, _, _, ⟨_, _, x, _, _⟩, _, _, _, _⟩
  cases x with
  | none => simp
  | some x =>
    simp only [Option.any_some, Option.map_some]
    split <;> rename_i h
    · rw [h, Bool.or_true]; rfl
    · rw [Bool.eq_false_iff.2 h, Bool.or_false]

@[simp] theorem handOn_cxm (before : Ale) (news : EventNews) (s : State) :
    (handOn before news s).cxm = (offerAll (eventNotices before s.ale news) s).cxm := by
  unfold handOn; simp only; split <;> simp

/-- Steps 4 and 5 of an ALE event hand on what R73 says, as any later state sees it that has the same table, contexts, composer,
plan and map. -/
theorem handOn_handedOn {s u t : State} {news : EventNews} (hown : ∀ o ∈ news.own, ∃ e, u.ale.places[o.2].entry = some e)
    (hfocus : FocusAfter s u) (hc : u.cxm.contexts = s.cxm.contexts) (hq : u.cxm.consoles = s.cxm.consoles)
    (hb : u.bcm = s.bcm) (ha : t.ale = u.ale) (hp : t.psc = u.psc) (hm : t.pbi.classes = u.pbi.classes)
    (ht : t.cxm = (handOn s.ale news u).cxm) (htb : t.bcm = (handOn s.ale news u).bcm) : HandedOn s t news := by
  have ht' : t.cxm = (offerAll (eventNotices s.ale u.ale news) u).cxm := by rw [ht, handOn_cxm]
  have hctx : ∀ c : CtxNo, t.cxm.contexts[c] = { u.cxm.contexts[c] with queue := t.cxm.contexts[c].queue } := fun c => by
    rw [ht']; exact offerAll_context_rest _ u c
  have hrange : ∀ (c : CtxNo) f, inRange t c f = inRange u c f := fun c f => by
    unfold inRange currentRange rangeOf; rw [hctx c, hp, ha]; rfl
  refine ⟨by unfold FocusAfter at *; rw [ha]; exact hfocus, ⟨eventNotices s.ale t.ale news, eventNotices_are (by rw [ha]; exact hown), ?_⟩, fun hsound => ?_⟩
  · rw [ha]; exact offerAll_told _ hc hq (by rw [ht']) (by rw [ht']) hp (by rw [ha]) hm
  · have hiff := fun (c : CtxNo) => owedRequest_iff (s := s) (t := t) (u := u) (news := news) (c := c) ha
      (by rw [hctx c]) (by rw [hctx c]) (hrange c)
    -- the requests, one per context
    let requests := (List.finRange 32).filterMap fun c =>
      (owedRequest u (decide (s.ale.focus ≠ u.ale.focus)) (touchedFloors s.ale u.ale ++ news.floors)
        (urgentFloors u.ale news) c).map fun v => (c, v)
    have hmem : ∀ c v, (c, v) ∈ requests ↔
        (v = .urgent ∧ OwedUrgent s t news c) ∨ (v = .normal ∧ Owed s t news c ∧ ¬OwedUrgent s t news c) := fun c v => by
      rw [← hiff c v]
      simp only [requests, List.mem_filterMap, List.mem_finRange, true_and, Option.map_eq_some_iff, Prod.mk.injEq]
      constructor
      · rintro ⟨d, w, hw, rfl, rfl⟩; exact hw
      · intro hw; exact ⟨c, v, hw, rfl, rfl⟩
    have hnodup : (requests.map (·.1)).Nodup := by
      simp only [requests, List.map_filterMap]
      refine (List.nodup_finRange 32).filterMap fun i j x hi hj => ?_
      simp only [Option.mem_def, Option.map_eq_some_iff, Prod.exists] at hi hj
      obtain ⟨_, _, ⟨_, _, h⟩, rfl⟩ := hi
      obtain ⟨_, _, ⟨_, _, h'⟩, h''⟩ := hj
      simp_all
    let told := if s.ale.focus ≠ u.ale.focus then focusChanged (offerAll (eventNotices s.ale u.ale news) u)
      else offerAll (eventNotices s.ale u.ale news) u
    have htold : told.cxm = (offerAll (eventNotices s.ale u.ale news) u).cxm := by
      simp only [told]; split <;> simp
    have hassigned : ∀ c : CtxNo, told.cxm.contexts[c].assigned = t.cxm.contexts[c].assigned := fun c => by rw [htold, ← ht']
    have hbcm : t.bcm = (disturbFloors (touchedFloors s.ale u.ale ++ news.floors) (handRequests requests told)).bcm := htb
    rw [disturbFloors_bcm] at hbcm
    have hmoved : t.ale.focus ≠ s.ale.focus ↔ s.ale.focus ≠ u.ale.focus := by rw [ha, ne_comm]
    have htouch : ∀ f, f ∈ touchedFloors s.ale u.ale ++ news.floors ↔ Touches s t news f := fun f => by
      rw [← ha]; exact mem_touched
    -- what the focus change leaves of the composer
    have hstart : (∃ x, s.bcm.composition = some x ∧ t.ale.focus ≠ s.ale.focus ∧ x.mode = .followFocus ∧ told.bcm =
        { s.bcm with composition := none, pool := s.bcm.pool.set x.buffer true, urgent := s.bcm.urgent ++ [x.context] }) ∨
        (∀ x, s.bcm.composition = some x → t.ale.focus = s.ale.focus ∨ x.mode ≠ .followFocus) ∧ told.bcm = s.bcm := by
      simp only [told]
      split
      · rename_i hmv
        rcases focusChanged_cases (offerAll (eventNotices s.ale u.ale news) u) with ⟨x, hx, hmode, h⟩ | ⟨h1, h2⟩
        · rw [offerAll_bcm, hb] at hx h
          exact Or.inl ⟨x, hx, hmoved.2 hmv, hmode, h⟩
        · rw [offerAll_bcm, hb] at h1
          exact Or.inr ⟨fun x hx => Or.inr (h1 x hx), by rw [h2, offerAll_bcm, hb]⟩
      · rename_i hmv
        exact Or.inr ⟨fun x _ => Or.inl (not_not.1 fun h => hmv (hmoved.1 h)), by rw [offerAll_bcm, hb]⟩
    have hnd : told.bcm.normal.Nodup := by
      have h := (List.nodup_append.1 hsound.1).2.1
      rcases hstart with ⟨x, -, -, -, h'⟩ | ⟨-, h'⟩ <;> rw [h'] <;> exact h
    have hperm := List.perm_insertionSort (fun x y => requestOrder told.freeCount x y = true) requests
    obtain ⟨hpool, hnone, hsome, raised, joined, hur, hno, hrd, hjd, hrm, hjm⟩ :=
      foldl_requests (requests.insertionSort fun x y => requestOrder told.freeCount x y = true)
        { told with freeCount := told.freeCount + 1 } ((hperm.map _).nodup_iff.2 hnodup) hnd fun r hr => by
          have hr' := (hmem r.1 r.2).1 (hperm.mem_iff.1 hr)
          change told.cxm.contexts[r.1].assigned = true
          rw [hassigned]
          rcases hr' with ⟨-, h⟩ | ⟨-, h | h, -⟩
          · exact h.1
          · exact h.1
          · exact h.1
    simp only [hperm.mem_iff, hmem, true_and, false_and, or_false, false_or, reduceCtorEq] at hsome hrm hjm
    have hpool : (handRequests requests told).bcm.pool = told.bcm.pool := hpool
    have hnone : told.bcm.composition = none → (handRequests requests told).bcm.composition = none := hnone
    have hsome : ∀ x, told.bcm.composition = some x → ∃ d,
        (handRequests requests told).bcm.composition = some { x with disturbed := d } ∧
          (d = true ↔ x.disturbed = true ∨ ∃ v, v = Urgency.urgent ∧ OwedUrgent s t news x.context ∨
            v = Urgency.normal ∧ Owed s t news x.context ∧ ¬OwedUrgent s t news x.context) := hsome
    have hur : (handRequests requests told).bcm.urgent = told.bcm.urgent ++ raised := hur
    have hno : (handRequests requests told).bcm.normal =
      (told.bcm.normal.filter fun c => decide (c ∉ raised)) ++ joined := hno
    have hrm : ∀ c, c ∈ raised ↔ OwedUrgent s t news c ∧ c ∉ told.bcm.urgent ∧ told.bcm.composing ≠ some c := hrm
    have hjm : ∀ c, c ∈ joined ↔ (Owed s t news c ∧ ¬OwedUrgent s t news c) ∧ c ∉ told.bcm.urgent ∧ c ∉ told.bcm.normal ∧
      told.bcm.composing ≠ some c := hjm
    have hcomp : t.bcm.composing = told.bcm.composing := by
      rw [hbcm]
      unfold Bcm.composing
      cases h : told.bcm.composition with
      | none => simp [hnone h]
      | some x => obtain ⟨d, hd, -⟩ := hsome x h; simp [hd]
    rw [← hcomp] at hrm hjm
    have hp' : t.bcm.pool = told.bcm.pool := by rw [hbcm]; exact hpool
    have hu' : t.bcm.urgent = told.bcm.urgent ++ raised := by rw [hbcm]; exact hur
    have hn' : t.bcm.normal = (told.bcm.normal.filter fun c => decide (c ∉ raised)) ++ joined := by rw [hbcm]; exact hno
    have hc0 : told.bcm.composition = none → t.bcm.composition = none := fun h => by rw [hbcm]; simp [hnone h]
    have hc1 : ∀ x, told.bcm.composition = some x → ∃ d, t.bcm.composition = some { x with disturbed := d } ∧
        (d = true ↔ x.disturbed = true ∨ Owed s t news x.context ∨
          x.phase = .walking ∧ ∃ f, Touches s t news f ∧ x.range.holds f = true) := fun x hx => by
      obtain ⟨d, hd, hd'⟩ := hsome x hx
      refine ⟨d || (x.phase == .walking && (touchedFloors s.ale u.ale ++ news.floors).any fun f => x.range.holds f),
        by rw [hbcm]; simp only [hd, Option.map_some], ?_⟩
      simp only [Bool.or_eq_true, Bool.and_eq_true, beq_iff_eq, List.any_eq_true, htouch, hd']
      rw [or_assoc]
      refine or_congr_right (or_congr_left ?_)
      constructor
      · rintro ⟨v, ⟨-, h⟩ | ⟨-, h, -⟩⟩
        · exact Or.inl h
        · exact h
      · intro h
        by_cases hh : OwedUrgent s t news x.context
        · exact ⟨.urgent, Or.inl ⟨rfl, hh⟩⟩
        · exact ⟨.normal, Or.inr ⟨rfl, h, hh⟩⟩
    rcases hstart with ⟨x, hx, hfm, hmode, htb'⟩ | ⟨hstay, htb'⟩
    · rw [htb'] at hp' hu' hn' hc0 hrm hjm
      refine ⟨[x.context], raised, joined, fun y hy _ _ => ?_, fun y hy hor => ?_, fun hnone' => ?_, hu', hn', hrd, hjd, hrm,
        fun c => by rw [hjm c]; tauto⟩
      · rw [hx] at hy; cases hy
        exact ⟨hc0 rfl, hp', rfl⟩
      · rw [hx] at hy; cases hy
        rcases hor with h | h
        · exact absurd h hfm
        · exact absurd hmode h
      · rw [hx] at hnone'; cases hnone'
    · rw [htb'] at hp' hu' hn' hc0 hc1 hrm hjm
      refine ⟨[], raised, joined, fun y hy hf' hm' => ?_, fun y hy _ => ⟨hp', rfl, hc1 y hy⟩, fun h => ⟨hc0 h, hp', rfl⟩,
        by simpa using hu', hn', hrd, hjd, by simpa using hrm, fun c => by rw [hjm c]; simp; tauto⟩
      rcases hstay y hy with h | h
      · exact absurd h hf'
      · exact absurd hm' h

/-- The recomputation sets the previous focus and the focus time at a change of the focus, and at no other time (R100). -/
theorem recompute_focusAfter {s u : State} (p : Psc) (before a : Ale) (hu : u.ale = raiseEpoch before (recompute p a))
    (hf : a.focus = s.ale.focus) (hpf : a.previousFocus = s.ale.previousFocus) (hft : a.focusTime = s.ale.focusTime)
    (hk : a.clock = s.ale.clock) : FocusAfter s u := by
  have h : ∀ b : Ale, (raiseEpoch before b).previousFocus = b.previousFocus ∧ (raiseEpoch before b).focusTime = b.focusTime :=
    fun b => by unfold raiseEpoch; split <;> exact ⟨rfl, rfl⟩
  unfold FocusAfter
  rw [hu, (h _).1, (h _).2, raiseEpoch_focus, ← hf, ← hpf, ← hft, ← hk]
  unfold recompute
  simp only
  split
  · exact ⟨fun _ => ⟨rfl, rfl⟩, fun hn => absurd rfl hn⟩
  · rename_i he
    exact ⟨fun hn => absurd hn he, fun _ => ⟨rfl, rfl⟩⟩

/-- Steps 2 to 5 of an ALE event whose changes are applied in `v` hand on what R73 says. -/
theorem completeEvent_handedOn {s v t : State} {news : EventNews}
    (hown : ∀ o ∈ news.own, ∃ e, v.ale.places[o.2].entry = some e)
    (hf : v.ale.focus = s.ale.focus) (hpf : v.ale.previousFocus = s.ale.previousFocus)
    (hft : v.ale.focusTime = s.ale.focusTime) (hk : v.ale.clock = s.ale.clock) (hc : v.cxm.contexts = s.cxm.contexts)
    (hq : v.cxm.consoles = s.cxm.consoles) (hb : v.bcm = s.bcm) (ha : t.ale = (completeEvent s.ale news v).ale)
    (hp : t.psc = v.psc) (hm : t.pbi.classes = v.pbi.classes) (ht : t.cxm = (completeEvent s.ale news v).cxm)
    (htb : t.bcm = (completeEvent s.ale news v).bcm) : HandedOn s t news := by
  refine handOn_handedOn (u := { v with ale := raiseEpoch s.ale (recompute v.psc v.ale) }) (fun o ho => ?_)
    (recompute_focusAfter v.psc s.ale v.ale rfl hf hpf hft hk) hc hq hb ?_ hp hm ht htb
  · obtain ⟨e, he⟩ := hown o ho
    simp only [Fin.getElem_fin] at he
    simp [he]
  · rw [ha, completeEvent_ale]

end Sys2Proof.Machine
end

