-- ==== Sys2Proof/Laws/Lines.lean ====
section
/-!
SUPPORT. What the offers of one scan do to the Intake Queue and to the pending reports (R54, R112).
-/

namespace Sys2Proof.Machine

/-- Everything an offer of a pending report can do (R54). -/
theorem offerPending_cases (r : Report) (clear : Lmn → Lmn) (s : State) :
    (s.rin.queue.length < 32 ∧
      offerPending r clear s = { s with rin := { queue := s.rin.queue ++ [r] }, lmn := clear s.lmn }) ∨
    (32 ≤ s.rin.queue.length ∧ offerPending r clear s = s) := by
  unfold offerPending offerLine intakePlaces
  by_cases h : s.rin.queue.length < 32
  · exact Or.inl ⟨h, by simp [h]⟩
  · exact Or.inr ⟨by omega, by simp [h]⟩

/-- Everything a run of offers can do, over places whose pending kind `kind` reads and whose offer `step` makes: the first
reports take the room there is, in order, and the others stay pending. -/
theorem offers_cases {ι : Type} [DecidableEq ι] (kind : State → ι → Option ReportKind) (report : ι → ReportKind → Report)
    (clear : ι → Lmn → Lmn) (step : State → ι → State) (same : State → Prop)
    (hstep : ∀ s k, same s → step s k = match kind s k with
      | none => s
      | some x => offerPending (report k x) (clear k) s)
    (hkeep : ∀ s k q, same s → same { s with rin := q, lmn := clear k s.lmn })
    (hclear : ∀ s k q j, kind { s with rin := q, lmn := clear k s.lmn } j = if j = k then none else kind s j)
    (l : List ι) (hl : l.Nodup) (s : State) (hs : same s) :
    let t := l.foldl step s
    let offered := l.filterMap fun k => (kind s k).map (report k)
    t.rin.queue = s.rin.queue ++ offered.take (32 - s.rin.queue.length) ∧
      (l.filterMap fun k => (kind t k).map (report k)) = offered.drop (32 - s.rin.queue.length) ∧
      (∀ k, kind t k = none ∨ kind t k = kind s k) ∧ (∀ k, k ∉ l → kind t k = kind s k) ∧ same t := by
  induction l generalizing s with
  | nil => simp [hs]
  | cons k l ih =>
    have hk : k ∉ l := (List.nodup_cons.1 hl).1
    simp only [List.foldl_cons]
    cases hx : kind s k with
    | none =>
      have h1 : step s k = s := by rw [hstep s k hs, hx]
      rw [h1]
      obtain ⟨h2, h3, h4, h5, h6⟩ := ih (List.nodup_cons.1 hl).2 s hs
      have hkt : kind (l.foldl step s) k = none := by rw [h5 k hk, hx]
      refine ⟨?_, ?_, h4, fun j hj => h5 j fun h => hj (List.mem_cons_of_mem k h), h6⟩
      · simpa [hx] using h2
      · simpa [hx, hkt] using h3
    | some x =>
      have h1 : step s k = offerPending (report k x) (clear k) s := by rw [hstep s k hs, hx]
      rcases offerPending_cases (report k x) (clear k) s with ⟨hroom, h⟩ | ⟨hfull, h⟩
      · rw [h1, h]
        obtain ⟨h2, h3, h4, h5, h6⟩ := ih (List.nodup_cons.1 hl).2 _ (hkeep s k { queue := s.rin.queue ++ [report k x] } hs)
        have hrest : (l.filterMap fun j => (kind { s with rin := { queue := s.rin.queue ++ [report k x] }
                                                          lmn := clear k s.lmn } j).map (report j)) =
            l.filterMap fun j => (kind s j).map (report j) := by
          refine List.filterMap_congr fun j hj => ?_
          rw [hclear, if_neg (fun h : j = k => hk (h ▸ hj))]
        have hn : 32 - s.rin.queue.length = (31 - s.rin.queue.length) + 1 := by omega
        have hn' : 32 - (s.rin.queue ++ [report k x]).length = 31 - s.rin.queue.length := by simp
        simp only [hrest, hn'] at h2 h3
        have hkt := h5 k hk
        rw [hclear, if_pos rfl] at hkt
        refine ⟨?_, ?_, fun j => ?_, fun j hj => ?_, h6⟩
        · rw [h2, hn]; simp [hx]
        · rw [hn]; simpa [hx, hkt] using h3
        · rcases h4 j with h | h
          · exact Or.inl h
          · rw [hclear] at h
            split at h
            · exact Or.inl h
            · exact Or.inr h
        · rw [h5 j fun h => hj (List.mem_cons_of_mem k h), hclear, if_neg (fun h : j = k => hj (h ▸ List.mem_cons_self))]
      · rw [h1, h]
        obtain ⟨h2, h3, h4, h5, h6⟩ := ih (List.nodup_cons.1 hl).2 s hs
        have hn : 32 - s.rin.queue.length = 0 := by omega
        simp only [hn, List.take_zero, List.append_nil, List.drop_zero] at h2 h3 ⊢
        have hkt : kind (l.foldl step s) k = some x := by rw [h5 k hk, hx]
        refine ⟨h2, ?_, h4, fun j hj => h5 j fun h => hj (List.mem_cons_of_mem k h), h6⟩
        simp only [List.filterMap_cons, hx, hkt, Option.map_some, h3]

/-- The reports of pending kinds, as the model composes them (R111, R115). -/
theorem reportsOffered_eq (m : Memory) (lifts : Fin 2 → Option ReportKind) (contacts : Fin 16 → Option ReportKind) :
    reportsOffered m lifts contacts =
      ((List.finRange 2).filterMap fun k => (lifts k).map fun kind => lineReport kind 1 k.val 13) ++
        (List.finRange 16).filterMap fun k => (contacts k).map fun kind =>
          lineReport kind 0 (contactLine k) (classOf (lineClass m (contactLine k))) := rfl

/-- Everything the offers of a scan do (R112): Lift A's report, Lift B's, then the contacts' in rising line number. -/
theorem offerReports_cases (s : State) :
    let t := offerReports s
    let offered := reportsOffered s.psc.planSpace (fun k => s.lmn.lifts[k].pending) fun k => s.lmn.contacts[k].pending
    t.rin.queue = s.rin.queue ++ offered.take (32 - s.rin.queue.length) ∧
      reportsOffered s.psc.planSpace (fun k => t.lmn.lifts[k].pending) (fun k => t.lmn.contacts[k].pending) =
        offered.drop (32 - s.rin.queue.length) ∧
      (∀ k : Fin 2, t.lmn.lifts[k].pending = none ∨ t.lmn.lifts[k].pending = s.lmn.lifts[k].pending) ∧
      ∀ k : Fin 16, t.lmn.contacts[k].pending = none ∨ t.lmn.contacts[k].pending = s.lmn.contacts[k].pending := by
  unfold offerReports
  intro t offered
  obtain ⟨a1, a2, a3, -, a5⟩ := offers_cases (fun s (k : Fin 2) => s.lmn.lifts[k].pending)
    (fun k kind => lineReport kind 1 k.val 13)
    (fun k l => { l with lifts := updateAt l.lifts k fun r => { r with pending := none } }) offerLift
    (fun u => u.psc = s.psc ∧ ∀ k : Fin 16, u.lmn.contacts[k].pending = s.lmn.contacts[k].pending)
    (fun u k _ => by unfold offerLift; cases u.lmn.lifts[k].pending <;> rfl) (fun u k q h => h)
    (fun u k q j => by
      simp only [Fin.getElem_fin, getElem_updateAt]
      by_cases h : j = k
      · subst h; simp
      · simp [h, Fin.val_ne_of_ne h]) (List.finRange 2) (List.nodup_finRange 2) s ⟨rfl, fun _ => rfl⟩
  obtain ⟨b1, b2, b3, -, b5⟩ := offers_cases (fun s (k : Fin 16) => s.lmn.contacts[k].pending)
    (fun k kind => lineReport kind 0 (contactLine k) (classOf (lineClass s.psc.planSpace (contactLine k))))
    (fun k l => { l with contacts := updateAt l.contacts k fun r => { r with pending := none } }) offerContact
    (fun u => u.psc = s.psc ∧ ∀ k : Fin 2, u.lmn.lifts[k].pending =
      ((List.finRange 2).foldl offerLift s).lmn.lifts[k].pending)
    (fun u k h => by unfold offerContact; rewrite [h.1]; cases u.lmn.contacts[k].pending <;> rfl) (fun u k q h => h)
    (fun u k q j => by
      simp only [Fin.getElem_fin, getElem_updateAt]
      by_cases h : j = k
      · subst h; simp
      · simp [h, Fin.val_ne_of_ne h]) (List.finRange 16) (List.nodup_finRange 16) ((List.finRange 2).foldl offerLift s)
    ⟨a5.1, fun _ => rfl⟩
  obtain ⟨-, ha⟩ := b5
  have hr : ∀ (A B : List Report) (n : Nat), A.take n ++ B.take (n - A.length) = (A ++ B).take n ∧
      A.drop n ++ B.drop (n - A.length) = (A ++ B).drop n := fun A B n => ⟨List.take_append.symm, List.drop_append.symm⟩
  have hlen : 32 - ((List.finRange 2).foldl offerLift s).rin.queue.length = 32 - s.rin.queue.length -
      ((List.finRange 2).filterMap fun k => s.lmn.lifts[k].pending.map fun kind => lineReport kind 1 k.val 13).length := by
    rw [a1, List.length_append, List.length_take]; omega
  have hcongr : ((List.finRange 16).filterMap fun k => (((List.finRange 2).foldl offerLift s).lmn.contacts[k].pending).map
        fun kind => lineReport kind 0 (contactLine k) (classOf (lineClass s.psc.planSpace (contactLine k)))) =
      (List.finRange 16).filterMap fun k => (s.lmn.contacts[k].pending).map
        fun kind => lineReport kind 0 (contactLine k) (classOf (lineClass s.psc.planSpace (contactLine k))) :=
    List.filterMap_congr fun k _ => by rw [a5.2 k]
  simp only [hlen, hcongr] at b1 b2
  simp only [t, offered, reportsOffered_eq]
  refine ⟨?_, ?_, fun k => ?_, fun k => ?_⟩
  · rw [← (hr _ _ _).1, ← List.append_assoc, ← a1]
    exact b1
  · rw [← (hr _ _ _).2, ← a2, ← b2]
    simp only [ha]
  · rw [ha k]; exact a3 k
  · rw [← a5.2 k]; exact b3 k

end Sys2Proof.Machine
end

