-- ==== Sys2Proof/Laws/Marks.lean ====
section
/-!
SUPPORT. What Normal requests, a mark change and the release of a crew's floors can do, each said once (R30, R31, R138).
-/

namespace Sys2Proof.Machine

/-- A context with a floor in its range is Assigned (R24). -/
theorem inRange_assigned {s : State} {c : CtxNo} {f : Nat} (h : inRange s c f = true) :
    s.cxm.contexts[c].assigned = true := by
  unfold inRange currentRange rangeOf at h
  split at h <;> simp_all

/-- What Normal requests for Assigned contexts do, one after another, in whatever order they come. -/
theorem foldl_normal (cs : List CtxNo) (s : State) (ha : ∀ c ∈ cs, s.cxm.contexts[c].assigned = true) :
    let t := (cs.map fun c => (c, Urgency.normal)).foldl (fun s r => briefRequest r.1 r.2 false s) s
    t.bcm.urgent = s.bcm.urgent ∧ t.bcm.pool = s.bcm.pool ∧
      t.bcm.composition = s.bcm.composition.map (fun x => { x with disturbed := x.disturbed || cs.contains x.context }) ∧
      ∀ d, d ∈ t.bcm.normal ↔ d ∈ s.bcm.normal ∨ d ∈ cs ∧ d ∉ s.bcm.urgent ∧ s.bcm.composing ≠ some d := by
  induction cs generalizing s with
  | nil => simp
  | cons c cs ih =>
    have ha' : ∀ d ∈ cs, (briefRequest c .normal false s).cxm.contexts[d].assigned = true := fun d hd => by
      rw [briefRequest_cxm]; exact ha d (List.mem_cons_of_mem _ hd)
    obtain ⟨h1, h2, h3, h4⟩ := ih _ ha'
    have hac := ha c List.mem_cons_self
    simp only [List.map_cons, List.foldl_cons]
    rw [h1, h2, h3]
    simp only [h4, Bcm.composing] at *
    rcases briefRequest_cases c .normal false s with ⟨hf, -⟩ | ⟨-, hk, hb⟩ | ⟨-, hk, ⟨hu, hb⟩ | ⟨hu, hm, -, hb⟩ |
      ⟨-, -, hn, -⟩ | ⟨hu, hm, hb⟩⟩
    · rw [hf] at hac; cases hac
    · rw [hb]
      simp only [Bcm.composing, Option.map_eq_some_iff] at hk
      obtain ⟨x, hx, rfl⟩ := hk
      simp [hx]
      grind
    all_goals first
      | cases hn
      | rw [hb]
        cases hx : s.bcm.composition <;> simp_all [Bcm.composing] <;> grind

/-- What one event's Normal requests do (R138): every Assigned context that satisfies `p` is queued once, or its composition is
disturbed. -/
theorem requestNormal_cases (p : CtxNo → Bool) (s : State) :
    (requestNormal p s).bcm.urgent = s.bcm.urgent ∧ (requestNormal p s).bcm.pool = s.bcm.pool ∧
      (requestNormal p s).bcm.composition = s.bcm.composition.map (fun x => { x with
        disturbed := x.disturbed || (s.cxm.contexts[x.context].assigned && p x.context) }) ∧
      ∀ d, d ∈ (requestNormal p s).bcm.normal ↔ d ∈ s.bcm.normal ∨
        s.cxm.contexts[d].assigned = true ∧ p d = true ∧ d ∉ s.bcm.urgent ∧ s.bcm.composing ≠ some d := by
  obtain ⟨rs, hdef⟩ : ∃ rs, rs = (((List.finRange 32).filter fun c => s.cxm.contexts[c].assigned && p c).map
      fun c => (c, Urgency.normal)).insertionSort fun x y => requestOrder s.freeCount x y = true := ⟨_, rfl⟩
  have hall : ∀ r ∈ rs, r.2 = .normal := fun r hr => by
    obtain ⟨c, -, rfl⟩ := List.mem_map.1 ((List.perm_insertionSort _ _).mem_iff.1 (hdef ▸ hr))
    rfl
  have hmem : ∀ d, d ∈ rs.map (·.1) ↔ s.cxm.contexts[d].assigned = true ∧ p d = true := fun d => by
    simp [hdef, List.mem_map, (List.perm_insertionSort _ _).mem_iff]
  unfold requestNormal handRequests
  simp only [← hdef]
  have hrs : rs = (rs.map (·.1)).map fun c => (c, Urgency.normal) := by
    rw [List.map_map]
    exact (List.map_id rs).symm.trans (List.map_congr_left fun r hr => Prod.ext rfl (hall r hr))
  obtain ⟨h1, h2, h3, h4⟩ := foldl_normal (rs.map (·.1)) { s with freeCount := s.freeCount + 1 }
    fun c hc => ((hmem c).1 hc).1
  rw [← hrs] at h1 h2 h3 h4
  refine ⟨h1, h2, h3.trans ?_, fun d => (h4 d).trans ?_⟩
  · cases s.bcm.composition with
    | none => rfl
    | some x =>
      have : (rs.map (·.1)).contains x.context = (s.cxm.contexts[x.context].assigned && p x.context) := by
        rw [Bool.eq_iff_iff, List.contains_iff_mem, hmem, Bool.and_eq_true]
      simp only [Option.map_some, this]
  · simp only [hmem, and_assoc]

/-- What a mark change does to the composer (R30). -/
theorem changeMark_bcm (f : Nat) (m : FloorMark) (carried : Option CtxNo) (s : State) :
    (changeMark f m carried s).bcm.urgent = s.bcm.urgent ∧ (changeMark f m carried s).bcm.pool = s.bcm.pool ∧
      (changeMark f m carried s).bcm.composition = s.bcm.composition.map (fun x => { x with
        disturbed := x.disturbed || (inRange s x.context f || (x.phase == .walking && x.range.holds f)) }) ∧
      ∀ d, d ∈ (changeMark f m carried s).bcm.normal ↔
        d ∈ s.bcm.normal ∨ inRange s d f = true ∧ d ∉ s.bcm.urgent ∧ s.bcm.composing ≠ some d := by
  let marked : State := { s with cxm := { s.cxm with marks := s.cxm.marks.setIfInBounds f m } }
  let told := offer (markNotice f m carried) marked
  have hr : ∀ c, inRange told c f = inRange s c f := fun c => offer_inRange _ marked c f
  have hand : ∀ c, (told.cxm.contexts[c].assigned && inRange told c f) = inRange s c f := fun c => by
    rw [← hr c, Bool.eq_iff_iff, Bool.and_eq_true]
    exact and_iff_right_of_imp inRange_assigned
  obtain ⟨h1, h2, h3, h4⟩ := requestNormal_cases (fun c => inRange told c f) told
  have hb : told.bcm = s.bcm := rfl
  simp only [hand, hb] at h1 h2 h3 h4
  have hc : changeMark f m carried s = disturbFloors [f] (requestNormal (fun c => inRange told c f) told) := rfl
  rw [hc, disturbFloors_bcm]
  refine ⟨h1, h2, ?_, fun d => (h4 d).trans (or_congr_right ?_)⟩
  · simp only [h3]
    cases s.bcm.composition <;> simp [Bool.or_assoc]
  · rw [← and_assoc, ← and_assoc, ← Bool.and_eq_true, hand]
    exact and_assoc

/-- A mark change moves the contexts and the Console Queues by its notice alone. -/
theorem changeMark_cxm (f : Nat) (m : FloorMark) (carried : Option CtxNo) (s : State) :
    (changeMark f m carried s).cxm =
      { (offer (markNotice f m carried) s).cxm with marks := s.cxm.marks.setIfInBounds f m } := by
  unfold changeMark
  simp only [disturbFloors_cxm, requestNormal_cxm]
  rfl

/-- Offers look at the plan, the focus, the map, the contexts and the Console Queues alone. -/
theorem offerAll_congr (ns : List Notice) {s u : State} (hp : u.psc = s.psc) (ha : u.ale = s.ale) (hm : u.pbi = s.pbi)
    (hc : u.cxm.contexts = s.cxm.contexts) (hq : u.cxm.consoles = s.cxm.consoles) :
    (offerAll ns u).cxm.contexts = (offerAll ns s).cxm.contexts ∧
      (offerAll ns u).cxm.consoles = (offerAll ns s).cxm.consoles := by
  induction ns generalizing s u with
  | nil => exact ⟨hc, hq⟩
  | cons n ns ih =>
    refine ih (s := offer n s) (u := offer n u) hp ha hm ?_ ?_
    · rcases s with ⟨_, _, _, _, ⟨_, _, _⟩, _, _, _, _, _⟩
      rcases u with ⟨_, _, _, _, ⟨_, _, _⟩, _, _, _, _, _⟩
      subst hp ha hc; rfl
    · rcases s with ⟨_, _, _, _, ⟨_, _, _⟩, _, _, _, _, _⟩
      rcases u with ⟨_, _, _, _, ⟨_, _, _⟩, _, _, _, _, _⟩
      subst hm hq; rfl

/-- The Floor Marked notice of a floor released by the withdrawal of context `c` (R30, R31). -/
def releaseNotice (s : State) (c : CtxNo) (f : Nat) : Notice := markNotice f (unsearchedAt s.ale.clock) (some c)

theorem markAt_changeMark {f g : Nat} (h : f ≠ g) (m : FloorMark) (carried : Option CtxNo) (s : State) :
    markAt (changeMark f m carried s) g = markAt s g := by
  unfold markAt
  rw [changeMark_cxm]
  simp [h]

/-- Everything the release of the floors `fs`, each Searching under context `c`, can do besides the marks (R31): the notices in
order, the Normal requests and the disturbance. -/
theorem unmarkAll_cases (c : CtxNo) (fs : List Nat) (s : State) (hd : fs.Nodup)
    (hs : ∀ f ∈ fs, (markAt s f).mark = .searching ∧ (markAt s f).context = some c) :
    let t := fs.foldl (fun s f => unmark f s) s
    t.cxm.contexts = (offerAll (fs.map (releaseNotice s c)) s).cxm.contexts ∧
      t.cxm.consoles = (offerAll (fs.map (releaseNotice s c)) s).cxm.consoles ∧
      t.bcm.urgent = s.bcm.urgent ∧ t.bcm.pool = s.bcm.pool ∧
      t.bcm.composition = s.bcm.composition.map (fun x => { x with
        disturbed := x.disturbed || fs.any fun f => inRange s x.context f || (x.phase == .walking && x.range.holds f) }) ∧
      ∀ d, d ∈ t.bcm.normal ↔ d ∈ s.bcm.normal ∨
        (∃ f ∈ fs, inRange s d f = true) ∧ d ∉ s.bcm.urgent ∧ s.bcm.composing ≠ some d := by
  induction fs generalizing s with
  | nil => simp [offerAll]
  | cons f fs ih =>
    rw [List.nodup_cons] at hd
    obtain ⟨hm, hc⟩ := hs f List.mem_cons_self
    have hu : unmark f s = changeMark f (unsearchedAt s.ale.clock) (some c) s := by
      unfold unmark; simp only [hm, hc, if_true]
    obtain ⟨b1, b2, b3, b4⟩ := changeMark_bcm f (unsearchedAt s.ale.clock) (some c) s
    have hx := changeMark_cxm f (unsearchedAt s.ale.clock) (some c) s
    obtain ⟨h1, h2, h3, h4, h5, h6⟩ := ih (unmark f s) hd.2 fun g hg => by
      rw [hu, markAt_changeMark (f := f) (g := g) fun he => hd.1 (he ▸ hg)]
      exact hs g (List.mem_cons_of_mem _ hg)
    have hn : releaseNotice (unmark f s) c = releaseNotice s c := by unfold releaseNotice; rw [unmark_ale]
    have hr : ∀ d g, inRange (unmark f s) d g = inRange s d g := fun d g => by
      rw [← offer_inRange (releaseNotice s c f) s d g]
      unfold inRange currentRange
      rw [unmark_psc, unmark_ale, hu, hx]
      rfl
    obtain ⟨o1, o2⟩ := offerAll_congr (fs.map (releaseNotice s c)) (s := offer (releaseNotice s c f) s) (u := unmark f s)
      (unmark_psc f s) (unmark_ale f s) (unmark_pbi f s) (by rw [hu, hx]; rfl) (by rw [hu, hx]; rfl)
    rw [hn] at h1 h2
    simp only [List.foldl_cons]
    refine ⟨h1.trans o1, h2.trans o2, h3.trans (by rw [hu, b1]), h4.trans (by rw [hu, b2]), ?_, fun d => ?_⟩
    · rw [h5, hu, b3, ← hu]
      cases s.bcm.composition <;> simp [hr, Bool.or_assoc]
    · rw [h6]
      simp only [hr]
      have hk : (unmark f s).bcm.composing = s.bcm.composing := by
        rw [hu]; unfold Bcm.composing; rw [b3]; cases s.bcm.composition <;> rfl
      rw [hk, hu, b4, b1]
      simp only [List.mem_cons, exists_eq_or_imp]
      rw [or_assoc, ← or_and_right]

end Sys2Proof.Machine
end

