-- ==== Sys2Proof/Laws/Transfers.lean ====
section
/-!
SUPPORT. What the judgement of a transfer can answer, and what a transfer leaves.
-/

namespace Sys2Proof.Machine

/-- Everything a judgement that passes says (R158). -/
theorem judge_some {t : Transfer} {write : Bool} {s : State} {p : BusPlace} (h : judge t write s = some p) :
    slotClass s t.slot ≠ .noClass ∧ locate t.bank.toNat t.offset.toNat (singleBytes t) = some p ∧
      accessAllowed (slotClass s t.slot) t.slot write p = true ∧ shapeAllowed t p = true ∧
      locksAllowed t write p = true := by
  unfold judge at h
  split at h
  · cases h
  · rename_i hc
    split at h
    · cases h
    · rename_i q hq
      split at h
      · rename_i hall
        injection h with h
        subst h
        simp only [Bool.and_eq_true] at hall
        exact ⟨hc, hq, hall.1.1, hall.1.2, hall.2⟩
      · cases h

/-- A place that a transfer is located in covers it (R170). -/
theorem locate_covers {bank off n : Nat} {p : BusPlace} (h : locate bank off n = some p) : p.covers off n = true := by
  unfold locate at h
  exact List.find?_some (p := fun q : BusPlace => q.covers off n) h

/-- A read that a step of R158 ends. -/
theorem busRead_none {t : Transfer} {s : State} (h : judge t false s = none) :
    busRead t s = answer t .fault false [] s := by
  unfold busRead; rw [h]

/-- A read that goes to its owner. -/
theorem busRead_some {t : Transfer} {s : State} {p : BusPlace} (h : judge t false s = some p) :
    busRead t s =
      answer t (ownerRead t p (t.offset.toNat - p.start) (movedBytes t p) s).termination
        (inhibited t p && (ownerRead t p (t.offset.toNat - p.start) (movedBytes t p) s).termination == .done)
        (ownerRead t p (t.offset.toNat - p.start) (movedBytes t p) s).data
        (ownerRead t p (t.offset.toNat - p.start) (movedBytes t p) s).state := by
  unfold busRead; rw [h]

/-- A write that a step of R158 ends. -/
theorem busWrite_none {t : Transfer} {data : List Byte} {s : State} (h : judge t true s = none) :
    busWrite t data s = answer t .fault false [] s := by
  unfold busWrite; rw [h]

/-- A write that goes to its owner. -/
theorem busWrite_some {t : Transfer} {data : List Byte} {s : State} {p : BusPlace} (h : judge t true s = some p) :
    busWrite t data s =
      answer t (ownerWrite t p (t.offset.toNat - p.start) (slice data 0 (movedBytes t p)) s).termination
        (inhibited t p &&
          (ownerWrite t p (t.offset.toNat - p.start) (slice data 0 (movedBytes t p)) s).termination == .done) []
        (ownerWrite t p (t.offset.toNat - p.start) (slice data 0 (movedBytes t p)) s).state := by
  unfold busWrite; rw [h]

end Sys2Proof.Machine
end

