-- ==== Sys2Proof/Tests/Slice0.lean ====
section
/-!
SUPPORT. The model's own tests: the refusals of WellFormed, single steps whose outcome the manual gives, and for every
statement with hypotheses a state and operands that meet them.
-/

namespace Sys2Proof.Tests

open Sys2Proof Sys2Proof.Machine

-- One theorem after another: evaluated side by side, their memory adds up.
set_option Elab.async false

/-! ### WellFormed refuses -/

/-- A transfer of one slot. -/
def transfer (slot : Slot) (bank : BitVec 8) (offset : BitVec 16) (size : Size) : Transfer :=
  { slot := slot, bank := bank, offset := offset, size := size, lock := false, lockEnd := false }

theorem test_wellFormed_refuses_short_data :
    (Instr.planSpaceWrite (transfer 0 0x40 0 .four) [1, 2]).wellFormed = false := by decide

theorem test_wellFormed_refuses_plan_bank :
    (Instr.planSpaceWrite (transfer 0 0x60 0 .one) [1]).wellFormed = false := by decide

theorem test_wellFormed_refuses_status_place : (Instr.planStatusRead (transfer 0 0 0x20 .one)).wellFormed = false := by
  decide

theorem test_wellFormed_refuses_intake_bank :
    (Instr.intakeWrite (transfer 3 0x09 0 .burst) (List.replicate 16 0)).wellFormed = false := by decide

theorem test_wellFormed_refuses_unlocked_read : (Instr.lockedRead (transfer 1 0x10 0 .four)).wellFormed = false := by
  decide

theorem test_wellFormed_refuses_register_data :
    (Instr.registerWrite (transfer 1 0x10 0 .four) []).wellFormed = false := by decide

theorem test_wellFormed_refuses_selector_place :
    (Instr.contextSelectorWrite (transfer 1 0 0x161 .one) [3]).wellFormed = false := by decide

theorem test_wellFormed_refuses_brief_bank : (Instr.briefWindowRead (transfer 2 0x21 0 .one)).wellFormed = false := by
  decide

theorem test_wellFormed_refuses_command_place :
    (Instr.commandSlotWrite (transfer 2 0 0x110 .burst) (List.replicate 16 0)).wellFormed = false := by decide

/-! ### Small states -/

/-- A plan of two floors, labels 000 and 001: F at 28, the plan length 1024, and the label table's pointer. -/
def planBytes : Memory := [(28, 2), (37, 4), (77, 2), (78, 0x40), (79, 2), (519, 1)]

/-- A part with that plan Valid: Loader at slot 0, Console at 1, Gateway at 2, Panel 0 at 3. -/
def tower : State :=
  { State.reset with
    psc := { State.reset.psc with planSpace := planBytes, state := .valid }
    pbi := { State.reset.pbi with
      classes := #v[.loader, .console, .gateway, .panel 0, .noClass, .noClass, .noClass, .noClass] } }

/-- A context Assigned to slot 2 on floor 1. -/
def crew : Context :=
  { freeContext 0 with assigned := true, owner := some 2, fixedFloor := 1, ceiling := 5, mask := 1 }

/-- The tower with context 0 Assigned. -/
def crewed : State := setContext 0 crew tower

/-- A record of 16 bytes. -/
def record (bytes : List Byte) : Vector Byte 16 := padded 16 bytes

/-- A command in flight with its record, as taken from a slot whose selector names context 0, console queue 0. -/
def command (bytes : List Byte) : InFlight :=
  { record := record bytes, selector := some 0, cls := .gateway, console := some 0, lost := false }

/-- A state with a command in flight at a slot. -/
def commanded (slot : Slot) (bytes : List Byte) (s : State) : State :=
  { s with pbi := { s.pbi with inFlight := s.pbi.inFlight.set slot (some (command bytes)) } }

/-- An Active Fire entry of panel 0, loop 0, address 7, on floor 1. -/
def fireEntry : Entry :=
  { key := { panel := 0, loop := 0, address := 7 }, category := .fire, cls := 1, floor := some 1, zone := none
    phase := .active, firstAlarm := 3, lastChange := 3, detection := 0, reactivations := 0, standing := 0
    holder := none, holdStart := 0 }

/-- The table of a state with one entry in place 0. -/
def withEntry (e : Entry) (s : State) : State :=
  { s with ale := { s.ale with places := s.ale.places.set 0 { change := 9, entry := some e } } }

/-- A panel's report of that device. -/
def report (kind : ReportKind) (sequence : Byte) : Report :=
  { source := .panel 0 sequence, kind := kind, loop := 0, address := 7, hint := some 1, detection := 4 }

/-- A composition in a walk over floors 0 and 1 for context 0. -/
def walking (pos : WalkPos) : Composition :=
  { context := 0, buffer := 0, range := { low := 0, high := 1, clipped := false }, mode := .fixed, restarts := 0
    disturbed := false, phase := .walking
    walk := { newWalk { low := 0, high := 1, clipped := false } with pos := pos } }

/-- The crewed tower with that composition under way. -/
def composing (x : Composition) : State :=
  { crewed with bcm := { crewed.bcm with composition := some x, pool := crewed.bcm.pool.set 0 false } }

/-- The next state of a step, when it answers one. -/
def after (c : Instr) (s : State) : State :=
  match step { s with pending := [c] } with
  | .next t => t
  | _ => s

/-- The termination on the response pins. -/
def termination (s : State) : Option Termination := s.pbi.response.map (·.termination)

/-! ### Single steps -/

/-- The example of 10_panel_bus_interface_and_command_slots.md: slot 1 is a Console, entry 5 is in use, slot 3 holds
entry 7. -/
def exampleTower : State :=
  { tower with ale := { tower.ale with
      places := (tower.ale.places.set 5 { change := 1, entry := some fireEntry }).set 7
        { change := 1, entry := some { fireEntry with key := { panel := 0, loop := 0, address := 8 }, holder := some 3 } } } }

theorem test_example_unknown_bank :
    termination (answer (transfer 1 0x30 0 .four) .fault false [] exampleTower) =
      termination (busRead (transfer 1 0x30 0 .four) exampleTower) := by decide +kernel

theorem test_example_status_write :
    termination (after (.registerWrite (transfer 1 0 0x10 .four) [0, 0, 0, 0]) exampleTower) = some .fault := by
  decide +kernel

theorem test_example_burst_inhibited :
    (busRead (transfer 1 0x10 0x2000 .burst) exampleTower).pbi.response.map (fun r => (r.termination, r.burstInhibit)) =
      some (.done, true) := by decide +kernel

theorem test_example_burst_held :
    (busRead (transfer 1 0x10 224 .burst) exampleTower).pbi.response.map (fun r => (r.termination, r.burstInhibit)) =
      some (.retry, false) := by decide +kernel

theorem test_example_odd_offset :
    termination (busRead (transfer 1 0x10 0x2C01 .two) exampleTower) = some .fault := by decide +kernel

theorem test_example_locked_elsewhere :
    termination (after (.lockedRead { transfer 1 0x10 0x2C00 .four with lock := true }) exampleTower) = some .fault := by
  decide +kernel

theorem test_example_locked_read :
    let t := after (.lockedRead { transfer 1 0x10 160 .four with lock := true }) exampleTower
    (termination t, holderAt t 5, t.ale.holdTimers[(1 : Fin 8)]) = (some .done, some 1, true) := by decide +kernel

theorem test_example_selector :
    let t := after (.contextSelectorWrite (transfer 1 0 0x160 .one) [9]) exampleTower
    (termination t, t.pbi.selectors[(1 : Fin 8)]) = (some .done, some 9) := by decide +kernel

theorem test_clock_holds :
    (after .incidentClockTick { tower with ale := { tower.ale with clock := 0xFFFF } }).ale.clock = 0xFFFF := by
  decide +kernel

/-- Gray 1110000 is 1011111 in binary (R116: b6 = g6, each lower bit the XOR of the bit above and its Gray bit). -/
theorem test_gray : grayDecode 0b1110000#7 = 0b1011111#7 := by decide

/-- R117: a candidate beyond reach moves the shown floor by the max step and sets Tracking. -/
theorem test_lift_tracks :
    let l := judgePosition 20 9 { liftPowerOn with enabled := true, maxStep := 2, shown := some 4 }
    (l.shown, l.tracking, l.implausible) = (some 6, true, false) := by decide

/-- The weight of an Active Smoke entry under the built-in table, the worked value of R92. -/
theorem test_builtin_smoke : builtinWeight 1 = 90 := by decide

/-- R95: an Active Suppression Release entry at weight 160 with all credits sums to 270 and stands at 255, level 7. -/
theorem test_standing_clamps : (byteOf (min 255 (160 + 60 + 30 + 20))).toNat / 32 = 7 := by decide

theorem test_plan_write_stores :
    (after (.planSpaceWrite (transfer 0 0x41 0x10 .two) [0xAB, 0xCD])
      { State.reset with psc := { State.reset.psc with state := .loading } }).psc.planSpace =
        [(65552, 0xAB), (65553, 0xCD)] := by decide +kernel

theorem test_status_read_clears_flag :
    (after (.planStatusRead (transfer 0 0 0x10 .one)) State.reset).pbi.attention[(0 : Fin 8)] = false := by
  decide +kernel

theorem test_intake_takes :
    let t := after (.intakeWrite (transfer 3 0x08 0 .burst) ([7, 1, 0, 7, 255, 0] ++ List.replicate 10 0)) tower
    (termination t, t.rin.queue.map (·.source)) = (some .done, [.panel 0 7]) := by decide +kernel

theorem test_report_makes_entry :
    ((makeEntry 0 (newEntryOf tower.psc 5 (report .alarm 4)) tower.ale).places[(0 : Fin 256)].entry.map
      fun e => (e.phase, e.detection, e.cls, e.firstAlarm)) = some (.active, 4, 1, 5) := by decide +kernel

theorem test_sequence_gap : (sequenceCheck (some 0xFF) 0, sequenceCheck (some 3) 5) = (.processed, .gap) := by decide

theorem test_acknowledge :
    actionResult (withEntry { fireEntry with holder := some 1 } tower).ale 1 0 (actionWord 1 9) = some .acknowledged := by
  decide +kernel

theorem test_stale_action :
    actionResult (withEntry { fireEntry with holder := some 1 } tower).ale 1 0 (actionWord 1 8) = none := by
  decide +kernel

theorem test_clear_active_is_fault :
    termination (after (.clearEntry 1 0 9) (withEntry { fireEntry with holder := some 1 } tower)) = some .fault := by
  decide +kernel

theorem test_unknown_code_is_refused :
    ((after (.commandSlotWrite (transfer 1 0 0x140 .burst) (18 :: List.replicate 15 0)) tower).pbi.results[(1 : Fin 8)]).reason
      = some .badCommand := by decide +kernel

theorem test_gateway_cannot_assign :
    ((after (.commandSlotWrite (transfer 2 0 0x180 .burst) (1 :: List.replicate 15 0)) tower).pbi.results[(2 : Fin 8)]).reason
      = some .notPermitted := by decide +kernel

theorem test_assign :
    let s := commanded 1 [1, 3, 65, 66, 67, 68, 2, 1, 0, 0, 0, 1, 9, 0, 7, 4] tower
    let x := (after (.assignCrew 1) s).cxm.contexts[(3 : Fin 32)]
    (x.assigned, x.owner, x.mode, x.fixedFloor, x.below, x.mask, x.ceiling) =
      (true, some 2, .followFocus, 1, 3, 4, 4) := by decide +kernel

theorem test_mark_floor :
    let s := commanded 2 [13, 1, 0, 0, 0, 0, 0, 1] crewed
    (after (.markFloor 2) s).cxm.marks[(1 : Fin 128)] = { mark := .searching, context := some 0, time := 0 } := by
  decide +kernel

theorem test_mark_floor_out_of_window :
    let s := commanded 2 [13, 1, 0, 0, 0, 0, 0, 0] crewed
    ((after (.markFloor 2) s).pbi.results[(2 : Fin 8)]).reason = some .outOfWindow := by decide +kernel

theorem test_withdraw_frees :
    (after (.withdrawCrew 1) (commanded 1 [3, 0] crewed)).cxm.contexts[(0 : Fin 32)] = freeContext 0 := by
  decide +kernel

theorem test_walk_writes_floor_head :
    ((after .walkStep (composing (walking (.floorHead 0)))).bcm.buffers[(0 : Fin 33)]).readAll 32 3 = [1, 24, 0] := by
  decide +kernel

theorem test_seal_publishes :
    (after .seal (composing { walking .unplaced with phase := .sealing })).cxm.contexts[(0 : Fin 32)].published =
      some 0 := by decide +kernel

/-! ### Witnesses: states and operands that meet the hypotheses of the statements -/

/-- Every event answers a next state, so a hypothesis that names it can be met. -/
theorem event_answers (f : State → State) (s : State) : ∃ t, event f s = .next t := ⟨_, event_next f s⟩

theorem tower_empty : ∀ i : EntryNo, tower.ale.places[i].entry = none := by decide +kernel

theorem withEntry_entry (e : Entry) (i : EntryNo) :
    (withEntry e tower).ale.places[i].entry = if i = 0 then some e else none := by
  simp only [withEntry, Fin.getElem_fin, Vector.getElem_set]
  by_cases h : i = 0
  · subst h; simp
  · have h' : ¬(0 = i.val) := fun hc => h (Fin.ext hc.symm)
    have := tower_empty i
    simp only [Fin.getElem_fin] at this
    simp [h, h', this]

theorem withEntry_keysUnique (e : Entry) : (withEntry e tower).keysUnique := by
  intro i j f g hf hg _ _
  rw [withEntry_entry] at hf hg
  split at hf <;> split at hg <;> simp_all

theorem crewed_requestsSound : crewed.requestsSound := by
  refine ⟨by decide +kernel, by decide +kernel, fun x h => ?_⟩
  have h' : (none : Option Composition) = some x := h
  cases h'

theorem tower_requestsSound : tower.requestsSound := by
  refine ⟨by decide +kernel, by decide +kernel, fun x h => ?_⟩
  have h' : (none : Option Composition) = some x := h
  cases h'

theorem tower_marksSound : crewed.marksSound := by
  intro f
  have h : ∀ f : Fin 128, crewed.cxm.marks[f] = unsearchedAt 0 := by decide +kernel
  rw [h f]
  exact ⟨fun h => (by cases h), fun _ => rfl⟩

theorem witness_RefusedCommandChangesNothing :
    ∃ (code : CommandCode) (slot : Slot) (cmd : InFlight) (s t : State), Ready s slot code cmd ∧ cmd.lost = false ∧
      exec (code.row slot) s = .next t ∧ t.pbi.results[slot].outcome = .refused :=
  ⟨.setMask, 2, command [12, 3], commanded 2 [12, 3] tower, _, ⟨rfl, by decide +kernel, by decide +kernel⟩, rfl,
    event_next (carryOut 2 .setMask (setMaskBody 2)) (commanded 2 [12, 3] tower), by decide +kernel⟩

theorem witness_RetryChangesNothing :
    ∃ (tr : Transfer) (s t : State), s.power = true ∧ exec (.lockedRead tr) s = .next t ∧
      t.pbi.response.map (·.termination) = some .retry :=
  ⟨{ transfer 1 0x10 224 .four with lock := true }, exampleTower, _, rfl,
    event_next (busRead { transfer 1 0x10 224 .four with lock := true }) exampleTower, by decide +kernel⟩

theorem witness_SlotAreasAreApart :
    ∃ (tr : Transfer) (data : List Byte) (s t : State), exec (.registerWrite tr data) s = .next t :=
  ⟨transfer 1 0 0x160 .one, [9], tower, _, event_next (busWrite (transfer 1 0 0x160 .one) [9]) tower⟩

/-- A Console's read of the plan status. -/
def statusRead : Transfer := transfer 1 0 0x10 .one

theorem witness_ClockOnlyRises :
    tower.power = true ∧ ∃ (c : Instr) (s t : State), exec c s = .next t ∧ (∀ slot, c ≠ .incidentClear slot) ∧
      (∀ k, c ≠ .powerOn k) ∧ c ≠ .lossOfPower :=
  ⟨rfl, .planStatusRead statusRead, tower, _, event_next (busRead statusRead) tower, fun _ h => (by cases h), fun _ h => (by cases h), fun h => (by cases h)⟩

/-- The factory part while it is being loaded. -/
def loading : State := { State.reset with psc := { State.reset.psc with state := .loading } }

theorem witness_PlanSpaceIsGuarded :
    ∃ (c : Instr) (s t : State), exec c s = .next t ∧ t.psc.planSpace ≠ s.psc.planSpace :=
  ⟨.planSpaceWrite (transfer 0 0x41 0x10 .one) [0xAB], loading, _,
    event_next (busWrite (transfer 0 0x41 0x10 .one) [0xAB]) loading, by decide +kernel⟩

theorem tower_listOrdered : tower.listOrdered := by
  refine ⟨by decide +kernel, fun i => ?_, by rw [show tower.ale.alarmList = [] from rfl]; exact List.Pairwise.nil⟩
  rw [tower_empty i, show tower.ale.alarmList = [] from rfl]
  simp

theorem witness_ListEpochCountsChanges :
    (∃ (c : Instr) (s t : State), s.listOrdered ∧ exec c s = .next t ∧ (∀ k, c ≠ .powerOn k) ∧ c ≠ .lossOfPower) ∧
      ∃ (k : Straps) (s t : State), exec (.powerOn k) s = .next t :=
  ⟨⟨.planStatusRead statusRead, tower, _, tower_listOrdered, event_next (busRead statusRead) tower,
    fun _ h => (by cases h), fun h => (by cases h)⟩, { first := true, second := true, third := true }, tower, _, rfl⟩

/-- A notice of a kind and a level, about no entry. -/
def bare (kind : NoticeKind) (level : Level) : Notice := bareNotice kind level 0

theorem witness_QueueingFollowsFourCases_sound (n : Notice) : NoticeQueue.sound 1 { notices := [n], overrun := false } :=
  ⟨Nat.le_refl 1, List.pairwise_singleton _ _, fun h => (by cases h)⟩

theorem witness_QueueingFollowsFourCases :
    (bare .focusMoved 7).sameKey (bare .focusMoved 2) = true ∧
      ((bare .focusMoved 7).sameKey (bare .tableFull 7) = false ∧ [bare .focusMoved 7].length < 2) ∧
      ((bare .focusMoved 1).sameKey (bare .tableFull 2) = false ∧ (bare .focusMoved 1).level < (bare .tableFull 2).level) ∧
      ((bare .focusMoved 7).sameKey (bare .tableFull 7) = false ∧ (bare .tableFull 7).level ≤ (bare .focusMoved 7).level) := by
  decide

theorem witness_RangeHoldsItsCentre : ∃ (floors centre : Nat) (below above : Fin 4), centre < floors ∧
    centre < below.val ∧ floors ≤ centre + above.val := ⟨1, 0, 3, 3, by decide⟩

theorem witness_CorroborationCountsNeighbours : ∃ e f : Entry, e.category = .fire ∧ f.category = .fire ∧
    e.phase.graded = true ∧ f.phase.graded = true ∧ e.zone = f.zone :=
  ⟨{ fireEntry with zone := some 4 }, { fireEntry with zone := some 4, firstAlarm := 93 }, by decide⟩

theorem witness_ResolutionIsSound : resolve planBytes .labelTable (pointerAt planBytes 76) = .found 512 := by
  decide +kernel

theorem witness_LabelsAreUnique :
    (resolve planBytes .labelTable (pointerAt planBytes 76) = .found 512 ∧ stageLabels planBytes = none) ∧
      ∃ (m : Memory) (i : Nat), resolve m .labelTable (pointerAt m 76) = .found 512 ∧ i < headerFloors m ∧
        (∀ j, j ≤ i → (labelAt m (512 + 4 * j)).inRange = true) ∧
        (∀ j k, j < k → k < i → labelAt m (512 + 4 * j) ≠ labelAt m (512 + 4 * k)) ∧
        ∃ j, j < i ∧ labelAt m (512 + 4 * j) = labelAt m (512 + 4 * i) :=
  ⟨by decide +kernel, [(28, 2), (37, 4), (77, 2), (78, 0x40), (79, 2)], 1, by decide +kernel, by decide +kernel,
    by decide +kernel, fun j k h h' => (by omega), 0, by decide +kernel⟩

theorem witness_PowerOnReadsTheStore :
    State.reset.psc.state = .absent ∧ loading.psc.state = .loading ∧ tower.psc.state ≠ .absent ∧
      tower.psc.state ≠ .loading ∧ slotEntryOk [(45, 2)] 0 1 = true := by decide +kernel

/-- R157: the first strap is the least significant bit. -/
theorem test_straps :
    (strapSlot { first := true, second := false, third := false }, strapSlot { first := false, second := true, third := true })
      = (1, 6) := by decide

theorem tower_attention : ∀ slot : Slot, State.reset.pbi.attention[slot] = attentionCondition State.reset slot := by
  decide +kernel

theorem witness_BusResetEndsHolds : ∃ s : State, s.power = true ∧ s.attentionTrue :=
  ⟨State.reset, rfl, fun _ => tower_attention⟩

theorem witness_PlanSpaceWriteStores :
    (∃ (s : State) (tr : Transfer) (data : List Byte) (bank : Fin 32), s.power = true ∧ s.psc.planSpace.wf ∧
      s.psc.state = .loading ∧ s.pbi.classes[tr.slot] = .loader ∧ tr.bank.toNat = 0x40 + bank.val ∧ tr.lock = false ∧
      tr.lockEnd = false ∧ aligned tr = true ∧ tr.offset.toNat + tr.size.bytes ≤ 65536 ∧
      data.length = tr.size.bytes) ∧
    ∃ (s : State) (tr : Transfer), s.power = true ∧ 0x40 ≤ tr.bank.toNat ∧ tr.bank.toNat ≤ 0x5F ∧
      ¬(s.psc.state = .loading ∧ s.pbi.classes[tr.slot] = .loader) :=
  ⟨⟨loading, transfer 0 0x5F 0xFFF0 .burst, List.replicate 16 1, 31, rfl, Memory.wf_nil, by decide +kernel⟩,
    tower, transfer 0 0x40 0 .four, by decide +kernel⟩

theorem witness_PlanStatusReadClearsFlag :
    (tower.power = true ∧ tower.pbi.classes[(transfer 0 0 0x10 .burst).slot] = .loader) ∧
      ∃ (s t : State) (tr : Transfer), exec (.planStatusRead tr) s = .next t ∧ s.pbi.classes[tr.slot] ≠ .loader :=
  ⟨by decide +kernel, tower, _, statusRead, event_next (busRead statusRead) tower, by decide +kernel⟩

theorem witness_BeginLoadAndErasePlan : ∀ erase : Bool, ∃ (s : State) (slot : Slot) (cmd : InFlight),
    Ready s slot (if erase then .erasePlan else .beginLoad) cmd ∧ s.psc.state = .valid ∧
      (∀ c : CtxNo, s.cxm.contexts[c].assigned = false) ∧
      (∀ (i : EntryNo) (e : Entry), s.ale.places[i].entry = some e → e.phase = .cleared) ∧ s.rin.queue = [] ∧
      s.requestsSound := by
  intro erase
  refine ⟨commanded 0 [if erase then 17 else 14] tower, 0, command [if erase then 17 else 14],
    ⟨rfl, by revert erase; decide +kernel, by revert erase; decide +kernel⟩, rfl, ?_, fun i e h => ?_, rfl,
    tower_requestsSound⟩
  · exact (by decide +kernel : ∀ c : CtxNo, tower.cxm.contexts[c].assigned = false)
  · have h' : tower.ale.places[i].entry = some e := h
    rw [tower_empty i] at h'
    cases h'

theorem witness_BeginLoadAndErasePlan_refused : ∀ (erase : Bool) (reason : CommandReason),
    reason ∈ [CommandReason.wrongState, .incident] → ∃ (s : State) (slot : Slot) (cmd : InFlight),
      Ready s slot (if erase then .erasePlan else .beginLoad) cmd ∧ FirstFails (openingTable s) reason := by
  have ready : ∀ (erase : Bool) (s : State), s.power = true →
      Ready (commanded 0 [if erase then 17 else 14] s) 0 (if erase then .erasePlan else .beginLoad)
        (command [if erase then 17 else 14]) :=
    fun erase s hp => ⟨hp, by simp [commanded], by revert erase; decide +kernel⟩
  intro erase reason h
  simp only [List.mem_cons, List.not_mem_nil, or_false] at h
  rcases h with rfl | rfl
  · exact ⟨_, 0, _, ready erase loading rfl, Or.inl ⟨by simp [commanded, loading], rfl⟩⟩
  · exact ⟨_, 0, _, ready erase crewed rfl, Or.inr ⟨Or.inr (Or.inl rfl), Or.inl
      ⟨fun hn => absurd (hn.1 0) (by decide +kernel : ¬crewed.cxm.contexts[(0 : CtxNo)].assigned = false), rfl⟩⟩⟩

theorem witness_CommitAndAbortEndLoading :
    (Ready (commanded 0 [15] loading) 0 .commitPlan (command [15]) ∧ loading.psc.state = .loading) ∧
      (Ready (commanded 0 [15] tower) 0 .commitPlan (command [15]) ∧ tower.psc.state ≠ .loading) ∧
      Ready (commanded 0 [16] loading) 0 .abortLoad (command [16]) ∧
      Ready (commanded 0 [16] tower) 0 .abortLoad (command [16]) := by
  unfold Ready; decide +kernel

/-- A part in a validation run. -/
def validating (stage : Fin 8) (m : Memory) : State :=
  { tower with psc := { tower.psc with state := .validating, origin := .commit, stage := stage, planSpace := m } }

theorem witness_ValidationStageCompletes :
    (∃ zones, stageVerdict (validating 1 [(0, 3)]).psc 0 = .ok zones) ∧
      (∃ f, stageVerdict (validating 1 []).psc 0 = .error f) ∧
      ∃ zones, stageVerdict (validating 7 []).psc 0 = .ok zones :=
  ⟨⟨[], rfl⟩, ⟨{ reason := .outOfRange, offset := 0 }, rfl⟩, ⟨[], rfl⟩⟩

/-- R85: an entry whose key the plan does not map loses its floor, keeps its class, and its change number rises. -/
theorem test_resolve_again :
    let p := resolveAgain tower.psc { change := 9, entry := some fireEntry }
    (p.change, p.entry.map fun e => (e.cls, e.floor)) = (10, some (1, none)) := by decide +kernel

theorem witness_IntakeWriteJudgesArrival :
    let tr := transfer 3 0x08 0 .burst
    (tower.power = true ∧ tower.pbi.classes[tr.slot] = .panel 0 ∧ tr.size = .burst) ∧
      (28 ≤ (List.replicate 28 (report .alarm 1)).length) ∧ tower.rin.queue.length < 28 := by decide +kernel

theorem witness_ReportTakeMakesEntry :
    ∃ (s : State) (r : Report) (rest : List Report) (i : EntryNo), s.power = true ∧ deferring s = false ∧
      s.rin.queue = r :: rest ∧ notDuplicate s r ∧ r.kind.activates = true ∧
      (∀ (j : EntryNo) (f : Entry), s.ale.places[j].entry = some f → f.key = r.key → f.category ≠ r.kind.category) ∧
      s.ale.places[i].entry = none ∧ ∀ j : EntryNo, j < i → s.ale.places[j].entry ≠ none := by
  refine ⟨{ tower with rin := { queue := [report .alarm 4] } }, report .alarm 4, [], 0, rfl, by decide +kernel, rfl,
    Or.inr ⟨0, 4, rfl, by decide +kernel⟩, rfl, fun j f h => ?_, tower_empty 0, fun j h => (by simp at h)⟩
  have h' : tower.ale.places[j].entry = some f := h
  rw [tower_empty j] at h'
  cases h'

theorem witness_ReportTakeMovesEntry : ∀ (kind : ReportKind) (phase : Phase), kind = .alarm ∨ kind = .restore →
    ∃ (s : State) (r : Report) (rest : List Report) (i : EntryNo) (e : Entry), s.power = true ∧ deferring s = false ∧
      s.rin.queue = r :: rest ∧ notDuplicate s r ∧ r.kind = kind ∧ r.kind ≠ .panelReset ∧ s.keysUnique ∧
      s.ale.places[i].entry = some e ∧ e.phase = phase ∧ e.key = r.key ∧ e.category = r.kind.category := by
  intro kind phase hk
  refine ⟨{ withEntry { fireEntry with phase := phase } tower with rin := { queue := [report kind 4] } }, report kind 4,
    [], 0, { fireEntry with phase := phase }, rfl, (by decide +kernel : deferring tower = false), rfl,
    Or.inr ⟨0, 4, rfl, (by decide +kernel : tower.ale.panels[(0 : PanelNo)].last ≠ some 4)⟩, rfl,
    fun h => ?_, withEntry_keysUnique _, by
      rw [show ({ withEntry { fireEntry with phase := phase } tower with rin := { queue := [report kind 4] } } :
        State).ale = (withEntry { fireEntry with phase := phase } tower).ale from rfl, withEntry_entry, if_pos rfl],
    rfl, rfl, ?_⟩
  · have h' : kind = .panelReset := h
    rcases hk with rfl | rfl <;> cases h'
  · rcases hk with rfl | rfl <;> rfl

theorem witness_ReportTakeMovesEntry_none : ∃ (s : State) (r : Report) (rest : List Report), s.power = true ∧
    deferring s = false ∧ s.rin.queue = r :: rest ∧ notDuplicate s r ∧ r.kind.activates = false ∧ r.kind ≠ .panelReset ∧
    ∀ (j : EntryNo) (f : Entry), s.ale.places[j].entry = some f → f.key = r.key → f.category ≠ r.kind.category := by
  refine ⟨{ tower with rin := { queue := [report .restore 4] } }, report .restore 4, [], rfl, by decide +kernel, rfl,
    Or.inr ⟨0, 4, rfl, by decide +kernel⟩, rfl, fun h => (by cases h), fun j f h => ?_⟩
  have h' : tower.ale.places[j].entry = some f := h
  rw [tower_empty j] at h'
  cases h'

/-- The entry of a device of loop 1; that of address 5 may be Cleared. -/
def deviceEntry (phase : Phase) (i : EntryNo) : Entry :=
  { fireEntry with
    key := { panel := 0, loop := 1, address := BitVec.ofNat 8 i.val }, phase := if i = 5 then phase else .active }

/-- A table full of those entries, and a report of another device. -/
def fullTower (phase : Phase) : State :=
  { tower with
    rin := { queue := [report .alarm 4] }
    ale := { tower.ale with places := tabulate fun i => { change := 1, entry := some (deviceEntry phase i) } } }

theorem fullTower_entry (phase : Phase) (i : EntryNo) :
    (fullTower phase).ale.places[i].entry = some (deviceEntry phase i) := by
  simp [fullTower]

theorem witness_ReportTakeAtFullTable : ∀ phase : Phase, ∃ (s : State) (r : Report) (rest : List Report), s.power = true ∧
    deferring s = false ∧ s.rin.queue = r :: rest ∧ notDuplicate s r ∧ r.kind.activates = true ∧
    (∀ (j : EntryNo) (f : Entry), s.ale.places[j].entry = some f → f.key = r.key → f.category ≠ r.kind.category) ∧
    (∀ j : EntryNo, s.ale.places[j].entry ≠ none) ∧
    (phase = .cleared → ∃ e, s.ale.places[(5 : EntryNo)].entry = some e ∧ e.phase = .cleared ∧
      ∀ (j : EntryNo) (f : Entry), s.ale.places[j].entry = some f → f.phase = .cleared → j = 5) ∧
    (phase = .active → ∀ (i : EntryNo) (e : Entry), s.ale.places[i].entry = some e → e.phase ≠ .cleared) := by
  intro phase
  refine ⟨fullTower phase, report .alarm 4, [], rfl, (by decide +kernel : deferring tower = false), rfl,
    Or.inr ⟨0, 4, rfl, (by decide +kernel : tower.ale.panels[(0 : PanelNo)].last ≠ some 4)⟩, rfl, fun j f h => ?_,
    fun j => by rw [fullTower_entry]; simp, fun hp => ?_, fun hp i e h => ?_⟩
  · rw [fullTower_entry] at h
    injection h with h
    subst h
    exact fun hk => absurd (congrArg DeviceKey.loop hk) (by decide : (1 : Fin 16) ≠ 0)
  · subst hp
    refine ⟨deviceEntry .cleared 5, fullTower_entry _ 5, rfl, fun j f h hf => ?_⟩
    rw [fullTower_entry] at h
    injection h with h
    subst h
    by_contra hj
    simp [deviceEntry, hj] at hf
  · subst hp
    rw [fullTower_entry] at h
    injection h with h
    subst h
    simp [deviceEntry]

theorem witness_PanelResetRestoresEntries : ∃ (s : State) (r : Report) (rest : List Report), s.power = true ∧
    deferring s = false ∧ s.rin.queue = r :: rest ∧ r.kind = .panelReset ∧ r.source = .panel 0 4 ∧
    s.ale.panels[(0 : PanelNo)].last ≠ some 4 ∧ s.ale.places[(0 : EntryNo)].entry = some fireEntry ∧
    s.ale.places[(1 : EntryNo)].entry = none :=
  ⟨{ withEntry fireEntry tower with rin := { queue := [report .panelReset 4] } }, report .panelReset 4, [], rfl,
    (by decide +kernel : deferring tower = false), rfl, rfl, rfl,
    (by decide +kernel : tower.ale.panels[(0 : PanelNo)].last ≠ some 4), withEntry_entry fireEntry 0,
    withEntry_entry fireEntry 1⟩

/-- The tower after panel 0's report of sequence 4. -/
def reported : State :=
  { tower with
    ale := { tower.ale with panels := tower.ale.panels.set 0 { last := some 4, gap := false } }
    pbi := { tower.pbi with attention := tabulate (attentionCondition tower) } }

theorem witness_DuplicateIsDiscarded :
    ∃ (s : State) (r : Report) (rest : List Report) (panel : PanelNo) (sequence : Byte), s.power = true ∧
      deferring s = false ∧ s.rin.queue = r :: rest ∧ r.source = .panel panel sequence ∧
      s.ale.panels[panel].last = some sequence ∧ s.attentionTrue :=
  ⟨{ reported with rin := { queue := [report .alarm 4] } }, report .alarm 4, [], 0, 4, rfl, by decide +kernel, rfl, rfl,
    by decide +kernel, fun _ slot =>
      (by simp [reported] : reported.pbi.attention[slot] = attentionCondition tower slot)⟩

theorem witness_HoldStartsAndExpires :
    (∃ (s : State) (tr : Transfer) (i : EntryNo) (e : Entry) (off : Nat), s.power = true ∧
      s.pbi.classes[tr.slot] = .console ∧ tr.bank = 0x10 ∧ tr.offset.toNat = 32 * i.val + off ∧ tr.size ≠ .burst ∧
      off + tr.size.bytes ≤ 32 ∧ aligned tr = true ∧ tr.lock = true ∧ tr.lockEnd = false ∧
      s.ale.places[i].entry = some e ∧ e.holder = none) ∧
    ∃ (s : State) (slot : Slot), s.power = true ∧ s.ale.holdTimers[slot] = true :=
  ⟨⟨exampleTower, { transfer 1 0x10 188 .four with lock := true }, 5, fireEntry, 28, by decide +kernel⟩,
    { tower with ale := { tower.ale with holdTimers := Vector.replicate 8 true } }, 7, by decide +kernel⟩

theorem witness_HoldStartsAndExpires_refused :
    let tr : Transfer := { transfer 3 0x10 160 .four with lock := true }
    (exampleTower.pbi.classes[tr.slot] ≠ .console ∧ tr.offset.toNat = 32 * 5 + 0) ∧
      exampleTower.ale.places[(255 : EntryNo)].entry = none ∧ exampleTower.pbi.classes[(1 : Slot)] = .console ∧
      holderAt exampleTower 7 = some 3 ∧ (3 : Slot) ≠ 1 := by decide +kernel

/-- R64, R79: a locked read by the holder keeps the hold start; a hold that starts takes the clock. -/
theorem test_hold_start :
    (({ fireEntry with holder := some 1, holdStart := 3 } : Entry).heldBy 1 9).holdStart = 3 ∧
      (fireEntry.heldBy 1 9).holdStart = 9 := by decide

theorem witness_EntryActionNeedsHoldAndPhase_refused :
    let tr : Transfer := { transfer 1 0x10 188 .four with lockEnd := true }
    (exampleTower.power = true ∧ exampleTower.pbi.classes[(1 : Slot)] ≠ .noClass ∧ holderAt exampleTower 7 = some 3 ∧
      holderAt exampleTower 5 = none) ∧
      tr.offset.toNat = 32 * 5 + 28 ∧ 28 + tr.size.bytes ≤ 32 ∧ aligned tr = true ∧ tr.lock = false ∧
      ({ tr with offset := 252 } : Transfer).offset.toNat = 32 * 7 + 28 ∧ (3 : Slot) ≠ 1 ∧
      ({ tr with offset := 184 } : Transfer).offset.toNat = 32 * 5 + 24 ∧ 3 < (([4, 0, 9, 0] : List Byte).getD 0 0).toNat := by
  decide +kernel

/-- R80, R82: the part answers a lock-end write beside the action word of a held entry with Retry, and one whose code names no
action with Fault. -/
theorem test_lock_end_elsewhere :
    let tr : Transfer := { transfer 1 0x10 252 .four with lockEnd := true }
    (termination (after (.registerWrite tr [1, 0, 9, 0]) exampleTower),
      termination (after (.registerWrite { tr with offset := 184 } [4, 0, 9, 0]) exampleTower)) =
        (some .retry, some .fault) := by decide +kernel

theorem witness_EntryActionNeedsHoldAndPhase : ∃ (s : State) (slot : Slot) (i : EntryNo) (e : Entry) (change : Half),
    s.power = true ∧ s.pbi.classes[slot] ≠ .noClass ∧ s.ale.places[i].entry = some e ∧ e.holder = some slot ∧
      (change = s.ale.places[i].change ∧ e.phase = .active) ∧ change + 1 ≠ s.ale.places[i].change :=
  ⟨withEntry { fireEntry with holder := some 1 } tower, 1, 0, { fireEntry with holder := some 1 }, 9, by decide +kernel⟩

theorem witness_PlainWriteChangesNothing :
    let tr := transfer 1 0x10 254 .two
    exampleTower.power = true ∧ tr.bank = 0x10 ∧ tr.lockEnd = false ∧ holderAt exampleTower 7 = some 3 := by
  decide +kernel

theorem witness_SelectorWriteSets :
    let tr := transfer 2 0 0x1A0 .one
    tower.power = true ∧ tower.pbi.classes[tr.slot] = .gateway ∧ tr.bank = 0 ∧
      tr.offset.toNat = 0x0120 + 0x40 * tr.slot.val ∧ tr.size = .one ∧ tr.lock = false ∧ tr.lockEnd = false ∧
      (31 : Byte).toNat = (31 : CtxNo).val ∧ 32 ≤ (32 : Byte).toNat ∧ (254 : Byte) ≠ 0xFF := by decide +kernel

/-- The crewed tower with a published brief of 48 bytes and epoch 1, selected by slot 2. -/
def briefed : State :=
  { setContext 0 { crew with published := some 0, briefEpoch := 1, fresh := true } tower with
    bcm := { tower.bcm with buffers := tower.bcm.buffers.set 0 [(0, 1), (10, 48), (32, 1)]
                            pool := tower.bcm.pool.set 0 false }
    pbi := { tower.pbi with selectors := tower.pbi.selectors.set 2 (some 0) } }

theorem test_brief_read_clears_fresh :
    let t := after (.briefWindowRead (transfer 2 0x20 32 .two)) briefed
    (termination t, t.cxm.contexts[(0 : Fin 32)].fresh, (t.pbi.response.map (·.data))) =
      (some .done, false, some [1, 0]) := by decide +kernel

theorem test_brief_half_read_keeps_fresh :
    (after (.briefWindowRead (transfer 2 0x20 32 .one)) briefed).cxm.contexts[(0 : Fin 32)].fresh = true := by
  decide +kernel

theorem witness_BriefReadReturnsBuffer :
    let tr := transfer 2 0x20 8176 .burst
    briefed.power = true ∧ briefed.pbi.classes[tr.slot] = .gateway ∧ briefed.pbi.selectors[tr.slot] = some 0 ∧
      briefed.cxm.contexts[(0 : CtxNo)].published = some 0 ∧ tr.bank = 0x20 ∧ tr.lock = false ∧ tr.lockEnd = false ∧
      aligned tr = true ∧ tr.offset.toNat + tr.size.bytes ≤ 8192 := by decide +kernel

theorem witness_CommandSlotWriteTakes :
    let tr := transfer 2 0 0x180 .burst
    (tower.power = true ∧ tower.pbi.classes[tr.slot] ≠ .noClass ∧ tr.bank = 0 ∧
      tr.offset.toNat = 0x0100 + 0x40 * tr.slot.val ∧ tr.size = .burst ∧ tr.lock = false ∧ tr.lockEnd = false) ∧
      (commanded 2 [12] tower).pbi.inFlight[tr.slot] ≠ none ∧ tower.pbi.inFlight[tr.slot] = none ∧
      CommandCode.ofByte 0 = none ∧ CommandCode.ofByte 18 = none ∧ CommandCode.ofByte 1 = some .assignCrew ∧
      CommandCode.assignCrew.permittedClass ≠ tower.pbi.classes[tr.slot] ∧ CommandCode.ofByte 13 = some .markFloor ∧
      CommandCode.markFloor.permittedClass = tower.pbi.classes[tr.slot] := by decide +kernel

theorem witness_AssignCrewAssigns :
    ∃ (s : State) (slot : Slot) (cmd : InFlight) (c : CtxNo) (owner : Slot) (mode : Mode) (floor : Nat),
      Ready s slot .assignCrew cmd ∧ s.requestsSound ∧ (commandByte cmd 1).toNat = c.val ∧ s.psc.valid = true ∧
      s.cxm.contexts[c].assigned = false ∧ (commandByte cmd 6).toNat = owner.val ∧ s.pbi.classes[owner] = .gateway ∧
      commandByte cmd 7 = mode.code ∧ (∀ k : Fin 4, isTextByte (cmd.record[2 + k.val]).toNat = true) ∧
      s.psc.floorOf (commandLabel cmd 8) = .floor floor :=
  ⟨commanded 1 [1, 31, 65, 66, 67, 68, 2, 1, 0, 0, 0, 1, 9, 0, 7, 4] tower, 1,
    command [1, 31, 65, 66, 67, 68, 2, 1, 0, 0, 0, 1, 9, 0, 7, 4], 31, 2, .followFocus, 1,
    ⟨rfl, by decide +kernel, by decide +kernel⟩, tower_requestsSound, by decide +kernel⟩

/-- No label of a record converts, when it converts to no floor. -/
theorem label_unknown {s : State} {cmd : InFlight} {k : Fin 13} (h : s.psc.floorOf (commandLabel cmd k) = .unknown) :
    ¬labelKnown s cmd k := fun ⟨f, hf⟩ => by rw [h] at hf; cases hf

theorem witness_AssignCrewAssigns_refused : ∀ reason,
    reason ∈ [CommandReason.badContext, .noPlan, .contextInUse, .badSlot, .badCommand, .unknownLabel] →
    ∃ (s : State) (slot : Slot) (cmd : InFlight), Ready s slot .assignCrew cmd ∧ FirstFails (assignTable s cmd) reason := by
  have ready : ∀ bytes s, CommandCode.ofByte (commandByte (command bytes) 0) = some .assignCrew → s.power = true →
      Ready (commanded 1 bytes s) 1 .assignCrew (command bytes) := fun bytes s h hp => ⟨hp, by simp [commanded], h⟩
  have nomode : ∀ b : Byte, b ≠ 0 → b ≠ 1 → ¬∃ mode : Mode, b = mode.code := fun b h0 h1 ⟨m, hm⟩ => by
    cases m
    · exact h0 hm
    · exact h1 hm
  intro reason h
  simp only [List.mem_cons, List.not_mem_nil, or_false] at h
  rcases h with rfl | rfl | rfl | rfl | rfl | rfl
  · exact ⟨_, 1, _, ready [1, 32] tower (by decide) rfl, Or.inl ⟨by decide, rfl⟩⟩
  · exact ⟨_, 1, _, ready [1, 31] State.reset (by decide) rfl, Or.inr ⟨by decide, Or.inl ⟨by decide +kernel, rfl⟩⟩⟩
  · exact ⟨_, 1, _, ready [1, 0] crewed (by decide) rfl,
      Or.inr ⟨by decide, Or.inr ⟨by decide +kernel, Or.inl ⟨by decide +kernel, rfl⟩⟩⟩⟩
  · exact ⟨_, 1, _, ready [1, 3, 0, 0, 0, 0, 1] tower (by decide) rfl,
      Or.inr ⟨by decide, Or.inr ⟨by decide +kernel, Or.inr ⟨by decide +kernel, Or.inl ⟨by decide +kernel, rfl⟩⟩⟩⟩⟩
  · exact ⟨_, 1, _, ready [1, 3, 65, 65, 65, 65, 2, 2] tower (by decide) rfl,
      Or.inr ⟨by decide, Or.inr ⟨by decide +kernel, Or.inr ⟨by decide +kernel, Or.inr ⟨⟨2, by decide +kernel⟩,
        Or.inl ⟨fun hm => nomode _ (by decide) (by decide) hm.1, rfl⟩⟩⟩⟩⟩⟩
  · exact ⟨_, 1, _, ready [1, 3, 65, 65, 65, 65, 2, 1, 0, 0, 0, 2] tower (by decide) rfl,
      Or.inr ⟨by decide, Or.inr ⟨by decide +kernel, Or.inr ⟨by decide +kernel, Or.inr ⟨⟨2, by decide +kernel⟩,
        Or.inr ⟨⟨⟨.followFocus, by decide⟩, by decide +kernel⟩, Or.inl ⟨label_unknown (by decide +kernel), rfl⟩⟩⟩⟩⟩⟩⟩

theorem witness_MoveCrewMoves_refused : ∀ reason,
    reason ∈ [CommandReason.badContext, .contextFree, .badCommand, .noPlan, .unknownLabel] →
    ∃ (s : State) (slot : Slot) (cmd : InFlight), Ready s slot .moveCrew cmd ∧
      FirstFails (moveTable s cmd (commandByte cmd 2).toNat) reason := by
  have ready : ∀ bytes s, CommandCode.ofByte (commandByte (command bytes) 0) = some .moveCrew → s.power = true →
      Ready (commanded 1 bytes s) 1 .moveCrew (command bytes) := fun bytes s h hp => ⟨hp, by simp [commanded], h⟩
  intro reason h
  simp only [List.mem_cons, List.not_mem_nil, or_false] at h
  rcases h with rfl | rfl | rfl | rfl | rfl
  · exact ⟨_, 1, _, ready [2, 32] crewed (by decide) rfl, Or.inl ⟨by decide, rfl⟩⟩
  · exact ⟨_, 1, _, ready [2, 1] crewed (by decide) rfl, Or.inr ⟨by decide, Or.inl ⟨by decide +kernel, rfl⟩⟩⟩
  · exact ⟨_, 1, _, ready [2, 0, 8] crewed (by decide) rfl,
      Or.inr ⟨by decide, Or.inr ⟨by decide +kernel, Or.inl ⟨fun hp => absurd hp.1 (by decide), rfl⟩⟩⟩⟩
  · exact ⟨_, 1, _, ready [2, 0, 2] { crewed with psc := State.reset.psc } (by decide) rfl,
      Or.inr ⟨by decide, Or.inr ⟨by decide +kernel, Or.inr ⟨⟨by decide, fun hp => absurd hp (by decide)⟩,
        Or.inl ⟨by decide +kernel, rfl⟩⟩⟩⟩⟩
  · exact ⟨_, 1, _, ready [2, 0, 2, 0, 0, 0, 0, 2] crewed (by decide) rfl,
      Or.inr ⟨by decide, Or.inr ⟨by decide +kernel, Or.inr ⟨⟨by decide, fun hp => absurd hp (by decide)⟩,
        Or.inr ⟨by decide +kernel, Or.inl ⟨fun hp => label_unknown (by decide +kernel) (hp (by decide)), rfl⟩⟩⟩⟩⟩⟩

theorem witness_MoveCrewMoves :
    ∃ (s : State) (slot : Slot) (cmd : InFlight) (c : CtxNo) (mode : Mode) (floor p : Nat),
      Ready s slot .moveCrew cmd ∧ s.requestsSound ∧ (commandByte cmd 1).toNat = c.val ∧
      s.cxm.contexts[c].assigned = true ∧ p = (commandByte cmd 2).toNat ∧ p % 8 ≠ 0 ∧
      (p % 2 = 1 → commandByte cmd 3 = mode.code) ∧
      (p / 2 % 2 = 1 → s.psc.floorOf (commandLabel cmd 4) = .floor floor) :=
  ⟨commanded 1 [2, 0, 7, 1, 0, 0, 0, 0, 3, 4] crewed, 1, command [2, 0, 7, 1, 0, 0, 0, 0, 3, 4], 0, .followFocus, 0, 7,
    ⟨rfl, by decide +kernel, by decide +kernel⟩, crewed_requestsSound, by decide +kernel⟩

theorem witness_WithdrawCrewReleases :
    ∃ (s : State) (slot : Slot) (cmd : InFlight) (c : CtxNo), Ready s slot .withdrawCrew cmd ∧ s.requestsSound ∧
      (commandByte cmd 1).toNat = c.val ∧ s.cxm.contexts[c].assigned = true :=
  ⟨commanded 1 [3, 0] crewed, 1, command [3, 0], 0, ⟨rfl, by decide +kernel, by decide +kernel⟩, crewed_requestsSound,
    by decide +kernel⟩

/-- R31: a withdrawal releases the floor the crew was searching, and tells it the first Console Queue at level 1. -/
theorem test_withdraw_tells :
    let s : State := { crewed with cxm := { crewed.cxm with
      marks := crewed.cxm.marks.set 1 { mark := .searching, context := some 0, time := 0 } } }
    let t := after (.withdrawCrew 1) (commanded 1 [3, 0] s)
    (t.cxm.marks[(1 : Fin 128)].mark, (t.cxm.consoles[(0 : Fin 2)].queue.notices.map fun n => (n.level, n.floor, n.context))) =
      (.unsearched, [(1, .placed 1, some 0)]) := by decide +kernel

theorem witness_WithdrawCrewReleases_refused :
    (Ready (commanded 1 [3, 32] crewed) 1 .withdrawCrew (command [3, 32]) ∧
      FirstFails (numberTable crewed (command [3, 32])) .badContext) ∧
    Ready (commanded 1 [3, 1] crewed) 1 .withdrawCrew (command [3, 1]) ∧
      FirstFails (numberTable crewed (command [3, 1])) .contextFree := by
  refine ⟨⟨?_, Or.inl ⟨by decide, rfl⟩⟩, ?_, Or.inr ⟨by decide, Or.inl ⟨by decide +kernel, rfl⟩⟩⟩ <;>
    · unfold Ready; decide +kernel

/-- The checks of R120 fail for a selector without a context, and for a context that is Free: the refusals of Request Brief,
Take Notice and Set Mask. -/
theorem witness_gatewayTable_refused : ∀ x ∈ [((10 : Byte), CommandCode.requestBrief), (11, .takeNotice), (12, .setMask)],
    ∀ reason, reason ∈ [CommandReason.badContext, .notOwner] →
      ∃ (s : State) (slot : Slot) (cmd : InFlight), Ready s slot x.2 cmd ∧ FirstFails (gatewayTable s slot cmd) reason := by
  have ready : ∀ x ∈ [((10 : Byte), CommandCode.requestBrief), (11, .takeNotice), (12, .setMask)], ∀ selector,
      let cmd : InFlight := { command [x.1] with selector := selector }
      Ready { tower with pbi := { tower.pbi with inFlight := tower.pbi.inFlight.set 2 (some cmd) } } 2 x.2 cmd :=
    fun x hx selector => ⟨rfl, by simp,
      (by decide +kernel : ∀ x ∈ [((10 : Byte), CommandCode.requestBrief), (11, .takeNotice), (12, .setMask)],
        CommandCode.ofByte (commandByte (command [x.1]) 0) = some x.2) x hx⟩
  intro x hx reason h
  simp only [List.mem_cons, List.not_mem_nil, or_false] at h
  rcases h with rfl | rfl
  · exact ⟨_, 2, _, ready x hx none, Or.inl ⟨by simp, rfl⟩⟩
  · exact ⟨_, 2, _, ready x hx (some 0), Or.inr ⟨by simp, Or.inl ⟨fun ⟨c, _, ha, _⟩ =>
      absurd ha ((by decide +kernel : ∀ c : CtxNo, ¬tower.cxm.contexts[c].assigned = true) c), rfl⟩⟩⟩

theorem witness_MasksAreSet :
    (Ready (commanded 2 [12, 255] crewed) 2 .setMask (command [12, 255]) ∧ (command [12, 255]).selector = some 0 ∧
      crewed.cxm.contexts[(0 : CtxNo)].assigned = true ∧ crewed.cxm.contexts[(0 : CtxNo)].owner = some 2) ∧
      Ready (commanded 1 [4, 255] tower) 1 .setConsoleMask (command [4, 255]) ∧
      (command [4, 255]).console = some 0 := by
  unfold Ready; decide +kernel

theorem test_set_mask_is_limited :
    (after (.setMask 2) (commanded 2 [12, 255] crewed)).cxm.contexts[(0 : Fin 32)].mask = 5 := by decide +kernel

/-- The crewed tower with a notice waiting for context 0 and for the first Console Queue. -/
def noticed : State :=
  { crewed with cxm := { crewed.cxm with
      contexts := updateAt crewed.cxm.contexts 0 fun c => { c with queue := { notices := [bare .tableFull 7], overrun := true } }
      consoles := updateAt crewed.cxm.consoles 0 fun c => { c with queue := { notices := [bare .tableFull 7], overrun := true } } } }

theorem test_take_clears_overrun :
    let t := after (.takeNotice 2) (commanded 2 [11] noticed)
    (t.cxm.contexts[(0 : Fin 32)].queue.overrun, (t.pbi.results[(2 : Fin 8)]).returned[(11 : Fin 12)]) = (false, 1) := by
  decide +kernel

theorem witness_TakesRemoveTheHead :
    (Ready (commanded 2 [11] noticed) 2 .takeNotice (command [11]) ∧
      noticed.cxm.contexts[(0 : CtxNo)].assigned = true ∧ noticed.cxm.contexts[(0 : CtxNo)].owner = some 2 ∧
      noticed.cxm.contexts[(0 : CtxNo)].queue.notices = [bare .tableFull 7] ∧
      crewed.cxm.contexts[(0 : CtxNo)].queue.notices = []) ∧
      Ready (commanded 1 [5] noticed) 1 .takeConsoleNotice (command [5]) ∧ (command [5]).console = some 0 ∧
      noticed.cxm.consoles[(0 : Fin 2)].queue.notices = [bare .tableFull 7] ∧
      tower.cxm.consoles[(0 : Fin 2)].queue.notices = [] := by
  unfold Ready; decide +kernel

theorem witness_BriefNowRequestsUrgently :
    Ready (commanded 1 [6, 32] crewed) 1 .briefNow (command [6, 32]) ∧ 31 < (commandByte (command [6, 32]) 1).toNat ∧
      Ready (commanded 1 [6, 31] crewed) 1 .briefNow (command [6, 31]) ∧
      crewed.cxm.contexts[(31 : CtxNo)].assigned = false ∧ crewed.cxm.contexts[(0 : CtxNo)].assigned = true ∧
      (composing (walking .unplaced)).bcm.composing = some 0 ∧ crewed.bcm.composing ≠ some 0 := by
  unfold Ready; decide +kernel

theorem witness_RequestBriefRequestsNormally :
    Ready (commanded 2 [10] crewed) 2 .requestBrief (command [10]) ∧ (command [10]).selector = some 0 ∧
      crewed.cxm.contexts[(0 : CtxNo)].assigned = true ∧ crewed.cxm.contexts[(0 : CtxNo)].owner = some 2 ∧
      crewed.psc.valid = true := by
  unfold Ready; decide +kernel

theorem witness_MarksChange :
    (Ready (commanded 2 [13, 3, 0, 0, 0, 0, 0, 1] crewed) 2 .markFloor (command [13, 3, 0, 0, 0, 0, 0, 1]) ∧
      inRange crewed 0 1 = true ∧ commandByte (command [13, 3, 0, 0, 0, 0, 0, 1]) 1 = Mark.hazard.code ∧
      crewed.psc.floorOf (commandLabel (command [13, 3, 0, 0, 0, 0, 0, 1]) 4) = .floor 1) ∧
      Ready (commanded 1 [8, 0, 0, 0, 0, 0, 0, 0] crewed) 1 .resetMark (command [8, 0, 0, 0, 0, 0, 0, 0]) ∧
      crewed.psc.floorOf (commandLabel (command [8, 0, 0, 0, 0, 0, 0, 0]) 4) = .floor 0 := by
  unfold Ready; decide +kernel

/-- The crewed tower whose floor 1 context 3 is searching. -/
def searched : State :=
  { crewed with cxm := { crewed.cxm with
      marks := crewed.cxm.marks.set 1 { mark := .searching, context := some 3, time := 0 } } }

theorem witness_MarksChange_refused : ∀ reason,
    reason ∈ [CommandReason.badContext, .notOwner, .badCommand, .noPlan, .unknownLabel, .outOfWindow, .floorTaken] →
    ∃ (s : State) (slot : Slot) (cmd : InFlight), Ready s slot .markFloor cmd ∧ FirstFails (markTable s slot cmd) reason := by
  have ready : ∀ (cmd : InFlight) (s : State), CommandCode.ofByte (commandByte cmd 0) = some .markFloor → s.power = true →
      Ready { s with pbi := { s.pbi with inFlight := s.pbi.inFlight.set 2 (some cmd) } } 2 .markFloor cmd :=
    fun cmd s h hp => ⟨hp, by simp, h⟩
  intro reason h
  simp only [List.mem_cons, List.not_mem_nil, or_false] at h
  rcases h with rfl | rfl | rfl | rfl | rfl | rfl | rfl
  · exact ⟨_, 2, _, ready { command [13, 1] with selector := none } crewed (by decide) rfl, Or.inl ⟨by decide, rfl⟩⟩
  · exact ⟨_, 2, _, ready { command [13, 1] with selector := some 1 } crewed (by decide) rfl,
      Or.inr ⟨by decide, Or.inl ⟨by decide +kernel, rfl⟩⟩⟩
  · exact ⟨_, 2, _, ready (command [13, 4]) crewed (by decide) rfl,
      Or.inr ⟨by decide, Or.inr ⟨⟨0, by decide +kernel⟩, Or.inl ⟨by decide, rfl⟩⟩⟩⟩
  · exact ⟨_, 2, _, ready (command [13, 1]) { crewed with psc := State.reset.psc } (by decide) rfl,
      Or.inr ⟨by decide, Or.inr ⟨⟨0, by decide +kernel⟩, Or.inr ⟨by decide, Or.inl ⟨by decide +kernel, rfl⟩⟩⟩⟩⟩
  · exact ⟨_, 2, _, ready (command [13, 1, 0, 0, 0, 0, 0, 2]) crewed (by decide) rfl,
      Or.inr ⟨by decide, Or.inr ⟨⟨0, by decide +kernel⟩, Or.inr ⟨by decide, Or.inr ⟨by decide +kernel,
        Or.inl ⟨label_unknown (by decide +kernel), rfl⟩⟩⟩⟩⟩⟩
  · exact ⟨_, 2, _, ready (command [13, 1, 0, 0, 0, 0, 0, 0]) crewed (by decide) rfl,
      Or.inr ⟨by decide, Or.inr ⟨⟨0, by decide +kernel⟩, Or.inr ⟨by decide, Or.inr ⟨by decide +kernel,
        Or.inr ⟨⟨0, by decide +kernel⟩, Or.inl ⟨fun hw => absurd (hw 0 0 rfl (by decide +kernel)) (by decide +kernel),
          rfl⟩⟩⟩⟩⟩⟩⟩
  · refine ⟨_, 2, _, ready (command [13, 1, 0, 0, 0, 0, 0, 1]) searched (by decide) rfl,
      Or.inr ⟨by decide, Or.inr ⟨⟨0, by decide +kernel⟩, Or.inr ⟨by decide, Or.inr ⟨by decide +kernel,
        Or.inr ⟨⟨1, by decide +kernel⟩, Or.inr ⟨fun c f hc hf => ?_,
          Or.inl ⟨fun hw => absurd (hw 0 1 rfl (by decide +kernel) (by decide) (by decide +kernel)) (by decide +kernel),
            rfl⟩⟩⟩⟩⟩⟩⟩⟩
    have hc' : some (0 : CtxNo) = some c := hc
    have hf' : LabelAnswer.floor 1 = .floor f := Eq.trans (by decide +kernel) hf
    cases hc'; cases hf'
    decide +kernel

theorem witness_MarksChange_resetRefused :
    (Ready (commanded 1 [8] loading) 1 .resetMark (command [8]) ∧
      FirstFails (labelTable loading (command [8]) 4) .noPlan) ∧
    Ready (commanded 1 [8, 0, 0, 0, 0, 0, 0, 2] crewed) 1 .resetMark (command [8, 0, 0, 0, 0, 0, 0, 2]) ∧
      FirstFails (labelTable crewed (command [8, 0, 0, 0, 0, 0, 0, 2]) 4) .unknownLabel := by
  refine ⟨⟨?_, Or.inl ⟨by decide +kernel, rfl⟩⟩, ?_, Or.inr ⟨by decide +kernel, Or.inl
    ⟨label_unknown (by decide +kernel), rfl⟩⟩⟩ <;>
    · unfold Ready; decide +kernel

theorem witness_IncidentClearEmptiesTable :
    (∃ (s : State) (slot : Slot) (cmd : InFlight), Ready s slot .incidentClear cmd ∧
      ∀ (i : EntryNo) (e : Entry), s.ale.places[i].entry = some e → e.phase ≠ .active ∧ e.phase ≠ .acknowledged) ∧
    ∃ (s : State) (slot : Slot) (cmd : InFlight) (i : EntryNo) (e : Entry), Ready s slot .incidentClear cmd ∧
      s.ale.places[i].entry = some e ∧ (e.phase = .active ∨ e.phase = .acknowledged) := by
  refine ⟨⟨commanded 1 [9] (withEntry { fireEntry with phase := .restored } tower), 1, command [9],
    ⟨rfl, by decide +kernel, by decide +kernel⟩, fun i e h => ?_⟩,
    commanded 1 [9] (withEntry fireEntry tower), 1, command [9], 0, fireEntry,
    ⟨rfl, by decide +kernel, by decide +kernel⟩, by decide +kernel, Or.inl rfl⟩
  have h' : (withEntry { fireEntry with phase := .restored } tower).ale.places[i].entry = some e := h
  rw [withEntry_entry] at h'
  split at h'
  · injection h' with h'; subst h'; exact ⟨by decide, by decide⟩
  · cases h'

/-- R88, R99, R149: an Incident Clear abandons a composition in Follow Focus when the focus was not None and requeues it Urgent;
the focus time becomes 0. -/
theorem test_incident_clear_requeues :
    let s := composing { walking .unplaced with mode := .followFocus }
    let t := after (.incidentClear 1) (commanded 1 [9] { s with ale := { s.ale with focus := some 1, focusTime := 7 } })
    (t.bcm.urgent, t.bcm.normal, t.bcm.composing, t.ale.focusTime) = ([0], [], none, 0) := by decide +kernel

theorem witness_IncidentClearEmptiesTable_composing :
    (composing (walking .unplaced)).bcm.composition = some (walking .unplaced) ∧
      (composing (walking .unplaced)).ale.focus = none ∧ (walking .unplaced).phase = .walking ∧
      ({ walking .unplaced with mode := .followFocus } : Composition).mode = .followFocus ∧
      crewed.bcm.composition = none := by decide +kernel

/-- A contact that is Latched Active. -/
def latchedContact : Contact :=
  { kind := .alarmContact, tableCapture := .latched, capture := .latched, accepted := .latchedActive, count := 0
    pending := none }

/-- The tower with line 31 that contact. -/
def latched : State := { tower with lmn := { tower.lmn with contacts := tower.lmn.contacts.set 15 latchedContact } }

theorem test_unlatch_at_rest :
    let c := (after (.unlatchLine 1) (commanded 1 [7, 31] latched)).lmn.contacts[(15 : Fin 16)]
    (c.accepted, c.pending) = (.normal, some .restore) := by decide +kernel

/-- R171: a pending report None shows 255 in a lift record and in the result of Unlatch Line; the line state record's layout
says 0 for it. -/
theorem test_no_pending_report :
    ((liftRecord liftPowerOn)[6]?, (contactBytes unusedContact)[2]?) = (some 0xFF, some 0) ∧
      (let s : State := { latched with lmn := { latched.lmn with samples := latched.lmn.samples.set 31 true } }
       ((after (.unlatchLine 1) (commanded 1 [7, 31] s)).pbi.results[(1 : Fin 8)]).returned[(3 : Fin 12)]) = 0xFF := by
  decide +kernel

theorem witness_UnlatchLineFollowsSample :
    Ready (commanded 1 [7, 31] latched) 1 .unlatchLine (command [7, 31]) ∧
      latched.lmn.contacts[(15 : Fin 16)].kind ≠ .unused ∧
      latched.lmn.contacts[(15 : Fin 16)].accepted = .latchedActive ∧
      latched.lmn.contacts[(0 : Fin 16)].kind = .unused ∧ (commandByte (command [7, 15]) 1).toNat < 16 ∧
      31 < (commandByte (command [7, 32]) 1).toNat := by
  unfold Ready; decide +kernel

theorem witness_LineScanDebounces : ∃ s : State, s.power = true ∧
    s.lmn.contacts[(15 : Fin 16)].kind ≠ .unused ∧ s.lmn.contacts[(15 : Fin 16)].accepted = .latchedActive :=
  ⟨latched, by decide +kernel⟩

theorem witness_LiftFollowsItsLines : ∃ s : State, s.power = true ∧ s.lmn.lifts[(1 : Fin 2)].enabled = true :=
  ⟨{ tower with lmn := { tower.lmn with lifts := tower.lmn.lifts.set 1 { liftPowerOn with enabled := true } } },
    by decide +kernel⟩

theorem witness_CompositionStarts :
    let s : State := { crewed with bcm := { crewed.bcm with normal := [0] } }
    s.power = true ∧ s.bcm.composition = none ∧ (s.bcm.urgent = [] ∧ s.bcm.normal.head? = some 0) ∧
      s.bcm.pool[(0 : BufNo)] = true ∧ (∀ k : BufNo, k < 0 → s.bcm.pool[k] = false) ∧
      s.cxm.contexts[(0 : CtxNo)].assigned = true ∧ s.psc.valid = true := by decide +kernel

theorem witness_WalkStepWritesItems : ∀ pos : WalkPos, ∃ (s : State) (x : Composition), s.power = true ∧
    s.bcm.composition = some x ∧ x.phase = .walking ∧ s.bcm.buffers[x.buffer].wf ∧ x.walk.pos = pos ∧
    x.walk.offset + 24 ≤ 8152 :=
  fun pos => ⟨composing (walking pos), walking pos, rfl, rfl, rfl, (by decide +kernel : crewed.bcm.buffers[(0 : BufNo)].wf),
    rfl, (by decide : 32 + 24 ≤ 8152)⟩

/-- The two-floor plan with a Floor record at 800 for floor 0: its zone list holds the Zone record at 864 of zone 5, its feature
list the Feature record at 896. -/
def floorPlan : Memory :=
  [(28, 2), (37, 4), (77, 2), (78, 0x40), (79, 2), (81, 3), (82, 0x40), (83, 2), (519, 1), (768, 0x20), (769, 3), (770, 0x40),
    (771, 2), (800, 0x11), (812, 0x40), (813, 3), (814, 0x40), (815, 2), (816, 0x50), (817, 3), (818, 0x40), (819, 2),
    (832, 0x12), (834, 1), (836, 0x60), (837, 3), (838, 0x40), (839, 2), (848, 0x12), (849, 1), (850, 1), (852, 0x80),
    (853, 3), (854, 0x40), (855, 2), (864, 0x13), (866, 5), (896, 0x15)]

theorem witness_WalkStepWritesItems_elements :
    let p : Psc := { tower.psc with planSpace := floorPlan }
    (floorFeatures p 0)[0]? = some 896 ∧ (floorZones p 0)[0]? = some 864 ∧ floorPlan.u16 (864 + 2) = 5 ∧
      (floorFeatures p 0)[1]? = none ∧ (floorZones p 0)[1]? = none := by decide +kernel

/-- R171: an absent detection level shows 255 in an Entry item (log 30); R145: an item that would end past 8152 is left out, and
a smaller one after it may still fit. -/
theorem test_items : (entryItem tower 0 fireEntry)[16]? = some 0xFF ∧
    laidDown 8130 [List.replicate 24 1, List.replicate 16 2] = List.replicate 16 2 ∧
    leftOut 8130 [List.replicate 24 1, List.replicate 16 2] = 1 := by decide +kernel

theorem witness_SealPublishes : ∃ (s : State) (x : Composition), s.power = true ∧ s.bcm.composition = some x ∧
    x.phase = .sealing ∧ s.bcm.buffers[x.buffer].wf ∧ 32 ≤ x.walk.offset :=
  ⟨composing { walking .unplaced with phase := .sealing }, { walking .unplaced with phase := .sealing }, rfl, rfl, rfl,
    (by decide +kernel : crewed.bcm.buffers[(0 : BufNo)].wf), (by decide : 32 ≤ 32)⟩

/-! ### A state in the middle of an incident, which meets every law -/

/-- An Active Fire entry on floor 1 that slot 1 holds, rearmed twice; the plan's weights are 0, so it stands at 20. -/
def heldEntry : Entry := { fireEntry with reactivations := 2, standing := 20, holder := some 1 }

/-- A context with a published brief and a notice waiting. -/
def briefedCrew : Context :=
  { crew with
    queue := { notices := [bare .tableFull 7], overrun := true }, published := some 0, briefEpoch := 1, fresh := true }

/-- A lift shown at floor 1. -/
def shownLift : Lift := { liftPowerOn with enabled := true, maxStep := 2, shown := some 1 }

/-- The tower in the middle of an incident, its attention lines not driven yet. -/
def busy : State :=
  { withEntry heldEntry tower with
    pending := [.planStatusRead statusRead]
    rin := { queue := [report .alarm 4] }
    ale := { (withEntry heldEntry tower).ale with
      alarmList := [0], focus := some 1, focusEntry := some 0, holdTimers := tower.ale.holdTimers.set 1 true }
    lmn := { tower.lmn with
      contacts := tower.lmn.contacts.set 15 latchedContact, lifts := tower.lmn.lifts.set 1 shownLift }
    cxm := { tower.cxm with
      contexts := (tower.cxm.contexts.set 0 briefedCrew).set 1 crew
      marks := tower.cxm.marks.set 1 { mark := .searching, context := some 0, time := 3 } }
    bcm := { tower.bcm with
      normal := [0], composition := some { walking (.lift 1) with context := 1, buffer := 1 }
      buffers := tower.bcm.buffers.set 0 [(0, 1), (10, 48), (32, 1)]
      pool := (tower.bcm.pool.set 0 false).set 1 false } }

/-- That state with its attention lines driven. -/
def lively : State := driveAttention busy

theorem lively_steps : ∃ t, step lively = .next t := ⟨_, event_next (busRead statusRead) { lively with pending := [] }⟩

theorem lively_entry (i : EntryNo) : lively.ale.places[i].entry = if i = 0 then some heldEntry else none :=
  withEntry_entry heldEntry i

theorem lively_place {i : EntryNo} {e : Entry} (h : lively.ale.places[i].entry = some e) : i = 0 ∧ e = heldEntry := by
  rw [lively_entry] at h
  split at h
  · exact ⟨‹_›, (Option.some.inj h).symm⟩
  · cases h

theorem lively_memories : lively.memoriesWf :=
  ⟨by decide +kernel, by decide +kernel⟩

theorem lively_attention : lively.attentionTrue := fun _ slot => attention_driveAttention busy slot

theorem lively_plainLaws :
    lively.runNamed ∧ lively.oneLoader ∧ lively.intakeBounded ∧ lively.contactsSound ∧ lively.masksBelowCeilings ∧
      lively.crewsNeedPlan ∧ lively.liftsSound := by
  refine ⟨fun _ h => ?_, fun _ => ?_, ?_, ?_, ?_, fun _ _ => rfl, ?_⟩
  · have h' : PlanState.valid = .validating := h
    cases h'
  · decide +kernel
  · exact (by decide : 1 ≤ 32)
  · unfold State.contactsSound; decide +kernel
  · unfold State.masksBelowCeilings; decide +kernel
  · have h : ∀ k : Fin 2, (lively.lmn.lifts[k].shown = none ∨ lively.lmn.lifts[k].shown = some 1) := by decide +kernel
    refine fun k => ⟨fun _ => rfl, fun f hf => ⟨rfl, ?_⟩⟩
    rcases h k with h | h <;> rw [h] at hf <;> cases hf
    exact (by decide +kernel : 1 < headerFloors planBytes)

theorem lively_marksSound : lively.marksSound := by
  have h : ∀ f : Fin 128, lively.cxm.marks[f] = unsearchedAt 0 ∨
      lively.cxm.marks[f] = { mark := .searching, context := some 0, time := 3 } := by decide +kernel
  intro f
  rcases h f with h | h <;> rw [h]
  · exact ⟨fun h => (by cases h), fun _ => rfl⟩
  · exact ⟨fun _ => ⟨0, rfl, by decide +kernel⟩, fun h => (by cases h)⟩

theorem lively_keysUnique : lively.keysUnique := withEntry_keysUnique heldEntry

theorem lively_holds : lively.holdsSound := by
  have h : ∀ (i : EntryNo) (slot : Slot), holderAt lively i = some slot ↔ i = 0 ∧ slot = 1 := by
    intro i slot
    unfold holderAt
    rw [lively_entry]
    split
    · simp_all [heldEntry, eq_comm]
    · simp_all
  refine ⟨fun i j slot hi hj => ?_, fun i slot hi => ?_, fun slot => ?_⟩
  · exact ((h i slot).1 hi).1.trans ((h j slot).1 hj).1.symm
  · rw [((h i slot).1 hi).2]; decide +kernel
  · have ht : ∀ slot : Slot, lively.ale.holdTimers[slot] = true ↔ slot = 1 := by decide +kernel
    rw [ht slot]
    exact ⟨fun hs => ⟨0, (h 0 slot).2 ⟨rfl, hs⟩⟩, fun ⟨i, hi⟩ => ((h i slot).1 hi).2⟩

theorem lively_standings : lively.standingsTrue := by
  intro i e h
  obtain ⟨rfl, rfl⟩ := lively_place h
  decide +kernel

theorem lively_alarmList : lively.listOrdered := by
  rw [State.listOrdered, show lively.ale.alarmList = [0] from rfl]
  refine ⟨List.nodup_singleton 0, fun i => ?_, List.pairwise_singleton _ _⟩
  rw [lively_entry i, List.mem_singleton]
  split <;> simp_all

theorem lively_focus : lively.focusTrue :=
  Or.inl ⟨[], [], 0, 1, rfl, ⟨heldEntry, lively_entry 0, rfl, Or.inl rfl, rfl⟩, fun j h => (by cases h), rfl, rfl⟩

theorem lively_requests : lively.requestsSound ∧ lively.freeIsBlank := by
  refine ⟨⟨by decide +kernel, by decide +kernel, fun x h => ?_⟩, by unfold State.freeIsBlank; decide +kernel⟩
  have h' : some { walking (.lift 1) with context := 1, buffer := 1 } = some x := h
  cases h'
  decide +kernel

theorem lively_queues : lively.queuesSound := by
  have hc : ∀ c : CtxNo, lively.cxm.contexts[c].queue = emptyQueue ∨ lively.cxm.contexts[c].queue = briefedCrew.queue := by
    decide +kernel
  have hq : ∀ q : Fin 2, lively.cxm.consoles[q].queue = emptyQueue := by decide +kernel
  have he : ∀ n, emptyQueue.sound n := fun n => ⟨Nat.zero_le n, List.Pairwise.nil, fun h => (by cases h)⟩
  refine ⟨fun c => ?_, fun q => by rw [hq q]; exact he _⟩
  rcases hc c with h | h <;> rw [h]
  · exact he _
  · exact ⟨by decide, List.pairwise_singleton _ _, fun _ h => (by cases h)⟩

theorem lively_buffers : lively.buffersPlaced := by
  unfold State.buffersPlaced; decide +kernel

theorem lively_briefs : lively.briefFits ∧ lively.briefsWhole := by
  refine ⟨fun x h => ?_, fun c b h => ?_⟩
  · have h' : some { walking (.lift 1) with context := 1, buffer := 1 } = some x := h
    cases h'
    decide
  · have hp : ∀ c : CtxNo, lively.cxm.contexts[c].published = (if c = 0 then some 0 else none) := by decide +kernel
    rw [hp c] at h
    split at h
    · cases h; subst c; decide +kernel
    · cases h

/-! Each law with the step that the statements take. -/

theorem witness_StepKeepsMemories : lively.memoriesWf ∧ ∃ t, step lively = .next t := ⟨lively_memories, lively_steps⟩

theorem witness_StepKeepsAttention : lively.attentionTrue ∧ ∃ t, step lively = .next t := ⟨lively_attention, lively_steps⟩

theorem witness_StepKeepsHolds : lively.holdsSound ∧ ∃ t, step lively = .next t := ⟨lively_holds, lively_steps⟩

theorem witness_StepKeepsStandings : lively.standingsTrue ∧ ∃ t, step lively = .next t := ⟨lively_standings, lively_steps⟩

theorem witness_StepKeepsAlarmList : lively.listOrdered ∧ ∃ t, step lively = .next t := ⟨lively_alarmList, lively_steps⟩

theorem witness_StepKeepsFocus : lively.focusTrue ∧ ∃ t, step lively = .next t := ⟨lively_focus, lively_steps⟩

theorem witness_StepKeepsRequests : (lively.requestsSound ∧ lively.freeIsBlank) ∧ ∃ t, step lively = .next t := ⟨lively_requests, lively_steps⟩

theorem witness_StepKeepsQueues : lively.queuesSound ∧ ∃ t, step lively = .next t := ⟨lively_queues, lively_steps⟩

theorem witness_StepKeepsBuffers : lively.buffersPlaced ∧ ∃ t, step lively = .next t := ⟨lively_buffers, lively_steps⟩

theorem witness_StepKeepsPlainLaws :
    (lively.runNamed ∧ lively.oneLoader ∧ lively.intakeBounded ∧ lively.contactsSound ∧ lively.masksBelowCeilings ∧
      lively.crewsNeedPlan ∧ lively.liftsSound) ∧ lively.marksSound ∧ lively.keysUnique ∧ ∃ t, step lively = .next t :=
  ⟨lively_plainLaws, lively_marksSound, lively_keysUnique, lively_steps⟩

theorem witness_StepKeepsBriefs : lively.memoriesWf ∧ lively.buffersPlaced ∧ (lively.briefFits ∧ lively.briefsWhole) ∧
    ∃ t, step lively = .next t :=
  ⟨lively_memories, lively_buffers, lively_briefs, lively_steps⟩

end Sys2Proof.Tests
end

section
/-!
SUPPORT. Which operations keep the plan store's record (R1, R34), and which transfers reach plan space (R2, R170).
-/

namespace Sys2Proof.Machine

/-! ### Events and completions -/

/-- What the effect of an event leaves of the plan store, the event leaves. -/
theorem event_psc {α : Type} (get : Psc → α) {f : State → State} {s t : State} (hf : get (f s).psc = get s.psc)
    (h : event f s = .next t) : get t.psc = get s.psc := by
  rw [event_next] at h
  injection h with h
  subst h
  split
  · exact hf
  · rfl

/-- What the body of a command leaves of the plan store, its completion leaves. -/
theorem carryOut_psc {α : Type} (get : Psc → α) (slot : Slot) (code : CommandCode)
    {body : InFlight → State → State × CommandOutcome} {s : State} (hb : ∀ cmd, get (body cmd s).1.psc = get s.psc) :
    get (carryOut slot code body s).psc = get s.psc := by
  rcases carryOut_cases slot code body s with ⟨cmd, -, -, h⟩ | h
  · rw [h, completeCommand_psc, hb]
  · rw [h]

/-- An event that completes a command whose body keeps a part of the plan store keeps it. -/
theorem event_carryOut_psc {α : Type} (get : Psc → α) {slot : Slot} {code : CommandCode}
    {body : InFlight → State → State × CommandOutcome} {s t : State} (hb : ∀ cmd, get (body cmd s).1.psc = get s.psc)
    (h : event (carryOut slot code body) s = .next t) : get t.psc = get s.psc :=
  event_psc get (carryOut_psc get slot code hb) h

/-- What every step of a run keeps, the run keeps. -/
theorem foldl_keeps {σ ι α : Type} (get : σ → α) {step : σ → ι → σ} (h : ∀ s k, get (step s k) = get s)
    (l : List ι) (s : σ) : get (l.foldl step s) = get s := by
  induction l generalizing s with
  | nil => rfl
  | cons k l ih => exact (ih (step s k)).trans (h s k)

/-! ### Bodies of the commands that leave the plan store as it stands -/

theorem markFloorBody_psc (slot : Slot) (cmd : InFlight) (s : State) : (markFloorBody slot cmd s).1.psc = s.psc := by
  unfold markFloorBody
  split
  · rfl
  · simp only; split <;> simp

theorem resetMarkBody_psc (cmd : InFlight) (s : State) : (resetMarkBody cmd s).1.psc = s.psc := by
  unfold resetMarkBody
  split
  · rfl
  · simp only; split <;> simp

theorem assignCrewBody_psc (cmd : InFlight) (s : State) : (assignCrewBody cmd s).1.psc = s.psc := by
  unfold assignCrewBody; split <;> simp

theorem moveCrewBody_psc (cmd : InFlight) (s : State) : (moveCrewBody cmd s).1.psc = s.psc := by
  unfold moveCrewBody; split <;> simp

@[simp] theorem dropFromComposer_psc (c : CtxNo) (s : State) : (dropFromComposer c s).psc = s.psc := by
  unfold dropFromComposer; simp only; split <;> simp

@[simp] theorem returnPublished_psc (c : CtxNo) (s : State) : (returnPublished c s).psc = s.psc := by
  unfold returnPublished; split <;> rfl

@[simp] theorem release_psc (c : CtxNo) (s : State) : (release c s).psc = s.psc := by
  unfold release
  rw [foldl_keeps (fun u : State => u.psc) fun s f => unmark_psc f s]
  simp

theorem withdrawCrewBody_psc (cmd : InFlight) (s : State) : (withdrawCrewBody cmd s).1.psc = s.psc := by
  unfold withdrawCrewBody; split <;> simp

theorem setConsoleMaskBody_psc (cmd : InFlight) (s : State) : (setConsoleMaskBody cmd s).1.psc = s.psc := by
  unfold setConsoleMaskBody; simp only; split <;> rfl

theorem takeConsoleNoticeBody_psc (cmd : InFlight) (s : State) : (takeConsoleNoticeBody cmd s).1.psc = s.psc := by
  unfold takeConsoleNoticeBody
  split
  · rfl
  · split <;> rfl

theorem takeNoticeBody_psc (slot : Slot) (cmd : InFlight) (s : State) : (takeNoticeBody slot cmd s).1.psc = s.psc := by
  unfold takeNoticeBody
  split
  · rfl
  · split <;> rfl

theorem setMaskBody_psc (slot : Slot) (cmd : InFlight) (s : State) : (setMaskBody slot cmd s).1.psc = s.psc := by
  unfold setMaskBody; split <;> rfl

theorem requestBriefBody_psc (slot : Slot) (cmd : InFlight) (s : State) :
    (requestBriefBody slot cmd s).1.psc = s.psc := by
  unfold requestBriefBody
  split
  · rfl
  · split <;> simp

theorem briefNowBody_psc (cmd : InFlight) (s : State) : (briefNowBody cmd s).1.psc = s.psc := by
  unfold briefNowBody; split <;> simp

theorem unlatchLineBody_psc (cmd : InFlight) (s : State) : (unlatchLineBody cmd s).1.psc = s.psc := by
  unfold unlatchLineBody
  split
  · rfl
  · simp only
    split
    · rfl
    · split <;> rfl

@[simp] theorem clearComposition_psc (b : Bool) (s : State) : (clearComposition b s).psc = s.psc := by
  unfold clearComposition
  split
  · simp
  · split <;> simp

theorem incidentClearBody_psc (cmd : InFlight) (s : State) : (incidentClearBody cmd s).1.psc = s.psc := by
  unfold incidentClearBody; split <;> simp

/-! ### The Loader's commands and the run: what they leave of plan space -/

@[simp] theorem leaveValid_psc (before : Ale) (s : State) : (leaveValid before s).psc = s.psc := by
  unfold leaveValid; simp

/-- Begin Load keeps the bytes of plan space (R35). -/
theorem beginLoadBody_planSpace (cmd : InFlight) (s : State) :
    (beginLoadBody cmd s).1.psc.planSpace = s.psc.planSpace := by
  unfold beginLoadBody
  split
  · rfl
  · simp only; split <;> simp

theorem commitPlanBody_planSpace (cmd : InFlight) (s : State) :
    (commitPlanBody cmd s).1.psc.planSpace = s.psc.planSpace := by
  unfold commitPlanBody; split <;> rfl

theorem abortLoadBody_planSpace (cmd : InFlight) (s : State) :
    (abortLoadBody cmd s).1.psc.planSpace = s.psc.planSpace := by
  unfold abortLoadBody; split <;> rfl

theorem endInvalid_planSpace (f : PlanFailure) (s : State) : (endInvalid f s).psc.planSpace = s.psc.planSpace := by
  unfold endInvalid; simp only; split <;> simp

theorem becomeValid_planSpace (zones : List ZonePlace) (s : State) :
    (becomeValid zones s).psc.planSpace = s.psc.planSpace := by
  unfold becomeValid; simp

/-- A validation stage reads plan space and leaves it (R42). -/
theorem completeStage_planSpace (s : State) : (completeStage s).psc.planSpace = s.psc.planSpace := by
  unfold completeStage
  split
  · exact endInvalid_planSpace _ s
  · split
    · exact becomeValid_planSpace _ s
    · rfl

/-- Power-on keeps the bytes of plan space (R40, R44). -/
@[simp] theorem pscPowerOn_planSpace (p : Psc) : (pscPowerOn p).planSpace = p.planSpace := by
  unfold pscPowerOn; simp only; split <;> rfl

/-! ### Reports, scans and compositions -/

@[simp] theorem gapOnly_psc (gap : Option PanelNo) (s : State) : (gapOnly gap s).psc = s.psc := by
  unfold gapOnly; simp

@[simp] theorem activateNew_psc (before : Ale) (gap : Option PanelNo) (r : Report) (s : State) :
    (activateNew before gap r s).psc = s.psc := by
  unfold activateNew
  simp only
  split
  · simp
  · split <;> simp

@[simp] theorem processReport_psc (before : Ale) (gap : Option PanelNo) (r : Report) (s : State) :
    (processReport before gap r s).psc = s.psc := by
  unfold processReport
  split
  · split <;> simp
  · split
    · simp
    · split <;> simp

@[simp] theorem panelReset_psc (before : Ale) (p : PanelNo) (sequence : Byte) (s : State) :
    (panelReset before p sequence s).psc = s.psc := by
  unfold panelReset; simp only; split <;> simp

@[simp] theorem takeReport_psc (r : Report) (s : State) : (takeReport r s).psc = s.psc := by
  unfold takeReport
  split
  · split <;> simp
  · split <;> simp

@[simp] theorem offerPending_psc (r : Report) (clear : Lmn → Lmn) (s : State) : (offerPending r clear s).psc = s.psc := by
  unfold offerPending; split <;> rfl

@[simp] theorem offerLift_psc (s : State) (k : Fin 2) : (offerLift s k).psc = s.psc := by
  unfold offerLift; split <;> simp

@[simp] theorem offerContact_psc (s : State) (k : Fin 16) : (offerContact s k).psc = s.psc := by
  unfold offerContact; split <;> simp

@[simp] theorem offerReports_psc (s : State) : (offerReports s).psc = s.psc := by
  unfold offerReports
  rw [foldl_keeps (fun u : State => u.psc) offerContact_psc, foldl_keeps (fun u : State => u.psc) offerLift_psc]

@[simp] theorem startComposition_psc (s : State) : (startComposition s).psc = s.psc := by
  unfold startComposition
  split
  · split <;> rfl
  · rfl

@[simp] theorem writeItem_psc (c : Composition) (bytes : List Byte) (sw : State × Walk) :
    (writeItem c bytes sw).1.psc = sw.1.psc := rfl

@[simp] theorem putItem_psc (c : Composition) (bytes : List Byte) (sw : State × Walk) :
    (putItem c bytes sw).1.psc = sw.1.psc := by
  unfold putItem; split <;> rfl

@[simp] theorem putEntries_psc (c : Composition) (floor : Nat) (es : List (EntryNo × Entry)) (sw : State × Walk) :
    (putEntries c floor es sw).1.psc = sw.1.psc := by
  unfold putEntries
  rw [foldl_keeps (fun u : State × Walk => u.1.psc)]
  exact fun _ _ => putItem_psc c _ _

@[simp] theorem walkStep_psc (c : Composition) (s : State) : (walkStep c s).psc = s.psc := by
  unfold walkStep
  cases c.walk.pos with
  | floorHead f => simp
  | feature f j => cases hj : (floorFeatures s.psc f)[j]? <;> simp [hj]
  | zone f j => cases hj : (floorZones s.psc f)[j]? <;> simp [hj]
  | lift k => simp
  | unplaced => simp

@[simp] theorem sealBrief_psc (c : Composition) (s : State) : (sealBrief c s).psc = s.psc := by
  unfold sealBrief; simp only; split <;> simp

/-! ### Transfers -/

/-- An owner's answer to a read leaves the plan store as it stands. -/
theorem ownerRead_psc (t : Transfer) (p : BusPlace) (off n : Nat) (s : State) :
    (ownerRead t p off n s).state.psc = s.psc := by
  cases p with
  | planStatus => simp only [ownerRead, planStatusAnswer, readFrom]; split <;> rfl
  | entry i =>
    simp only [ownerRead]
    split
    · unfold lockedEntryRead
      split
      · rfl
      · split
        · rfl
        · split <;> rfl
    · unfold plainEntryRead; split <;> rfl
  | contextRecord => simp only [ownerRead, contextWindowRead]; split <;> rfl
  | briefWindow =>
    simp only [ownerRead, briefRead]
    split
    · rfl
    · split
      · rfl
      · simp only; split <;> rfl
  | planSpace bank => simp only [ownerRead, planSpaceRead]; split <;> rfl
  | _ => rfl

/-- A read leaves the plan store as it stands. -/
theorem busRead_psc (t : Transfer) (s : State) : (busRead t s).psc = s.psc := by
  cases h : judge t false s with
  | none => rw [busRead_none h, answer_psc]
  | some p => rw [busRead_some h, answer_psc, ownerRead_psc]

theorem entryWrite_psc (t : Transfer) (i : EntryNo) (off : Nat) (data : List Byte) (s : State) :
    (entryWrite t i off data s).state.psc = s.psc := by
  unfold entryWrite
  split
  · rfl
  · split
    · split
      · unfold actionWrite
        split
        · rfl
        · simp
      · rfl
    · rfl

theorem commandAnswer_psc (slot : Slot) (data : List Byte) (s : State) :
    (commandAnswer slot data s).state.psc = s.psc := by
  unfold commandAnswer
  split
  · rfl
  · simp only; split <;> rfl

theorem selectorWrite_psc (slot : Slot) (b : Byte) (s : State) : (selectorWrite slot b s).state.psc = s.psc := by
  unfold selectorWrite
  split
  · rfl
  · split <;> rfl

theorem intakeAnswer_psc (t : Transfer) (data : List Byte) (s : State) : (intakeAnswer t data s).state.psc = s.psc := by
  unfold intakeAnswer; split <;> rfl

/-- The owner of any place but a bank of plan space leaves the plan store as it stands. -/
theorem ownerWrite_psc {p : BusPlace} (hp : ∀ bank, p ≠ .planSpace bank) (t : Transfer) (off : Nat) (data : List Byte)
    (s : State) : (ownerWrite t p off data s).state.psc = s.psc := by
  cases p with
  | planSpace bank => exact absurd rfl (hp bank)
  | entry i => exact entryWrite_psc t i off data s
  | commandSlot k => exact commandAnswer_psc k data s
  | selector k => exact selectorWrite_psc k _ s
  | intake => exact intakeAnswer_psc t data s
  | _ => rfl

/-- Everything a write to plan space can do (R2): store the bytes for the Loader while Loading, or answer Fault. -/
theorem planSpaceStore_cases (t : Transfer) (bank : Fin 32) (off : Nat) (data : List Byte) (s : State) :
    ((s.psc.state = .loading ∧ s.pbi.classes[t.slot] = .loader) ∧
      planSpaceStore t bank off data s =
        { termination := .done
          state := { s with psc.planSpace := s.psc.planSpace.writeAll (65536 * bank.val + off) data } }) ∨
    (¬(s.psc.state = .loading ∧ s.pbi.classes[t.slot] = .loader) ∧
      planSpaceStore t bank off data s = refuseWrite .fault s) := by
  unfold planSpaceStore slotClass
  by_cases h : s.psc.state = .loading ∧ s.pbi.classes[t.slot] = .loader
  · exact Or.inl ⟨h, if_pos h.symm⟩
  · exact Or.inr ⟨h, if_neg fun h' => h h'.symm⟩

theorem ownerWrite_planSpace (t : Transfer) (bank : Fin 32) (off : Nat) (data : List Byte) (s : State) :
    ownerWrite t (.planSpace bank) off data s = planSpaceStore t bank off data s := rfl

/-- A bank that holds plan space is one of banks 0x40 to 0x5F (R170). -/
theorem mem_bankPlaces_planSpace {bank off : Nat} {b : Fin 32} (h : .planSpace b ∈ bankPlaces bank off) :
    bank = 0x40 + b.val := by
  unfold bankPlaces at h
  split at h
  · simp at h
  · split at h
    · simp at h
    · split at h
      · split at h <;> simp at h
      · split at h
        · simp at h
        · split at h
          · simp at h
          · split at h
            · rename_i hb
              simp only [List.mem_singleton, BusPlace.planSpace.injEq] at h
              subst h
              simp only
              omega
            · simp at h

/-- Everything a write transfer can do to the plan store: nothing, or a Loader's store into one of the banks of plan space
while Loading (R2). -/
theorem busWrite_psc_cases (t : Transfer) (data : List Byte) (s : State) :
    (busWrite t data s).psc = s.psc ∨
    (s.psc.state = .loading ∧ s.pbi.classes[t.slot] = .loader ∧ 0x40 ≤ t.bank.toNat ∧ t.bank.toNat ≤ 0x5F) := by
  cases h : judge t true s with
  | none => exact Or.inl (by rw [busWrite_none h, answer_psc])
  | some p =>
    rw [busWrite_some h, answer_psc]
    by_cases hp : ∃ bank, p = .planSpace bank
    · obtain ⟨bank, rfl⟩ := hp
      rcases planSpaceStore_cases t bank (t.offset.toNat - BusPlace.start (.planSpace bank))
          (slice data 0 (movedBytes t (.planSpace bank))) s with ⟨⟨hl, hc⟩, -⟩ | ⟨-, hr⟩
      · obtain ⟨-, hloc, -, -, -⟩ := judge_some h
        have hbank := mem_bankPlaces_planSpace (List.mem_of_find?_eq_some hloc)
        exact Or.inr ⟨hl, hc, by omega⟩
      · exact Or.inl (by rw [ownerWrite_planSpace, hr]; rfl)
    · exact Or.inl (ownerWrite_psc (fun bank hb => hp ⟨bank, hb⟩) t _ _ s)

/-- The write that carries an entry action goes to the Live bank, and leaves the plan store as it stands (R71, R170). -/
theorem busWrite_actionTransfer_psc (slot : Slot) (entry : EntryNo) (data : List Byte) (s : State) :
    (busWrite (actionTransfer slot entry) data s).psc = s.psc := by
  rcases busWrite_psc_cases (actionTransfer slot entry) data s with h | ⟨-, -, hlow, -⟩
  · exact h
  · exact absurd hlow (by simp [actionTransfer])

end Sys2Proof.Machine
end

section
/-!
SUPPORT. Plan pointers that resolve (R9), and where a transfer to a bank of plan space goes (R2, R160, R170).
-/

namespace Sys2Proof.Machine

/-! ### Plan pointers -/

/-- Everything that steps 3 to 8 of R9 have tested of a record that they find. -/
theorem resolveIn_found {m : Memory} {field : PointerField} {bank offset loc : Nat}
    (h : resolveIn m field bank offset = .found loc) :
    (0x40 ≤ bank ∧ bank ≤ 0x5F) ∧ offset % 4 = 0 ∧ loc = (bank - 0x40) * 65536 + offset ∧ loc + 4 ≤ headerLength m ∧
      kindMatches m loc field = true ∧ (field ≠ .deviceIndex → offset + recordLength m loc field ≤ 65536) ∧
      loc + recordLength m loc field ≤ headerLength m := by
  unfold resolveIn at h
  split at h
  · cases h
  · rename_i hbank
    split at h
    · cases h
    · rename_i haligned
      simp only at h
      split at h
      · cases h
      · rename_i hfirst
        split at h
        · cases h
        · rename_i hkind
          split at h
          · cases h
          · rename_i hcross
            split at h
            · cases h
            · rename_i hlast
              injection h with h
              subst h
              refine ⟨by omega, by omega, rfl, by omega, by simpa using hkind, fun hf => ?_, by omega⟩
              exact Nat.le_of_not_lt fun hlong => hcross ⟨hf, hlong⟩

/-- A pointer that resolves is Near where the field allows it, against the field's default bank, or Far, against its own
(R7, R9). -/
theorem resolve_found {m : Memory} {field : PointerField} {p : PlanPointer} {loc : Nat}
    (h : resolve m field p = .found loc) :
    (p.form = 1 ∧ field.nearAllowed = true ∧ resolveIn m field (m.u8 (52 + field.defaultBank)) p.offset = .found loc) ∨
    (p.form = 2 ∧ resolveIn m field p.bank p.offset = .found loc) := by
  unfold resolve at h
  split at h
  · cases h
  · split at h
    · split at h <;> cases h
    · split at h
      · split at h
        · exact Or.inl ⟨‹_›, ‹_›, h⟩
        · cases h
      · exact Or.inr ⟨by omega, h⟩

/-! ### Transfers to plan space -/

/-- The one place of a bank of plan space (R170). -/
theorem bankPlaces_planSpace (b : Fin 32) (off : Nat) : bankPlaces (0x40 + b.val) off = [.planSpace b] := by
  have hb := b.isLt
  unfold bankPlaces
  rw [if_neg (by omega), if_neg (by omega), if_neg (by omega), if_neg (by omega), if_neg (by omega),
    dif_pos (by omega)]
  simp

/-- What a place of plan space covers: the bytes of its bank. -/
theorem planSpace_covers (b : Fin 32) (off n : Nat) :
    (BusPlace.planSpace b).covers off n = decide (off + n ≤ 65536) := by
  simp [BusPlace.covers, BusPlace.start, BusPlace.bytes]

/-- A transfer to a bank of plan space is located there, when it stays within the bank. -/
theorem locate_planSpace (b : Fin 32) (off n : Nat) :
    locate (0x40 + b.val) off n = if off + n ≤ 65536 then some (.planSpace b) else none := by
  unfold locate
  rw [bankPlaces_planSpace, List.find?_singleton, planSpace_covers]
  simp

/-- Plan space carries every burst as one (R160). -/
theorem inhibited_planSpace (t : Transfer) (b : Fin 32) : inhibited t (.planSpace b) = false := by
  cases h : t.size <;> simp [inhibited, carriedAsOne, h]

theorem movedBytes_planSpace (t : Transfer) (b : Fin 32) : movedBytes t (.planSpace b) = t.size.bytes := by
  simp [movedBytes, inhibited_planSpace]

theorem singleBytes_le_bytes (t : Transfer) : singleBytes t ≤ t.size.bytes := by
  cases h : t.size <;> simp [singleBytes, Size.bytes, h]

/-- A slice as long as the record is the record. -/
theorem slice_whole {n : Nat} {record : List Byte} (h : record.length = n) : slice record 0 n = record := by
  refine List.ext_getElem (by simp [h]) fun i h1 h2 => ?_
  simp [slice, List.getElem?_eq_getElem h2]

/-- A transfer of the Loader to plan space that keeps the rules of R2, R160 and R161 passes every step of R158. -/
theorem judge_planSpace {t : Transfer} {s : State} {b : Fin 32} (hc : s.pbi.classes[t.slot] = .loader)
    (hb : t.bank.toNat = 0x40 + b.val) (hl : t.lock = false) (he : t.lockEnd = false) (ha : aligned t = true)
    (hfit : t.offset.toNat + t.size.bytes ≤ 65536) : judge t true s = some (.planSpace b) := by
  have hloc : locate t.bank.toNat t.offset.toNat (singleBytes t) = some (.planSpace b) := by
    rw [hb, locate_planSpace, if_pos (le_trans (Nat.add_le_add_left (singleBytes_le_bytes t) _) hfit)]
  have hclass : slotClass s t.slot = .loader := hc
  have hshape : shapeAllowed t (.planSpace b) = true := by
    simp [shapeAllowed, ha, planSpace_covers, movedBytes_planSpace, hfit]
  unfold judge
  rw [hclass, if_neg (by decide), hloc]
  simp [hshape, accessAllowed, locksAllowed, hl, he]

/-- A write to plan space that the steps of R158 pass stores its bytes for the Loader while Loading (R2). -/
theorem busWrite_planSpace_stores {t : Transfer} {data : List Byte} {s : State} {b : Fin 32}
    (hj : judge t true s = some (.planSpace b)) (hs : s.psc.state = .loading) (hc : s.pbi.classes[t.slot] = .loader)
    (hd : data.length = t.size.bytes) :
    busWrite t data s = answer t .done false []
      { s with psc.planSpace := s.psc.planSpace.writeAll (65536 * b.val + t.offset.toNat) data } := by
  rcases planSpaceStore_cases t b t.offset.toNat data s with ⟨-, h⟩ | ⟨hn, -⟩
  · rw [busWrite_some hj, movedBytes_planSpace, slice_whole hd, ownerWrite_planSpace, inhibited_planSpace,
      show t.offset.toNat - (BusPlace.planSpace b).start = t.offset.toNat from rfl, h]
    rfl
  · exact absurd ⟨hs, hc⟩ hn

/-- Any other write to plan space stores nothing and is answered with Fault (R2). -/
theorem busWrite_planSpace_refused {t : Transfer} {s : State} (b : Fin 32) (data : List Byte)
    (hb : t.bank.toNat = 0x40 + b.val) (hn : ¬(s.psc.state = .loading ∧ s.pbi.classes[t.slot] = .loader)) :
    busWrite t data s = answer t .fault false [] s := by
  cases h : judge t true s with
  | none => exact busWrite_none h
  | some p =>
    obtain ⟨-, hloc, -, -, -⟩ := judge_some h
    rw [hb, locate_planSpace] at hloc
    split at hloc
    · injection hloc with hp
      subst hp
      rcases planSpaceStore_cases t b (t.offset.toNat - (BusPlace.planSpace b).start)
          (slice data 0 (movedBytes t (.planSpace b))) s with ⟨hy, -⟩ | ⟨-, hr⟩
      · exact absurd hy hn
      · rw [busWrite_some h, ownerWrite_planSpace, hr, inhibited_planSpace]
        rfl
    · cases hloc

/-- An event while the part has power takes its effect, and the attention lines are driven with it (R167). -/
theorem event_powered_next {f : State → State} {s : State} (hp : s.power = true) :
    event f s = .next (driveAttention (f s)) := by
  rw [event_next, if_pos hp]

/-! ### Plan space as a whole -/

/-- A change of plan space by the event of a write is a store of the Loader while Loading (R2). -/
theorem event_busWrite_changes {tr : Transfer} {data : List Byte} {s t : State} (h : event (busWrite tr data) s = .next t)
    (hne : t.psc.planSpace ≠ s.psc.planSpace) :
    s.psc.state = .loading ∧ s.pbi.classes[tr.slot] = .loader ∧ 0x40 ≤ tr.bank.toNat ∧ tr.bank.toNat ≤ 0x5F := by
  rcases busWrite_psc_cases tr data s with hk | hw
  · exact absurd (event_psc (·.planSpace) (congrArg Psc.planSpace hk) h) hne
  · exact hw

/-- The event of a read leaves plan space as it stands. -/
theorem planSpace_event_read {tr : Transfer} {s t : State} (h : event (busRead tr) s = .next t) :
    t.psc.planSpace = s.psc.planSpace :=
  event_psc (·.planSpace) (congrArg Psc.planSpace (busRead_psc tr s)) h

/-- An entry action leaves plan space as it stands. -/
theorem planSpace_event_action {slot : Slot} {entry : EntryNo} {data : List Byte} {s t : State}
    (h : event (busWrite (actionTransfer slot entry) data) s = .next t) : t.psc.planSpace = s.psc.planSpace :=
  event_psc (·.planSpace) (congrArg Psc.planSpace (busWrite_actionTransfer_psc slot entry data s)) h

/-- The completion of a command whose body leaves the plan store as it stands leaves plan space. -/
theorem planSpace_event_command {slot : Slot} {code : CommandCode} {body : InFlight → State → State × CommandOutcome}
    {s t : State} (hb : ∀ cmd, (body cmd s).1.psc = s.psc) (h : event (carryOut slot code body) s = .next t) :
    t.psc.planSpace = s.psc.planSpace :=
  event_carryOut_psc (·.planSpace) (fun cmd => congrArg Psc.planSpace (hb cmd)) h

/-- An event whose effect leaves the plan store as it stands leaves plan space. -/
theorem planSpace_event_effect {f : State → State} {s t : State} (hf : (f s).psc = s.psc) (h : event f s = .next t) :
    t.psc.planSpace = s.psc.planSpace :=
  event_psc (·.planSpace) (congrArg Psc.planSpace hf) h

theorem execBusReset_planSpace {s t : State} (h : execBusReset s = .next t) : t.psc.planSpace = s.psc.planSpace :=
  planSpace_event_effect (f := busResetState) rfl h

theorem execValidationStage_planSpace {s t : State} (h : execValidationStage s = .next t) :
    t.psc.planSpace = s.psc.planSpace := by
  refine event_psc (·.planSpace) ?_ h
  split
  · exact completeStage_planSpace s
  · rfl

theorem execReportTake_planSpace {s t : State} (h : execReportTake s = .next t) :
    t.psc.planSpace = s.psc.planSpace := by
  refine planSpace_event_effect ?_ h
  split
  · rfl
  · split
    · rfl
    · exact takeReport_psc _ _

theorem execHoldExpiry_planSpace {slot : Slot} {s t : State} (h : execHoldExpiry slot s = .next t) :
    t.psc.planSpace = s.psc.planSpace := by
  refine planSpace_event_effect ?_ h
  split <;> rfl

theorem execIncidentClockTick_planSpace {s t : State} (h : execIncidentClockTick s = .next t) :
    t.psc.planSpace = s.psc.planSpace := by
  refine planSpace_event_effect ?_ h
  rfl

theorem execLineScan_planSpace {levels : BitVec 32} {s t : State} (h : execLineScan levels s = .next t) :
    t.psc.planSpace = s.psc.planSpace := by
  refine planSpace_event_effect ?_ h
  rw [offerReports_psc]

theorem execCompositionStart_planSpace {s t : State} (h : execCompositionStart s = .next t) :
    t.psc.planSpace = s.psc.planSpace :=
  planSpace_event_effect (startComposition_psc s) h

theorem execWalkStep_planSpace {s t : State} (h : execWalkStep s = .next t) :
    t.psc.planSpace = s.psc.planSpace := by
  refine planSpace_event_effect ?_ h
  split
  · rfl
  · split
    · exact walkStep_psc _ s
    · rfl

theorem execSeal_planSpace {s t : State} (h : execSeal s = .next t) : t.psc.planSpace = s.psc.planSpace := by
  refine planSpace_event_effect ?_ h
  split
  · rfl
  · split
    · exact sealBrief_psc _ s
    · rfl

end Sys2Proof.Machine
end

section
/-!
SUPPORT. The values that the machine holds after reset, block by block.
-/

namespace Sys2Proof.Machine

/-- The Alarm Engine after power-on (R75, R78, R87, R90, R99): every place, roll-up count and panel record at its first
value. -/
theorem alePowerOn_values :
    (∀ i : EntryNo, alePowerOn.places[i] = emptyPlace) ∧ (∀ z : Fin 2048, alePowerOn.zoneRollups[z] = 0) ∧
      (∀ p : PanelNo, alePowerOn.panels[p] = { last := none, gap := false }) ∧
      ∀ k : Slot, alePowerOn.holdTimers[k] = false := by
  simp [alePowerOn, emptyPanelRecord]

/-- The Line Monitor after power-on (R108, row 1). -/
theorem lmnPowerOn_values :
    (∀ n : Fin 32, lmnPowerOn.samples[n] = false) ∧
      (∀ k : Fin 16, lmnPowerOn.contacts[k].kind = .unused ∧ lmnPowerOn.contacts[k].accepted = .normal ∧
        lmnPowerOn.contacts[k].pending = none) ∧
      ∀ k : Fin 2, lmnPowerOn.lifts[k].enabled = false ∧ lmnPowerOn.lifts[k].shown = none ∧
        lmnPowerOn.lifts[k].pending = none := by
  simp [lmnPowerOn, unusedContact, liftPowerOn]

/-- The Context Manager after power-on (R26, R119, R130). -/
theorem cxmPowerOn_values :
    (∀ c : CtxNo, cxmPowerOn.contexts[c] = freeContext 0) ∧
      (∀ q : Fin 2, cxmPowerOn.consoles[q].queue = emptyQueue ∧ cxmPowerOn.consoles[q].mask = 0) ∧
      ∀ f : Fin 128, cxmPowerOn.marks[f] = { mark := .unsearched, context := none, time := 0 } := by
  simp [cxmPowerOn, unsearchedAt]

/-- The bus interface after reset (R156, R163, R164, R167), slot by slot. -/
theorem reset_slot_values (k : Slot) :
    State.reset.pbi.classes[k] = (if k = State.reset.pbi.loaderSlot then .loader else .noClass) ∧
      State.reset.pbi.selectors[k] = none ∧ State.reset.pbi.inFlight[k] = none ∧
      State.reset.pbi.results[k].outcome = .idle ∧ State.reset.pbi.results[k].reason = none ∧
      State.reset.pbi.attention[k] = decide (k = State.reset.pbi.loaderSlot) := by
  revert k
  decide

end Sys2Proof.Machine
end

section
/-!
PROOFS. The statements about the organisation of the plan store: O3, O20, O25 and O29.
-/

namespace Sys2Proof.Machine

/-- Settles O3, block by block: the plan store at its factory values (R1, R34), every other block at its power-on values. -/
theorem resetHoldsPowerOnValues : Obligations.ResetHoldsPowerOnValues := by
  obtain ⟨hplaces, hrollups, hpanels, htimers⟩ := alePowerOn_values
  refine ⟨⟨rfl, rfl, rfl, rfl, rfl, rfl, fun _ => rfl⟩, rfl, ?_, lmnPowerOn_values, cxmPowerOn_values, ?_,
    reset_slot_values, rfl⟩
  · exact ⟨hplaces, rfl, rfl, hrollups, rfl, hpanels, rfl, rfl, rfl, rfl, rfl, htimers⟩
  · exact ⟨rfl, rfl, rfl, fun b => Vector.getElem_replicate b.isLt⟩

/-- Settles O25, by what each form of a pointer that resolves has been tested for. -/
theorem resolutionIsSound : Obligations.ResolutionIsSound := by
  intro m field p loc h
  obtain ⟨bank, hform, hbank, hin⟩ : ∃ bank, (p.form = 1 ∧ field.nearAllowed = true ∨ p.form = 2) ∧
      (bank = if p.form = 1 then m.u8 (52 + field.defaultBank) else p.bank) ∧
      resolveIn m field bank p.offset = .found loc := by
    rcases resolve_found h with ⟨hf, hn, hin⟩ | ⟨hf, hin⟩
    · exact ⟨_, Or.inl ⟨hf, hn⟩, by rw [if_pos hf], hin⟩
    · exact ⟨_, Or.inr hf, by rw [if_neg (by omega)], hin⟩
  obtain ⟨⟨hlow, hhigh⟩, haligned, hloc, hfirst, hkind, hcross, hlast⟩ := resolveIn_found hin
  exact ⟨hform, by omega, haligned, hkind, hlast, hfirst, hcross, bank, hlow, hhigh, hloc, hbank⟩

/-- Settles O29, by the one place that a bank of plan space has and the two answers of its owner. -/
theorem planSpaceWriteStores : Obligations.PlanSpaceWriteStores := by
  refine ⟨fun s tr data bank hp hwf hs hc hb hl he ha hfit hd => ?_, fun s tr data hp hlow hhigh hn => ?_⟩
  · have hw := busWrite_planSpace_stores (judge_planSpace hc hb hl he ha hfit) hs hc hd
    refine ⟨_, event_powered_next hp, fun a => ?_, ?_⟩
    · rw [hw]
      exact Memory.read_writeAll hwf _ a data
    · rw [hw]
      exact ⟨rfl, ⟨rfl, rfl⟩, ⟨rfl, rfl, rfl⟩, rfl⟩
  · have hw := busWrite_planSpace_refused ⟨tr.bank.toNat - 0x40, by omega⟩ data (by simp only; omega) hn
    refine ⟨_, event_powered_next hp, ?_⟩
    rw [hw]
    exact ⟨rfl, ⟨rfl, rfl⟩, ⟨rfl, rfl, rfl⟩, rfl⟩

/-- Settles O20, by what each command can do to plan space: a write stores for the Loader while Loading alone, Erase Plan is
the exception that the statement names, and every other command keeps the bytes. -/
theorem planSpaceIsGuarded : Obligations.PlanSpaceIsGuarded := by
  intro c s t h hne
  cases c with
  | erasePlan slot => exact Or.inl ⟨slot, rfl⟩
  | planSpaceWrite tr data => exact have ⟨hs, hw⟩ := event_busWrite_changes h hne; Or.inr ⟨hs, tr, data, by simp, hw⟩
  | registerWrite tr data => exact have ⟨hs, hw⟩ := event_busWrite_changes h hne; Or.inr ⟨hs, tr, data, by simp, hw⟩
  | commandSlotWrite tr data => exact have ⟨hs, hw⟩ := event_busWrite_changes h hne; Or.inr ⟨hs, tr, data, by simp, hw⟩
  | intakeWrite tr data => exact have ⟨hs, hw⟩ := event_busWrite_changes h hne; Or.inr ⟨hs, tr, data, by simp, hw⟩
  | contextSelectorWrite tr data => exact have ⟨hs, hw⟩ := event_busWrite_changes h hne; Or.inr ⟨hs, tr, data, by simp, hw⟩
  | powerOn straps => cases h; exact absurd (pscPowerOn_planSpace s.psc) hne
  | lossOfPower => cases h; exact absurd rfl hne
  | busReset => exact absurd (execBusReset_planSpace h) hne
  | planStatusRead tr => exact absurd (planSpace_event_read h) hne
  | lockedRead tr => exact absurd (planSpace_event_read h) hne
  | briefWindowRead tr => exact absurd (planSpace_event_read h) hne
  | acknowledge slot entry change => exact absurd (planSpace_event_action h) hne
  | discount slot entry change => exact absurd (planSpace_event_action h) hne
  | clearEntry slot entry change => exact absurd (planSpace_event_action h) hne
  | beginLoad slot => exact absurd (event_carryOut_psc (·.planSpace) (beginLoadBody_planSpace · s) h) hne
  | commitPlan slot => exact absurd (event_carryOut_psc (·.planSpace) (commitPlanBody_planSpace · s) h) hne
  | abortLoad slot => exact absurd (event_carryOut_psc (·.planSpace) (abortLoadBody_planSpace · s) h) hne
  | validationStage => exact absurd (execValidationStage_planSpace h) hne
  | reportTake => exact absurd (execReportTake_planSpace h) hne
  | holdExpiry slot => exact absurd (execHoldExpiry_planSpace h) hne
  | incidentClockTick => exact absurd (execIncidentClockTick_planSpace h) hne
  | lineScan levels => exact absurd (execLineScan_planSpace h) hne
  | compositionStart => exact absurd (execCompositionStart_planSpace h) hne
  | walkStep => exact absurd (execWalkStep_planSpace h) hne
  | incidentClear slot => exact absurd (planSpace_event_command (incidentClearBody_psc · s) h) hne
  | assignCrew slot => exact absurd (planSpace_event_command (assignCrewBody_psc · s) h) hne
  | moveCrew slot => exact absurd (planSpace_event_command (moveCrewBody_psc · s) h) hne
  | withdrawCrew slot => exact absurd (planSpace_event_command (withdrawCrewBody_psc · s) h) hne
  | setConsoleMask slot => exact absurd (planSpace_event_command (setConsoleMaskBody_psc · s) h) hne
  | takeConsoleNotice slot => exact absurd (planSpace_event_command (takeConsoleNoticeBody_psc · s) h) hne
  | briefNow slot => exact absurd (planSpace_event_command (briefNowBody_psc · s) h) hne
  | unlatchLine slot => exact absurd (planSpace_event_command (unlatchLineBody_psc · s) h) hne
  | resetMark slot => exact absurd (planSpace_event_command (resetMarkBody_psc · s) h) hne
  | requestBrief slot => exact absurd (planSpace_event_command (requestBriefBody_psc slot · s) h) hne
  | takeNotice slot => exact absurd (planSpace_event_command (takeNoticeBody_psc slot · s) h) hne
  | setMask slot => exact absurd (planSpace_event_command (setMaskBody_psc slot · s) h) hne
  | markFloor slot => exact absurd (planSpace_event_command (markFloorBody_psc slot · s) h) hne
  -- SEAL, the one row left: its name is a keyword here.
  | _ => exact absurd (execSeal_planSpace h) hne

end Sys2Proof.Machine
end

section
/-!
PROOFS. The statements about labels and ranges: O23 and O26.
-/

namespace Sys2Proof.Machine

/-- Stage 4 fails at the first entry of the Floor Label Table that fails (R42). -/
theorem stageLabels_eq_some {m : Memory} {base i : Nat} {f : PlanFailure}
    (hbase : resolve m .labelTable (pointerAt m 76) = .found base) (hi : i < headerFloors m)
    (hbelow : ∀ j, j < i → labelFailure m base j = none) (hf : labelFailure m base i = some f) :
    stageLabels m = some f := by
  obtain ⟨k, hk⟩ := Nat.exists_eq_add_of_lt hi
  have hsplit : List.range (headerFloors m) = List.range i ++ i :: (List.range k).map (i + Nat.succ ·) := by
    rw [hk, Nat.add_assoc, List.range_add, List.range_succ_eq_map, List.map_cons, List.map_map]
    rfl
  unfold stageLabels
  rw [hbase]
  exact List.findSome?_eq_some_iff.2 ⟨_, i, _, hsplit, hf, fun j hj => hbelow j (List.mem_range.1 hj)⟩

/-- Stage 4 passes when every entry of the Floor Label Table does. -/
theorem stageLabels_eq_none {m : Memory} {base : Nat} (hbase : resolve m .labelTable (pointerAt m 76) = .found base) :
    stageLabels m = none ↔ ∀ i, i < headerFloors m → labelFailure m base i = none := by
  unfold stageLabels
  rw [hbase]
  simp [List.findSome?_eq_none_iff]

/-- An entry of the Floor Label Table passes when its label is in range and equals none at a lower index (R10, R20). -/
theorem labelFailure_eq_none {m : Memory} {base i : Nat} :
    labelFailure m base i = none ↔ (labelAt m (base + 4 * i)).inRange = true ∧
      ∀ j, j < i → labelAt m (base + 4 * j) ≠ labelAt m (base + 4 * i) := by
  simp [labelFailure, rangeFault, faultOf]

/-- An entry in range whose label stands at a lower index fails with DuplicateLabel (R20). -/
theorem labelFailure_duplicate {m : Memory} {base i j : Nat} (hr : (labelAt m (base + 4 * i)).inRange = true) (hj : j < i)
    (he : labelAt m (base + 4 * j) = labelAt m (base + 4 * i)) :
    labelFailure m base i = some { reason := .duplicateLabel, offset := base + 4 * i } := by
  have hany : ((List.range i).any fun j => labelAt m (base + 4 * j) == labelAt m (base + 4 * i)) = true :=
    List.any_eq_true.2 ⟨j, List.mem_range.2 hj, beq_iff_eq.2 he⟩
  simp only [labelFailure, rangeFault, faultOf, hr, hany, Bool.not_true, Bool.false_eq_true, if_false, if_true, Option.none_or]

/-- Settles O23: each end of the range is the centre moved by its window, or the end of the building that it was clipped to. -/
theorem rangeHoldsItsCentre : Obligations.RangeHoldsItsCentre := by
  intro floors centre below above hc
  have hbelow := below.isLt
  have habove := above.isLt
  simp only [rangeAround, Bool.or_eq_false_iff, decide_eq_false_iff_not]
  omega

/-- Settles O26: the entries below the first repeated label pass; and of two entries that pass the higher differs from the
lower. -/
theorem labelsAreUnique : Obligations.LabelsAreUnique := by
  intro m base hbase
  refine ⟨fun i hi hrange hdiffer ⟨j, hj, he⟩ => ?_, fun hpass i j hi hj he => ?_⟩
  · refine stageLabels_eq_some hbase hi (fun k hk => ?_) (labelFailure_duplicate (hrange i le_rfl) hj he)
    exact labelFailure_eq_none.2 ⟨hrange k hk.le, fun l hl => hdiffer l k hl hk⟩
  · have hnone := (stageLabels_eq_none hbase).1 hpass
    rcases Nat.lt_trichotomy i j with h | h | h
    · exact absurd he ((labelFailure_eq_none.1 (hnone j hj)).2 i h)
    · exact h
    · exact absurd he.symm ((labelFailure_eq_none.1 (hnone i hi)).2 j h)

end Sys2Proof.Machine
end

section
/-!
SUPPORT. How a command in flight ends: the state after its completion, and a refusal at the first check that fails (R120,
R165).
-/

namespace Sys2Proof.Machine

/-! ### Completions -/

/-- The event of a command in flight carries out its body and completes the command. -/
theorem exec_ready {row : Instr} {slot : Slot} {code : CommandCode} {cmd : InFlight} {s : State}
    {body : InFlight → State → State × CommandOutcome} (hrow : exec row s = event (carryOut slot code body) s)
    (hr : Ready s slot code cmd) :
    exec row s = .next (driveAttention (completeCommand slot cmd (body cmd s).2 (body cmd s).1)) := by
  obtain ⟨hp, hf, hc⟩ := hr
  rw [hrow, event_next, if_pos hp, carryOut_ready body hf hc]

/-- A completion on a state with the same bus interface ends the command as `Completed` says (R164), and moves neither the
class map nor the Loader's flag. -/
theorem completed_driveAttention {s u : State} (hu : u.pbi = s.pbi) (slot : Slot) (cmd : InFlight) (o : CommandOutcome) :
    Completed s (driveAttention (completeCommand slot cmd o u)) slot cmd o ∧
      SameMap s (driveAttention (completeCommand slot cmd o u)) := by
  simp [Completed, SameMap, hu]

/-- What a command in flight whose body leaves the bus interface comes to: every block is as the body leaves it, and the command
has ended with the body's outcome. -/
theorem exec_ready_blocks {row : Instr} {slot : Slot} {code : CommandCode} {cmd : InFlight} {s u : State} {o : CommandOutcome}
    {body : InFlight → State → State × CommandOutcome} (hrow : exec row s = event (carryOut slot code body) s)
    (hr : Ready s slot code cmd) (hb : body cmd s = (u, o)) (hu : u.pbi = s.pbi) :
    ∃ t, exec row s = .next t ∧ Completed s t slot cmd o ∧ SameMap s t ∧ t.psc = u.psc ∧ t.rin = u.rin ∧ t.ale = u.ale ∧
      t.lmn = u.lmn ∧ t.cxm = u.cxm ∧ t.bcm = u.bcm ∧ t.pending = u.pending ∧ t = { u with pbi := t.pbi } := by
  have hx := exec_ready hrow hr
  rw [hb] at hx
  obtain ⟨hc, hm⟩ := completed_driveAttention hu slot cmd o
  exact ⟨_, hx, hc, hm, rfl, rfl, rfl, rfl, rfl, rfl, rfl, rfl⟩

/-- A command whose body refuses and leaves the state is refused, with nothing but its result record (R165). -/
theorem refused_of_body {row : Instr} {slot : Slot} {code : CommandCode} {cmd : InFlight} {s : State}
    {body : InFlight → State → State × CommandOutcome} {r : CommandReason}
    (hrow : exec row s = event (carryOut slot code body) s) (hr : Ready s slot code cmd)
    (hb : body cmd s = (s, .refused r)) : Refused s row slot cmd r := by
  have hx := exec_ready hrow hr
  rw [hb] at hx
  obtain ⟨hc, hm⟩ := completed_driveAttention (rfl : s.pbi = s.pbi) slot cmd (.refused r)
  exact ⟨_, hx, hc, hm, rfl⟩

/-! ### Checks in order -/

/-- The first check that fails in a table of two parts fails in the first part, or in the second when the first part holds. -/
theorem firstFails_append {l l' : List (Prop × CommandReason)} {r : CommandReason} :
    FirstFails (l ++ l') r ↔ FirstFails l r ∨ (∀ x ∈ l, x.1) ∧ FirstFails l' r := by
  induction l with
  | nil => simp [FirstFails]
  | cons x l ih =>
    simp only [List.cons_append, FirstFails, ih, List.forall_mem_cons]
    tauto

theorem firstFails_singleton {p : Prop} {reason r : CommandReason} : FirstFails [(p, reason)] r ↔ ¬p ∧ r = reason := by
  simp [FirstFails]

/-- The context of a Gateway command is the one its selector names, Assigned to the slot (R120). -/
theorem gatewayContext_ok {slot : Slot} {cmd : InFlight} {s : State} {c : CtxNo} :
    gatewayContext slot cmd s = .ok c ↔
      cmd.selector = some c ∧ s.cxm.contexts[c].assigned = true ∧ s.cxm.contexts[c].owner = some slot := by
  unfold gatewayContext
  cases cmd.selector with
  | none => simp
  | some d =>
    by_cases h : (s.cxm.contexts[d].assigned && s.cxm.contexts[d].owner == some slot) = true
    · simp only [h, if_true, Except.ok.injEq, Option.some.injEq]
      simp only [Bool.and_eq_true, beq_iff_eq] at h
      exact ⟨fun hd => hd ▸ ⟨rfl, h⟩, fun hd => hd.1⟩
    · simp only [h, if_false, reduceCtorEq, false_iff, Option.some.injEq]
      rintro ⟨rfl, hc⟩
      exact h (by simpa using hc)

/-- The checks of every Gateway command name the first that fails (R120). -/
theorem gatewayContext_error {slot : Slot} {cmd : InFlight} {s : State} {r : CommandReason}
    (h : FirstFails (gatewayTable s slot cmd) r) : gatewayContext slot cmd s = .error r := by
  unfold gatewayTable at h
  rcases h with ⟨hsel, rfl⟩ | ⟨hsel, h⟩
  · rw [gatewayContext, not_not.1 hsel]
  · obtain ⟨hown, rfl⟩ := firstFails_singleton.1 h
    obtain ⟨c, hc⟩ := Option.ne_none_iff_exists'.1 hsel
    rw [gatewayContext, hc]
    exact if_neg fun ho => hown ⟨c, hc, by simpa using ho⟩

/-- Where the checks of a Gateway command hold, it has its context. -/
theorem gatewayTable_holds {slot : Slot} {cmd : InFlight} {s : State} (h : ∀ x ∈ gatewayTable s slot cmd, x.1) :
    ∃ c, gatewayContext slot cmd s = .ok c := by
  simp only [gatewayTable, List.forall_mem_cons] at h
  obtain ⟨-, ⟨c, hc⟩, -⟩ := h
  exact ⟨c, gatewayContext_ok.2 hc⟩

theorem floorOfLabel_ok {s : State} {l : FloorLabel} {f : Nat} : floorOfLabel s l = .ok f ↔ s.psc.floorOf l = .floor f := by
  unfold floorOfLabel
  cases s.psc.floorOf l <;> simp

/-- A label is answered with NoPlan exactly while the plan is not Valid (R21). -/
theorem floorOf_noPlan {p : Psc} {l : FloorLabel} : p.floorOf l = .noPlan ↔ p.valid = false := by
  unfold Psc.floorOf
  split
  · rename_i hv
    simp only [hv, reduceCtorEq, iff_false]
    split
    · split <;> simp
    · simp
  · rename_i hv
    simpa using hv

/-- The checks of a floor label name the first that fails (R21). -/
theorem floorOfLabel_error {s : State} {cmd : InFlight} {k : Fin 13} {r : CommandReason}
    (h : FirstFails (labelTable s cmd k) r) : floorOfLabel s (commandLabel cmd k) = .error r := by
  unfold labelTable at h
  rcases h with ⟨hv, rfl⟩ | ⟨hv, h⟩
  · rw [floorOfLabel, floorOf_noPlan.2 (by simpa using hv)]
  · obtain ⟨hknown, rfl⟩ := firstFails_singleton.1 h
    unfold floorOfLabel
    cases hf : s.psc.floorOf (commandLabel cmd k) with
    | noPlan => simp [floorOf_noPlan.1 hf] at hv
    | unknown => rfl
    | floor f => exact absurd ⟨f, hf⟩ hknown

/-- Where the checks of a floor label hold, it names a floor. -/
theorem labelTable_holds {s : State} {cmd : InFlight} {k : Fin 13} (h : ∀ x ∈ labelTable s cmd k, x.1) :
    ∃ f, floorOfLabel s (commandLabel cmd k) = .ok f := by
  simp only [labelTable, List.forall_mem_cons] at h
  obtain ⟨-, ⟨f, hf⟩, -⟩ := h
  exact ⟨f, floorOfLabel_ok.2 hf⟩

end Sys2Proof.Machine
end

section
/-!
PROOFS. The statement about the mark commands: O53 (R27 to R30).
-/

namespace Sys2Proof.Machine

/-! ### What is said of a mark -/

theorem markAt_eq (s : State) (f : Fin 128) : markAt s f.val = s.cxm.marks[f] := by
  simp [markAt]

theorem Mark.code_toNat_eq_one {m : Mark} : m.code.toNat = 1 ↔ m = .searching := by
  cases m <;> decide

/-- Everything a requested mark code can be: 1, 2 or 3, the code of the mark it requests, or a code that requests none
(R27). -/
theorem requestedMark_cases (b : Byte) :
    (∃ m, requestedMark b = some m ∧ b = m.code ∧ 1 ≤ b.toNat ∧ b.toNat ≤ 3) ∨
    (requestedMark b = none ∧ ¬(1 ≤ b.toNat ∧ b.toNat ≤ 3)) := by
  by_cases h1 : b = 1
  · exact Or.inl ⟨.searching, if_pos h1, h1, by simp [h1]⟩
  · by_cases h2 : b = 2
    · exact Or.inl ⟨.clear, by rw [requestedMark, if_neg h1, if_pos h2], h2, by simp [h2]⟩
    · by_cases h3 : b = 3
      · exact Or.inl ⟨.hazard, by rw [requestedMark, if_neg h1, if_neg h2, if_pos h3], h3, by simp [h3]⟩
      · exact Or.inr ⟨by rw [requestedMark, if_neg h1, if_neg h2, if_neg h3], by bv_omega⟩

theorem requestedMark_code {m : Mark} (h : m ≠ .unsearched) : requestedMark m.code = some m := by
  cases m with
  | unsearched => exact absurd rfl h
  | searching => rfl
  | clear => rfl
  | hazard => rfl

theorem requestedMark_ne_unsearched {b : Byte} {m : Mark} (h : requestedMark b = some m) : m ≠ .unsearched := by
  rintro rfl
  rcases requestedMark_cases b with ⟨m, hm, hb, hlow, -⟩ | ⟨hn, -⟩
  · cases h.symm.trans hm
    simp [hb, Mark.code] at hlow
  · cases h.symm.trans hn

/-- A code of 1 to 3 requests a mark (R27). -/
theorem requestedMark_of_code {b : Byte} (h : 1 ≤ b.toNat ∧ b.toNat ≤ 3) : ∃ m, requestedMark b = some m ∧ b = m.code := by
  rcases requestedMark_cases b with ⟨m, hm, hb, -⟩ | ⟨-, hn⟩
  · exact ⟨m, hm, hb⟩
  · exact absurd h hn

/-- A code outside 1 to 3 requests none (R27). -/
theorem requestedMark_none {b : Byte} (h : ¬(1 ≤ b.toNat ∧ b.toNat ≤ 3)) : requestedMark b = none := by
  rcases requestedMark_cases b with ⟨m, -, -, hb⟩ | ⟨hn, -⟩
  · exact absurd hb h
  · exact hn

/-! ### The effects of a mark change (R30) -/

theorem changeMark_marks (f : Fin 128) (m : FloorMark) (carried : Option CtxNo) (s : State) :
    (changeMark f.val m carried s).cxm.marks = s.cxm.marks.set f m := by
  rw [changeMark_cxm]
  exact table_ext fun i => by simp [Vector.getElem_setIfInBounds, Vector.getElem_set]

/-- A mark change leaves all of a context but its queue. -/
theorem changeMark_context_rest (f : Nat) (m : FloorMark) (carried : Option CtxNo) (s : State) (c : CtxNo) :
    (changeMark f m carried s).cxm.contexts[c] =
      { s.cxm.contexts[c] with queue := (changeMark f m carried s).cxm.contexts[c].queue } := by
  rw [changeMark_cxm]
  exact offer_context_rest _ s c

theorem changeMark_console_mask (f : Nat) (m : FloorMark) (carried : Option CtxNo) (s : State) (q : Fin 2) :
    (changeMark f m carried s).cxm.consoles[q].mask = s.cxm.consoles[q].mask := by
  rw [changeMark_cxm]
  exact offer_console_mask _ s q

/-- The Floor Marked notice, field by field: level 6 for Hazard, 2 for Clear and 1 otherwise (R30). -/
theorem markNotice_eq (f : Nat) (m : FloorMark) (carried : Option CtxNo) :
    markNotice f m carried =
      { kind := .floorMarked
        level := (match m.mark with
          | .hazard => 6
          | .clear => 2
          | .searching | .unsearched => 1)
        time := m.time, entry := none, floor := .placed f, context := carried, panel := none } := by
  unfold markNotice
  cases m.mark <;> rfl

/-- A mark change tells its Floor Marked notice and no other (R30, effect 1). -/
theorem changeMark_told {s t : State} {f : Nat} {m : FloorMark} {carried : Option CtxNo}
    (ht : t.cxm = (changeMark f m carried s).cxm) (hp : t.psc = s.psc) (ha : t.ale = s.ale)
    (hm : t.pbi.classes = s.pbi.classes) : Told s t [markNotice f m carried] :=
  offerAll_told (u := s) _ rfl rfl (by rw [ht, changeMark_cxm]; rfl) (by rw [ht, changeMark_cxm]; rfl) hp (by rw [ha]) hm

/-! ### The two commands, carried out -/

/-- The floor holds the mark and the context asked for already (R28). -/
def alreadyMarked (s : State) (floor : Fin 128) (new : FloorMark) : Prop :=
  s.cxm.marks[floor].mark = new.mark ∧ s.cxm.marks[floor].context = new.context

/-- What a mark command that passes its checks answers (11_formats.md): the floor and its old mark, then bytes of its own. -/
def markedOutcome (s : State) (floor : Fin 128) (returned : List Byte) : CommandOutcome :=
  .done ([byteOf floor.val, s.cxm.marks[floor].mark.code, contextByte s.cxm.marks[floor].context] ++ returned)

/-- A mark command carried out leaves the state when the floor is marked so already, and changes the mark otherwise
(R28, R29). -/
def MarksFloor (s : State) (floor : Fin 128) (new : FloorMark) (carried : Option CtxNo) (returned : List Byte)
    (r : State × CommandOutcome) : Prop :=
  r.2 = markedOutcome s floor returned ∧ (alreadyMarked s floor new → r.1 = s) ∧
    (¬alreadyMarked s floor new → r.1 = changeMark floor.val new carried s)

theorem MarksFloor.of_already {s : State} {floor : Fin 128} {new : FloorMark} {carried : Option CtxNo} {returned : List Byte}
    {r : State × CommandOutcome} (h : MarksFloor s floor new carried returned r) (hold : alreadyMarked s floor new) :
    r = (s, markedOutcome s floor returned) := by
  obtain ⟨ho, hsame, -⟩ := h
  exact Prod.ext (hsame hold) ho

theorem MarksFloor.of_change {s : State} {floor : Fin 128} {new : FloorMark} {carried : Option CtxNo} {returned : List Byte}
    {r : State × CommandOutcome} (h : MarksFloor s floor new carried returned r) (hold : ¬alreadyMarked s floor new) :
    r = (changeMark floor.val new carried s, markedOutcome s floor returned) := by
  obtain ⟨ho, -, hchange⟩ := h
  exact Prod.ext (hchange hold) ho

theorem markFloorBody_marks {s : State} {slot : Slot} {cmd : InFlight} {floor : Fin 128} {new : FloorMark} {c : CtxNo}
    (hg : gatewayContext slot cmd s = .ok c) (hm : requestedMark (commandByte cmd 1) = some new.mark)
    (hf : floorOfLabel s (commandLabel cmd 4) = .ok floor.val) (hr : inRange s c floor.val = true)
    (htaken : new.mark = .searching → s.cxm.marks[floor].mark = .searching → s.cxm.marks[floor].context = some c)
    (hc : new.context = some c) (ht : new.time = s.ale.clock) :
    MarksFloor s floor new (some c) [new.mark.code, byteOf c.val] (markFloorBody slot cmd s) := by
  have hfree : ¬(new.mark = .searching ∧ s.cxm.marks[floor].mark = .searching ∧ s.cxm.marks[floor].context ≠ some c) :=
    fun ⟨h1, h2, h3⟩ => h3 (htaken h1 h2)
  have hchecks : markFloorChecks slot cmd s = .ok (c, new.mark, floor.val) := by
    unfold markFloorChecks
    simp only [hg, hm, hf, hr, markAt_eq, Bool.not_true, Bool.false_eq_true, if_false, if_neg hfree]
  have hnew : ({ mark := new.mark, context := some c, time := s.ale.clock } : FloorMark) = new := by
    rw [← hc, ← ht]
  have hbody : markFloorBody slot cmd s =
      (if s.cxm.marks[floor].mark = new.mark ∧ s.cxm.marks[floor].context = some c then s
        else changeMark floor.val new (some c) s, markedOutcome s floor [new.mark.code, byteOf c.val]) := by
    unfold markFloorBody
    rw [hchecks]
    simp only [markAt_eq, hnew]
    rfl
  rw [hbody, ← hc]
  exact ⟨rfl, fun h => if_pos h, fun h => if_neg h⟩

theorem resetMarkBody_marks {s : State} {cmd : InFlight} {floor : Fin 128} {new : FloorMark}
    (hf : floorOfLabel s (commandLabel cmd 4) = .ok floor.val) (hs : s.marksSound) (hm : new.mark = .unsearched)
    (hc : new.context = none) (ht : new.time = s.ale.clock) :
    MarksFloor s floor new (if s.cxm.marks[floor].mark = .searching then s.cxm.marks[floor].context else none) []
      (resetMarkBody cmd s) := by
  have hnew : unsearchedAt s.ale.clock = new := by rw [unsearchedAt, ← ht, ← hm, ← hc]
  have hbody : resetMarkBody cmd s =
      (if s.cxm.marks[floor].mark = .unsearched then s else unmark floor.val s, markedOutcome s floor []) := by
    unfold resetMarkBody
    rw [hf]
    simp only [markAt_eq]
    rfl
  rw [hbody]
  refine ⟨rfl, fun h => if_pos (h.1.trans hm), fun h => ?_⟩
  have hmarked : s.cxm.marks[floor].mark ≠ .unsearched := fun hu =>
    h ⟨hu.trans hm.symm, ((hs floor).2 hu).trans hc.symm⟩
  simp only [if_neg hmarked, unmark, markAt_eq, hnew]

/-! ### The checks of Mark Floor -/

/-- Mark Floor is refused with the reason of the first check that fails (R27, R120). -/
theorem markFloorChecks_error {s : State} {slot : Slot} {cmd : InFlight} {r : CommandReason}
    (h : FirstFails (markTable s slot cmd) r) : markFloorChecks slot cmd s = .error r := by
  unfold markTable at h
  rw [firstFails_append, firstFails_append, firstFails_append] at h
  unfold markFloorChecks
  rcases h with ((h | ⟨hgate, h⟩) | ⟨hleft, h⟩) | ⟨hleft, h⟩
  · rw [gatewayContext_error h]
  · obtain ⟨c, hc⟩ := gatewayTable_holds hgate
    obtain ⟨hcode, rfl⟩ := firstFails_singleton.1 h
    simp only [hc, requestedMark_none hcode]
  · obtain ⟨c, hc⟩ := gatewayTable_holds fun x hx => hleft x (List.mem_append_left _ hx)
    have hcode := hleft _ (List.mem_append_right _ List.mem_cons_self)
    obtain ⟨mark, hmark, hbyte⟩ := requestedMark_of_code hcode
    simp only [hc, hmark, floorOfLabel_error h]
  · obtain ⟨c, hc⟩ := gatewayTable_holds fun x hx => hleft x (List.mem_append_left _ (List.mem_append_left _ hx))
    have hcode := hleft _ (List.mem_append_left _ (List.mem_append_right _ List.mem_cons_self))
    obtain ⟨mark, hmark, hbyte⟩ := requestedMark_of_code hcode
    obtain ⟨floor, hfloor⟩ := labelTable_holds fun x hx => hleft x (List.mem_append_right _ hx)
    have hsel := (gatewayContext_ok.1 hc).1
    simp only [hc, hmark, hfloor]
    rcases h with ⟨hout, rfl⟩ | ⟨hin, h⟩
    · have hrange : inRange s c floor = false := by
        refine Bool.eq_false_iff.2 fun hr => hout fun d g hd hg => ?_
        rw [floorOfLabel_ok.1 hfloor] at hg
        cases hsel.symm.trans hd
        cases hg
        exact hr
      simp [hrange]
    · obtain ⟨htaken, rfl⟩ := firstFails_singleton.1 h
      push Not at htaken
      obtain ⟨d, g, hd, hg, hone, hsearching, hother⟩ := htaken
      rw [floorOfLabel_ok.1 hfloor] at hg
      cases hsel.symm.trans hd
      cases hg
      have hm : mark = .searching := Mark.code_toNat_eq_one.1 (hbyte ▸ hone)
      have hrange := hin c g.val hsel (floorOfLabel_ok.1 hfloor)
      simp only [hrange, Bool.not_true, Bool.false_eq_true, if_false, markAt_eq]
      exact if_pos ⟨hm, hsearching, hother⟩

theorem markFloor_refused {s : State} {slot : Slot} {cmd : InFlight} {r : CommandReason} (hr : Ready s slot .markFloor cmd)
    (h : FirstFails (markTable s slot cmd) r) : Refused s (.markFloor slot) slot cmd r :=
  refused_of_body (body := markFloorBody slot) rfl hr (by rw [markFloorBody, markFloorChecks_error h])

theorem resetMark_refused {s : State} {slot : Slot} {cmd : InFlight} {r : CommandReason} (hr : Ready s slot .resetMark cmd)
    (h : FirstFails (labelTable s cmd 4) r) : Refused s (.resetMark slot) slot cmd r :=
  refused_of_body (body := resetMarkBody) rfl hr (by rw [resetMarkBody, floorOfLabel_error h])

/-- Settles O53: both commands mark the floor with `changeMark`, whose effects are those of R30, or leave a floor that is marked
so already; and each is refused at the first check that fails. -/
theorem marksChange : Obligations.MarksChange := by
  refine ⟨fun s slot cmd floor new carried row returned hcmd htime hfloor hsound => ?_,
    fun _ _ _ _ hr h => markFloor_refused hr h, fun _ _ _ _ hr h => resetMark_refused hr h⟩
  obtain ⟨code, body, hrow, hready, hmarks⟩ : ∃ code body, exec row s = event (carryOut slot code body) s ∧
      Ready s slot code cmd ∧ MarksFloor s floor new carried returned (body cmd s) := by
    rcases hcmd with ⟨c, hready, rfl, hsel, hassigned, howner, hrange, hmark, hcode, hnew, rfl, htaken, rfl⟩ |
      ⟨hready, rfl, hmark, hnew, rfl, rfl⟩
    · exact ⟨.markFloor, markFloorBody slot, rfl, hready, markFloorBody_marks (gatewayContext_ok.2 ⟨hsel, hassigned, howner⟩)
        (by rw [hcode, requestedMark_code hmark]) (floorOfLabel_ok.2 hfloor) hrange htaken hnew htime⟩
    · exact ⟨.resetMark, resetMarkBody, rfl, hready,
        resetMarkBody_marks (floorOfLabel_ok.2 hfloor) hsound hmark hnew htime⟩
  by_cases hold : alreadyMarked s floor new
  · obtain ⟨t, ht, hc, hm, -, -, -, -, -, -, -, hrest⟩ := exec_ready_blocks hrow hready (hmarks.of_already hold) rfl
    exact ⟨t, ht, hc, hm, fun _ _ => hrest, fun hn => absurd hold hn⟩
  · obtain ⟨t, ht, hc, hm, hpsc, hrin, hale, hlmn, hcxm, hbcm, hpending, -⟩ :=
      exec_ready_blocks hrow hready (hmarks.of_change hold) (changeMark_pbi floor.val new carried s)
    rw [changeMark_psc] at hpsc
    rw [changeMark_rin] at hrin
    rw [changeMark_ale] at hale
    rw [changeMark_lmn] at hlmn
    rw [changeMark_pending] at hpending
    obtain ⟨hurgent, hpool, hcomposition, hnormal⟩ := changeMark_bcm floor.val new carried s
    have hbuffers := changeMark_buffers floor.val new carried s
    rw [← hbcm] at hurgent hpool hcomposition hnormal hbuffers
    refine ⟨t, ht, hc, hm, fun h1 h2 => absurd ⟨h1, h2⟩ hold, fun _ => ⟨?_, ?_, fun c => ?_, fun q => ?_,
      fun d => by rw [hurgent], hnormal, fun x hx => ?_, fun hnone => ?_, hbuffers, hpool, hpsc, hrin, hale, hlmn, hpending⟩⟩
    · rw [hcxm, changeMark_marks]
    · have htold := changeMark_told hcxm hpsc hale hm.1
      rwa [markNotice_eq, htime] at htold
    · rw [hcxm, ← changeMark_context_rest]
    · rw [hcxm, changeMark_console_mask]
    · rw [hcomposition, hx, Option.map_some, Bool.or_assoc]
    · rw [hcomposition, hnone, Option.map_none]

end Sys2Proof.Machine
end

section
/-!
SUPPORT. Which operations keep the plain laws, block by block; each law that reads nothing an operation changes carries over of
itself.
-/

namespace Sys2Proof.Machine

/-- The plain laws but that of the marks: each that holds of `s` holds of `t`. A law that reads nothing that changed carries
over by itself, so a use names the others alone. -/
structure KeepsButMarks (s t : State) : Prop where
  runNamed : s.runNamed → t.runNamed := by exact fun h => h
  oneLoader : s.oneLoader → t.oneLoader := by exact fun h => h
  intakeBounded : s.intakeBounded → t.intakeBounded := by exact fun h => h
  contactsSound : s.contactsSound → t.contactsSound := by exact fun h => h
  masksBelowCeilings : s.masksBelowCeilings → t.masksBelowCeilings := by exact fun h => h
  crewsNeedPlan : s.crewsNeedPlan → t.crewsNeedPlan := by exact fun h => h
  liftsSound : s.liftsSound → t.liftsSound := by exact fun h => h
  keysUnique : s.keysUnique → t.keysUnique := by exact fun h => h

/-- The plain laws: each that holds of `s` holds of `t`. -/
structure KeepsPlain (s t : State) : Prop extends KeepsButMarks s t where
  marksSound : s.marksSound → t.marksSound := by exact fun h => h

theorem KeepsButMarks.trans {s t u : State} (h : KeepsButMarks s t) (h' : KeepsButMarks t u) : KeepsButMarks s u :=
  { runNamed := h'.runNamed ∘ h.runNamed
    oneLoader := h'.oneLoader ∘ h.oneLoader
    intakeBounded := h'.intakeBounded ∘ h.intakeBounded
    contactsSound := h'.contactsSound ∘ h.contactsSound
    masksBelowCeilings := h'.masksBelowCeilings ∘ h.masksBelowCeilings
    crewsNeedPlan := h'.crewsNeedPlan ∘ h.crewsNeedPlan
    liftsSound := h'.liftsSound ∘ h.liftsSound
    keysUnique := h'.keysUnique ∘ h.keysUnique }

theorem KeepsPlain.refl (s : State) : KeepsPlain s s := {}

theorem KeepsPlain.trans {s t u : State} (h : KeepsPlain s t) (h' : KeepsPlain t u) : KeepsPlain s u :=
  { h.toKeepsButMarks.trans h'.toKeepsButMarks with marksSound := h'.marksSound ∘ h.marksSound }

/-- What each step of a run keeps, the run keeps; `get` finds the state in what the run carries. -/
theorem keeps_foldl {σ ι : Type} (get : σ → State) {step : σ → ι → σ} (h : ∀ x k, KeepsPlain (get x) (get (step x k)))
    (l : List ι) (x : σ) : KeepsPlain (get x) (get (l.foldl step x)) := by
  induction l generalizing x with
  | nil => exact .refl _
  | cons k l ih => exact (h x k).trans (ih (step x k))

/-! ### Events and completions -/

theorem keeps_driveAttention (s : State) : KeepsPlain s (driveAttention s) := {}

theorem keeps_answer (t : Transfer) (e : Termination) (b : Bool) (d : List Byte) (s : State) :
    KeepsPlain s (answer t e b d s) := {}

theorem keeps_completeCommand (slot : Slot) (cmd : InFlight) (o : CommandOutcome) (s : State) :
    KeepsPlain s (completeCommand slot cmd o s) := {}

theorem keeps_carryOut {slot : Slot} {code : CommandCode} {body : InFlight → State → State × CommandOutcome} {s : State}
    (h : ∀ cmd, KeepsPlain s (body cmd s).1) : KeepsPlain s (carryOut slot code body s) := by
  rcases carryOut_cases slot code body s with ⟨cmd, -, -, hb⟩ | hb
  · rw [hb]
    exact (h cmd).trans (keeps_completeCommand slot cmd _ _)
  · rw [hb]
    exact .refl s

theorem keeps_event {f : State → State} {s t : State} (h : KeepsPlain s (f s)) (ht : event f s = .next t) :
    KeepsPlain s t := by
  rw [event_next] at ht
  injection ht with ht
  subst ht
  split
  · exact h.trans (keeps_driveAttention (f s))
  · exact .refl s

/-! ### The composer (R137 to R139, R147, R149) -/

theorem keeps_disturb (s : State) : KeepsPlain s (disturb s) := {}

theorem keeps_disturbFloors (fs : List Nat) (s : State) : KeepsPlain s (disturbFloors fs s) := by
  unfold disturbFloors
  split
  · exact keeps_disturb s
  · exact .refl s

theorem keeps_abandon (requeue : Bool) (s : State) : KeepsPlain s (abandon requeue s) := by
  unfold abandon
  split
  · exact .refl s
  · exact {}

theorem keeps_focusChanged (s : State) : KeepsPlain s (focusChanged s) := by
  unfold focusChanged
  split
  · exact keeps_abandon true s
  · exact .refl s

theorem keeps_briefRequest (c : CtxNo) (u : Urgency) (fromMove : Bool) (s : State) :
    KeepsPlain s (briefRequest c u fromMove s) := by
  unfold briefRequest
  split
  · exact .refl s
  · exact .refl s
  · exact keeps_abandon true s
  · exact keeps_disturb s
  · exact {}
  · split <;> exact {}

theorem keeps_handRequests (rs : List (CtxNo × Urgency)) (s : State) : KeepsPlain s (handRequests rs s) :=
  .trans (t := { s with freeCount := s.freeCount + 1 }) {} (keeps_foldl (fun u => u)
    (step := fun s (r : CtxNo × Urgency) => briefRequest r.1 r.2 false s) (fun s r => keeps_briefRequest r.1 r.2 false s) _ _)

theorem keeps_requestNormal (p : CtxNo → Bool) (s : State) : KeepsPlain s (requestNormal p s) := keeps_handRequests _ s

/-! ### Contexts and Console Queues -/

/-- Contexts changed, with their masks held below their ceilings and none Assigned anew but under a Valid plan. -/
theorem keepsButMarks_contexts {s : State} {cs : Vector Context 32} (qs : Vector ConsoleQueue 2)
    (hmask : ∀ c : CtxNo, s.cxm.contexts[c].mask ≤ s.cxm.contexts[c].ceiling → cs[c].mask ≤ cs[c].ceiling)
    (hnew : ∀ c : CtxNo, cs[c].assigned = true → s.cxm.contexts[c].assigned = true ∨ s.psc.valid = true) :
    KeepsButMarks s { s with cxm.contexts := cs, cxm.consoles := qs } :=
  { masksBelowCeilings := fun h c => hmask c (h c)
    crewsNeedPlan := fun h c hc => (hnew c hc).elim (h c) id }

theorem setContext_context (c d : CtxNo) (x : Context) (s : State) :
    (setContext c x s).cxm.contexts[d] = if d = c then x else s.cxm.contexts[d] := by
  simp [Vector.getElem_set, Fin.ext_iff, eq_comm]

/-- One context's record replaced, with its mask below its ceiling and not Assigned anew but under a Valid plan. -/
theorem keepsButMarks_setContext {c : CtxNo} {x : Context} {s : State}
    (hmask : s.cxm.contexts[c].mask ≤ s.cxm.contexts[c].ceiling → x.mask ≤ x.ceiling)
    (hnew : x.assigned = true → s.cxm.contexts[c].assigned = true ∨ s.psc.valid = true) :
    KeepsButMarks s (setContext c x s) := by
  refine keepsButMarks_contexts s.cxm.consoles (cs := (setContext c x s).cxm.contexts) (fun d => ?_) (fun d => ?_)
  · rw [setContext_context]
    split
    · exact ‹d = c› ▸ hmask
    · exact id
  · rw [setContext_context]
    split
    · exact ‹d = c› ▸ hnew
    · exact Or.inl

/-- One context's record replaced that stays Assigned when it was keeps the law of the marks as well (R31). -/
theorem keeps_setContext {c : CtxNo} {x : Context} {s : State}
    (hmask : s.cxm.contexts[c].mask ≤ s.cxm.contexts[c].ceiling → x.mask ≤ x.ceiling)
    (hnew : x.assigned = true → s.cxm.contexts[c].assigned = true ∨ s.psc.valid = true)
    (hold : s.cxm.contexts[c].assigned = true → x.assigned = true) : KeepsPlain s (setContext c x s) := by
  refine { keepsButMarks_setContext hmask hnew with
    marksSound := fun h f => ⟨fun hs => ?_, (h f).2⟩ }
  obtain ⟨d, hd, ha⟩ := (h f).1 hs
  refine ⟨d, hd, ?_⟩
  rw [setContext_context]
  split
  · exact hold (‹d = c› ▸ ha)
  · exact ha

/-- An offer moves nothing of a context but its queue. -/
theorem keeps_offer (n : Notice) (s : State) : KeepsPlain s (offer n s) := by
  have hrest : KeepsButMarks s (offer n s) := by
    refine keepsButMarks_contexts (cs := (offer n s).cxm.contexts) _ (fun c => ?_) (fun c => ?_)
    · rw [offer_context_rest]; exact id
    · rw [offer_context_rest]; exact Or.inl
  refine { hrest with marksSound := fun h f => ⟨fun hs => ?_, (h f).2⟩ }
  obtain ⟨c, hc, ha⟩ := (h f).1 hs
  exact ⟨c, hc, by rw [offer_context_rest]; exact ha⟩

theorem keeps_offerAll (ns : List Notice) (s : State) : KeepsPlain s (offerAll ns s) :=
  keeps_foldl (fun u => u) (step := fun s n => offer n s) (fun s n => keeps_offer n s) ns s

/-! ### The Live Alarm Table -/

/-- Every entry of the table `b` stands where the table `a` holds one of its key and category. -/
def KeysFrom (a b : Ale) : Prop :=
  ∀ (i : EntryNo) (e : Entry), b.places[i].entry = some e →
    ∃ o, a.places[i].entry = some o ∧ o.key = e.key ∧ o.category = e.category

theorem KeysFrom.refl (a : Ale) : KeysFrom a a := fun _ e he => ⟨e, he, rfl, rfl⟩

theorem KeysFrom.trans {a b c : Ale} (h : KeysFrom a b) (h' : KeysFrom b c) : KeysFrom a c := fun i e he => by
  obtain ⟨o, ho, hk, hc⟩ := h' i e he
  obtain ⟨p, hp, hk', hc'⟩ := h i o ho
  exact ⟨p, hp, hk'.trans hk, hc'.trans hc⟩

/-- Entries changed in place keep their keys when the change keeps key and category. -/
theorem KeysFrom.of_map {a b : Ale} (f : EntryNo → Entry → Entry)
    (hf : ∀ i e, (f i e).key = e.key ∧ (f i e).category = e.category)
    (h : ∀ i : EntryNo, b.places[i].entry = a.places[i].entry.map (f i)) : KeysFrom a b := fun i e he => by
  rw [h i, Option.map_eq_some_iff] at he
  obtain ⟨o, ho, rfl⟩ := he
  exact ⟨o, ho, (hf i o).1.symm, (hf i o).2.symm⟩

/-- A table without new keys keeps the plain laws (R65). -/
theorem keeps_ale {s : State} {a : Ale} (h : KeysFrom s.ale a) : KeepsPlain s { s with ale := a } :=
  { keysUnique := fun hu i j e f he hf hk hc => by
      obtain ⟨e', he', hek, hec⟩ := h i e he
      obtain ⟨f', hf', hfk, hfc⟩ := h j f hf
      exact hu i j e' f' he' hf' (hek.trans (hk.trans hfk.symm)) (hec.trans (hc.trans hfc.symm)) }

theorem keysFrom_endHolds (released : Slot → Bool) (a : Ale) : KeysFrom a (endHolds released a) := by
  refine .of_map (fun _ e => e.releasedBy released) (fun _ e => ?_) fun i => endHolds_entry released a i i.isLt
  rw [releasedBy_rest]
  exact ⟨rfl, rfl⟩

theorem keysFrom_changeEntry (i : EntryNo) {f : Entry → Entry} (hf : ∀ e, (f e).key = e.key ∧ (f e).category = e.category)
    (a : Ale) : KeysFrom a (changeEntry i f a) := by
  refine .of_map (fun j e => if j = i then f e else e) (fun j e => ?_) fun j => ?_
  · split
    · exact hf e
    · exact ⟨rfl, rfl⟩
  · by_cases h : j = i
    · subst h; simp
    · simp [h, Fin.val_ne_of_ne h]

theorem keysFrom_startHold (slot : Slot) (i : EntryNo) (a : Ale) : KeysFrom a (startHold slot i a) := by
  refine .of_map (fun j e => if j = i then e.heldBy slot a.clock else e.releasedBy (· == slot)) (fun j e => ?_) fun j => ?_
  · split
    · unfold Entry.heldBy; split <;> exact ⟨rfl, rfl⟩
    · rw [releasedBy_rest]; exact ⟨rfl, rfl⟩
  · have hj := startHold_entry slot i a j j.isLt
    by_cases h : j = i
    · subst h; simpa using hj
    · simpa [h, Fin.val_ne_of_ne h] using hj

/-- Steps 2 and 3 of an ALE event change entries in their standings alone. -/
theorem keysFrom_recompute (p : Psc) (before a : Ale) : KeysFrom a (raiseEpoch before (recompute p a)) := by
  refine .of_map (fun i e => { e with standing := standingOf p a.inUse i e }) (fun _ _ => ⟨rfl, rfl⟩) fun i => ?_
  rw [raiseEpoch_places, recompute_places]
  exact regraded_entry p a i i.isLt

theorem keeps_handOn (before : Ale) (news : EventNews) (s : State) : KeepsPlain s (handOn before news s) := by
  unfold handOn
  simp only
  refine .trans ?_ ((keeps_handRequests _ _).trans (keeps_disturbFloors _ _))
  split
  · exact (keeps_offerAll _ s).trans (keeps_focusChanged _)
  · exact keeps_offerAll _ s

theorem keeps_completeEvent (before : Ale) (news : EventNews) (s : State) : KeepsPlain s (completeEvent before news s) :=
  (keeps_ale (keysFrom_recompute s.psc before s.ale)).trans (keeps_handOn before news _)

/-- A hold that ends, or all that `released` names (R82 to R84). -/
theorem keeps_endHolds (released : Slot → Bool) (s : State) : KeepsPlain s { s with ale := endHolds released s.ale } :=
  keeps_ale (keysFrom_endHolds released s.ale)

/-- The end of one slot's hold. -/
theorem keeps_endHold (slot : Slot) (s : State) : KeepsPlain s { s with ale := endHold slot s.ale } :=
  keeps_endHolds (· == slot) s

/-- An entry made in a place keeps the keys apart when no entry has its key and category (R65, R68). -/
theorem keeps_makeEntry {s : State} {a : Ale} {e : Entry} (i : EntryNo) (h : KeysFrom s.ale a)
    (hnew : ∀ (j : EntryNo) (f : Entry), s.ale.places[j].entry = some f → ¬(f.key = e.key ∧ f.category = e.category)) :
    KeepsPlain s { s with ale := makeEntry i e a } := by
  have hplace : ∀ j : EntryNo, (makeEntry i e a).places[j].entry = if j = i then some e else a.places[j].entry := fun j => by
    simp only [makeEntry, Fin.getElem_fin, getElem_updateAt, Fin.ext_iff]
    split <;> rfl
  have hother : ∀ (j : EntryNo) (f : Entry), a.places[j].entry = some f → ¬(f.key = e.key ∧ f.category = e.category) :=
    fun j f hf ⟨hk, hc⟩ => by
      obtain ⟨o, ho, hok, hoc⟩ := h j f hf
      exact hnew j o ho ⟨hok.trans hk, hoc.trans hc⟩
  refine { keysUnique := fun hu j k f g hf hg hk hc => ?_ }
  have hf := (hplace j).symm.trans hf
  have hg := (hplace k).symm.trans hg
  split at hf <;> split at hg
  · exact ‹j = i›.trans ‹k = i›.symm
  · cases hf
    exact absurd ⟨hk.symm, hc.symm⟩ (hother k g hg)
  · cases hg
    exact absurd ⟨hk, hc⟩ (hother j f hf)
  · exact (keeps_ale h).keysUnique hu j k f g hf hg hk hc

theorem keysFrom_evict (i : EntryNo) (a : Ale) : KeysFrom a (evict i a) := by
  have hfree : ∀ b : Ale, KeysFrom b { b with places := updateAt b.places i freePlace } := fun b j e he => by
    simp only [Fin.getElem_fin, getElem_updateAt] at he
    split at he
    · cases he
    · exact ⟨e, he, rfl, rfl⟩
  unfold evict
  simp only
  split
  · exact (keysFrom_endHolds _ a).trans (hfree _)
  · exact hfree a

/-- An activation changes neither key nor category (R69). -/
theorem activate_key (clock : Half) (detection : Byte) (e : Entry) :
    (activate clock detection e).key = e.key ∧ (activate clock detection e).category = e.category := by
  unfold activate
  split <;> exact ⟨rfl, rfl⟩

theorem keysFrom_restoreAll (clock : Half) (moved : List EntryNo) (a : Ale) : KeysFrom a (restoreAll clock moved a) := by
  unfold restoreAll
  induction moved generalizing a with
  | nil => exact .refl a
  | cons i moved ih => exact (keysFrom_changeEntry i (f := restoreEntry clock) (fun _ => ⟨rfl, rfl⟩) a).trans (ih _)

theorem keysFrom_rollUp (zone : Option Nat) (a : Ale) : KeysFrom a (rollUp zone a) := by
  cases zone <;> exact .refl a

/-- Resolution against a new plan changes neither key nor category (R85). -/
theorem resolveAgain_key {p : Psc} {place : Place} {e : Entry} (h : (resolveAgain p place).entry = some e) :
    ∃ o, place.entry = some o ∧ o.key = e.key ∧ o.category = e.category := by
  unfold resolveAgain at h
  split at h
  · exact ⟨e, h, rfl, rfl⟩
  · rename_i o ho
    have hchange : ∀ x : Entry, (if x = o then place else { change := place.change + 1, entry := some x }).entry = some e →
        x.key = o.key → x.category = o.category → o.key = e.key ∧ o.category = e.category := fun x hx hk hc => by
      split at hx
      · cases ho.symm.trans hx
        exact ⟨rfl, rfl⟩
      · cases hx
        exact ⟨hk.symm, hc.symm⟩
    refine ⟨o, ho, ?_⟩
    dsimp only at h
    split at h
    · exact hchange _ h rfl rfl
    · exact hchange _ h rfl rfl

theorem keysFrom_aleTakesPlan (p : Psc) (a : Ale) : KeysFrom a (aleTakesPlan p a) := fun i e he => by
  have hplace : (aleTakesPlan p a).places[i] = resolveAgain p a.places[i] := by simp [aleTakesPlan]
  rw [hplace] at he
  exact resolveAgain_key he

theorem keysFrom_clearedAle (a : Ale) : KeysFrom a (clearedAle a) := fun i e he => by
  simp [clearedAle, freePlace] at he

/-! ### Marks (R26, R31) -/

/-- The law of the marks, of one floor. -/
def MarkSound (s : State) (f : Fin 128) : Prop :=
  (s.cxm.marks[f].mark = .searching → ∃ c, s.cxm.marks[f].context = some c ∧ s.cxm.contexts[c].assigned = true) ∧
  (s.cxm.marks[f].mark = .unsearched → s.cxm.marks[f].context = none)

/-- A mark that a change may set: one that is Searching names an Assigned context, one that is Unsearched none. -/
def SoundMark (s : State) (m : FloorMark) : Prop :=
  (m.mark = .searching → ∃ c, m.context = some c ∧ s.cxm.contexts[c].assigned = true) ∧
  (m.mark = .unsearched → m.context = none)

theorem soundMark_unsearchedAt (s : State) (time : Half) : SoundMark s (unsearchedAt time) :=
  ⟨fun h => (by cases h), fun _ => rfl⟩

/-- Marks that are all Unsearched are sound. -/
theorem marksSound_of_blank {s : State} {time : Half} (h : s.cxm.marks = Vector.replicate 128 (unsearchedAt time)) :
    s.marksSound := fun f => by
  have hf : s.cxm.marks[f] = unsearchedAt time := by simp [h]
  rw [hf]
  exact soundMark_unsearchedAt s time

/-- A sound mark set leaves its floor sound, and every floor that was. -/
theorem markSound_changeMark {f : Nat} {m : FloorMark} {s : State} (carried : Option CtxNo) (hm : SoundMark s m)
    {g : Fin 128} (hg : g.val = f ∨ MarkSound s g) : MarkSound (changeMark f m carried s) g := by
  have hassigned : ∀ c : CtxNo, (changeMark f m carried s).cxm.contexts[c].assigned = s.cxm.contexts[c].assigned := fun c => by
    rw [changeMark_context_rest]
  have hmarks : (changeMark f m carried s).cxm.marks[g] = if g.val = f then m else s.cxm.marks[g] := by
    rw [changeMark_cxm]
    simp [Vector.getElem_setIfInBounds, eq_comm]
  unfold MarkSound
  simp only [hassigned, hmarks]
  split
  · exact hm
  · exact hg.resolve_left ‹_›

/-- A change to a sound mark keeps the plain laws (R30). -/
theorem keeps_changeMark {f : Nat} {m : FloorMark} {s : State} (carried : Option CtxNo) (hm : SoundMark s m) :
    KeepsPlain s (changeMark f m carried s) := by
  have hmarked : KeepsButMarks s { s with cxm.marks := s.cxm.marks.setIfInBounds f m } := {}
  have hrest : KeepsButMarks s (changeMark f m carried s) := hmarked.trans
    (((keeps_offer _ _).trans (keeps_requestNormal _ _)).trans (keeps_disturbFloors _ _)).toKeepsButMarks
  exact { hrest with marksSound := fun h g => markSound_changeMark carried hm (Or.inr (h g)) }

theorem keeps_unmark (f : Nat) (s : State) : KeepsPlain s (unmark f s) :=
  keeps_changeMark _ (soundMark_unsearchedAt s s.ale.clock)

/-- Floors unmarked one after another are sound, and so is every floor that was. -/
theorem markSound_unmarkAll (fs : List Nat) {s : State} {g : Fin 128} (hg : g.val ∈ fs ∨ MarkSound s g) :
    MarkSound (fs.foldl (fun s f => unmark f s) s) g := by
  induction fs generalizing s with
  | nil => exact hg.resolve_left List.not_mem_nil
  | cons f fs ih =>
    have hnext : g.val = f ∨ MarkSound s g → MarkSound (unmark f s) g :=
      markSound_changeMark _ (soundMark_unsearchedAt s s.ale.clock)
    rcases hg with hg | hg
    · rcases List.mem_cons.1 hg with hg | hg
      · exact ih (Or.inr (hnext (Or.inl hg)))
      · exact ih (Or.inl hg)
    · exact ih (Or.inr (hnext (Or.inr hg)))

end Sys2Proof.Machine
end

section
/-!
SUPPORT. The plain laws of the lines, of the plan's coming and going, and of the bus (R40, R46, R52, R107, R110, R117, R156).
-/

namespace Sys2Proof.Machine

/-! ### Contacts (R107, R110) -/

/-- The law of contacts, of one contact. -/
def ContactSound (c : Contact) : Prop :=
  (c.kind = .unused → c.accepted = .normal ∧ c.count = 0 ∧ c.pending = none) ∧ (c.accepted = .latchedActive → c.count = 0)

/-- A contact of a kind in use is sound with count 0. -/
theorem contactSound_of_used {c : Contact} (hk : c.kind ≠ .unused) (hc : c.count = 0) : ContactSound c :=
  ⟨fun h => absurd h hk, fun _ => hc⟩

/-- A contact of a kind in use is sound while it is not Latched Active. -/
theorem contactSound_of_unlatched {c : Contact} (hk : c.kind ≠ .unused) (ha : c.accepted ≠ .latchedActive) :
    ContactSound c :=
  ⟨fun h => absurd h hk, fun h => absurd h ha⟩

theorem contactSound_debounce (sample : Bool) {c : Contact} (h : ContactSound c) : ContactSound (debounce sample c) := by
  unfold debounce
  split
  · exact h
  · rename_i hk
    split
    · exact contactSound_of_used hk rfl
    · exact contactSound_of_used hk rfl
    · exact contactSound_of_used hk rfl
    · rename_i ha
      split
      · exact contactSound_of_used hk rfl
      · exact contactSound_of_unlatched hk (by simp [ha])
    · rename_i ha
      split
      · exact contactSound_of_used hk rfl
      · exact contactSound_of_unlatched hk (by simp [ha])

theorem contactSound_unlatched (sample : Bool) {c : Contact} (hk : c.kind ≠ .unused) : ContactSound (unlatched sample c) := by
  unfold unlatched
  split
  · exact contactSound_of_used hk rfl
  · exact contactSound_of_used hk rfl

theorem contactSound_offered {c : Contact} (h : ContactSound c) : ContactSound { c with pending := none } :=
  ⟨fun hk => have ⟨ha, hc, _⟩ := h.1 hk; ⟨ha, hc, rfl⟩, h.2⟩

/-- A contact as a plan sets it is Normal with count 0 and nothing pending (R108). -/
theorem contactSound_contactFromPlan (m : Memory) (line : Nat) : ContactSound (contactFromPlan m line) :=
  ⟨fun _ => ⟨rfl, rfl, rfl⟩, fun _ => rfl⟩

theorem contactSound_unusedContact : ContactSound unusedContact := ⟨fun _ => ⟨rfl, rfl, rfl⟩, fun _ => rfl⟩

/-! ### Lifts (R114, R117) -/

/-- The law of lifts, of one lift. -/
def LiftSound (p : Psc) (l : Lift) : Prop :=
  (l.enabled = true → p.valid = true) ∧ ∀ f, l.shown = some f → p.valid = true ∧ f < headerFloors p.planSpace

/-- A shown floor moved towards a candidate of the building stays in the building (R117). -/
theorem stepTowards_lt {shown candidate maxStep floors : Nat} (hs : shown < floors) (hc : candidate < floors) :
    stepTowards shown candidate maxStep < floors := by
  unfold stepTowards
  split <;> omega

/-- The judgement of a position leaves a lift enabled as it was, and shows a floor of the building (R117). -/
theorem liftSound_judgePosition {p : Psc} (hp : p.valid = true) (value : BitVec 7) {l : Lift} (h : LiftSound p l) :
    LiftSound p (judgePosition (headerFloors p.planSpace) value l) := by
  refine ⟨fun _ => hp, fun f hf => ⟨hp, ?_⟩⟩
  unfold judgePosition at hf
  simp only at hf
  split at hf
  · exact (h.2 f hf).2
  · have hcandidate : ((value.toNat : Int) - l.base.toNat).toNat < headerFloors p.planSpace := by omega
    split at hf
    · cases hf
      exact hcandidate
    · rename_i shown hshown
      split at hf
      · cases hf
        exact hcandidate
      · cases hf
        exact stepTowards_lt (h.2 shown hshown).2 hcandidate

theorem liftSound_examineLift {p : Psc} (fault : Bool) (gray : BitVec 7) {l : Lift} (h : LiftSound p l) :
    LiftSound p (examineLift (headerFloors p.planSpace) fault gray l) := by
  unfold examineLift
  split
  · rename_i he
    split
    · split
      · exact h
      · exact h
    · refine liftSound_judgePosition (h.1 he) _ ?_
      split
      · exact h
      · exact h
  · exact h

/-- A lift that is not enabled and shows no floor. -/
theorem liftSound_of_blank {p : Psc} {l : Lift} (he : l.enabled = true → p.valid = true) (hs : l.shown = none) :
    LiftSound p l :=
  ⟨he, fun f hf => (by rw [hs] at hf; cases hf)⟩

/-! ### A scan (R109, R112) -/

theorem keeps_scanLines (levels : BitVec 32) (s : State) : KeepsPlain s { s with lmn := scanLines s.psc levels s.lmn } :=
  { contactsSound := fun h k => by
      have hk : (scanLines s.psc levels s.lmn).contacts[k] =
          debounce (sampleLines s.psc levels)[contactLine k] s.lmn.contacts[k] := by simp [scanLines]
      exact hk ▸ contactSound_debounce _ (h k)
    liftsSound := fun h k => by
      have hk : ∃ fault gray, (scanLines s.psc levels s.lmn).lifts[k] =
          examineLift (headerFloors s.psc.planSpace) fault gray s.lmn.lifts[k] := ⟨_, _, by simp [scanLines]; rfl⟩
      obtain ⟨fault, gray, hk⟩ := hk
      exact hk ▸ liftSound_examineLift fault gray (h k) }

/-- An offer of a pending report keeps the plain laws when its mark in the Line Monitor does (R54). -/
theorem keeps_offerPending (r : Report) {clear : Lmn → Lmn} {s : State}
    (hc : s.contactsSound → ∀ k : Fin 16, ContactSound (clear s.lmn).contacts[k])
    (hl : s.liftsSound → ∀ k : Fin 2, LiftSound s.psc (clear s.lmn).lifts[k]) : KeepsPlain s (offerPending r clear s) := by
  rcases offerPending_cases r clear s with ⟨hroom, h⟩ | ⟨-, h⟩
  · rw [h]
    refine { intakeBounded := fun _ => ?_, contactsSound := hc, liftsSound := hl }
    simp only [State.intakeBounded, intakePlaces, List.length_append, List.length_singleton]
    omega
  · rw [h]
    exact .refl s

theorem keeps_offerLift (s : State) (k : Fin 2) : KeepsPlain s (offerLift s k) := by
  unfold offerLift
  split
  · exact .refl s
  · refine keeps_offerPending _ (fun h => h) fun h j => ?_
    simp only [Fin.getElem_fin, getElem_updateAt]
    split
    · exact h j
    · exact h j

theorem keeps_offerContact (s : State) (k : Fin 16) : KeepsPlain s (offerContact s k) := by
  unfold offerContact
  split
  · exact .refl s
  · refine keeps_offerPending _ (fun h j => ?_) fun h => h
    simp only [Fin.getElem_fin, getElem_updateAt]
    split
    · exact contactSound_offered (h j)
    · exact h j

theorem keeps_offerReports (s : State) : KeepsPlain s (offerReports s) :=
  (keeps_foldl (fun u => u) keeps_offerLift _ s).trans (keeps_foldl (fun u => u) keeps_offerContact _ _)

/-! ### The plan's coming and going (R40, R43 to R47) -/

/-- While the plan is not Valid, no crew is Assigned and no lift is enabled or shows a floor, so a change of the plan store keeps
the plain laws as soon as it names its run. -/
theorem keeps_psc {s : State} {p : Psc} (flag : Bool) (hs : s.psc.valid = false)
    (hrun : s.runNamed → { s with psc := p }.runNamed) :
    KeepsPlain s { s with psc := p, pbi.loaderFlag := flag } :=
  { runNamed := hrun
    crewsNeedPlan := fun h c hc => absurd (h c hc) (by simp [hs])
    liftsSound := fun h k =>
      ⟨fun he => absurd ((h k).1 he) (by simp [hs]), fun f hf => absurd ((h k).2 f hf).1 (by simp [hs])⟩ }

theorem valid_eq_false {p : Psc} : p.valid = false ↔ p.state ≠ .valid := by
  simp [Psc.valid]

/-- A map in which the Loader slot alone is of class Loader (R156), set with the end of the holds that R84 names. -/
theorem keeps_setMap {classes : Vector SlotClass 8} {s : State}
    (h : ∀ slot : Slot, classes[slot] = .loader ↔ slot = s.pbi.loaderSlot) : KeepsPlain s (setMap classes s) :=
  .trans (keeps_endHolds (fun slot => classes[slot] != .console) s) { oneLoader := fun _ _ => h }

theorem loaderOnlyMap_loader (loader slot : Slot) : (loaderOnlyMap loader)[slot] = .loader ↔ slot = loader := by
  unfold loaderOnlyMap
  by_cases h : slot = loader
  · subst h; simp
  · simp [h, Fin.val_ne_of_ne (Ne.symm h)]

theorem slotEntryClass_ne_loader (m : Memory) (slot : Slot) : slotEntryClass m slot ≠ .loader := by
  unfold slotEntryClass
  split
  · split <;> simp
  · simp
  · simp
  · simp

theorem headerMap_loader (m : Memory) (loader slot : Slot) : (headerMap m loader)[slot] = .loader ↔ slot = loader := by
  simp only [headerMap, Fin.getElem_fin, getElem_tabulate, Fin.eta]
  by_cases h : slot = loader
  · simp [h]
  · simp only [h, if_false, iff_false]
    split
    · exact slotEntryClass_ne_loader m slot
    · simp

/-- A plan that leaves Valid while no crew is Assigned blanks the lifts and the contacts and leaves the Loader alone in the map
(R46, R108). -/
theorem keeps_leaveValid {s : State} {p : Psc} (flag : Bool) (before : Ale) (hp : p.state ≠ .validating)
    (hfree : ∀ c : CtxNo, s.cxm.contexts[c].assigned = false) :
    KeepsPlain s (leaveValid before { s with psc := p, pbi.loaderFlag := flag }) := by
  have hblank : KeepsPlain s { s with psc := p, lmn := lmnWithoutPlan s.lmn, pbi.loaderFlag := flag } :=
    { runNamed := fun _ _ h => absurd h hp
      crewsNeedPlan := fun _ c hc => absurd ((hfree c).symm.trans hc) (by decide)
      contactsSound := fun _ k => by
        have hk : (lmnWithoutPlan s.lmn).contacts[k] = unusedContact := by simp [lmnWithoutPlan]
        exact hk ▸ contactSound_unusedContact
      liftsSound := fun _ k => by
        have hk : (lmnWithoutPlan s.lmn).lifts[k] =
            { liftPowerOn with base := s.lmn.lifts[k].base, maxStep := s.lmn.lifts[k].maxStep } := by simp [lmnWithoutPlan]
        exact hk ▸ liftSound_of_blank (fun h => by cases h) rfl }
  generalize hu : ({ s with psc := p, lmn := lmnWithoutPlan s.lmn, pbi.loaderFlag := flag } : State) = u at hblank
  have heq : leaveValid before { s with psc := p, pbi.loaderFlag := flag } =
      completeEvent before noNews (abandon false (setMap (loaderOnlyMap u.pbi.loaderSlot) u)) := by subst hu; rfl
  rw [heq]
  exact hblank.trans ((keeps_setMap (loaderOnlyMap_loader _)).trans
    ((keeps_abandon false _).trans (keeps_completeEvent before noNews _)))

/-- Where Begin Load and Erase Plan pass their checks, no crew is Assigned (R35). -/
theorem openingCheck_none {s : State} (h : openingCheck s = none) (c : CtxNo) : s.cxm.contexts[c].assigned = false := by
  unfold openingCheck at h
  split at h
  · split at h
    · cases h
    · rename_i hopen
      simp only [incidentOpen, Bool.or_eq_true, not_or, List.any_eq_true, List.mem_finRange, true_and, not_exists] at hopen
      exact Bool.eq_false_iff.2 (hopen.1.1 c)
  · cases h

theorem keeps_beginLoadBody (cmd : InFlight) (s : State) : KeepsPlain s (beginLoadBody cmd s).1 := by
  unfold beginLoadBody
  split
  · exact .refl s
  · rename_i hcheck
    dsimp only
    split
    · exact keeps_leaveValid s.pbi.loaderFlag s.ale (by simp) (openingCheck_none hcheck)
    · rename_i hv
      exact keeps_psc s.pbi.loaderFlag (Bool.eq_false_iff.2 hv) fun _ _ h => (by cases h)

theorem keeps_erasePlanBody (cmd : InFlight) (s : State) : KeepsPlain s (erasePlanBody cmd s).1 := by
  unfold erasePlanBody
  split
  · exact .refl s
  · rename_i hcheck
    dsimp only
    split
    · exact keeps_leaveValid true s.ale (by simp) (openingCheck_none hcheck)
    · rename_i hv
      exact keeps_psc true (Bool.eq_false_iff.2 hv) fun _ _ h => (by cases h)

theorem keeps_commitPlanBody (cmd : InFlight) (s : State) : KeepsPlain s (commitPlanBody cmd s).1 := by
  unfold commitPlanBody
  split
  · rename_i hl
    exact keeps_psc s.pbi.loaderFlag (valid_eq_false.2 (by simp [hl])) fun _ _ _ => ⟨by simp, by simp⟩
  · exact .refl s

theorem keeps_abortLoadBody (cmd : InFlight) (s : State) : KeepsPlain s (abortLoadBody cmd s).1 := by
  unfold abortLoadBody
  split
  · rename_i hl
    exact keeps_psc true (valid_eq_false.2 (by simp [hl])) fun _ _ h => (by cases h)
  · exact .refl s

/-- A run that fails leaves the plan Invalid (R43, R47). -/
theorem keeps_endInvalid (f : PlanFailure) {s : State} (hs : s.psc.state = .validating) : KeepsPlain s (endInvalid f s) := by
  have hsettled : KeepsPlain s
      (settle (setStatus .invalid s.psc.origin s.psc.stage f.reason f.offset s.psc.revision s)) :=
    keeps_psc true (valid_eq_false.2 (by simp [hs])) fun _ _ h => (by cases h)
  unfold endInvalid
  dsimp only
  split
  · refine hsettled.trans (.trans ?_ (keeps_setMap (loaderOnlyMap_loader s.pbi.loaderSlot)))
    exact { intakeBounded := fun _ => Nat.zero_le _ }
  · exact hsettled

/-- What each block takes from a plan that is Valid: the entries' floors and zones, the lines' and lifts' settings, blank marks
(R45, R85, R108). -/
theorem keeps_blocksTakePlan {s : State} (hv : s.psc.valid = true) :
    KeepsPlain s { s with
      ale := aleTakesPlan s.psc s.ale
      lmn := lmnFromPlan s.psc.planSpace s.lmn
      cxm.marks := Vector.replicate 128 (unsearchedAt 0) } :=
  { keysUnique := (keeps_ale (keysFrom_aleTakesPlan s.psc s.ale)).keysUnique
    contactsSound := fun _ k => by
      have hk : (lmnFromPlan s.psc.planSpace s.lmn).contacts[k] = contactFromPlan s.psc.planSpace (contactLine k) := by
        simp [lmnFromPlan]
      exact hk ▸ contactSound_contactFromPlan _ _
    liftsSound := fun _ k => by
      have hk : (lmnFromPlan s.psc.planSpace s.lmn).lifts[k] = liftFromPlan s.psc.planSpace (liftLine k) := by
        simp [lmnFromPlan]
      exact hk ▸ liftSound_of_blank (fun _ => hv) rfl
    marksSound := fun _ => marksSound_of_blank rfl }

/-- A run that passes makes the plan Valid, and every block takes it (R43, R45). -/
theorem keeps_becomeValid (zones : List ZonePlace) {s : State} (hs : s.psc.state = .validating) :
    KeepsPlain s (becomeValid zones s) := by
  have hvalid : KeepsPlain s (settle (setStatus .valid s.psc.origin 0 .noReason 0 (headerRevision s.psc.planSpace)
      { s with psc.zonePlaces := zones })) :=
    keeps_psc true (valid_eq_false.2 (by simp [hs])) fun _ _ h => (by cases h)
  exact hvalid.trans (.trans (keeps_setMap (headerMap_loader _ s.pbi.loaderSlot)) (.trans (keeps_blocksTakePlan rfl)
    ((keeps_completeEvent s.ale noNews _).trans (keeps_requestNormal _ _))))

/-- The stage under way completes (R41 to R43). -/
theorem keeps_completeStage {s : State} (hs : s.psc.state = .validating) : KeepsPlain s (completeStage s) := by
  unfold completeStage
  split
  · exact keeps_endInvalid _ hs
  · split
    · exact keeps_becomeValid _ hs
    · rename_i hstage
      refine keeps_psc s.pbi.loaderFlag (valid_eq_false.2 (by simp [hs])) fun h hp hv => ⟨?_, (h hp hv).2⟩
      simp only
      omega

end Sys2Proof.Machine
end

section
/-!
PROOFS. The plain laws that every step keeps: O7, command by command.
-/

namespace Sys2Proof.Machine

/-! ### Crews and their notices (R121 to R134) -/

/-- Assign Crew passes its checks under a Valid plan alone (R121). -/
theorem assignChecks_ok_valid {cmd : InFlight} {s : State} {a : Assignment} (h : assignChecks cmd s = .ok a) :
    s.psc.valid = true := by
  unfold assignChecks at h
  split at h
  · cases h
  · split at h
    · cases h
    · rename_i hv
      simpa using hv

theorem keeps_assignCrewBody (cmd : InFlight) (s : State) : KeepsPlain s (assignCrewBody cmd s).1 := by
  unfold assignCrewBody
  split
  · exact .refl s
  · rename_i a ha
    exact (keeps_setContext (fun _ => min_le_right _ _) (fun _ => Or.inr (assignChecks_ok_valid ha)) (fun _ => rfl)).trans
      (keeps_briefRequest _ _ _ _)

theorem keeps_moveCrewBody (cmd : InFlight) (s : State) : KeepsPlain s (moveCrewBody cmd s).1 := by
  unfold moveCrewBody
  split
  · exact .refl s
  · rename_i m hm
    exact (keeps_setContext (c := m.context) (x := movedContext m s.cxm.contexts[m.context]) (fun h => h) Or.inl
      (fun h => h)).trans (keeps_briefRequest _ _ _ _)

theorem keeps_dropFromComposer (c : CtxNo) (s : State) : KeepsPlain s (dropFromComposer c s) := by
  unfold dropFromComposer
  dsimp only
  split
  · exact .trans (t := { s with bcm.urgent := s.bcm.urgent.erase c, bcm.normal := s.bcm.normal.erase c }) {}
      (keeps_abandon false _)
  · exact {}

theorem keeps_returnPublished (c : CtxNo) (s : State) : KeepsPlain s (returnPublished c s) := by
  unfold returnPublished
  split
  · exact {}
  · exact .refl s

@[simp] theorem dropFromComposer_cxm (c : CtxNo) (s : State) : (dropFromComposer c s).cxm = s.cxm := by
  unfold dropFromComposer
  dsimp only
  split
  · rw [abandon_cxm]
  · rfl

@[simp] theorem returnPublished_cxm (c : CtxNo) (s : State) : (returnPublished c s).cxm = s.cxm := by
  unfold returnPublished
  split
  · rfl
  · rfl

theorem mem_searchingFloors {s : State} {c : CtxNo} {f : Fin 128} :
    f.val ∈ searchingFloors s c ↔ s.cxm.marks[f].mark = .searching ∧ s.cxm.marks[f].context = some c := by
  simp [searchingFloors, markAt_eq]

/-- A context freed leaves the floors unsound that it was searching, and those alone (R31). -/
theorem markSound_freed {s : State} {x : Context} {c : CtxNo} {u : State} (hu : u.cxm = s.cxm) {f : Fin 128}
    (h : MarkSound s f) (hf : f.val ∉ searchingFloors s c) : MarkSound (setContext c x u) f := by
  rw [mem_searchingFloors] at hf
  refine ⟨fun hs => ?_, fun hn => ?_⟩
  · rw [setContext_cxm, hu] at hs ⊢
    obtain ⟨d, hd, ha⟩ := h.1 hs
    have hne : d ≠ c := fun he => hf ⟨hs, he ▸ hd⟩
    exact ⟨d, hd, by simpa [Fin.val_ne_of_ne hne.symm] using ha⟩
  · rw [setContext_cxm, hu] at hn ⊢
    exact h.2 hn

/-- The release of a crew frees its context and unmarks the floors that it was searching (R31, R124). -/
theorem keeps_release (c : CtxNo) (s : State) : KeepsPlain s (release c s) := by
  let composer := returnPublished c (dropFromComposer c s)
  let freed := setContext c (freeContext s.cxm.contexts[c].briefEpoch) composer
  have hcxm : composer.cxm = s.cxm := by simp only [composer, returnPublished_cxm, dropFromComposer_cxm]
  have hfreed : KeepsButMarks composer freed := keepsButMarks_setContext (fun _ => le_rfl) (fun h => by cases h)
  have hcomposer : KeepsPlain s composer := (keeps_dropFromComposer c s).trans (keeps_returnPublished c _)
  have hrelease : KeepsPlain freed (release c s) := keeps_foldl (fun u => u) (fun s f => keeps_unmark f s) _ freed
  refine { hcomposer.toKeepsButMarks.trans (hfreed.trans hrelease.toKeepsButMarks) with marksSound := fun h f => ?_ }
  refine markSound_unmarkAll (searchingFloors s c) ?_
  by_cases hf : f.val ∈ searchingFloors s c
  · exact Or.inl hf
  · exact Or.inr (markSound_freed hcxm (h f) hf)

theorem keeps_withdrawCrewBody (cmd : InFlight) (s : State) : KeepsPlain s (withdrawCrewBody cmd s).1 := by
  unfold withdrawCrewBody
  split
  · exact .refl s
  · exact keeps_release _ s

theorem keeps_setConsoleMaskBody (cmd : InFlight) (s : State) : KeepsPlain s (setConsoleMaskBody cmd s).1 := by
  unfold setConsoleMaskBody
  dsimp only
  split
  · exact .refl s
  · exact {}

theorem keeps_takeConsoleNoticeBody (cmd : InFlight) (s : State) : KeepsPlain s (takeConsoleNoticeBody cmd s).1 := by
  unfold takeConsoleNoticeBody
  split
  · exact .refl s
  · split
    · exact .refl s
    · exact {}

theorem keeps_takeNoticeBody (slot : Slot) (cmd : InFlight) (s : State) : KeepsPlain s (takeNoticeBody slot cmd s).1 := by
  unfold takeNoticeBody
  split
  · exact .refl s
  · split
    · exact .refl s
    · exact keeps_setContext (fun h => h) Or.inl (fun h => h)

/-- Set Mask holds the mask at or below the ceiling (R126). -/
theorem keeps_setMaskBody (slot : Slot) (cmd : InFlight) (s : State) : KeepsPlain s (setMaskBody slot cmd s).1 := by
  unfold setMaskBody
  split
  · exact .refl s
  · exact keeps_setContext (fun _ => min_le_right _ _) Or.inl (fun h => h)

theorem keeps_requestBriefBody (slot : Slot) (cmd : InFlight) (s : State) :
    KeepsPlain s (requestBriefBody slot cmd s).1 := by
  unfold requestBriefBody
  split
  · exact .refl s
  · split
    · exact keeps_briefRequest _ _ _ s
    · exact .refl s

theorem keeps_briefNowBody (cmd : InFlight) (s : State) : KeepsPlain s (briefNowBody cmd s).1 := by
  unfold briefNowBody
  split
  · exact .refl s
  · exact keeps_briefRequest _ _ _ s

/-! ### Marks, lines and the incident -/

/-- What Mark Floor's checks leave to be marked (R27): a mark other than Unsearched, by an Assigned context. -/
theorem markFloorChecks_ok {slot : Slot} {cmd : InFlight} {s : State} {c : CtxNo} {mark : Mark} {floor : Nat}
    (h : markFloorChecks slot cmd s = .ok (c, mark, floor)) : s.cxm.contexts[c].assigned = true ∧ mark ≠ .unsearched := by
  unfold markFloorChecks at h
  split at h
  · cases h
  · rename_i d hd
    split at h
    · cases h
    · rename_i m hm
      split at h
      · cases h
      · split at h
        · cases h
        · split at h
          · cases h
          · cases h
            exact ⟨(gatewayContext_ok.1 hd).2.1, requestedMark_ne_unsearched hm⟩

theorem keeps_markFloorBody (slot : Slot) (cmd : InFlight) (s : State) : KeepsPlain s (markFloorBody slot cmd s).1 := by
  unfold markFloorBody
  split
  · exact .refl s
  · rename_i c mark floor hok
    obtain ⟨hassigned, hmark⟩ := markFloorChecks_ok hok
    dsimp only
    split
    · exact .refl s
    · exact keeps_changeMark _ ⟨fun _ => ⟨c, rfl, hassigned⟩, fun h => absurd h hmark⟩

theorem keeps_resetMarkBody (cmd : InFlight) (s : State) : KeepsPlain s (resetMarkBody cmd s).1 := by
  unfold resetMarkBody
  split
  · exact .refl s
  · dsimp only
    split
    · exact .refl s
    · exact keeps_unmark _ s

theorem keeps_unlatchLineBody (cmd : InFlight) (s : State) : KeepsPlain s (unlatchLineBody cmd s).1 := by
  unfold unlatchLineBody
  split
  · exact .refl s
  · rename_i k hk
    dsimp only
    split
    · exact .refl s
    · rename_i hkind
      split
      · exact .refl s
      · refine { contactsSound := fun h j => ?_ }
        have hj : (s.lmn.contacts.set k (unlatched s.lmn.samples[contactLine k] s.lmn.contacts[k]))[j] =
            if j = k then unlatched s.lmn.samples[contactLine k] s.lmn.contacts[k] else s.lmn.contacts[j] := by
          simp [Vector.getElem_set, Fin.ext_iff, eq_comm]
        show ContactSound _
        rw [hj]
        split
        · exact contactSound_unlatched _ hkind
        · exact h j

theorem keeps_clearComposition (hadFocus : Bool) (s : State) : KeepsPlain s (clearComposition hadFocus s) := by
  unfold clearComposition
  split
  · exact keeps_abandon true s
  · split
    · exact keeps_disturb s
    · exact .refl s

theorem keeps_incidentClearBody (cmd : InFlight) (s : State) : KeepsPlain s (incidentClearBody cmd s).1 := by
  unfold incidentClearBody
  split
  · exact .refl s
  · have hcleared : KeepsPlain s
        { s with ale := clearedAle s.ale, cxm.marks := Vector.replicate 128 (unsearchedAt 0) } :=
      { keysUnique := (keeps_ale (keysFrom_clearedAle s.ale)).keysUnique
        marksSound := fun _ => marksSound_of_blank rfl }
    exact hcleared.trans ((keeps_clearComposition _ _).trans (keeps_requestNormal _ _))

/-! ### Reports (R55, R66 to R77) -/

theorem keeps_gapOnly (gap : Option PanelNo) (s : State) : KeepsPlain s (gapOnly gap s) := keeps_offerAll _ s

/-- No entry has the key and category that a search did not find (R66). -/
theorem findEntry_none {a : Ale} {key : DeviceKey} {category : Category} (h : a.findEntry key category = none)
    (j : EntryNo) (f : Entry) (hf : a.places[j].entry = some f) : ¬(f.key = key ∧ f.category = category) := by
  unfold Ale.findEntry at h
  rw [List.find?_eq_none] at h
  simpa using h (j, f) (mem_inUse.2 hf)

/-- An activation that finds no entry makes one under a key and category of its own (R65, R68, R76, R77). -/
theorem keeps_activateNew (before : Ale) (gap : Option PanelNo) (r : Report) {s : State}
    (h : s.ale.findEntry r.key r.kind.category = none) : KeepsPlain s (activateNew before gap r s) := by
  unfold activateNew
  dsimp only
  split
  · exact (keeps_makeEntry _ (.refl s.ale) (findEntry_none h)).trans (keeps_completeEvent before _ _)
  · split
    · exact (keeps_makeEntry _ (keysFrom_evict _ s.ale) (findEntry_none h)).trans (keeps_completeEvent before _ _)
    · exact (keeps_ale (keysFrom_rollUp _ s.ale)).trans (keeps_handOn before _ _)

theorem keeps_processReport (before : Ale) (gap : Option PanelNo) (r : Report) (s : State) :
    KeepsPlain s (processReport before gap r s) := by
  unfold processReport
  split
  · rename_i hnone
    split
    · exact keeps_activateNew before gap r hnone
    · exact keeps_gapOnly gap s
  · rename_i i e _
    split
    · exact (keeps_ale (keysFrom_changeEntry i (activate_key s.ale.clock r.detection) s.ale)).trans
        (keeps_completeEvent before _ _)
    · split
      · exact (keeps_ale (keysFrom_changeEntry i (f := restoreEntry s.ale.clock) (fun _ => ⟨rfl, rfl⟩) s.ale)).trans
          (keeps_completeEvent before _ _)
      · exact keeps_gapOnly gap s

theorem keeps_recordPanel (p : PanelNo) (last : Byte) (gap : Bool) (s : State) :
    KeepsPlain s { s with ale := recordPanel p last gap s.ale } := {}

theorem keeps_panelReset (before : Ale) (p : PanelNo) (sequence : Byte) (s : State) :
    KeepsPlain s (panelReset before p sequence s) := by
  unfold panelReset
  dsimp only
  split
  · exact keeps_recordPanel p sequence false s
  · exact (keeps_recordPanel p sequence false s).trans
      ((keeps_ale (keysFrom_restoreAll s.ale.clock _ _)).trans (keeps_completeEvent before _ _))

theorem keeps_takeReport (r : Report) (s : State) : KeepsPlain s (takeReport r s) := by
  unfold takeReport
  split
  · split
    · exact .refl s
    · exact keeps_processReport _ _ r s
  · split
    · exact .refl s
    · exact keeps_panelReset _ _ _ s
    · exact (keeps_recordPanel _ _ _ s).trans (keeps_processReport _ _ r _)
    · exact (keeps_recordPanel _ _ _ s).trans (keeps_processReport _ _ r _)

/-! ### Compositions (R142 to R153) -/

theorem keeps_startComposition (s : State) : KeepsPlain s (startComposition s) := by
  unfold startComposition
  split
  · split
    · exact .refl s
    · exact {}
  · exact .refl s

theorem keeps_storeBytes (c : Composition) (off : Nat) (bytes : List Byte) (s : State) :
    KeepsPlain s (storeBytes c off bytes s) := {}

theorem keeps_setComposition (c : Composition) (s : State) : KeepsPlain s (setComposition c s) := {}

theorem keeps_writeItem (c : Composition) (bytes : List Byte) (s : State) (w : Walk) :
    KeepsPlain s (writeItem c bytes (s, w)).1 := keeps_storeBytes c _ bytes s

theorem keeps_putItem (c : Composition) (bytes : List Byte) (s : State) (w : Walk) :
    KeepsPlain s (putItem c bytes (s, w)).1 := by
  unfold putItem
  split
  · exact keeps_writeItem c bytes s w
  · exact .refl s

theorem keeps_putEntries (c : Composition) (floor : Nat) (es : List (EntryNo × Entry)) (sw : State × Walk) :
    KeepsPlain sw.1 (putEntries c floor es sw).1 := by
  induction es generalizing sw with
  | nil => exact .refl sw.1
  | cons x es ih => exact (keeps_putItem c (entryItem sw.1 x.1 x.2) sw.1 _).trans (ih _)

/-- A step of a walk writes the working buffer and the composition alone (R143). -/
theorem keeps_walkStep (c : Composition) (s : State) : KeepsPlain s (walkStep c s) := by
  unfold walkStep
  dsimp only
  split
  · exact (keeps_putItem c _ s _).trans (keeps_setComposition _ _)
  · split
    · exact keeps_setComposition _ s
    · exact (keeps_putItem c _ s _).trans (keeps_setComposition _ _)
  · split
    · exact keeps_setComposition _ s
    · exact ((keeps_putItem c _ s _).trans (keeps_putEntries c _ _ _)).trans (keeps_setComposition _ _)
  · exact (keeps_writeItem c _ s _).trans (keeps_setComposition _ _)
  · exact keeps_setComposition _ s

/-- The seal publishes a buffer and moves nothing else of its context but the brief's epoch and Fresh (R153). -/
theorem keeps_sealBrief (c : Composition) (s : State) : KeepsPlain s (sealBrief c s) := by
  unfold sealBrief
  extract_lets old epoch framed published _ returned
  have hframed : KeepsPlain s framed := (keeps_storeBytes c 0 _ s).trans (keeps_storeBytes c c.walk.offset _ _)
  have hpublished : KeepsPlain framed published := keeps_setContext (fun h => h) Or.inl (fun h => h)
  have hreturned : KeepsPlain published returned := by
    dsimp only [returned]
    split
    · exact {}
    · exact .refl published
  have hended : ∀ (u : State) (normal : List CtxNo),
      KeepsPlain u { u with bcm.normal := normal, bcm.composition := none } := fun _ _ => {}
  exact hframed.trans (hpublished.trans (hreturned.trans (hended returned _)))

/-! ### Transfers (R158 to R166) -/

theorem keeps_startHold (slot : Slot) (i : EntryNo) (s : State) : KeepsPlain s { s with ale := startHold slot i s.ale } :=
  keeps_ale (keysFrom_startHold slot i s.ale)

theorem keeps_ownerRead (t : Transfer) (p : BusPlace) (off n : Nat) (s : State) :
    KeepsPlain s (ownerRead t p off n s).state := by
  cases p with
  | planStatus =>
    unfold ownerRead planStatusAnswer readFrom
    dsimp only
    split
    · exact {}
    · exact .refl s
  | entry i =>
    unfold ownerRead
    dsimp only
    split
    · unfold lockedEntryRead
      split
      · exact .refl s
      · split
        · exact .refl s
        · split
          · exact .refl s
          · exact keeps_startHold t.slot i s
    · unfold plainEntryRead
      split
      · exact .refl s
      · exact .refl s
  | contextRecord =>
    unfold ownerRead contextWindowRead
    dsimp only
    split
    · exact .refl s
    · exact .refl s
  | briefWindow =>
    unfold ownerRead briefRead
    dsimp only
    split
    · exact .refl s
    · split
      · exact .refl s
      · dsimp only
        split
        · exact keeps_setContext (fun h => h) Or.inl (fun h => h)
        · exact .refl s
  | planSpace bank =>
    unfold ownerRead planSpaceRead
    dsimp only
    split <;> exact .refl s
  | _ => exact .refl s

theorem keeps_busRead (t : Transfer) (s : State) : KeepsPlain s (busRead t s) := by
  cases h : judge t false s with
  | none => rw [busRead_none h]; exact keeps_answer ..
  | some p => rw [busRead_some h]; exact (keeps_ownerRead t p _ _ s).trans (keeps_answer ..)

/-- An action changes neither key nor category of its entry (R71). -/
theorem keeps_actionWrite (slot : Slot) (i : EntryNo) (word : List Byte) (s : State) :
    KeepsPlain s (actionWrite slot i word s).state := by
  unfold actionWrite
  split
  · exact keeps_endHold slot s
  · rename_i phase _
    exact (keeps_ale ((keysFrom_changeEntry i (f := actedEntry phase s.ale.clock) (fun _ => ⟨rfl, rfl⟩) s.ale).trans
      (keysFrom_endHolds (· == slot) _))).trans (keeps_completeEvent s.ale noNews _)

theorem keeps_entryWrite (t : Transfer) (i : EntryNo) (off : Nat) (data : List Byte) (s : State) :
    KeepsPlain s (entryWrite t i off data s).state := by
  unfold entryWrite
  split
  · exact .refl s
  · split
    · split
      · exact keeps_actionWrite t.slot i data s
      · exact keeps_endHold t.slot s
    · exact .refl s

theorem keeps_commandAnswer (slot : Slot) (data : List Byte) (s : State) :
    KeepsPlain s (commandAnswer slot data s).state := by
  unfold commandAnswer
  split
  · exact .refl s
  · dsimp only
    split
    · exact {}
    · exact {}

theorem keeps_selectorWrite (slot : Slot) (b : Byte) (s : State) : KeepsPlain s (selectorWrite slot b s).state := by
  unfold selectorWrite
  split
  · exact {}
  · split
    · exact {}
    · exact .refl s

/-- An arrival from a panel joins the queue below the threshold of R53 alone. -/
theorem arrival_length (panel : PanelNo) (data : List Byte) {r : Rin} (h : r.queue.length ≤ intakePlaces) :
    (arrival panel data r).2.queue.length ≤ intakePlaces := by
  unfold arrival
  split
  · exact h
  · split
    · exact h
    · rename_i hroom
      simp only [List.length_append, List.length_singleton, panelThreshold, intakePlaces] at hroom ⊢
      omega

theorem keeps_intakeAnswer (t : Transfer) (data : List Byte) (s : State) : KeepsPlain s (intakeAnswer t data s).state := by
  unfold intakeAnswer
  split
  · exact { intakeBounded := fun h => arrival_length _ data h }
  · exact .refl s

/-- Plan space is stored while Loading, when no crew and no lift depends on it (R2, R40). -/
theorem keeps_planSpaceStore (t : Transfer) (bank : Fin 32) (off : Nat) (data : List Byte) (s : State) :
    KeepsPlain s (planSpaceStore t bank off data s).state := by
  rcases planSpaceStore_cases t bank off data s with ⟨⟨hl, -⟩, h⟩ | ⟨-, h⟩
  · rw [h]
    exact keeps_psc s.pbi.loaderFlag (valid_eq_false.2 (by simp [hl])) fun h => h
  · rw [h]
    exact .refl s

theorem keeps_ownerWrite (t : Transfer) (p : BusPlace) (off : Nat) (data : List Byte) (s : State) :
    KeepsPlain s (ownerWrite t p off data s).state := by
  cases p with
  | entry i => exact keeps_entryWrite t i off data s
  | commandSlot k => exact keeps_commandAnswer k data s
  | selector k => exact keeps_selectorWrite k _ s
  | intake => exact keeps_intakeAnswer t data s
  | planSpace bank => exact keeps_planSpaceStore t bank off data s
  | _ => exact .refl s

theorem keeps_busWrite (t : Transfer) (data : List Byte) (s : State) : KeepsPlain s (busWrite t data s) := by
  cases h : judge t true s with
  | none => rw [busWrite_none h]; exact keeps_answer ..
  | some p => rw [busWrite_some h]; exact (keeps_ownerWrite t p _ _ s).trans (keeps_answer ..)

/-! ### Power and bus reset (R40, R44, R168) -/

/-- The blocks at their power-on values meet the laws that read them alone. -/
theorem keeps_powerOnBlocks {s t : State} (hrun : t.runNamed) (hloader : t.oneLoader) (hrin : t.rin.queue = [])
    (hale : t.ale = alePowerOn) (hlmn : t.lmn = lmnPowerOn) (hcxm : t.cxm = cxmPowerOn) : KeepsPlain s t := by
  obtain ⟨hplaces, -⟩ := alePowerOn_values
  obtain ⟨-, -, hlifts⟩ := lmnPowerOn_values
  obtain ⟨hcontexts, -⟩ := cxmPowerOn_values
  exact
    { runNamed := fun _ => hrun
      oneLoader := fun _ => hloader
      intakeBounded := fun _ => by simp [State.intakeBounded, hrin]
      contactsSound := fun _ k => by
        rw [hlmn]
        have hk : lmnPowerOn.contacts[k] = unusedContact := by simp [lmnPowerOn]
        exact hk ▸ contactSound_unusedContact
      masksBelowCeilings := fun _ c => by rw [hcxm, hcontexts c]; exact le_rfl
      crewsNeedPlan := fun _ c hc => by rw [hcxm, hcontexts c] at hc; cases hc
      liftsSound := fun _ k => by
        obtain ⟨he, hs, -⟩ := hlifts k
        rw [hlmn]
        exact liftSound_of_blank (fun h => absurd (he.symm.trans h) (by decide)) hs
      keysUnique := fun _ i j e f he _ _ _ => by rw [hale, hplaces i] at he; cases he
      marksSound := fun _ => marksSound_of_blank (by rw [hcxm]; rfl) }

theorem pscPowerOn_runNamed (p : Psc) (h : (pscPowerOn p).state = .validating) :
    (pscPowerOn p).stage ≠ 0 ∧ (pscPowerOn p).origin ≠ .noRun := by
  unfold pscPowerOn at *
  dsimp only at *
  split
  · simp_all
  · simp_all
  · simp
  · simp
  · simp

theorem mapPowerOn_loader (p : Psc) (loader slot : Slot) : (mapPowerOn p loader)[slot] = .loader ↔ slot = loader := by
  unfold mapPowerOn
  split
  · exact loaderOnlyMap_loader loader slot
  · exact loaderOnlyMap_loader loader slot
  · exact headerMap_loader _ loader slot
  · exact headerMap_loader _ loader slot
  · exact headerMap_loader _ loader slot

theorem keeps_powerOnState (loader : Slot) (s : State) : KeepsPlain s (powerOnState loader s) :=
  keeps_powerOnBlocks (fun _ h => pscPowerOn_runNamed s.psc h) (fun _ => mapPowerOn_loader s.psc loader) rfl rfl rfl rfl

theorem keeps_lossOfPower {s t : State} (h : execLossOfPower s = .next t) : KeepsPlain s t := by
  cases h
  exact keeps_powerOnBlocks (fun h => by cases h) (fun h => by cases h) rfl rfl rfl rfl

theorem keeps_busResetState (s : State) : KeepsPlain s (busResetState s) :=
  .trans (keeps_endHolds (fun _ => true) s) {}

/-! ### Every command -/

/-- The completion of a command whose body keeps the plain laws keeps them. -/
theorem keeps_command {slot : Slot} {code : CommandCode} {body : InFlight → State → State × CommandOutcome} {s t : State}
    (hb : ∀ cmd, KeepsPlain s (body cmd s).1) (h : event (carryOut slot code body) s = .next t) : KeepsPlain s t :=
  keeps_event (keeps_carryOut hb) h

theorem keeps_validationStage {s t : State} (h : execValidationStage s = .next t) : KeepsPlain s t := by
  refine keeps_event ?_ h
  split
  · exact keeps_completeStage ‹_›
  · exact .refl s

theorem keeps_reportTake {s t : State} (h : execReportTake s = .next t) : KeepsPlain s t := by
  refine keeps_event ?_ h
  split
  · exact .refl s
  · split
    · exact .refl s
    · rename_i r rest hq
      refine .trans (t := { s with rin.queue := rest }) ?_ (keeps_takeReport r _)
      refine { intakeBounded := fun hb => ?_ }
      simp only [State.intakeBounded, hq, List.length_cons] at hb ⊢
      omega

theorem keeps_holdExpiry {slot : Slot} {s t : State} (h : execHoldExpiry slot s = .next t) : KeepsPlain s t := by
  refine keeps_event ?_ h
  split
  · exact keeps_endHold slot s
  · exact .refl s

theorem keeps_incidentClockTick {s t : State} (h : execIncidentClockTick s = .next t) : KeepsPlain s t :=
  keeps_event (f := fun s => { s with ale.clock := saturatingSucc16 s.ale.clock }) {} h

theorem keeps_lineScan {levels : BitVec 32} {s t : State} (h : execLineScan levels s = .next t) : KeepsPlain s t :=
  keeps_event (f := fun s => offerReports { s with lmn := scanLines s.psc levels s.lmn })
    ((keeps_scanLines levels s).trans (keeps_offerReports _)) h

theorem keeps_walk {s t : State} (h : execWalkStep s = .next t) : KeepsPlain s t := by
  refine keeps_event ?_ h
  split
  · exact .refl s
  · split
    · exact keeps_walkStep _ s
    · exact .refl s

theorem keeps_seal {s t : State} (h : execSeal s = .next t) : KeepsPlain s t := by
  refine keeps_event ?_ h
  split
  · exact .refl s
  · split
    · exact keeps_sealBrief _ s
    · exact .refl s

/-- Every command keeps the plain laws. -/
theorem exec_keeps (c : Instr) {s t : State} (h : exec c s = .next t) : KeepsPlain s t := by
  cases c with
  | powerOn straps => cases h; exact (keeps_powerOnState (strapSlot straps) s).trans (keeps_driveAttention _)
  | lossOfPower => exact keeps_lossOfPower h
  | busReset => exact keeps_event (keeps_busResetState s) h
  | planSpaceWrite tr data => exact keeps_event (keeps_busWrite tr data s) h
  | registerWrite tr data => exact keeps_event (keeps_busWrite tr data s) h
  | commandSlotWrite tr data => exact keeps_event (keeps_busWrite tr data s) h
  | intakeWrite tr data => exact keeps_event (keeps_busWrite tr data s) h
  | contextSelectorWrite tr data => exact keeps_event (keeps_busWrite tr data s) h
  | acknowledge slot entry change => exact keeps_event (keeps_busWrite _ _ s) h
  | discount slot entry change => exact keeps_event (keeps_busWrite _ _ s) h
  | clearEntry slot entry change => exact keeps_event (keeps_busWrite _ _ s) h
  | planStatusRead tr => exact keeps_event (keeps_busRead tr s) h
  | lockedRead tr => exact keeps_event (keeps_busRead tr s) h
  | briefWindowRead tr => exact keeps_event (keeps_busRead tr s) h
  | beginLoad slot => exact keeps_command (keeps_beginLoadBody · s) h
  | commitPlan slot => exact keeps_command (keeps_commitPlanBody · s) h
  | abortLoad slot => exact keeps_command (keeps_abortLoadBody · s) h
  | erasePlan slot => exact keeps_command (keeps_erasePlanBody · s) h
  | incidentClear slot => exact keeps_command (keeps_incidentClearBody · s) h
  | assignCrew slot => exact keeps_command (keeps_assignCrewBody · s) h
  | moveCrew slot => exact keeps_command (keeps_moveCrewBody · s) h
  | withdrawCrew slot => exact keeps_command (keeps_withdrawCrewBody · s) h
  | setConsoleMask slot => exact keeps_command (keeps_setConsoleMaskBody · s) h
  | takeConsoleNotice slot => exact keeps_command (keeps_takeConsoleNoticeBody · s) h
  | briefNow slot => exact keeps_command (keeps_briefNowBody · s) h
  | unlatchLine slot => exact keeps_command (keeps_unlatchLineBody · s) h
  | resetMark slot => exact keeps_command (keeps_resetMarkBody · s) h
  | requestBrief slot => exact keeps_command (keeps_requestBriefBody slot · s) h
  | takeNotice slot => exact keeps_command (keeps_takeNoticeBody slot · s) h
  | setMask slot => exact keeps_command (keeps_setMaskBody slot · s) h
  | markFloor slot => exact keeps_command (keeps_markFloorBody slot · s) h
  | validationStage => exact keeps_validationStage h
  | reportTake => exact keeps_reportTake h
  | holdExpiry slot => exact keeps_holdExpiry h
  | incidentClockTick => exact keeps_incidentClockTick h
  | lineScan levels => exact keeps_lineScan h
  | compositionStart => exact keeps_event (keeps_startComposition s) h
  | walkStep => exact keeps_walk h
  -- SEAL, the one row left: its name is a keyword here.
  | _ => exact keeps_seal h

/-- A step keeps the plain laws: with nothing waiting the part idles, and taking the front command moves the queue alone. -/
theorem step_keeps {s t : State} (h : step s = .next t) : KeepsPlain s t := by
  unfold step at h
  split at h
  · cases h
    exact .refl s
  · rename_i c rest _
    exact .trans (t := { s with pending := rest }) {} (exec_keeps c h)

/-- Settles O7: each of the nine laws is one that every command keeps. -/
theorem stepKeepsPlainLaws : Obligations.StepKeepsPlainLaws := by
  intro s t h
  have hk := step_keeps h
  exact ⟨hk.runNamed, hk.oneLoader, hk.intakeBounded, hk.contactsSound, hk.masksBelowCeilings, hk.crewsNeedPlan,
    hk.liftsSound, hk.marksSound, hk.keysUnique⟩

end Sys2Proof.Machine
end

section
/-!
SUPPORT. What an event of the plan store does to the other blocks: the slot class map (R156), the ends of holds (R84), the
recomputation of an ALE event (R73), and a completion that moves the map or the Loader's flag (R164).
-/

namespace Sys2Proof.Machine

/-! ### The slot class map (R156) -/

theorem loaderOnlyMap_getElem (loader slot : Slot) :
    (loaderOnlyMap loader)[slot] = if slot = loader then .loader else .noClass := by
  unfold loaderOnlyMap
  by_cases h : slot = loader
  · subst h; simp
  · simp [h, Fin.val_ne_of_ne (Ne.symm h)]

theorem headerMap_getElem (m : Memory) (loader slot : Slot) :
    (headerMap m loader)[slot] =
      if slot = loader then .loader
      else if slotEntryOk m loader slot = true then slotEntryClass m slot
      else .noClass := by
  simp only [headerMap, Fin.getElem_fin, getElem_tabulate, Fin.eta]

theorem loaderOnlyMap_ne_console (loader slot : Slot) : (loaderOnlyMap loader)[slot] ≠ .console := by
  rw [loaderOnlyMap_getElem]
  split <;> decide

/-! ### Holds under a new map (R84) -/

/-- The end of holds keeps the holders that are not released. -/
theorem releasedBy_filter (released : Slot → Bool) (e : Entry) :
    e.releasedBy released = { e with holder := e.holder.filter fun slot => !released slot } := by
  rcases releasedBy_cases released e with ⟨slot, hs, hr, h⟩ | ⟨hk, h⟩
  · rw [h, hs, Option.filter_some, hr]
    rfl
  · have hkept : (e.holder.filter fun slot => !released slot) = e.holder := by
      cases hs : e.holder with
      | none => rfl
      | some slot => rw [Option.filter_some, hk slot hs]; rfl
    rw [h, hkept]

/-- Under a new map an entry keeps a holder that is of class Console there (R84). -/
theorem setMap_entry (m : Vector SlotClass 8) (s : State) (i : EntryNo) :
    (setMap m s).ale.places[i].entry = s.ale.places[i].entry.map fun e =>
      { e with holder := e.holder.filter fun slot => decide (m[slot] = .console) } := by
  rw [setMap_ale, Fin.getElem_fin, endHolds_entry]
  refine congrArg (Option.map · _) (funext fun e => ?_)
  rw [releasedBy_filter]
  congr 2
  funext slot
  by_cases h : m[slot] = .console <;> simp_all

theorem setMap_change (m : Vector SlotClass 8) (s : State) (i : EntryNo) :
    (setMap m s).ale.places[i].change = s.ale.places[i].change := by
  rw [setMap_ale, Fin.getElem_fin, endHolds_change]
  rfl

theorem setMap_timer (m : Vector SlotClass 8) (s : State) (k : Slot) :
    (setMap m s).ale.holdTimers[k] = (s.ale.holdTimers[k] && decide (m[k] = .console)) := by
  rw [setMap_ale, Fin.getElem_fin, endHolds_timer]
  by_cases h : m[k] = .console <;> simp_all

/-! ### The recomputation (R73, R75) -/

/-- Steps 2 and 3 of an ALE event change an entry in its standing alone. -/
theorem recomputed_entry (p : Psc) (before a : Ale) (i : EntryNo) :
    sameButStanding (raiseEpoch before (recompute p a)).places[i].entry a.places[i].entry := by
  rw [raiseEpoch_places, recompute_places, Fin.getElem_fin, regraded_entry]
  unfold sameButStanding
  rw [Option.map_map]
  rfl

theorem recomputed_free {p : Psc} {before a : Ale} {i : EntryNo} (h : a.places[i].entry = none) :
    (raiseEpoch before (recompute p a)).places[i].entry = none := by
  rw [raiseEpoch_places, recompute_places, Fin.getElem_fin, regraded_entry]
  exact congrArg _ h

theorem recomputed_change (p : Psc) (before a : Ale) (i : EntryNo) :
    (raiseEpoch before (recompute p a)).places[i].change = a.places[i].change := by
  rw [raiseEpoch_places, recompute_places, Fin.getElem_fin, regraded_change]
  rfl

/-- Steps 2 and 3 of an ALE event leave the roll-up counts and the panel records. -/
theorem recomputed_counts (p : Psc) (before a : Ale) :
    (raiseEpoch before (recompute p a)).zoneRollups = a.zoneRollups ∧
      (raiseEpoch before (recompute p a)).unplacedRollup = a.unplacedRollup ∧
      (raiseEpoch before (recompute p a)).panels = a.panels := by
  have hraise : ∀ b : Ale, (raiseEpoch before b).zoneRollups = b.zoneRollups ∧
      (raiseEpoch before b).unplacedRollup = b.unplacedRollup ∧ (raiseEpoch before b).panels = b.panels := fun b => by
    unfold raiseEpoch; split <;> exact ⟨rfl, rfl, rfl⟩
  obtain ⟨hz, hu, hp⟩ := hraise (recompute p a)
  rw [hz, hu, hp]
  unfold recompute
  dsimp only
  split <;> exact ⟨rfl, rfl, rfl⟩

/-! ### Completions -/

/-- A completion on a state whose bus interface has moved in the class map and the Loader's flag alone ends the command as
`Completed` says (R164). -/
theorem completed_of_moved {s u : State}
    (hu : u.pbi = { s.pbi with classes := u.pbi.classes, loaderFlag := u.pbi.loaderFlag }) (slot : Slot) (cmd : InFlight)
    (o : CommandOutcome) : Completed s (driveAttention (completeCommand slot cmd o u)) slot cmd o := by
  unfold Completed
  rw [driveAttention_pbi, completeCommand_pbi, hu]

end Sys2Proof.Machine
end

section
/-!
SUPPORT. The Loader's commands (R35 to R38) and the plan's leaving Valid (R46): their checks, and an event that reaches no
crew and no Console Queue.
-/

namespace Sys2Proof.Machine

/-! ### An event that nobody hears (R46, R103, R129, R130) -/

/-- An offer reaches no queue while no context is Assigned and no slot is a Console. -/
theorem offer_unheard {s : State} (hfree : ∀ c : CtxNo, s.cxm.contexts[c].assigned = false)
    (hmap : ∀ k : Slot, s.pbi.classes[k] ≠ .console) (n : Notice) : offer n s = s := by
  have hcontexts : (offer n s).cxm.contexts = s.cxm.contexts := table_ext fun c => by
    have hkept : deliveredTo (currentRange s c) s.cxm.contexts[c] n = false := by rw [deliveredTo, hfree c]; rfl
    rw [offer_context, hkept]
    rfl
  have hslots : consoleSlots s.pbi.classes = [] := List.filter_eq_nil_iff.2 fun k _ => by simpa using hmap k
  have hconsoles : (offer n s).cxm.consoles = s.cxm.consoles := table_ext fun q => by
    rw [offer_console, if_neg (by simp [consoleOwner, hslots])]
  have hcxm : (offer n s).cxm = { s.cxm with contexts := (offer n s).cxm.contexts, consoles := (offer n s).cxm.consoles } := rfl
  have hrest : offer n s = { s with cxm := (offer n s).cxm } := rfl
  rw [hrest, hcxm, hcontexts, hconsoles]

theorem offerAll_unheard {s : State} (hfree : ∀ c : CtxNo, s.cxm.contexts[c].assigned = false)
    (hmap : ∀ k : Slot, s.pbi.classes[k] ≠ .console) (ns : List Notice) : offerAll ns s = s := by
  induction ns with
  | nil => rfl
  | cons n ns ih => exact (congrArg (offerAll ns) (offer_unheard hfree hmap n)).trans ih

/-- Steps 4 and 5 of an ALE event leave the CXM and the BCM while no context is Assigned, no slot is a Console and the composer
is Idle. -/
theorem handOn_unheard {s : State} (before : Ale) (news : EventNews)
    (hfree : ∀ c : CtxNo, s.cxm.contexts[c].assigned = false) (hmap : ∀ k : Slot, s.pbi.classes[k] ≠ .console)
    (hidle : s.bcm.composition = none) : (handOn before news s).cxm = s.cxm ∧ (handOn before news s).bcm = s.bcm := by
  refine ⟨by rw [handOn_cxm, offerAll_unheard hfree hmap], ?_⟩
  have howed : ∀ moved touched urgent, ((List.finRange 32).filterMap fun c =>
      (owedRequest s moved touched urgent c).map fun u => (c, u)) = [] := fun moved touched urgent =>
    List.filterMap_eq_nil_iff.2 fun c _ => by rw [owedRequest, hfree c]; rfl
  have hfocus : focusChanged s = s := by
    rcases focusChanged_cases s with ⟨x, hx, -⟩ | ⟨-, h⟩
    · rw [hidle] at hx; cases hx
    · exact h
  unfold handOn
  dsimp only
  rw [howed, offerAll_unheard hfree hmap, hfocus, ite_self, disturbFloors_bcm]
  have hbcm : (handRequests [] s).bcm = s.bcm := rfl
  rw [hbcm, hidle, Option.map_none, ← hidle]

/-- With no context Assigned the composer is Idle (R137). -/
theorem composition_none_of_free {s : State} (hfree : ∀ c : CtxNo, s.cxm.contexts[c].assigned = false)
    (hs : s.requestsSound) : s.bcm.composition = none := by
  obtain ⟨-, -, hcomposing⟩ := hs
  cases h : s.bcm.composition with
  | none => rfl
  | some x => exact absurd ((hfree x.context).symm.trans (hcomposing x h).2) (by decide)

theorem abandon_idle {s : State} (requeue : Bool) (h : s.bcm.composition = none) : abandon requeue s = s := by
  unfold abandon; rw [h]

/-! ### Leaving Valid (R46) -/

@[simp] theorem leaveValid_ale (before : Ale) (s : State) : (leaveValid before s).ale =
    raiseEpoch before (recompute s.psc (setMap (loaderOnlyMap s.pbi.loaderSlot) s).ale) := by
  unfold leaveValid; simp

@[simp] theorem leaveValid_lmn (before : Ale) (s : State) : (leaveValid before s).lmn = lmnWithoutPlan s.lmn := by
  unfold leaveValid; simp

@[simp] theorem leaveValid_rin (before : Ale) (s : State) : (leaveValid before s).rin = s.rin := by
  unfold leaveValid; simp

@[simp] theorem leaveValid_pbi (before : Ale) (s : State) :
    (leaveValid before s).pbi = { s.pbi with classes := loaderOnlyMap s.pbi.loaderSlot } := by
  unfold leaveValid; simp

@[simp] theorem leaveValid_pending (before : Ale) (s : State) : (leaveValid before s).pending = s.pending := by
  unfold leaveValid; simp

/-- A plan that leaves Valid reaches no crew, no Console Queue and no composition, when no context is Assigned and the composer is
Idle: the new map has no Console slot. -/
theorem leaveValid_unheard {s : State} (before : Ale) (hfree : ∀ c : CtxNo, s.cxm.contexts[c].assigned = false)
    (hidle : s.bcm.composition = none) : (leaveValid before s).cxm = s.cxm ∧ (leaveValid before s).bcm = s.bcm := by
  unfold leaveValid
  dsimp only
  rw [abandon_idle false (by simpa using hidle)]
  have h := handOn_unheard (s := { setMap (loaderOnlyMap s.pbi.loaderSlot) s with
      lmn := lmnWithoutPlan s.lmn
      ale := raiseEpoch before (recompute s.psc (setMap (loaderOnlyMap s.pbi.loaderSlot) s).ale) }) before noNews hfree
    (fun k => loaderOnlyMap_ne_console s.pbi.loaderSlot k) hidle
  exact h

/-- Every entry loses its holder when the plan leaves Valid, and none other of its fields but the standing (R46, R84). -/
theorem leaveValid_entry (before : Ale) (s : State) (i : EntryNo) :
    sameButStanding (leaveValid before s).ale.places[i].entry
      (s.ale.places[i].entry.map fun e => { e with holder := none }) := by
  have hnone : ∀ e : Entry, (e.holder.filter fun slot => decide ((loaderOnlyMap s.pbi.loaderSlot)[slot] = .console)) = none :=
    fun e => Option.filter_eq_none_iff.2 fun slot _ => by simpa using loaderOnlyMap_ne_console s.pbi.loaderSlot slot
  have h := recomputed_entry s.psc before (setMap (loaderOnlyMap s.pbi.loaderSlot) s).ale i
  rw [setMap_entry] at h
  simp only [hnone] at h
  rwa [leaveValid_ale]

theorem leaveValid_change (before : Ale) (s : State) (i : EntryNo) :
    (leaveValid before s).ale.places[i].change = s.ale.places[i].change := by
  rw [leaveValid_ale, recomputed_change, setMap_change]

/-! ### The checks of Begin Load and Erase Plan (R35, R38) -/

theorem incidentOpen_eq_false {s : State} :
    incidentOpen s = false ↔ (∀ c : CtxNo, s.cxm.contexts[c].assigned = false) ∧
      (∀ (i : EntryNo) (e : Entry), s.ale.places[i].entry = some e → e.phase = .cleared) ∧ s.rin.queue = [] := by
  simp [incidentOpen, mem_inUse, and_assoc]

/-- Begin Load and Erase Plan pass their checks in the states of R35 when no incident is open. -/
theorem openingCheck_passes {s : State} (hstate : s.psc.state = .absent ∨ s.psc.state = .valid ∨ s.psc.state = .invalid)
    (hopen : incidentOpen s = false) : openingCheck s = none := by
  unfold openingCheck
  rw [if_pos hstate, hopen]
  rfl

/-- Begin Load and Erase Plan name the first of their checks that fails. -/
theorem openingCheck_fails {s : State} {r : CommandReason} (h : FirstFails (openingTable s) r) : openingCheck s = some r := by
  unfold openingCheck
  rcases h with ⟨hstate, rfl⟩ | ⟨hstate, h⟩
  · rw [if_neg hstate]
  · obtain ⟨hincident, rfl⟩ := firstFails_singleton.1 h
    have hopen : incidentOpen s = true := Bool.eq_true_of_not_eq_false (mt incidentOpen_eq_false.1 hincident)
    rw [if_pos hstate, if_pos hopen]

/-! ### Begin Load and Erase Plan as one command (R35, R38) -/

/-- The body of Erase Plan or of Begin Load. -/
def openingBody (erase : Bool) : InFlight → State → State × CommandOutcome :=
  if erase then erasePlanBody else beginLoadBody

/-- The plan store as an accepted Erase Plan or Begin Load leaves it, before the other blocks take the change. -/
def openedStore (erase : Bool) (s : State) : State :=
  if erase then settle (setStatus .absent .noRun 0 .noReason 0 0 { s with psc.planSpace := [] })
  else setStatus .loading .noRun 0 .noReason 0 0 s

/-- The row of either command carries out its body. -/
theorem exec_opening (erase : Bool) (slot : Slot) (s : State) :
    exec (if erase then .erasePlan slot else .beginLoad slot) s =
      event (carryOut slot (if erase then .erasePlan else .beginLoad) (openingBody erase)) s := by
  cases erase <;> rfl

theorem openingBody_refused {s : State} {r : CommandReason} (erase : Bool) (cmd : InFlight) (h : openingCheck s = some r) :
    openingBody erase cmd s = (s, .refused r) := by
  cases erase
  · simp [openingBody, beginLoadBody, h]
  · simp [openingBody, erasePlanBody, h]

/-- The state that an accepted Erase Plan or Begin Load leaves: where the plan was Valid, it leaves the other blocks as well. -/
def openedState (erase : Bool) (s : State) : State :=
  if s.psc.valid then leaveValid s.ale (openedStore erase s) else openedStore erase s

theorem openingBody_accepted {s : State} (erase : Bool) (cmd : InFlight) (h : openingCheck s = none) :
    openingBody erase cmd s = (openedState erase s, .done []) := by
  cases erase
  · simp [openingBody, openedState, openedStore, beginLoadBody, h]
  · simp [openingBody, openedState, openedStore, erasePlanBody, h]

/-- The plan status and the bytes that an accepted Erase Plan or Begin Load leaves. -/
theorem openedStore_psc (erase : Bool) (s : State) : (openedStore erase s).psc = { s.psc with
    planSpace := if erase then [] else s.psc.planSpace, state := if erase then .absent else .loading
    origin := .noRun, stage := 0, reason := .noReason, offset := 0, revision := 0 } := by
  cases erase <;> rfl

/-- Erase Plan settles, and Begin Load does not (R34). -/
theorem openedStore_pbi (erase : Bool) (s : State) :
    (openedStore erase s).pbi = { s.pbi with loaderFlag := if erase then true else s.pbi.loaderFlag } := by
  cases erase <;> rfl

/-- The change of the plan store leaves the other blocks as they stand. -/
theorem openedStore_rest (erase : Bool) (s : State) :
    (openedStore erase s).rin = s.rin ∧ (openedStore erase s).ale = s.ale ∧ (openedStore erase s).lmn = s.lmn ∧
      (openedStore erase s).cxm = s.cxm ∧ (openedStore erase s).bcm = s.bcm ∧ (openedStore erase s).pending = s.pending := by
  cases erase <;> exact ⟨rfl, rfl, rfl, rfl, rfl, rfl⟩

theorem openedState_of_valid {s : State} (erase : Bool) (h : s.psc.state = .valid) :
    openedState erase s = leaveValid s.ale (openedStore erase s) := by
  simp [openedState, Psc.valid, h]

theorem openedState_of_not_valid {s : State} (erase : Bool) (h : s.psc.state ≠ .valid) :
    openedState erase s = openedStore erase s := by
  simp [openedState, Psc.valid, h]

theorem openedState_psc (erase : Bool) (s : State) : (openedState erase s).psc = (openedStore erase s).psc := by
  unfold openedState
  split
  · exact leaveValid_psc s.ale _
  · rfl

theorem openedState_pbi (erase : Bool) (s : State) : (openedState erase s).pbi =
    { s.pbi with
      classes := if s.psc.state = .valid then loaderOnlyMap s.pbi.loaderSlot else s.pbi.classes
      loaderFlag := if erase then true else s.pbi.loaderFlag } := by
  by_cases h : s.psc.state = .valid
  · rw [openedState_of_valid erase h, leaveValid_pbi, openedStore_pbi, if_pos h]
  · rw [openedState_of_not_valid erase h, openedStore_pbi, if_neg h]

/-- Where no context is Assigned and the composer is Idle, an accepted Erase Plan or Begin Load leaves the RIN, the CXM and the
BCM. -/
theorem openedState_rest {s : State} (erase : Bool) (hfree : ∀ c : CtxNo, s.cxm.contexts[c].assigned = false)
    (hidle : s.bcm.composition = none) :
    (openedState erase s).rin = s.rin ∧ (openedState erase s).cxm = s.cxm ∧ (openedState erase s).bcm = s.bcm ∧
      (openedState erase s).pending = s.pending := by
  obtain ⟨hrin, -, -, hcxm, hbcm, hpending⟩ := openedStore_rest erase s
  unfold openedState
  split
  · obtain ⟨hc, hb⟩ := leaveValid_unheard (s := openedStore erase s) s.ale (by rwa [hcxm]) (by rwa [hbcm])
    rw [leaveValid_rin, leaveValid_pending, hc, hb]
    exact ⟨hrin, hcxm, hbcm, hpending⟩
  · exact ⟨hrin, hcxm, hbcm, hpending⟩

end Sys2Proof.Machine
end

section
/-!
PROOFS. The statements about power-on and the Loader's commands: O27, O31 and O32.
-/

namespace Sys2Proof.Machine

/-! ### Power-on (R44) -/

/-- What power-on makes of the stored state (R44). -/
theorem pscPowerOn_status (p : Psc) :
    (pscPowerOn p).offset = 0 ∧ (pscPowerOn p).revision = 0 ∧
    (p.state = .absent → (pscPowerOn p).state = .absent ∧ (pscPowerOn p).origin = .noRun ∧ (pscPowerOn p).stage = 0 ∧
      (pscPowerOn p).reason = .noReason) ∧
    (p.state = .loading → (pscPowerOn p).state = .invalid ∧ (pscPowerOn p).origin = .noRun ∧ (pscPowerOn p).stage = 0 ∧
      (pscPowerOn p).reason = .interrupted) ∧
    (p.state ≠ .absent → p.state ≠ .loading → (pscPowerOn p).state = .validating ∧ (pscPowerOn p).origin = .powerOn ∧
      (pscPowerOn p).stage = 1 ∧ (pscPowerOn p).reason = .noReason) := by
  unfold pscPowerOn
  cases p.state <;> simp

/-- The Loader's attention flag stands after power-on exactly when no run starts (R44, R167). -/
theorem loaderFlag_powerOn (p : Psc) :
    (p.state == .absent || p.state == .loading) = true ↔ (pscPowerOn p).state ≠ .validating := by
  unfold pscPowerOn
  cases p.state <;> simp

/-- The map after power-on: provisional from the stored header when a run starts, the Loader slot alone otherwise (R156). -/
theorem mapPowerOn_getElem (p : Psc) (loader slot : Slot) :
    (mapPowerOn p loader)[slot] =
      if slot = loader then .loader
      else if p.state ≠ .absent ∧ p.state ≠ .loading ∧ slotEntryOk p.planSpace loader slot = true then
        slotEntryClass p.planSpace slot
      else .noClass := by
  unfold mapPowerOn
  cases p.state <;> simp only [loaderOnlyMap_getElem, headerMap_getElem] <;> simp

/-- Every slot's own area after power-on (R163, R164). -/
theorem pbiPowerOn_slot (loader : Slot) (classes : Vector SlotClass 8) (flag : Bool) (k : Slot) :
    (pbiPowerOn loader classes flag).selectors[k] = none ∧ (pbiPowerOn loader classes flag).inFlight[k] = none ∧
      (pbiPowerOn loader classes flag).results[k] = idleResult := by
  simp [pbiPowerOn]

/-- Settles O27, by what power-on makes of the stored state and of the stored header. -/
theorem powerOnReadsTheStore : Obligations.PowerOnReadsTheStore := by
  refine ⟨fun straps s => ?_, fun s => ⟨_, rfl, rfl, rfl, rfl, rfl⟩⟩
  obtain ⟨hoffset, hrevision, habsent, hloading, hrun⟩ := pscPowerOn_status s.psc
  refine ⟨_, strapSlot straps, rfl, rfl, rfl, pscPowerOn_planSpace s.psc, hoffset, hrevision, habsent, hloading, hrun, rfl,
    (mapPowerOn_loader s.psc _ _).2 rfl, fun k hk => ?_, loaderFlag_powerOn s.psc, fun k => ?_, rfl, rfl, rfl, rfl, rfl, rfl⟩
  · exact (mapPowerOn_getElem s.psc _ k).trans (if_neg hk)
  · obtain ⟨hselector, hflight, hresult⟩ := pbiPowerOn_slot (strapSlot straps) (mapPowerOn s.psc (strapSlot straps))
      (s.psc.state == .absent || s.psc.state == .loading) k
    exact ⟨hselector, hflight, congrArg ResultRecord.outcome hresult, congrArg ResultRecord.reason hresult,
      congrArg ResultRecord.returned hresult⟩

/-! ### Begin Load and Erase Plan (R35, R38, R46) -/

/-- What the plan's leaving Valid makes of a contact (R108, row 3). -/
theorem lmnWithoutPlan_contact (l : Lmn) (k : Fin 16) : (lmnWithoutPlan l).contacts[k] = unusedContact := by
  simp [lmnWithoutPlan]

/-- What the plan's leaving Valid makes of a lift (R108, row 3). -/
theorem lmnWithoutPlan_lift (l : Lmn) (k : Fin 2) :
    (lmnWithoutPlan l).lifts[k] = { liftPowerOn with base := l.lifts[k].base, maxStep := l.lifts[k].maxStep } := by
  simp [lmnWithoutPlan]

/-- Settles O31: a refusal by the first check that fails; an acceptance by the effects of R46, which reach no crew. -/
theorem beginLoadAndErasePlan : Obligations.BeginLoadAndErasePlan := by
  intro s slot cmd erase hready
  refine ⟨fun hstate hfree hcleared hqueue hsound => ?_, fun reason hfails =>
    refused_of_body (exec_opening erase slot s) hready (openingBody_refused erase cmd (openingCheck_fails hfails))⟩
  have hbody := openingBody_accepted erase cmd
    (openingCheck_passes hstate (incidentOpen_eq_false.2 ⟨hfree, hcleared, hqueue⟩))
  have hexec := exec_ready (exec_opening erase slot s) hready
  rw [hbody] at hexec
  have hpsc := (openedState_psc erase s).trans (openedStore_psc erase s)
  have hpbi := openedState_pbi erase s
  obtain ⟨hrin, hcxm, hbcm, hpending⟩ := openedState_rest erase hfree (composition_none_of_free hfree hsound)
  obtain ⟨-, hale, hlmn, -⟩ := openedStore_rest erase s
  have hleft := fun hv => openedState_of_valid (s := s) erase hv
  have hblank : s.psc.state = .valid → (openedState erase s).lmn = lmnWithoutPlan s.lmn := fun hv => by
    rw [hleft hv, leaveValid_lmn, hlmn]
  refine ⟨_, hexec, congrArg Psc.state hpsc, congrArg Psc.origin hpsc, congrArg Psc.stage hpsc, congrArg Psc.reason hpsc,
    congrArg Psc.offset hpsc, congrArg Psc.revision hpsc, fun a => ?_, completed_of_moved (by rw [hpbi]) slot cmd _,
    congrArg Pbi.loaderFlag hpbi, hrin, hcxm, hbcm, hpending, fun hn => ?_, fun hv => ⟨fun k => ?_, fun k => ?_, fun k => ?_,
      ?_, fun i => ⟨?_, ?_⟩⟩⟩
  · have hbytes := congrArg (fun p : Psc => p.planSpace.read a) hpsc
    refine hbytes.trans ?_
    cases erase <;> rfl
  · have hsame := openedState_of_not_valid erase hn
    exact ⟨(congrArg State.ale hsame).trans hale, (congrArg State.lmn hsame).trans hlmn,
      (congrArg Pbi.classes hpbi).trans (if_neg hn)⟩
  · exact (congrArg (·.classes[k]) hpbi).trans (by rw [if_pos hv, loaderOnlyMap_getElem])
  · exact (congrArg (·.contacts[k]) (hblank hv)).trans (lmnWithoutPlan_contact s.lmn k)
  · have hk := (congrArg (·.lifts[k]) (hblank hv)).trans (lmnWithoutPlan_lift s.lmn k)
    exact ⟨congrArg Lift.enabled hk, congrArg Lift.shown hk, congrArg Lift.fault hk, congrArg Lift.implausible hk,
      congrArg Lift.tracking hk, congrArg Lift.decoded hk, congrArg Lift.pending hk⟩
  · exact (congrArg Lmn.samples (hblank hv)).trans rfl
  · have hchange := leaveValid_change s.ale (openedStore erase s) i
    rwa [← hleft hv, hale] at hchange
  · have hentry := leaveValid_entry s.ale (openedStore erase s) i
    rwa [← hleft hv, hale] at hentry

/-! ### Commit Plan and Abort Load (R36, R37) -/

theorem commitPlanBody_accepted {s : State} (cmd : InFlight) (h : s.psc.state = .loading) :
    commitPlanBody cmd s = (setStatus .validating .commit 1 .noReason 0 s.psc.revision s, .done []) := if_pos h

theorem commitPlanBody_refused {s : State} (cmd : InFlight) (h : s.psc.state ≠ .loading) :
    commitPlanBody cmd s = (s, .refused .wrongState) := if_neg h

theorem abortLoadBody_accepted {s : State} (cmd : InFlight) (h : s.psc.state = .loading) :
    abortLoadBody cmd s = (settle (setStatus .invalid .noRun 0 .aborted 0 s.psc.revision s), .done []) := if_pos h

theorem abortLoadBody_refused {s : State} (cmd : InFlight) (h : s.psc.state ≠ .loading) :
    abortLoadBody cmd s = (s, .refused .wrongState) := if_neg h

/-- While the state is not Loading, every write to plan space is answered with Fault and leaves the plan store (R2). -/
theorem planSpaceWrite_faults {s : State} (hp : s.power = true) (hl : s.psc.state ≠ .loading) (tr : Transfer)
    (data : List Byte) (hlow : 0x40 ≤ tr.bank.toNat) (hhigh : tr.bank.toNat ≤ 0x5F) :
    ∃ u, exec (.planSpaceWrite tr data) s = .next u ∧ u.psc = s.psc ∧
      u.pbi.response.map (·.termination) = some .fault := by
  have hw := busWrite_planSpace_refused ⟨tr.bank.toNat - 0x40, by omega⟩ data (by simp only; omega)
    (show ¬(s.psc.state = .loading ∧ s.pbi.classes[tr.slot] = .loader) from fun h => hl h.1)
  refine ⟨_, event_powered_next hp, ?_⟩
  rw [hw]
  exact ⟨rfl, rfl⟩

/-- Settles O32: each command by its body in Loading, and by its refusal in any other state. -/
theorem commitAndAbortEndLoading : Obligations.CommitAndAbortEndLoading := by
  intro s slot cmd
  refine ⟨fun hready => ⟨fun hl => ?_, fun hl => ?_⟩, fun hready => ⟨fun hl => ?_, fun hl => ?_⟩⟩
  · have hexec := exec_ready (row := .commitPlan slot) rfl hready
    rw [commitPlanBody_accepted cmd hl] at hexec
    obtain ⟨hc, hm⟩ := completed_driveAttention
      (u := setStatus .validating .commit 1 .noReason 0 s.psc.revision s) rfl slot cmd (.done [])
    exact ⟨_, hexec, rfl, hc, hm, rfl⟩
  · exact refused_of_body (row := .commitPlan slot) rfl hready (commitPlanBody_refused cmd hl)
  · have hexec := exec_ready (row := .abortLoad slot) rfl hready
    rw [abortLoadBody_accepted cmd hl] at hexec
    have hpower : s.power = true := hready.1
    exact ⟨_, hexec, rfl, completed_of_moved rfl slot cmd _, rfl, rfl, rfl,
      planSpaceWrite_faults hpower (by simp)⟩
  · exact refused_of_body (row := .abortLoad slot) rfl hready (abortLoadBody_refused cmd hl)

end Sys2Proof.Machine
end

section
/-!
SUPPORT. What every block takes of a plan that becomes Valid (R43, R45), entry by entry and field by field.
-/

namespace Sys2Proof.Machine

/-! ### Re-resolution (R85) -/

theorem resolveAgain_free (p : Psc) {place : Place} (h : place.entry = none) : resolveAgain p place = place := by
  unfold resolveAgain; rw [h]

/-- An entry with its class, floor and zone set is the same entry exactly when they are as they were. -/
theorem placed_eq_self {e : Entry} {cls : Fin 16} {floor zone : Option Nat} :
    ({ e with cls := cls, floor := floor, zone := zone } : Entry) = e ↔ cls = e.cls ∧ floor = e.floor ∧ zone = e.zone := by
  cases e
  simp

/-- What the lookup of an entry's key gives the entry: an answer gives class, floor and zone; without one the class stays, and the
entry has neither floor nor zone (R85). -/
def LookupGives (p : Psc) (e : Entry) (cls : Fin 16) (floor zone : Option Nat) : Prop :=
  (∀ d, p.deviceLookup e.key = some d → cls = d.cls ∧ floor = d.floor ∧ zone = some d.zone) ∧
  (p.deviceLookup e.key = none → cls = e.cls ∧ floor = none ∧ zone = none)

/-- Everything re-resolution does to an in-use entry (R85): the lookup's class, floor and zone, and a change number that rises
when one of them changes. -/
theorem resolveAgain_entry (p : Psc) {place : Place} {e : Entry} (he : place.entry = some e) :
    ∃ cls floor zone, LookupGives p e cls floor zone ∧
      (resolveAgain p place).entry = some { e with cls := cls, floor := floor, zone := zone } ∧
      (resolveAgain p place).change =
        if cls = e.cls ∧ floor = e.floor ∧ zone = e.zone then place.change else place.change + 1 := by
  obtain ⟨cls, floor, zone, hgives, hr⟩ : ∃ cls floor zone, LookupGives p e cls floor zone ∧ resolveAgain p place =
      if ({ e with cls := cls, floor := floor, zone := zone } : Entry) = e then place
      else { change := place.change + 1, entry := some { e with cls := cls, floor := floor, zone := zone } } := by
    unfold LookupGives resolveAgain
    cases hd : p.deviceLookup e.key with
    | none => exact ⟨e.cls, none, none, by simp, by simp only [he, hd]⟩
    | some d => exact ⟨d.cls, d.floor, some d.zone, by simp, by simp only [he, hd]⟩
  refine ⟨cls, floor, zone, hgives, ?_⟩
  rw [hr]
  by_cases hsame : ({ e with cls := cls, floor := floor, zone := zone } : Entry) = e
  · rw [if_pos hsame, if_pos (placed_eq_self.1 hsame), hsame]
    exact ⟨he, rfl⟩
  · rw [if_neg hsame, if_neg (mt placed_eq_self.2 hsame)]
    exact ⟨rfl, rfl⟩

/-! ### The plan taken by every block (R43, R45) -/

/-- The state in which every block has taken the new plan, before steps 2 to 5 of the ALE event (R45, R73). -/
def planTaken (zones : List ZonePlace) (s : State) : State :=
  let valid := settle (setStatus .valid s.psc.origin 0 .noReason 0 (headerRevision s.psc.planSpace)
    { s with psc.zonePlaces := zones })
  let mapped := setMap (headerMap valid.psc.planSpace valid.pbi.loaderSlot) valid
  { mapped with
    ale := aleTakesPlan mapped.psc mapped.ale
    lmn := lmnFromPlan mapped.psc.planSpace mapped.lmn
    cxm.marks := Vector.replicate 128 (unsearchedAt 0) }

/-- The plan becomes Valid by an ALE event on the state in which every block has taken it, and a request for every crew. -/
theorem becomeValid_eq (zones : List ZonePlace) (s : State) :
    becomeValid zones s = requestNormal (fun _ => true) (completeEvent s.ale noNews (planTaken zones s)) := rfl

/-- The map, with the end of the holds that it takes their class from (R84, R156). -/
def mapTaken (s : State) : State := setMap (headerMap s.psc.planSpace s.pbi.loaderSlot) s

/-- The plan status when the plan becomes Valid (R43). -/
theorem planTaken_psc (zones : List ZonePlace) (s : State) : (planTaken zones s).psc = { s.psc with
    state := .valid, stage := 0, reason := .noReason, offset := 0
    revision := headerRevision s.psc.planSpace, zonePlaces := zones } := rfl

theorem planTaken_pbi (zones : List ZonePlace) (s : State) : (planTaken zones s).pbi =
    { s.pbi with classes := headerMap s.psc.planSpace s.pbi.loaderSlot, loaderFlag := true } := rfl

theorem planTaken_place (zones : List ZonePlace) (s : State) (i : EntryNo) :
    (planTaken zones s).ale.places[i] = resolveAgain (planTaken zones s).psc (mapTaken s).ale.places[i] := by
  simp [planTaken, mapTaken, aleTakesPlan]

/-- An in-use entry under the new map and the new plan (R84, R85). -/
theorem planTaken_entry (zones : List ZonePlace) {s : State} {i : EntryNo} {e : Entry}
    (he : s.ale.places[i].entry = some e) :
    ∃ cls floor zone, LookupGives (planTaken zones s).psc e cls floor zone ∧
      (planTaken zones s).ale.places[i].entry = some { e with
        cls := cls, floor := floor, zone := zone
        holder := e.holder.filter fun h => decide ((headerMap s.psc.planSpace s.pbi.loaderSlot)[h] = .console) } ∧
      (planTaken zones s).ale.places[i].change =
        if cls = e.cls ∧ floor = e.floor ∧ zone = e.zone then s.ale.places[i].change else s.ale.places[i].change + 1 := by
  have hmapped := setMap_entry (headerMap s.psc.planSpace s.pbi.loaderSlot) s i
  rw [he] at hmapped
  obtain ⟨cls, floor, zone, hgives, hentry, hchange⟩ := resolveAgain_entry (planTaken zones s).psc hmapped
  rw [setMap_change] at hchange
  rw [planTaken_place]
  exact ⟨cls, floor, zone, hgives, hentry, hchange⟩

theorem planTaken_free (zones : List ZonePlace) {s : State} {i : EntryNo} (he : s.ale.places[i].entry = none) :
    (planTaken zones s).ale.places[i].entry = none ∧
      (planTaken zones s).ale.places[i].change = s.ale.places[i].change := by
  have hmapped : (mapTaken s).ale.places[i].entry = none := by rw [mapTaken, setMap_entry, he]; rfl
  rw [planTaken_place, resolveAgain_free _ hmapped]
  exact ⟨hmapped, setMap_change _ s i⟩

theorem planTaken_timer (zones : List ZonePlace) (s : State) (k : Slot) : (planTaken zones s).ale.holdTimers[k] =
    (s.ale.holdTimers[k] && decide ((headerMap s.psc.planSpace s.pbi.loaderSlot)[k] = .console)) := by
  have htimers : (planTaken zones s).ale.holdTimers = (mapTaken s).ale.holdTimers := by
    simp [planTaken, mapTaken, aleTakesPlan]
  rw [htimers, mapTaken, setMap_timer]

theorem planTaken_rollup (zones : List ZonePlace) (s : State) (z : Fin 2048) :
    (planTaken zones s).ale.zoneRollups[z] = if z.val < headerZones s.psc.planSpace then s.ale.zoneRollups[z] else 0 := by
  simp [planTaken, aleTakesPlan, endHolds]

theorem planTaken_panel (zones : List ZonePlace) (s : State) (p : PanelNo) :
    (planTaken zones s).ale.panels[p] = { last := none, gap := false } := by
  simp [planTaken, aleTakesPlan, emptyPanelRecord]

theorem planTaken_mark (zones : List ZonePlace) (s : State) (f : Fin 128) :
    (planTaken zones s).cxm.marks[f] = { mark := .unsearched, context := none, time := 0 } := by
  simp [planTaken, unsearchedAt]

theorem planTaken_contact (zones : List ZonePlace) (s : State) (k : Fin 16) :
    (planTaken zones s).lmn.contacts[k] = contactFromPlan s.psc.planSpace (16 + k.val) := by
  simp [planTaken, lmnFromPlan, contactLine]

theorem planTaken_lift (zones : List ZonePlace) (s : State) (k : Fin 2) :
    (planTaken zones s).lmn.lifts[k] = liftFromPlan s.psc.planSpace (8 * k.val) := by
  simp [planTaken, lmnFromPlan, liftLine]

/-! ### The plan becomes Valid, block by block -/

theorem becomeValid_ale (zones : List ZonePlace) (s : State) : (becomeValid zones s).ale =
    raiseEpoch s.ale (recompute (planTaken zones s).psc (planTaken zones s).ale) := by
  rw [becomeValid_eq, requestNormal_ale, completeEvent_ale]

theorem becomeValid_psc (zones : List ZonePlace) (s : State) : (becomeValid zones s).psc = (planTaken zones s).psc := by
  rw [becomeValid_eq, requestNormal_psc, completeEvent_psc]

theorem becomeValid_pbi (zones : List ZonePlace) (s : State) : (becomeValid zones s).pbi =
    { s.pbi with classes := headerMap s.psc.planSpace s.pbi.loaderSlot, loaderFlag := true } := by
  rw [becomeValid_eq, requestNormal_pbi, completeEvent_pbi, planTaken_pbi]

theorem becomeValid_rin (zones : List ZonePlace) (s : State) : (becomeValid zones s).rin = s.rin := by
  rw [becomeValid_eq, requestNormal_rin, completeEvent_rin]
  rfl

theorem becomeValid_lmn (zones : List ZonePlace) (s : State) : (becomeValid zones s).lmn = (planTaken zones s).lmn := by
  rw [becomeValid_eq, requestNormal_lmn, completeEvent_lmn]

theorem becomeValid_pending (zones : List ZonePlace) (s : State) : (becomeValid zones s).pending = s.pending := by
  rw [becomeValid_eq, requestNormal_pending, completeEvent_pending]
  rfl

theorem becomeValid_buffers (zones : List ZonePlace) (s : State) : (becomeValid zones s).bcm.buffers = s.bcm.buffers := by
  rw [becomeValid_eq, requestNormal_buffers, completeEvent_buffers]
  rfl

/-- The notices of the event are what the CXM takes beside the blank marks (R103). -/
theorem becomeValid_cxm (zones : List ZonePlace) (s : State) : (becomeValid zones s).cxm =
    (offerAll (eventNotices s.ale (becomeValid zones s).ale noNews)
      { planTaken zones s with ale := (becomeValid zones s).ale }).cxm := by
  rw [becomeValid_ale, becomeValid_eq, requestNormal_cxm]
  unfold completeEvent
  rw [handOn_cxm]

/-- A Normal request for every Assigned context leaves each of them queued or being composed (R45, R138). -/
theorem requestNormal_all_queued {s : State} {c : CtxNo} (h : s.cxm.contexts[c].assigned = true) :
    c ∈ (requestNormal (fun _ => true) s).bcm.urgent ∨ c ∈ (requestNormal (fun _ => true) s).bcm.normal ∨
      (requestNormal (fun _ => true) s).bcm.composing = some c := by
  obtain ⟨hurgent, -, hcomposition, hnormal⟩ := requestNormal_cases (fun _ => true) s
  have hcomposing : (requestNormal (fun _ => true) s).bcm.composing = s.bcm.composing := by
    unfold Bcm.composing
    rw [hcomposition, Option.map_map]
    rfl
  rw [hurgent, hnormal, hcomposing]
  tauto

theorem becomeValid_marks (zones : List ZonePlace) (s : State) (f : Fin 128) :
    (becomeValid zones s).cxm.marks[f] = { mark := .unsearched, context := none, time := 0 } := by
  rw [becomeValid_cxm, offerAll_marks]
  exact planTaken_mark zones s f

theorem becomeValid_context_rest (zones : List ZonePlace) (s : State) (c : CtxNo) :
    (becomeValid zones s).cxm.contexts[c] =
      { s.cxm.contexts[c] with queue := (becomeValid zones s).cxm.contexts[c].queue } := by
  rw [becomeValid_cxm]
  exact offerAll_context_rest _ _ c

theorem becomeValid_console_mask (zones : List ZonePlace) (s : State) (q : Fin 2) :
    (becomeValid zones s).cxm.consoles[q].mask = s.cxm.consoles[q].mask := by
  rw [becomeValid_cxm, offerAll_console_mask]
  rfl

/-- Every Assigned context is queued or being composed when the plan becomes Valid (R45). -/
theorem becomeValid_queued {zones : List ZonePlace} {s : State} {c : CtxNo}
    (h : (becomeValid zones s).cxm.contexts[c].assigned = true) :
    c ∈ (becomeValid zones s).bcm.urgent ∨ c ∈ (becomeValid zones s).bcm.normal ∨
      (becomeValid zones s).bcm.composing = some c := by
  rw [becomeValid_eq] at h ⊢
  rw [requestNormal_cxm] at h
  exact requestNormal_all_queued h

/-- An in-use entry when the plan becomes Valid (R84, R85): the lookup's class, floor and zone, a holder that the new map leaves
of class Console, a standing computed afresh, and a change number that rises when class, floor or zone changes. -/
theorem becomeValid_entry (zones : List ZonePlace) {s : State} {i : EntryNo} {e : Entry}
    (he : s.ale.places[i].entry = some e) :
    ∃ cls floor zone, LookupGives (becomeValid zones s).psc e cls floor zone ∧
      sameButStanding (becomeValid zones s).ale.places[i].entry (some { e with
        cls := cls, floor := floor, zone := zone
        holder := e.holder.filter fun h => decide ((becomeValid zones s).pbi.classes[h] = .console) }) ∧
      (becomeValid zones s).ale.places[i].change =
        if cls = e.cls ∧ floor = e.floor ∧ zone = e.zone then s.ale.places[i].change else s.ale.places[i].change + 1 := by
  obtain ⟨cls, floor, zone, hgives, hentry, hchange⟩ := planTaken_entry zones he
  rw [becomeValid_psc, becomeValid_pbi, becomeValid_ale, recomputed_change]
  exact ⟨cls, floor, zone, hgives, hentry ▸ recomputed_entry _ _ _ i, hchange⟩

theorem becomeValid_free (zones : List ZonePlace) {s : State} {i : EntryNo} (he : s.ale.places[i].entry = none) :
    (becomeValid zones s).ale.places[i].entry = none ∧
      (becomeValid zones s).ale.places[i].change = s.ale.places[i].change := by
  obtain ⟨hentry, hchange⟩ := planTaken_free zones he
  rw [becomeValid_ale, recomputed_change]
  exact ⟨recomputed_free hentry, hchange⟩

theorem becomeValid_timer (zones : List ZonePlace) (s : State) (k : Slot) : (becomeValid zones s).ale.holdTimers[k] =
    (s.ale.holdTimers[k] && decide ((becomeValid zones s).pbi.classes[k] = .console)) := by
  rw [becomeValid_pbi, becomeValid_ale, raiseEpoch_holdTimers, recompute_holdTimers, planTaken_timer]

theorem becomeValid_clock (zones : List ZonePlace) (s : State) : (becomeValid zones s).ale.clock = s.ale.clock := by
  rw [becomeValid_ale, raiseEpoch_clock, recompute_clock]
  rfl

/-- The panel records afresh, and the roll-up counts below the new Z kept (R58, R78). -/
theorem becomeValid_counts (zones : List ZonePlace) (s : State) :
    (∀ p : PanelNo, (becomeValid zones s).ale.panels[p] = { last := none, gap := false }) ∧
    (∀ z : Fin 2048, (becomeValid zones s).ale.zoneRollups[z] =
      if z.val < headerZones s.psc.planSpace then s.ale.zoneRollups[z] else 0) ∧
    (becomeValid zones s).ale.unplacedRollup = s.ale.unplacedRollup := by
  obtain ⟨hzones, hunplaced, hpanels⟩ := recomputed_counts (planTaken zones s).psc s.ale (planTaken zones s).ale
  rw [becomeValid_ale, hzones, hunplaced, hpanels]
  exact ⟨planTaken_panel zones s, planTaken_rollup zones s, rfl⟩

/-- The lines and the lifts as the line table sets them, with the samples kept (R108, row 2). -/
theorem becomeValid_lines (zones : List ZonePlace) (s : State) :
    (becomeValid zones s).lmn.samples = s.lmn.samples ∧
    (∀ k : Fin 16, (becomeValid zones s).lmn.contacts[k] = contactFromPlan s.psc.planSpace (16 + k.val)) ∧
    ∀ k : Fin 2, ((becomeValid zones s).lmn.lifts[k].enabled = true ↔
        s.psc.planSpace.u8 (lineEntryAt (8 * k.val) + 1) = 1) ∧
      (becomeValid zones s).lmn.lifts[k] = { liftPowerOn with
        enabled := (becomeValid zones s).lmn.lifts[k].enabled
        base := s.psc.planSpace.read (lineEntryAt (8 * k.val) + 2)
        maxStep := s.psc.planSpace.read (lineEntryAt (8 * k.val) + 3) } := by
  rw [becomeValid_lmn]
  refine ⟨rfl, planTaken_contact zones s, fun k => ?_⟩
  rw [planTaken_lift]
  exact ⟨beq_iff_eq, rfl⟩

/-- The focus fields and the notices of the event in which the plan becomes Valid (R73, R100, R103). -/
theorem becomeValid_says (zones : List ZonePlace) (s : State) :
    FocusAfter s (becomeValid zones s) ∧
      ∃ ns, EventNotices s (becomeValid zones s) noNews ns ∧ Told s (becomeValid zones s) ns := by
  refine ⟨recompute_focusAfter _ s.ale (planTaken zones s).ale (becomeValid_ale zones s) rfl rfl rfl rfl,
    eventNotices s.ale (becomeValid zones s).ale noNews, eventNotices_are fun o ho => absurd ho List.not_mem_nil, ?_⟩
  have hcxm := becomeValid_cxm zones s
  exact offerAll_told (u := { planTaken zones s with ale := (becomeValid zones s).ale }) _ rfl rfl
    (congrArg Cxm.contexts hcxm) (congrArg Cxm.consoles hcxm) (becomeValid_psc zones s) rfl
    (congrArg Pbi.classes (becomeValid_pbi zones s))

end Sys2Proof.Machine
end

section
/-!
PROOFS. The statement about the completion of a validation stage: O33 (R41 to R47).
-/

namespace Sys2Proof.Machine

/-! ### The end of a stage (R41 to R43) -/

/-- A stage of a run in progress completes, and the attention lines are driven with it. -/
theorem exec_validationStage {s : State} (hp : s.power = true) (hs : s.psc.state = .validating) :
    exec .validationStage s = .next (driveAttention (completeStage s)) :=
  (event_powered_next hp).trans (by rw [if_pos hs])

theorem completeStage_error {s : State} {f : PlanFailure} (h : stageVerdict s.psc s.pbi.loaderSlot = .error f) :
    completeStage s = endInvalid f s := by
  unfold completeStage; rw [h]

theorem completeStage_ok {s : State} {zones : List ZonePlace} (h : stageVerdict s.psc s.pbi.loaderSlot = .ok zones) :
    completeStage s = if s.psc.stage = 7 then becomeValid zones s
      else { s with psc.stage := s.psc.stage + 1, psc.zonePlaces := zones } := by
  unfold completeStage; rw [h]

/-- Everything the end of a run on a failure can do (R43, R47). -/
theorem endInvalid_cases (f : PlanFailure) (s : State) :
    (s.psc.origin ≠ .powerOn ∧
      endInvalid f s = settle (setStatus .invalid s.psc.origin s.psc.stage f.reason f.offset s.psc.revision s)) ∨
    (s.psc.origin = .powerOn ∧
      endInvalid f s = setMap (loaderOnlyMap s.pbi.loaderSlot)
        { settle (setStatus .invalid s.psc.origin s.psc.stage f.reason f.offset s.psc.revision s) with rin.queue := [] }) := by
  unfold endInvalid
  by_cases h : s.psc.origin = .powerOn
  · exact Or.inr ⟨h, if_pos h⟩
  · exact Or.inl ⟨h, if_neg h⟩

/-- Settles O33: the three ends of a stage; the last by what each block takes of the plan. -/
theorem validationStageCompletes : Obligations.ValidationStageCompletes := by
  intro s hp hs
  have hexec := exec_validationStage hp hs
  refine ⟨fun zones hok hstage => ?_, fun f herror => ?_, fun zones hok hstage => ?_⟩
  · rw [completeStage_ok hok, if_neg hstage] at hexec
    exact ⟨_, hexec, rfl, rfl⟩
  · rw [completeStage_error herror] at hexec
    rcases endInvalid_cases f s with ⟨ho, hend⟩ | ⟨ho, hend⟩
    · rw [hend] at hexec
      exact ⟨_, hexec, rfl, rfl, rfl, rfl, rfl, rfl, fun _ => ⟨rfl, rfl, rfl⟩, fun h => absurd h ho⟩
    · rw [hend] at hexec
      exact ⟨_, hexec, rfl, rfl, rfl, rfl, rfl, rfl, fun h => absurd ho h,
        fun _ => ⟨rfl, fun k => loaderOnlyMap_getElem s.pbi.loaderSlot k⟩⟩
  · rw [completeStage_ok hok, if_pos hstage] at hexec
    have hpsc := (becomeValid_psc zones s).trans (planTaken_psc zones s)
    have hpbi := becomeValid_pbi zones s
    have hmarks := becomeValid_marks zones s
    obtain ⟨hpanels, hrollups, hunplaced⟩ := becomeValid_counts zones s
    have hfree := fun i => becomeValid_free zones (s := s) (i := i)
    have hentry := fun i e => becomeValid_entry zones (s := s) (i := i) (e := e)
    have htimers := becomeValid_timer zones s
    obtain ⟨hfocus, hnotices⟩ := becomeValid_says zones s
    have hcontexts := becomeValid_context_rest zones s
    have hmasks := becomeValid_console_mask zones s
    have hqueued := fun c => becomeValid_queued (zones := zones) (s := s) (c := c)
    obtain ⟨hsamples, hcontacts, hlifts⟩ := becomeValid_lines zones s
    have hrin := becomeValid_rin zones s
    have hclock := becomeValid_clock zones s
    have hbuffers := becomeValid_buffers zones s
    have hpending := becomeValid_pending zones s
    generalize becomeValid zones s = t at *
    refine ⟨driveAttention t, hexec, hpsc, congrArg Pbi.loaderFlag hpbi, fun k => ?_, hmarks, hpanels, hrollups, hunplaced,
      hfree, fun i e he => ?_, htimers, hfocus, hnotices, hcontexts, hmasks, hqueued, hsamples, hcontacts, hlifts, hrin, hclock,
      hbuffers, hpending⟩
    · exact (congrArg (·.classes[k]) hpbi).trans (headerMap_getElem s.psc.planSpace s.pbi.loaderSlot k)
    · obtain ⟨cls, floor, zone, ⟨hfound, hnone⟩, hstands, hchange⟩ := hentry i e he
      exact ⟨cls, floor, zone, hfound, hnone, hstands, hchange⟩

end Sys2Proof.Machine
end

section
/-!
SUPPORT. The intake window: where a Panel's burst goes (R50, R170), and the fields that make it well-formed (R49, R51).
-/

namespace Sys2Proof.Machine

/-! ### The transfer (R50, R158 to R161) -/

/-- The intake window carries a burst as one (R160). -/
theorem inhibited_intake (t : Transfer) : inhibited t .intake = false := by
  cases h : t.size <;> simp [inhibited, carriedAsOne, h]

theorem movedBytes_intake (t : Transfer) : movedBytes t .intake = t.size.bytes := by
  simp [movedBytes, inhibited_intake]

/-- The intake window is the one place of its bank (R170). -/
theorem locate_intake {n : Nat} (h : n ≤ 16) : locate 0x08 0 n = some .intake := by
  simp [locate, bankPlaces, BusPlace.covers, BusPlace.start, BusPlace.bytes, h]

/-- A burst of a Panel at the first byte of the intake window passes every step of R158. -/
theorem judge_intake {t : Transfer} {s : State} {panel : PanelNo} (hc : s.pbi.classes[t.slot] = .panel panel)
    (hb : t.bank = 0x08) (ho : t.offset = 0) (hs : t.size = .burst) (hl : t.lock = false) (he : t.lockEnd = false) :
    judge t true s = some .intake := by
  have hclass : slotClass s t.slot = .panel panel := hc
  have hloc : locate t.bank.toNat t.offset.toNat (singleBytes t) = some .intake := by
    rw [hb, ho, singleBytes, if_pos hs]
    exact locate_intake (by decide)
  have hshape : shapeAllowed t .intake = true := by
    simp [shapeAllowed, aligned, movedBytes_intake, BusPlace.covers, BusPlace.start, BusPlace.bytes, Size.bytes, hs, ho]
  unfold judge
  rw [hclass, if_neg (by simp), hloc]
  simp [hshape, accessAllowed, locksAllowed, SlotClass.isPanel, hl, he]

/-- A Panel's burst that goes to the intake window is answered as the RIN judges it (R51). -/
theorem busWrite_intake {t : Transfer} {s : State} {panel : PanelNo} {data : List Byte}
    (hj : judge t true s = some .intake) (hc : s.pbi.classes[t.slot] = .panel panel) (hd : data.length = t.size.bytes) :
    busWrite t data s = answer t (arrival panel data s.rin).1 false [] { s with rin := (arrival panel data s.rin).2 } := by
  have hanswer : ownerWrite t .intake (t.offset.toNat - BusPlace.intake.start) data s =
      { termination := (arrival panel data s.rin).1, state := { s with rin := (arrival panel data s.rin).2 } } := by
    unfold ownerWrite intakeAnswer slotClass
    rw [hc]
  rw [busWrite_some hj, movedBytes_intake, slice_whole hd, inhibited_intake, Bool.false_and, hanswer]

/-! ### The report in the burst (R49) -/

theorem ReportKind.ofByte_code (kind : ReportKind) : ReportKind.ofByte kind.code = some kind := by
  cases kind <;> rfl

/-- The bytes 1 to 7 are the codes of the kinds. -/
theorem ReportKind.exists_code {b : Byte} (hlow : 1 ≤ b.toNat) (hhigh : b.toNat ≤ 7) : ∃ kind : ReportKind, kind.code = b := by
  have hb : b = BitVec.ofNat 8 b.toNat := by simp
  rw [hb]
  generalize b.toNat = n at hlow hhigh
  interval_cases n
  · exact ⟨.alarm, rfl⟩
  · exact ⟨.restore, rfl⟩
  · exact ⟨.supervisory, rfl⟩
  · exact ⟨.supervisoryClear, rfl⟩
  · exact ⟨.trouble, rfl⟩
  · exact ⟨.troubleClear, rfl⟩
  · exact ⟨.panelReset, rfl⟩

/-- No other byte is the code of a kind. -/
theorem ReportKind.ofByte_eq_none {b : Byte} (h : b = 0 ∨ 7 < b.toNat) : ReportKind.ofByte b = none := by
  rcases h with rfl | h
  · rfl
  · exact List.getD_eq_default _ _ h

/-- A hint is a class or 255, and is kept as the byte that names it (R49, R171). -/
theorem hintOf_eq_some {b : Byte} (h : b.toNat ≤ 15 ∨ b = 0xFF) :
    ∃ hint, hintOf b = some hint ∧ orNone (hint.map (·.val)) = b := by
  rcases h with h | rfl
  · exact ⟨some ⟨b.toNat, by omega⟩, dif_pos (by omega), by simp [orNone, byteOf]⟩
  · exact ⟨none, rfl, rfl⟩

theorem hintOf_eq_none {b : Byte} (hlow : 15 < b.toNat) (hhigh : b.toNat < 255) : hintOf b = none := by
  unfold hintOf
  rw [dif_neg (by omega), if_neg (by rintro rfl; exact absurd hhigh (by decide))]

/-- A burst with a kind, a loop or a hint out of range holds no report (R49). -/
theorem parseReport_malformed (panel : PanelNo) (d0 d1 d2 d3 d4 : Byte) (rest : List Byte)
    (h : d1 = 0 ∨ 7 < d1.toNat ∨ 15 < d2.toNat ∨ 15 < d4.toNat ∧ d4.toNat < 255) :
    parseReport panel (d0 :: d1 :: d2 :: d3 :: d4 :: rest) = none := by
  have hfields : ReportKind.ofByte d1 = none ∨ hintOf d4 = none ∨ ¬d2.toNat < 16 := by
    rcases h with h | h | h | ⟨hlow, hhigh⟩
    · exact Or.inl (ReportKind.ofByte_eq_none (Or.inl h))
    · exact Or.inl (ReportKind.ofByte_eq_none (Or.inr h))
    · exact Or.inr (Or.inr (by omega))
    · exact Or.inr (Or.inl (hintOf_eq_none hlow hhigh))
  unfold parseReport
  simp only [List.getD_cons_succ, List.getD_cons_zero]
  split
  · rename_i hkind hhint
    rcases hfields with h | h | h
    · rw [h] at hkind; cases hkind
    · rw [h] at hhint; cases hhint
    · exact dif_neg h
  · rfl

/-- A burst with every field in range holds the report of its fields, completed with the panel number (R49). -/
theorem parseReport_wellFormed (panel : PanelNo) {d0 d1 d2 d3 d4 d5 : Byte} (rest : List Byte) (hlow : 1 ≤ d1.toNat)
    (hhigh : d1.toNat ≤ 7) (hloop : d2.toNat ≤ 15) (hhint : d4.toNat ≤ 15 ∨ d4 = 0xFF) :
    ∃ r : Report, parseReport panel (d0 :: d1 :: d2 :: d3 :: d4 :: d5 :: rest) = some r ∧ r.source = .panel panel d0 ∧
      r.kind.code = d1 ∧ r.loop.val = d2.toNat ∧ r.address = d3 ∧ orNone (r.hint.map (·.val)) = d4 ∧ r.detection = d5 := by
  obtain ⟨kind, rfl⟩ := ReportKind.exists_code hlow hhigh
  obtain ⟨hint, hparsed, hbyte⟩ := hintOf_eq_some hhint
  refine ⟨{ source := .panel panel d0, kind := kind, loop := ⟨d2.toNat, by omega⟩, address := d3, hint := hint
            detection := d5 }, ?_, rfl, rfl, rfl, rfl, hbyte, rfl⟩
  unfold parseReport
  simp only [List.getD_cons_succ, List.getD_cons_zero, ReportKind.ofByte_code, hparsed]
  exact dif_pos (by omega)

/-! ### The judgement of an arrival (R51, R53) -/

theorem arrival_malformed {panel : PanelNo} {data : List Byte} (h : parseReport panel data = none) (q : Rin) :
    arrival panel data q = (.fault, q) := by
  unfold arrival; rw [h]

theorem arrival_crowded {panel : PanelNo} {data : List Byte} {r : Report} {q : Rin} (h : parseReport panel data = some r)
    (hq : 28 ≤ q.queue.length) : arrival panel data q = (.retry, q) := by
  unfold arrival; rw [h]; exact if_pos hq

theorem arrival_taken {panel : PanelNo} {data : List Byte} {r : Report} {q : Rin} (h : parseReport panel data = some r)
    (hq : q.queue.length < 28) : arrival panel data q = (.done, { q with queue := q.queue ++ [r] }) := by
  unfold arrival; rw [h]; exact if_neg (Nat.not_le.2 hq)

end Sys2Proof.Machine
end

section
/-!
PROOFS. The statement about the intake window: O34 (R49, R51, R53).
-/

namespace Sys2Proof.Machine

/-- Settles O34: the burst reaches the RIN, which judges the report in it. -/
theorem intakeWriteJudgesArrival : Obligations.IntakeWriteJudgesArrival := by
  intro s tr panel d0 d1 d2 d3 d4 d5 unused hp hc hb ho hs hl he hd
  have hexec : exec (.intakeWrite tr ([d0, d1, d2, d3, d4, d5] ++ unused)) s = _ := event_powered_next hp
  rw [busWrite_intake (judge_intake hc hb ho hs hl he) hc (by simp [hs, hd, Size.bytes])] at hexec
  refine ⟨_, hexec, rfl, ⟨rfl, rfl⟩, ⟨rfl, rfl, rfl⟩, fun hbad => ?_, fun hlow hhigh hloop hhint => ?_⟩
  · have hnone : parseReport panel ([d0, d1, d2, d3, d4, d5] ++ unused) = none :=
      parseReport_malformed panel d0 d1 d2 d3 d4 (d5 :: unused) hbad
    rw [arrival_malformed hnone]
    exact ⟨rfl, rfl⟩
  · obtain ⟨r, hr, hfields⟩ := parseReport_wellFormed panel (d0 := d0) (d3 := d3) (d5 := d5) unused hlow hhigh hloop hhint
    have hr : parseReport panel ([d0, d1, d2, d3, d4, d5] ++ unused) = some r := hr
    refine ⟨fun hfull => ?_, fun hroom => ?_⟩
    · rw [arrival_crowded hr hfull]
      exact ⟨rfl, rfl⟩
    · rw [arrival_taken hr hroom]
      exact ⟨rfl, r, rfl, hfields⟩

end Sys2Proof.Machine
end

section
/-!
SUPPORT. A report taken from the queue (R55): its sequence check (R58 to R62), the ALE event it makes (R73), and an event that
moves no entry.
-/

namespace Sys2Proof.Machine

/-! ### REPORT_TAKE (R55) -/

/-- The head report is taken and processed, and the attention lines are driven with it. -/
theorem exec_reportTake {s : State} {r : Report} {rest : List Report} (hp : s.power = true) (hd : deferring s = false)
    (hq : s.rin.queue = r :: rest) :
    exec .reportTake s = .next (driveAttention (takeReport r { s with rin := { queue := rest } })) := by
  change execReportTake s = _
  unfold execReportTake
  rw [event_powered_next hp, hd, hq]
  rfl

/-- Attention lines that show their conditions stay as they are. -/
theorem driveAttention_of_true {s : State} (hp : s.power = true) (h : s.attentionTrue) : driveAttention s = s := by
  have hlines : tabulate (attentionCondition s) = s.pbi.attention := table_ext fun slot => by
    rw [Fin.getElem_fin, getElem_tabulate]
    exact (h hp slot).symm
  unfold driveAttention
  rw [hlines]

/-! ### The sequence check (R58, R59) -/

/-- The table as the sequence check of a report that is no duplicate leaves it for the processing (R59, R63). -/
def sequencedAle (s : State) (r : Report) : Ale :=
  match r.source with
  | .line => s.ale
  | .panel p sequence =>
    recordPanel p sequence (s.ale.panels[p].gap || s.ale.panels[p].last.any fun last => sequence != last + 1) s.ale

/-- The sequence check moves the panel records alone. -/
theorem sequencedAle_rest (s : State) (r : Report) :
    sequencedAle s r = { s.ale with panels := (sequencedAle s r).panels } := by
  unfold sequencedAle
  split <;> rfl

theorem recordPanel_panel (p q : PanelNo) (last : Byte) (gap : Bool) (a : Ale) :
    (recordPanel p last gap a).panels[q] = if q = p then { last := some last, gap := gap } else a.panels[q] := by
  simp [recordPanel, Vector.getElem_set, Fin.ext_iff, eq_comm]

/-- The panel records after the check are those of R59. -/
theorem sequencedAle_panels (s : State) (r : Report) : panelsAfter s r (sequencedAle s r).panels := by
  unfold panelsAfter sequencedAle
  cases r.source with
  | line => rfl
  | panel p sequence =>
    refine ⟨?_, ?_, fun q hq => ?_⟩
    · rw [recordPanel_panel, if_pos rfl]
    · rw [recordPanel_panel, if_pos rfl]
    · rw [recordPanel_panel, if_neg hq]

/-- A sequence other than the last one is processed, as a gap when it skips (R59). -/
theorem sequenceCheck_fresh {last : Option Byte} {sequence : Byte} (h : last ≠ some sequence) :
    sequenceCheck last sequence = if (last.any fun l => sequence != l + 1) = true then .gap else .processed := by
  cases last with
  | none => rfl
  | some l =>
    have hl : sequence ≠ l := fun he => h (congrArg some he.symm)
    unfold sequenceCheck
    by_cases hn : sequence = l + 1 <;> simp [hl, hn]

theorem sequenceCheck_duplicate (sequence : Byte) : sequenceCheck (some sequence) sequence = .duplicate := if_pos rfl

/-- A duplicate has no effect (R60). -/
theorem takeReport_duplicate {s : State} {r : Report} {panel : PanelNo} {sequence : Byte}
    (hr : r.source = .panel panel sequence) (hl : s.ale.panels[panel].last = some sequence) : takeReport r s = s := by
  unfold takeReport
  simp only [hr, hl, sequenceCheck_duplicate]

/-- A report that is no duplicate and no Panel Reset is processed against the table that its check leaves (R59, R63). -/
theorem takeReport_processed {s : State} {r : Report} (hn : notDuplicate s r) (hk : r.kind ≠ .panelReset) :
    takeReport r s = processReport s.ale (gapOf s r) r { s with ale := sequencedAle s r } := by
  unfold takeReport gapOf sequencedAle
  rcases hn with hline | ⟨p, sequence, hpanel, hl⟩
  · simp only [hline, if_neg hk]
  · have hcheck := sequenceCheck_fresh hl
    simp only [hpanel]
    by_cases hskip : (s.ale.panels[p].last.any fun l => sequence != l + 1) = true
    · rw [if_pos hskip] at hcheck
      simp only [hcheck, hskip, if_true, Bool.or_true]
    · rw [if_neg hskip] at hcheck
      simp only [hcheck, Bool.eq_false_iff.2 hskip, Bool.or_false, Bool.false_eq_true, if_false]

/-- A Panel Reset of a panel that is no duplicate is carried out (R62). -/
theorem takeReport_panelReset {s : State} {r : Report} {p : PanelNo} {sequence : Byte} (hk : r.kind = .panelReset)
    (hr : r.source = .panel p sequence) (hl : s.ale.panels[p].last ≠ some sequence) :
    takeReport r s = panelReset s.ale p sequence s := by
  have hcheck := sequenceCheck_fresh hl
  unfold takeReport
  simp only [hr, hk]
  split at hcheck <;> simp only [hcheck]

/-! ### What an ALE event leaves of the CXM (R73) -/

theorem completeEvent_cxm (before : Ale) (news : EventNews) (s : State) : (completeEvent before news s).cxm =
    (offerAll (eventNotices before (raiseEpoch before (recompute s.psc s.ale)) news)
      { s with ale := raiseEpoch before (recompute s.psc s.ale) }).cxm := by
  unfold completeEvent
  rw [handOn_cxm]

/-- Of a state with other tables and another queue of reports, the notices leave what R73 says of the state itself. -/
theorem eventFrame_of_offered {s u t : State} (ns : List Notice)
    (hu : u = { s with rin := u.rin, ale := u.ale }) (hx : t.cxm = (offerAll ns u).cxm)
    (ht : t.psc = s.psc ∧ t.lmn = s.lmn ∧ t.bcm.buffers = s.bcm.buffers ∧ t.power = s.power ∧ t.pending = s.pending) :
    EventFrame s t := by
  obtain ⟨hpsc, hlmn, hbuffers, hpower, hpending⟩ := ht
  have hcxm : u.cxm = s.cxm := by rw [hu]
  refine ⟨hpsc, hlmn, ?_, fun c => ?_, fun q => ?_, hbuffers, hpower, hpending⟩
  · rw [hx, offerAll_marks, hcxm]
  · have h := offerAll_context_rest ns u c
    rw [← hx, hcxm] at h
    exact h
  · rw [hx, offerAll_console_mask, hcxm]

/-! ### The ALE event of a report (R73) -/

/-- The state after the ALE event of a report that is gone from the queue and has changed the table to `a`. -/
def afterReport (s : State) (rest : List Report) (a : Ale) (news : EventNews) : State :=
  driveAttention (completeEvent s.ale news { s with rin := { queue := rest }, ale := a })

/-- A report changes places and panel records alone, before the event computes the standings. -/
def ChangedByReport (s : State) (a : Ale) : Prop := a = { s.ale with places := a.places, panels := a.panels }

/-- What a report leaves of the table before the event computes the standings. -/
theorem ChangedByReport.rest {s : State} {a : Ale} (h : ChangedByReport s a) :
    (a.focus = s.ale.focus ∧ a.previousFocus = s.ale.previousFocus ∧ a.focusTime = s.ale.focusTime ∧
      a.clock = s.ale.clock) ∧
    a.zoneRollups = s.ale.zoneRollups ∧ a.unplacedRollup = s.ale.unplacedRollup ∧ a.holdTimers = s.ale.holdTimers := by
  unfold ChangedByReport at h
  rw [h]
  exact ⟨⟨rfl, rfl, rfl, rfl⟩, rfl, rfl, rfl⟩

section
variable {s : State} {a : Ale} (rest : List Report) (news : EventNews)

theorem afterReport_ale : (afterReport s rest a news).ale = raiseEpoch s.ale (recompute s.psc a) := by
  unfold afterReport
  rw [driveAttention_ale, completeEvent_ale]

theorem afterReport_queue : (afterReport s rest a news).rin.queue = rest := by
  unfold afterReport
  rw [driveAttention_rin, completeEvent_rin]

/-- Of the bus interface the event drives the attention lines alone. -/
theorem afterReport_pbi :
    (afterReport s rest a news).pbi = { s.pbi with attention := (afterReport s rest a news).pbi.attention } := by
  unfold afterReport
  rw [driveAttention_pbi, completeEvent_pbi]

theorem afterReport_panels : (afterReport s rest a news).ale.panels = a.panels := by
  obtain ⟨-, -, hpanels⟩ := recomputed_counts s.psc s.ale a
  rw [afterReport_ale, hpanels]

theorem afterReport_change (i : EntryNo) : (afterReport s rest a news).ale.places[i].change = a.places[i].change := by
  rw [afterReport_ale, recomputed_change]

/-- The event leaves every entry as the report has it, but for its standing. -/
theorem afterReport_entry (i : EntryNo) :
    sameButStanding (afterReport s rest a news).ale.places[i].entry a.places[i].entry := by
  rw [afterReport_ale]
  exact recomputed_entry s.psc s.ale a i

theorem afterReport_eventFrame : EventFrame s (afterReport s rest a news) :=
  eventFrame_of_offered (u := { s with rin := { queue := rest }, ale := raiseEpoch s.ale (recompute s.psc a) }) _ rfl
    (completeEvent_cxm s.ale news { s with rin := { queue := rest }, ale := a })
    (by simp [afterReport])

theorem afterReport_counters (ha : ChangedByReport s a) : CountersFrame s (afterReport s rest a news) := by
  obtain ⟨hzones, hunplaced, -⟩ := recomputed_counts s.psc s.ale a
  obtain ⟨⟨-, -, -, hclock⟩, hzones', hunplaced', -⟩ := ha.rest
  unfold CountersFrame
  rw [afterReport_ale, raiseEpoch_clock, recompute_clock, hzones, hunplaced]
  exact ⟨hclock, hzones', hunplaced'⟩

theorem afterReport_holdTimers (ha : ChangedByReport s a) :
    (afterReport s rest a news).ale.holdTimers = s.ale.holdTimers := by
  obtain ⟨-, -, -, htimers⟩ := ha.rest
  rw [afterReport_ale, raiseEpoch_holdTimers, recompute_holdTimers, htimers]

/-- The event hands on what R73 says, when the entries that its own notices name are in the table. -/
theorem afterReport_handedOn (ha : ChangedByReport s a) (hown : ∀ o ∈ news.own, ∃ e, a.places[o.2].entry = some e) :
    HandedOn s (afterReport s rest a news) news := by
  obtain ⟨⟨hfocus, hprevious, htime, hclock⟩, -⟩ := ha.rest
  have hclasses : (afterReport s rest a news).pbi.classes = s.pbi.classes := by rw [afterReport_pbi]
  exact completeEvent_handedOn (v := { s with rin := { queue := rest }, ale := a }) hown hfocus hprevious htime hclock rfl
    rfl rfl rfl (completeEvent_psc _ _ _) hclasses rfl rfl

end

/-! ### An event that moves no entry (R61, R73) -/

theorem touchedAt_self (place : Place) : touchedAt place place = [] := by
  unfold touchedAt
  cases place.entry <;> simp

/-- Between two tables with the same places no floor is touched. -/
theorem touchedFloors_unmoved {a b : Ale} (h : b.places = a.places) : touchedFloors a b = [] := by
  unfold touchedFloors
  rw [h]
  exact List.flatMap_eq_nil_iff.2 fun i _ => touchedAt_self _

theorem escalatedEntries_unmoved {a b : Ale} (h : b.places = a.places) (own : List EntryNo) :
    escalatedEntries a b own = [] := by
  unfold escalatedEntries
  rw [h]
  refine List.filter_eq_nil_iff.2 fun i _ => ?_
  cases a.places[i].entry <;> simp

/-- What an event says of itself that has its Panel Gap notice alone to post. -/
def gapNews (gap : Option PanelNo) : EventNews := { gap := gap, own := [], rolledUp := false, floors := [] }

/-- An event that moves no entry and no focus posts its Panel Gap notice alone. -/
theorem eventNotices_unmoved {a b : Ale} (hp : b.places = a.places) (hf : b.focus = a.focus) (gap : Option PanelNo) :
    eventNotices a b (gapNews gap) = (gap.map (gapNotice b)).toList := by
  unfold eventNotices
  rw [escalatedEntries_unmoved hp, hf, if_pos rfl]
  simp [gapNews]

/-- Such an event reaches the queues by that notice, and leaves the composer. -/
theorem handOn_unmoved {before : Ale} {u : State} (hp : u.ale.places = before.places) (hf : u.ale.focus = before.focus)
    (gap : Option PanelNo) : (handOn before (gapNews gap) u).cxm = (gapOnly gap u).cxm ∧
      (handOn before (gapNews gap) u).bcm = u.bcm := by
  have hnotices := eventNotices_unmoved hp hf gap
  refine ⟨by rw [handOn_cxm, hnotices]; rfl, ?_⟩
  have howed : ((List.finRange 32).filterMap fun c => (owedRequest u false [] [] c).map fun v => (c, v)) = [] :=
    List.filterMap_eq_nil_iff.2 fun c _ => by simp [owedRequest]
  have hmoved : ¬before.focus ≠ u.ale.focus := not_not.2 hf.symm
  have htouched : touchedFloors before u.ale ++ (gapNews gap).floors = [] := by
    rw [touchedFloors_unmoved hp]; rfl
  have hurgent : urgentFloors u.ale (gapNews gap) = [] := rfl
  unfold handOn
  dsimp only
  rw [htouched, hurgent, decide_eq_false hmoved, howed, if_neg hmoved]
  have hidle : ∀ v : State, disturbFloors [] v = v := fun v => by simp [disturbFloors]
  rw [hidle]
  exact offerAll_bcm _ u

/-- An event that moves no entry hands on its Panel Gap notice alone, as R73 says. -/
theorem gapOnly_handedOn {s u t : State} {gap : Option PanelNo} (ha : u.ale = { s.ale with panels := u.ale.panels })
    (hu : u = { s with rin := u.rin, ale := u.ale }) (hta : t.ale = u.ale) (htp : t.psc = u.psc)
    (htm : t.pbi.classes = u.pbi.classes) (hx : t.cxm = (gapOnly gap u).cxm) (hb : t.bcm = u.bcm) :
    HandedOn s t (gapNews gap) := by
  have hfocus : FocusAfter s u := by
    unfold FocusAfter
    rw [ha]
    exact ⟨fun _ => ⟨rfl, rfl⟩, fun h => absurd rfl h⟩
  have hcxm : u.cxm = s.cxm := by rw [hu]
  have hplaces : u.ale.places = s.ale.places := by rw [ha]
  have hsame : u.ale.focus = s.ale.focus := by rw [ha]
  obtain ⟨hcxm', hbcm'⟩ := handOn_unmoved hplaces hsame gap
  exact handOn_handedOn (fun o ho => absurd ho List.not_mem_nil) hfocus (congrArg Cxm.contexts hcxm)
    (congrArg Cxm.consoles hcxm) (by rw [hu]) hta htp htm (hx.trans hcxm'.symm) (hb.trans hbcm'.symm)

end Sys2Proof.Machine
end

section
/-!
SUPPORT. The tables of the reports of R62 and R68: a new entry in the lowest free place, and the entries that a Panel Reset
restores.
-/

namespace Sys2Proof.Machine

/-- An entry that agrees with another in everything but its standing is that one with a standing of its own. -/
theorem sameButStanding_some {x : Option Entry} {e : Entry} (h : sameButStanding x (some e)) :
    ∃ standing, x = some { e with standing := standing } := by
  cases x with
  | none => cases h
  | some f =>
    simp only [sameButStanding, Option.map_some, Option.some.injEq] at h
    refine ⟨f.standing, congrArg some ?_⟩
    calc f = { ({ f with standing := 0 } : Entry) with standing := f.standing } := rfl
      _ = { e with standing := f.standing } := by rw [h]

/-! ### A new entry (R65 to R68) -/

theorem findEntry_eq_none {a : Ale} {key : DeviceKey} {category : Category}
    (h : ∀ (j : EntryNo) (f : Entry), a.places[j].entry = some f → f.key = key → f.category ≠ category) :
    a.findEntry key category = none := by
  unfold Ale.findEntry
  refine List.find?_eq_none.2 fun ⟨j, f⟩ hf => ?_
  have hne := h j f (mem_inUse.1 hf)
  simpa using hne

/-- The lowest free place is the free place below which none is free (R65). -/
theorem freePlaceNo_eq {a : Ale} {i : EntryNo} (hfree : a.places[i].entry = none)
    (hlow : ∀ j : EntryNo, j < i → a.places[j].entry ≠ none) : a.freePlaceNo = some i := by
  unfold Ale.freePlaceNo
  refine List.find?_eq_some_iff_getElem.2 ⟨Option.isNone_iff_eq_none.2 hfree, i.val, by simp, by simp, fun j hj => ?_⟩
  have hne := hlow ⟨j, hj.trans i.isLt⟩ hj
  simpa [Option.isSome_iff_ne_none] using hne

theorem makeEntry_place (i : EntryNo) (e : Entry) (a : Ale) (j : EntryNo) : (makeEntry i e a).places[j] =
    if j = i then { change := a.places[j].change + 1, entry := some e } else a.places[j] := by
  simp [makeEntry, Fin.ext_iff]

/-- The class, floor and zone of a new entry are those of its lookup, or its hint and none (R67). -/
theorem newEntryOf_lookup (p : Psc) (clock : Half) (r : Report) :
    (∀ d, p.deviceLookup r.key = some d → (newEntryOf p clock r).cls = d.cls ∧ (newEntryOf p clock r).floor = d.floor ∧
      (newEntryOf p clock r).zone = some d.zone) ∧
    (p.deviceLookup r.key = none → (newEntryOf p clock r).cls = r.hint.getD 0 ∧ (newEntryOf p clock r).floor = none ∧
      (newEntryOf p clock r).zone = none) := by
  unfold newEntryOf
  refine ⟨fun d hd => ?_, fun hn => ?_⟩
  · rw [hd]; exact ⟨rfl, rfl, rfl⟩
  · rw [hn]; exact ⟨rfl, rfl, rfl⟩

/-- An activation that finds no entry and a free place is an ALE event with the New Entry notice of that place (R68). -/
theorem processReport_makes {before : Ale} {gap : Option PanelNo} {r : Report} {s : State} {i : EntryNo}
    (hk : r.kind.activates = true) (hnone : s.ale.findEntry r.key r.kind.category = none)
    (hfree : s.ale.freePlaceNo = some i) : processReport before gap r s =
      completeEvent before { gap := gap, own := [(.newEntry, i)], rolledUp := false, floors := [] }
        { s with ale := makeEntry i (newEntryOf s.psc s.ale.clock r) s.ale } := by
  unfold processReport activateNew
  simp only [hnone, hk, if_true, hfree]
  rfl

/-- The table with the entry that an activation of `r` makes in place `i`, after its sequence check. -/
def madeAle (s : State) (r : Report) (i : EntryNo) : Ale :=
  makeEntry i (newEntryOf s.psc s.ale.clock r) (sequencedAle s r)

theorem madeAle_changedByReport (s : State) (r : Report) (i : EntryNo) : ChangedByReport s (madeAle s r i) := by
  unfold ChangedByReport madeAle
  rw [sequencedAle_rest]
  rfl

theorem madeAle_panels (s : State) (r : Report) (i : EntryNo) : panelsAfter s r (madeAle s r i).panels :=
  sequencedAle_panels s r

theorem madeAle_place (s : State) (r : Report) (i j : EntryNo) : (madeAle s r i).places[j] =
    if j = i then { change := s.ale.places[j].change + 1, entry := some (newEntryOf s.psc s.ale.clock r) }
    else s.ale.places[j] := by
  unfold madeAle
  rw [makeEntry_place, sequencedAle_rest]

/-- The report of an activation that finds no entry is taken as one ALE event, which makes the entry in the lowest free place
(R65, R68). -/
theorem exec_reportTake_makes {s : State} {r : Report} {rest : List Report} {i : EntryNo} (hp : s.power = true)
    (hd : deferring s = false) (hq : s.rin.queue = r :: rest) (hn : notDuplicate s r) (hk : r.kind.activates = true)
    (hnew : ∀ (j : EntryNo) (f : Entry), s.ale.places[j].entry = some f → f.key = r.key → f.category ≠ r.kind.category)
    (hfree : s.ale.places[i].entry = none) (hlow : ∀ j : EntryNo, j < i → s.ale.places[j].entry ≠ none) :
    exec .reportTake s = .next (afterReport s rest (madeAle s r i)
      { gap := gapOf s r, own := [(.newEntry, i)], rolledUp := false, floors := [] }) := by
  have hreset : r.kind ≠ .panelReset := fun h => by rw [h] at hk; cases hk
  have hprocessed : takeReport r { s with rin := { queue := rest } } = _ := takeReport_processed hn hreset
  have hplaces : (sequencedAle s r).places = s.ale.places := by rw [sequencedAle_rest]
  have hclock : (sequencedAle s r).clock = s.ale.clock := by rw [sequencedAle_rest]
  rw [← hplaces] at hnew hfree hlow
  have hmakes : processReport s.ale (gapOf s r) r { s with rin := { queue := rest }, ale := sequencedAle s r } = _ :=
    processReport_makes hk (findEntry_eq_none hnew) (freePlaceNo_eq hfree hlow)
  rw [exec_reportTake hp hd hq, hprocessed]
  refine congrArg (fun u => Host.Outcome.next (driveAttention u)) (hmakes.trans ?_)
  rw [hclock]
  rfl

/-! ### The entries of a panel (R62) -/

/-- The in-use entries stand in rising number (R64). -/
theorem inUse_pairwise (a : Ale) : a.inUse.Pairwise fun x y => x.1 < y.1 := by
  unfold Ale.inUse
  refine List.pairwise_filterMap.2 ((List.pairwise_lt_finRange 256).imp fun {i j} hij x hx y hy => ?_)
  obtain ⟨e, -, rfl⟩ := Option.map_eq_some_iff.1 hx
  obtain ⟨f, -, rfl⟩ := Option.map_eq_some_iff.1 hy
  exact hij

theorem resetEntries_pairwise (p : PanelNo) (a : Ale) : (resetEntries p a).Pairwise (· < ·) :=
  List.pairwise_map.2 ((inUse_pairwise a).filter _)

theorem standingLive_iff {phase : Phase} : phase.standingLive = true ↔ phase = .active ∨ phase = .acknowledged := by
  cases phase <;> simp [Phase.standingLive]

/-- A Panel Reset moves the Active and Acknowledged entries of its panel (R62). -/
theorem mem_resetEntries {p : PanelNo} {a : Ale} {i : EntryNo} : i ∈ resetEntries p a ↔
    ∃ e, a.places[i].entry = some e ∧ e.key.panel.val = p.val ∧ (e.phase = .active ∨ e.phase = .acknowledged) := by
  unfold resetEntries
  simp only [List.mem_map, List.mem_filter, Bool.and_eq_true, beq_iff_eq, standingLive_iff]
  constructor
  · rintro ⟨⟨j, e⟩, ⟨he, hmoved⟩, rfl⟩
    exact ⟨e, mem_inUse.1 he, hmoved⟩
  · rintro ⟨e, he, hmoved⟩
    exact ⟨(i, e), ⟨mem_inUse.2 he, hmoved⟩, rfl⟩

/-- Each place restored once has its change number raised once (R62, R72). -/
theorem restoreAll_place {clock : Half} {moved : List EntryNo} (hd : moved.Nodup) (a : Ale) (j : EntryNo) :
    (restoreAll clock moved a).places[j] =
      if j ∈ moved then { change := a.places[j].change + 1, entry := a.places[j].entry.map (restoreEntry clock) }
      else a.places[j] := by
  unfold restoreAll
  induction moved generalizing a with
  | nil => rfl
  | cons i moved ih =>
    obtain ⟨hi, hd⟩ := List.nodup_cons.1 hd
    have hplace : (changeEntry i (restoreEntry clock) a).places[j] =
        if j = i then { change := a.places[j].change + 1, entry := a.places[j].entry.map (restoreEntry clock) }
        else a.places[j] := by
      simp [changeEntry, Fin.ext_iff]
    rw [List.foldl_cons, ih hd, hplace]
    by_cases hj : j = i
    · subst hj; simp [hi]
    · simp [hj]

theorem restoreAll_rest (clock : Half) (moved : List EntryNo) (a : Ale) :
    restoreAll clock moved a = { a with places := (restoreAll clock moved a).places } := by
  unfold restoreAll
  induction moved generalizing a with
  | nil => rfl
  | cons i moved ih => exact ih (changeEntry i (restoreEntry clock) a)

/-- The table with the panel's record set and its entries restored (R62). -/
def resetAle (s : State) (p : PanelNo) (sequence : Byte) : Ale :=
  restoreAll s.ale.clock (resetEntries p s.ale) (recordPanel p sequence false s.ale)

/-- What a Panel Reset says of itself: a Restored notice for each entry that it moves (R62, R73). -/
def resetNews (s : State) (p : PanelNo) : EventNews :=
  { gap := none, own := (resetEntries p s.ale).map fun i => (.restored, i), rolledUp := false, floors := [] }

theorem resetAle_changedByReport (s : State) (p : PanelNo) (sequence : Byte) :
    ChangedByReport s (resetAle s p sequence) := by
  unfold ChangedByReport resetAle
  rw [restoreAll_rest]
  rfl

theorem resetAle_panels (s : State) (p : PanelNo) (sequence : Byte) :
    (resetAle s p sequence).panels = s.ale.panels.set p { last := some sequence, gap := false } := by
  unfold resetAle
  rw [restoreAll_rest]
  rfl

theorem resetAle_place (s : State) (p : PanelNo) (sequence : Byte) (j : EntryNo) : (resetAle s p sequence).places[j] =
    if j ∈ resetEntries p s.ale then
      { change := s.ale.places[j].change + 1, entry := s.ale.places[j].entry.map (restoreEntry s.ale.clock) }
    else s.ale.places[j] :=
  restoreAll_place ((resetEntries_pairwise p s.ale).imp ne_of_lt) _ j

/-- An entry whose notice a Panel Reset posts is in the table. -/
theorem resetAle_own {s : State} {p : PanelNo} (sequence : Byte) (o : NoticeKind × EntryNo) (ho : o ∈ (resetNews s p).own) :
    ∃ e, (resetAle s p sequence).places[o.2].entry = some e := by
  obtain ⟨i, hi, rfl⟩ := List.mem_map.1 ho
  obtain ⟨e, he, -⟩ := mem_resetEntries.1 hi
  rw [resetAle_place, if_pos hi, he]
  exact ⟨_, rfl⟩

/-- The state after a Panel Reset that finds nothing to restore: the panel's record alone is set (R62). -/
def afterIdleReset (s : State) (rest : List Report) (p : PanelNo) (sequence : Byte) : State :=
  driveAttention { s with rin := { queue := rest }, ale := recordPanel p sequence false s.ale }

/-- A Panel Reset that is no duplicate is taken as one ALE event, or sets the panel's record alone when it finds nothing to
restore (R62). -/
theorem exec_reportTake_reset {s : State} {r : Report} {rest : List Report} {p : PanelNo} {sequence : Byte}
    (hp : s.power = true) (hd : deferring s = false) (hq : s.rin.queue = r :: rest) (hk : r.kind = .panelReset)
    (hr : r.source = .panel p sequence) (hl : s.ale.panels[p].last ≠ some sequence) :
    exec .reportTake s = .next (if resetEntries p s.ale = [] then afterIdleReset s rest p sequence
      else afterReport s rest (resetAle s p sequence) (resetNews s p)) := by
  have hreset : takeReport r { s with rin := { queue := rest } } = _ := takeReport_panelReset hk hr hl
  rw [exec_reportTake hp hd hq, hreset]
  unfold panelReset
  dsimp only
  simp only [List.isEmpty_iff]
  split <;> rfl

end Sys2Proof.Machine
end

section
/-!
PROOFS. The statements about taking a report: O35, O38 and O39 (R59 to R62, R65 to R73).
-/

namespace Sys2Proof.Machine

/-- Settles O39: the sequence check ends the duplicate, and the attention lines already show their conditions. -/
theorem duplicateIsDiscarded : Obligations.DuplicateIsDiscarded := by
  intro s r rest panel sequence hp hd hq hr hl htrue
  have hnone : takeReport r { s with rin := { queue := rest } } = { s with rin := { queue := rest } } :=
    takeReport_duplicate hr hl
  rw [exec_reportTake hp hd hq, hnone, driveAttention_of_true (s := { s with rin := { queue := rest } }) hp htrue]

/-- Settles O35: the report makes its entry and completes an ALE event, which leaves the entry but for its standing. -/
theorem reportTakeMakesEntry : Obligations.ReportTakeMakesEntry := by
  intro s r rest i hp hd hq hn hk hnew hfree hlow
  have hexec := exec_reportTake_makes hp hd hq hn hk hnew hfree hlow
  have hchanged := madeAle_changedByReport s r i
  obtain ⟨hmapped, hunmapped⟩ := newEntryOf_lookup s.psc s.ale.clock r
  have hplace := madeAle_place s r i i
  rw [if_pos rfl] at hplace
  have hentry := afterReport_entry (s := s) (a := madeAle s r i) rest
    { gap := gapOf s r, own := [(.newEntry, i)], rolledUp := false, floors := [] } i
  rw [hplace] at hentry
  obtain ⟨standing, hentry⟩ := sameButStanding_some hentry
  refine ⟨_, _, hexec, afterReport_queue rest _, hentry, ?_, rfl, rfl, rfl, rfl, rfl, rfl, rfl, rfl, hmapped, hunmapped,
    fun j hj => ?_, afterReport_handedOn rest _ hchanged ?_, ?_, afterReport_counters rest _ hchanged,
    afterReport_holdTimers rest _ hchanged, afterReport_eventFrame rest _, afterReport_pbi rest _⟩
  · rw [afterReport_change, hplace]
  · have hother := madeAle_place s r i j
    rw [if_neg hj] at hother
    rw [afterReport_change, ← hother]
    exact ⟨rfl, afterReport_entry rest _ j⟩
  · intro o ho
    rw [List.mem_singleton.1 ho, hplace]
    exact ⟨_, rfl⟩
  · rw [afterReport_panels]
    exact madeAle_panels s r i

/-- Settles O38: with entries to restore the reset is an ALE event over the restored table; without, it moves the panel's
record alone and hands on nothing. -/
theorem panelResetRestoresEntries : Obligations.PanelResetRestoresEntries := by
  intro s r rest p sequence hp hd hq hk hr hl
  have hexec := exec_reportTake_reset hp hd hq hk hr hl
  have hstays : ∀ i : EntryNo, (∀ e, s.ale.places[i].entry = some e →
      e.key.panel.val ≠ p.val ∨ e.phase ≠ .active ∧ e.phase ≠ .acknowledged) → i ∉ resetEntries p s.ale := by
    intro i hi hmem
    obtain ⟨e, he, hpanel, hphase⟩ := mem_resetEntries.1 hmem
    rcases hi e he with hother | ⟨hactive, hacknowledged⟩
    · exact hother hpanel
    · exact hphase.elim hactive hacknowledged
  by_cases hidle : resetEntries p s.ale = []
  · rw [if_pos hidle] at hexec
    refine ⟨_, [], hexec, rfl, List.Pairwise.nil, fun i => ?_, ?_, rfl, fun i e he hpanel hphase => ?_, fun i _ => ⟨rfl, rfl⟩,
      fun _ => ⟨rfl, rfl, rfl⟩, ⟨rfl, rfl, rfl⟩, rfl, ⟨rfl, rfl, rfl, fun c => rfl, fun q => rfl, rfl, rfl, rfl⟩, rfl⟩
    · rw [← hidle]
      exact mem_resetEntries
    · exact gapOnly_handedOn (gap := none)
        (u := { s with rin := { queue := rest }, ale := recordPanel p sequence false s.ale }) rfl rfl rfl rfl rfl rfl rfl
    · have hmem := mem_resetEntries.2 ⟨e, he, hpanel, hphase⟩
      rw [hidle] at hmem
      exact absurd hmem List.not_mem_nil
  · rw [if_neg hidle] at hexec
    have hchanged := resetAle_changedByReport s p sequence
    refine ⟨_, resetEntries p s.ale, hexec, afterReport_queue rest _, resetEntries_pairwise p s.ale,
      fun i => mem_resetEntries, afterReport_handedOn rest _ hchanged (resetAle_own sequence),
      (afterReport_panels rest _).trans (resetAle_panels s p sequence), fun i e he hpanel hphase => ?_, fun i hi => ?_,
      fun hall => ?_, afterReport_counters rest _ hchanged, afterReport_holdTimers rest _ hchanged,
      afterReport_eventFrame rest _, afterReport_pbi rest _⟩
    · have hplace := resetAle_place s p sequence i
      rw [if_pos (mem_resetEntries.2 ⟨e, he, hpanel, hphase⟩), he] at hplace
      have hentry := afterReport_entry (s := s) (a := resetAle s p sequence) rest (resetNews s p) i
      rw [hplace] at hentry
      rw [afterReport_change, hplace]
      exact ⟨rfl, hentry⟩
    · have hplace := resetAle_place s p sequence i
      rw [if_neg (hstays i hi)] at hplace
      rw [afterReport_change, ← hplace]
      exact ⟨rfl, afterReport_entry rest _ i⟩
    · exact absurd (List.eq_nil_iff_forall_not_mem.2 fun i => hstays i (hall i)) hidle

end Sys2Proof.Machine
end

section
/-!
SUPPORT. The Alarm Engine with the class map that its holds go by (R79, R84): which operations leave both, and the laws of holds
and of the Alarm List said of them alone (R74, R80).
-/

namespace Sys2Proof.Machine

/-- The Alarm Engine and the slot class map. -/
structure MappedAle where
  ale : Ale
  classes : Vector SlotClass 8

/-- The Alarm Engine and the class map of a state. -/
def State.mappedAle (s : State) : MappedAle := { ale := s.ale, classes := s.pbi.classes }

/-- An operation that leaves the Alarm Engine and the bus interface leaves the Alarm Engine with its map. -/
theorem mappedAle_of {s t : State} (ha : t.ale = s.ale) (hp : t.pbi = s.pbi) : t.mappedAle = s.mappedAle := by
  rw [State.mappedAle, State.mappedAle, ha, hp]

/-! ### Commands that leave the Alarm Engine with its map -/

theorem unmark_mappedAle (s : State) (f : Nat) : (unmark f s).mappedAle = s.mappedAle :=
  mappedAle_of (unmark_ale f s) (unmark_pbi f s)

theorem briefRequest_mappedAle (c : CtxNo) (u : Urgency) (fromMove : Bool) (s : State) :
    (briefRequest c u fromMove s).mappedAle = s.mappedAle :=
  mappedAle_of (briefRequest_ale c u fromMove s) (briefRequest_pbi c u fromMove s)

theorem abandon_mappedAle (requeue : Bool) (s : State) : (abandon requeue s).mappedAle = s.mappedAle :=
  mappedAle_of (abandon_ale requeue s) (abandon_pbi requeue s)

theorem markFloorBody_mappedAle (slot : Slot) (cmd : InFlight) (s : State) :
    (markFloorBody slot cmd s).1.mappedAle = s.mappedAle := by
  unfold markFloorBody
  split
  · rfl
  · dsimp only
    split
    · rfl
    · exact mappedAle_of (changeMark_ale ..) (changeMark_pbi ..)

theorem resetMarkBody_mappedAle (cmd : InFlight) (s : State) : (resetMarkBody cmd s).1.mappedAle = s.mappedAle := by
  unfold resetMarkBody
  split
  · rfl
  · dsimp only
    split
    · rfl
    · exact unmark_mappedAle s _

theorem assignCrewBody_mappedAle (cmd : InFlight) (s : State) : (assignCrewBody cmd s).1.mappedAle = s.mappedAle := by
  unfold assignCrewBody
  split
  · rfl
  · exact briefRequest_mappedAle ..

theorem moveCrewBody_mappedAle (cmd : InFlight) (s : State) : (moveCrewBody cmd s).1.mappedAle = s.mappedAle := by
  unfold moveCrewBody
  split
  · rfl
  · exact briefRequest_mappedAle ..

theorem dropFromComposer_mappedAle (c : CtxNo) (s : State) : (dropFromComposer c s).mappedAle = s.mappedAle := by
  unfold dropFromComposer
  dsimp only
  split
  · exact abandon_mappedAle false _
  · rfl

theorem returnPublished_mappedAle (c : CtxNo) (s : State) : (returnPublished c s).mappedAle = s.mappedAle := by
  unfold returnPublished
  split
  · rfl
  · rfl

theorem release_mappedAle (c : CtxNo) (s : State) : (release c s).mappedAle = s.mappedAle := by
  unfold release
  rw [foldl_keeps State.mappedAle fun s f => unmark_mappedAle s f]
  exact (returnPublished_mappedAle c _).trans (dropFromComposer_mappedAle c s)

theorem withdrawCrewBody_mappedAle (cmd : InFlight) (s : State) : (withdrawCrewBody cmd s).1.mappedAle = s.mappedAle := by
  unfold withdrawCrewBody
  split
  · rfl
  · exact release_mappedAle _ s

theorem setConsoleMaskBody_mappedAle (cmd : InFlight) (s : State) :
    (setConsoleMaskBody cmd s).1.mappedAle = s.mappedAle := by
  unfold setConsoleMaskBody
  dsimp only
  split
  · rfl
  · rfl

theorem takeConsoleNoticeBody_mappedAle (cmd : InFlight) (s : State) :
    (takeConsoleNoticeBody cmd s).1.mappedAle = s.mappedAle := by
  unfold takeConsoleNoticeBody
  split
  · rfl
  · split
    · rfl
    · rfl

theorem takeNoticeBody_mappedAle (slot : Slot) (cmd : InFlight) (s : State) :
    (takeNoticeBody slot cmd s).1.mappedAle = s.mappedAle := by
  unfold takeNoticeBody
  split
  · rfl
  · split
    · rfl
    · rfl

theorem setMaskBody_mappedAle (slot : Slot) (cmd : InFlight) (s : State) :
    (setMaskBody slot cmd s).1.mappedAle = s.mappedAle := by
  unfold setMaskBody
  split
  · rfl
  · rfl

theorem requestBriefBody_mappedAle (slot : Slot) (cmd : InFlight) (s : State) :
    (requestBriefBody slot cmd s).1.mappedAle = s.mappedAle := by
  unfold requestBriefBody
  split
  · rfl
  · split
    · exact briefRequest_mappedAle ..
    · rfl

theorem briefNowBody_mappedAle (cmd : InFlight) (s : State) : (briefNowBody cmd s).1.mappedAle = s.mappedAle := by
  unfold briefNowBody
  split
  · rfl
  · exact briefRequest_mappedAle ..

theorem unlatchLineBody_mappedAle (cmd : InFlight) (s : State) : (unlatchLineBody cmd s).1.mappedAle = s.mappedAle := by
  unfold unlatchLineBody
  split
  · rfl
  · dsimp only
    split
    · rfl
    · split
      · rfl
      · rfl

theorem commitPlanBody_mappedAle (cmd : InFlight) (s : State) : (commitPlanBody cmd s).1.mappedAle = s.mappedAle := by
  unfold commitPlanBody
  split
  · rfl
  · rfl

theorem abortLoadBody_mappedAle (cmd : InFlight) (s : State) : (abortLoadBody cmd s).1.mappedAle = s.mappedAle := by
  unfold abortLoadBody
  split
  · rfl
  · rfl

/-! ### Scans, compositions and transfers that leave the Alarm Engine with its map -/

theorem offerPending_mappedAle (r : Report) (clear : Lmn → Lmn) (s : State) :
    (offerPending r clear s).mappedAle = s.mappedAle := by
  unfold offerPending
  split
  · rfl
  · rfl

theorem offerLift_mappedAle (s : State) (k : Fin 2) : (offerLift s k).mappedAle = s.mappedAle := by
  unfold offerLift
  split
  · rfl
  · exact offerPending_mappedAle ..

theorem offerContact_mappedAle (s : State) (k : Fin 16) : (offerContact s k).mappedAle = s.mappedAle := by
  unfold offerContact
  split
  · rfl
  · exact offerPending_mappedAle ..

theorem offerReports_mappedAle (s : State) : (offerReports s).mappedAle = s.mappedAle := by
  unfold offerReports
  rw [foldl_keeps State.mappedAle offerContact_mappedAle, foldl_keeps State.mappedAle offerLift_mappedAle]

theorem startComposition_mappedAle (s : State) : (startComposition s).mappedAle = s.mappedAle := by
  unfold startComposition
  split
  · split
    · rfl
    · rfl
  · rfl

theorem setComposition_mappedAle (c : Composition) (s : State) : (setComposition c s).mappedAle = s.mappedAle := rfl

theorem putItem_mappedAle (c : Composition) (bytes : List Byte) (sw : State × Walk) :
    (putItem c bytes sw).1.mappedAle = sw.1.mappedAle := by
  unfold putItem
  split
  · rfl
  · rfl

theorem putEntries_mappedAle (c : Composition) (floor : Nat) (es : List (EntryNo × Entry)) (sw : State × Walk) :
    (putEntries c floor es sw).1.mappedAle = sw.1.mappedAle := by
  unfold putEntries
  rw [foldl_keeps fun u : State × Walk => u.1.mappedAle]
  exact fun _ _ => putItem_mappedAle c _ _

/-- A step of a walk writes the working buffer and the composition alone (R143). -/
theorem walkStep_mappedAle (c : Composition) (s : State) : (walkStep c s).mappedAle = s.mappedAle := by
  unfold walkStep
  dsimp only
  split
  · exact (setComposition_mappedAle _ _).trans (putItem_mappedAle c _ _)
  · split
    · rfl
    · exact (setComposition_mappedAle _ _).trans (putItem_mappedAle c _ _)
  · split
    · rfl
    · exact (setComposition_mappedAle _ _).trans ((putEntries_mappedAle c _ _ _).trans (putItem_mappedAle c _ _))
  · rfl
  · rfl

theorem sealBrief_mappedAle (c : Composition) (s : State) : (sealBrief c s).mappedAle = s.mappedAle := by
  unfold sealBrief
  extract_lets old epoch framed published _ returned
  have hreturned : returned.mappedAle = published.mappedAle := by
    dsimp only [returned]
    split
    · rfl
    · rfl
  exact hreturned

/-- The owner of any place but an entry record leaves the Alarm Engine with its map at a read. -/
theorem ownerRead_mappedAle {p : BusPlace} (hp : ∀ i, p ≠ .entry i) (t : Transfer) (off n : Nat) (s : State) :
    (ownerRead t p off n s).state.mappedAle = s.mappedAle := by
  cases p with
  | entry i => exact absurd rfl (hp i)
  | planStatus =>
    unfold ownerRead planStatusAnswer readFrom
    dsimp only
    split
    · rfl
    · rfl
  | contextRecord =>
    unfold ownerRead contextWindowRead
    dsimp only
    split
    · rfl
    · rfl
  | briefWindow =>
    unfold ownerRead briefRead
    dsimp only
    split
    · rfl
    · split
      · rfl
      · dsimp only
        split
        · rfl
        · rfl
  | planSpace bank =>
    unfold ownerRead planSpaceRead
    dsimp only
    split <;> rfl
  | _ => rfl

/-- The owner of any place but an entry record leaves the Alarm Engine with its map at a write. -/
theorem ownerWrite_mappedAle {p : BusPlace} (hp : ∀ i, p ≠ .entry i) (t : Transfer) (off : Nat) (data : List Byte)
    (s : State) : (ownerWrite t p off data s).state.mappedAle = s.mappedAle := by
  cases p with
  | entry i => exact absurd rfl (hp i)
  | commandSlot k =>
    unfold ownerWrite commandAnswer
    dsimp only
    split
    · rfl
    · split
      · rfl
      · rfl
  | selector k =>
    unfold ownerWrite selectorWrite
    dsimp only
    split
    · rfl
    · split
      · rfl
      · rfl
  | intake =>
    unfold ownerWrite intakeAnswer
    dsimp only
    split
    · rfl
    · rfl
  | planSpace bank =>
    unfold ownerWrite planSpaceStore
    dsimp only
    split
    · rfl
    · rfl
  | _ => rfl

/-! ### The law of holds (R80) -/

/-- The slot that holds the entry in place `i`. -/
def Ale.holder (a : Ale) (i : EntryNo) : Option Slot := a.places[i].entry.bind (·.holder)

/-- The law of holds, of an Alarm Engine and the class map that its holds go by. -/
def HoldsLaw (classes : Vector SlotClass 8) (a : Ale) : Prop :=
  (∀ (i j : EntryNo) (slot : Slot), a.holder i = some slot → a.holder j = some slot → i = j) ∧
  (∀ (i : EntryNo) (slot : Slot), a.holder i = some slot → classes[slot] = .console) ∧
  ∀ slot : Slot, a.holdTimers[slot] = true ↔ ∃ i : EntryNo, a.holder i = some slot

theorem holdsSound_iff (s : State) : s.holdsSound ↔ HoldsLaw s.pbi.classes s.ale := Iff.rfl

theorem holder_of_map {a b : Ale} {i : EntryNo} {f : Entry → Entry} (h : b.places[i].entry = a.places[i].entry.map f)
    (hf : ∀ e, (f e).holder = e.holder) : b.holder i = a.holder i := by
  unfold Ale.holder
  rw [h]
  cases a.places[i].entry with
  | none => rfl
  | some e => exact hf e

/-- The law reads the holders and the timers alone. -/
theorem HoldsLaw.congr {a b : Ale} {classes : Vector SlotClass 8} (h : HoldsLaw classes a)
    (hholder : ∀ i, b.holder i = a.holder i) (htimers : b.holdTimers = a.holdTimers) : HoldsLaw classes b := by
  unfold HoldsLaw
  simp only [hholder, htimers]
  exact h

theorem endHolds_holder (released : Slot → Bool) (a : Ale) (i : EntryNo) :
    (endHolds released a).holder i = (a.holder i).filter fun slot => !released slot := by
  unfold Ale.holder
  rw [Fin.getElem_fin, endHolds_entry, Fin.getElem_fin]
  cases a.places[i.val].entry with
  | none => rfl
  | some e =>
    rw [Option.map_some, Option.bind_some, releasedBy_filter]
    rfl

/-- The end of holds keeps the law, under any map that leaves the slots Console whose holds go on (R84). -/
theorem HoldsLaw.endHolds {a : Ale} {classes classes' : Vector SlotClass 8} {released : Slot → Bool}
    (h : HoldsLaw classes a)
    (hc : ∀ slot : Slot, classes[slot] = .console → released slot = false → classes'[slot] = .console) :
    HoldsLaw classes' (endHolds released a) := by
  obtain ⟨hone, hconsole, htimer⟩ := h
  have hholder : ∀ (i : EntryNo) (slot : Slot), (Machine.endHolds released a).holder i = some slot ↔
      a.holder i = some slot ∧ released slot = false := fun i slot => by
    rw [endHolds_holder, Option.filter_eq_some_iff, Bool.not_eq_true']
  refine ⟨fun i j slot hi hj => ?_, fun i slot hi => ?_, fun slot => ?_⟩
  · exact hone i j slot ((hholder i slot).1 hi).1 ((hholder j slot).1 hj).1
  · obtain ⟨hi, hr⟩ := (hholder i slot).1 hi
    exact hc slot (hconsole i slot hi) hr
  · have htimer := htimer slot
    simp only [Fin.getElem_fin] at htimer
    simp only [hholder, Fin.getElem_fin, endHolds_timer, Bool.and_eq_true, Bool.not_eq_true', exists_and_right, htimer]

theorem startHold_holder {slot : Slot} {i : EntryNo} {a : Ale} {e : Entry} (he : a.places[i].entry = some e) (j : EntryNo) :
    (startHold slot i a).holder j = if j = i then some slot else (a.holder j).filter fun k => !(k == slot) := by
  have hentry := startHold_entry slot i a j j.isLt
  unfold Ale.holder
  rw [Fin.getElem_fin, hentry, Fin.getElem_fin]
  by_cases hj : j = i
  · subst hj
    have he : a.places[j.val].entry = some e := he
    rw [if_pos rfl, if_pos rfl, he]
    rcases heldBy_cases e slot a.clock with ⟨hh, h⟩ | ⟨-, h⟩
    · rw [Option.map_some, Option.bind_some, h, hh]
    · rw [Option.map_some, Option.bind_some, h]
  · rw [if_neg (Fin.val_ne_of_ne hj), if_neg hj]
    cases a.places[j.val].entry with
    | none => rfl
    | some f =>
      rw [Option.map_some, Option.bind_some, releasedBy_filter]
      rfl

theorem startHold_timer (slot : Slot) (i : EntryNo) (a : Ale) (k : Slot) :
    (startHold slot i a).holdTimers[k] = if k = slot then true else a.holdTimers[k] := by
  simp only [startHold, endHold, Fin.getElem_fin, Vector.getElem_set, endHolds_timer]
  by_cases hk : k = slot
  · subst hk; simp
  · simp [hk, Fin.val_ne_of_ne (Ne.symm hk)]

/-- A hold that a Console starts, or starts again, on an entry that no other slot holds keeps the law (R79, R81). -/
theorem HoldsLaw.startHold {a : Ale} {classes : Vector SlotClass 8} {slot : Slot} {i : EntryNo} {e : Entry}
    (h : HoldsLaw classes a) (hc : classes[slot] = .console) (he : a.places[i].entry = some e)
    (hfree : ∀ k, a.holder i = some k → k = slot) : HoldsLaw classes (startHold slot i a) := by
  obtain ⟨hone, hconsole, htimer⟩ := h
  have hholder : ∀ (j : EntryNo) (k : Slot), (Machine.startHold slot i a).holder j = some k ↔
      k = slot ∧ j = i ∨ k ≠ slot ∧ a.holder j = some k := fun j k => by
    rw [startHold_holder he]
    by_cases hj : j = i
    · subst hj
      rw [if_pos rfl, Option.some.injEq]
      exact ⟨fun hk => Or.inl ⟨hk.symm, rfl⟩, fun hk => hk.elim (fun h => h.1.symm) fun h => absurd (hfree k h.2) h.1⟩
    · rw [if_neg hj, Option.filter_eq_some_iff]
      simp [hj, and_comm]
  refine ⟨fun j l k hj hl => ?_, fun j k hj => ?_, fun k => ?_⟩
  · rcases (hholder j k).1 hj with ⟨hk, rfl⟩ | ⟨hk, hj⟩ <;> rcases (hholder l k).1 hl with ⟨hk', rfl⟩ | ⟨hk', hl⟩
    · rfl
    · exact absurd hk hk'
    · exact absurd hk' hk
    · exact hone j l k hj hl
  · rcases (hholder j k).1 hj with ⟨rfl, -⟩ | ⟨-, hj⟩
    · exact hc
    · exact hconsole j k hj
  · rw [startHold_timer]
    simp only [hholder]
    by_cases hk : k = slot
    · simp [hk]
    · simpa [hk] using htimer k

/-- With no entry held and no timer running the law holds under every map. -/
theorem holdsLaw_of_none {a : Ale} (classes : Vector SlotClass 8) (hholder : ∀ i, a.holder i = none)
    (htimers : ∀ slot : Slot, a.holdTimers[slot] = false) : HoldsLaw classes a := by
  unfold HoldsLaw
  simp [hholder, htimers]

/-! ### Changes of entries under the law of holds -/

/-- A change of an entry that leaves its holder leaves every holder. -/
theorem changeEntry_holder (i : EntryNo) {f : Entry → Entry} (hf : ∀ e, (f e).holder = e.holder) (a : Ale) (j : EntryNo) :
    (changeEntry i f a).holder j = a.holder j := by
  refine holder_of_map (f := fun e => if j = i then f e else e) ?_ fun e => ?_
  · by_cases hj : j = i
    · subst hj; simp
    · simp [hj, Fin.val_ne_of_ne hj]
  · split
    · exact hf e
    · rfl

theorem activate_holder (clock : Half) (detection : Byte) (e : Entry) : (activate clock detection e).holder = e.holder := by
  unfold activate
  split <;> rfl

theorem restoreAll_holder (clock : Half) (moved : List EntryNo) (a : Ale) (j : EntryNo) :
    (restoreAll clock moved a).holder j = a.holder j :=
  foldl_keeps (fun a : Ale => a.holder j) (fun a i => changeEntry_holder i (f := restoreEntry clock) (fun _ => rfl) a j) moved a

theorem recomputed_holder (p : Psc) (before a : Ale) (j : EntryNo) :
    (raiseEpoch before (recompute p a)).holder j = a.holder j := by
  refine holder_of_map (f := fun e => { e with standing := standingOf p a.inUse j e }) ?_ fun _ => rfl
  rw [raiseEpoch_places, recompute_places]
  exact regraded_entry p a j j.isLt

theorem HoldsLaw.recomputed {classes : Vector SlotClass 8} {a : Ale} (h : HoldsLaw classes a) (p : Psc) (before : Ale) :
    HoldsLaw classes (raiseEpoch before (recompute p a)) :=
  h.congr (recomputed_holder p before a) (by rw [raiseEpoch_holdTimers, recompute_holdTimers])

/-- An entry made in a place that nobody holds leaves every holder (R68). -/
theorem makeEntry_holder {i : EntryNo} {a : Ale} {e : Entry} (he : e.holder = none) (hi : a.holder i = none) (j : EntryNo) :
    (makeEntry i e a).holder j = a.holder j := by
  have hplace := makeEntry_place i e a j
  by_cases hj : j = i
  · subst hj
    rw [if_pos rfl] at hplace
    rw [hi]
    unfold Ale.holder
    rw [hplace]
    exact he
  · rw [if_neg hj] at hplace
    unfold Ale.holder
    rw [hplace]

/-- With no slot released nothing changes. -/
theorem endHolds_nobody (a : Ale) : endHolds (fun _ => false) a = a := by
  have hplaces : (endHolds (fun _ => false) a).places = a.places := table_ext fun i => by
    have hentry := endHolds_entry (fun _ => false) a i i.isLt
    have hchange := endHolds_change (fun _ => false) a i i.isLt
    have hkept : ∀ e : Entry, e.releasedBy (fun _ => false) = e := fun e => by
      rcases releasedBy_cases (fun _ => false) e with ⟨slot, -, hr, -⟩ | ⟨-, h⟩
      · cases hr
      · exact h
    simp only [hkept, Option.map_id_fun', id] at hentry
    calc (endHolds (fun _ => false) a).places[i] = ⟨_, _⟩ := rfl
      _ = ⟨a.places[i].change, a.places[i].entry⟩ := congrArg₂ Place.mk hchange hentry
  have htimers : (endHolds (fun _ => false) a).holdTimers = a.holdTimers := table_ext fun k => by
    rw [Fin.getElem_fin, endHolds_timer, Bool.not_false, Bool.and_true]
    rfl
  rw [endHolds_rest, hplaces, htimers]

/-- An eviction ends the hold on the entry, if there is one, and frees the place (R76, R84). -/
theorem evict_eq (i : EntryNo) (a : Ale) : evict i a =
    { endHolds (fun slot => decide (a.holder i = some slot)) a with
      places := updateAt (endHolds (fun slot => decide (a.holder i = some slot)) a).places i freePlace } := by
  unfold evict
  cases h : a.places[i].entry.bind (·.holder) with
  | none =>
    have hnobody : (fun slot => decide (a.holder i = some slot)) = fun _ => false := funext fun slot => by
      unfold Ale.holder; rw [h]; rfl
    rw [hnobody, endHolds_nobody]
  | some k =>
    have hslot : (fun slot => decide (a.holder i = some slot)) = (· == k) := funext fun slot => by
      unfold Ale.holder
      rw [h, Bool.eq_iff_iff, decide_eq_true_iff, beq_iff_eq, Option.some.injEq, eq_comm]
    rw [hslot]
    rfl

theorem evict_holder (i : EntryNo) (a : Ale) (j : EntryNo) :
    (evict i a).holder j = (endHolds (fun slot => decide (a.holder i = some slot)) a).holder j := by
  have hgone : (endHolds (fun slot => decide (a.holder i = some slot)) a).holder i = none := by
    rw [endHolds_holder]
    exact Option.filter_eq_none_iff.2 fun slot hslot => by simp [hslot]
  rw [evict_eq]
  by_cases hj : j = i
  · subst hj
    rw [hgone]
    simp [Ale.holder, freePlace]
  · simp [Ale.holder, Fin.val_ne_of_ne hj]

/-- An eviction keeps the law of holds (R76, R84). -/
theorem HoldsLaw.evict {classes : Vector SlotClass 8} {a : Ale} (h : HoldsLaw classes a) (i : EntryNo) :
    HoldsLaw classes (evict i a) :=
  (h.endHolds fun _ hslot _ => hslot).congr (evict_holder i a) (by rw [evict_eq])

/-- The entry in an evicted place is gone, and nobody holds it. -/
theorem evict_holder_self (i : EntryNo) (a : Ale) : (evict i a).holder i = none := by
  rw [evict_eq]
  simp [Ale.holder, freePlace]

theorem resolveAgain_holder (p : Psc) (place : Place) :
    (resolveAgain p place).entry.bind (·.holder) = place.entry.bind (·.holder) := by
  cases he : place.entry with
  | none => rw [resolveAgain_free p he, he]
  | some e =>
    obtain ⟨cls, floor, zone, -, hentry, -⟩ := resolveAgain_entry p he
    rw [hentry]
    rfl

theorem aleTakesPlan_holder (p : Psc) (a : Ale) (j : EntryNo) : (aleTakesPlan p a).holder j = a.holder j := by
  have hplace : (aleTakesPlan p a).places[j] = resolveAgain p a.places[j] := by simp [aleTakesPlan]
  unfold Ale.holder
  rw [hplace, resolveAgain_holder]

/-- A map set keeps the law: the holds end whose holder is no longer of class Console (R84). -/
theorem HoldsLaw.setMap {classes : Vector SlotClass 8} {s : State} (h : HoldsLaw s.pbi.classes s.ale) :
    HoldsLaw classes (setMap classes s).ale := by
  rw [setMap_ale]
  exact h.endHolds fun slot _ hr => by simpa using hr

end Sys2Proof.Machine
end

section
/-!
SUPPORT. The law of the Alarm List (R74), said of the Alarm Engine alone, and the moves that a command can make in it: holds and
counts alone, or one ALE event (R73, R75, R79 to R88).
-/

namespace Sys2Proof.Machine

/-! ### The Alarm List (R74) -/

/-- The law of the Alarm List, of an Alarm Engine: `State.listOrdered` reads nothing else. -/
def ListLaw (a : Ale) : Prop :=
  a.alarmList.Nodup ∧ (∀ i : EntryNo, i ∈ a.alarmList ↔ a.places[i].entry.isSome = true) ∧
  a.alarmList.Pairwise fun i j =>
    ∀ e f : Entry, a.places[i].entry = some e → a.places[j].entry = some f →
      f.standing.toNat < e.standing.toNat ∨ f.standing = e.standing ∧
        (e.firstAlarm.toNat < f.firstAlarm.toNat ∨ e.firstAlarm = f.firstAlarm ∧ i < j)

theorem listOrdered_iff (s : State) : s.listOrdered ↔ ListLaw s.ale := Iff.rfl

/-- The order of the Alarm List in one formula (R74). -/
theorem rankedBefore_iff {x y : EntryNo × Entry} : rankedBefore x y = true ↔
    y.2.standing.toNat < x.2.standing.toNat ∨ y.2.standing.toNat = x.2.standing.toNat ∧
      (x.2.firstAlarm.toNat < y.2.firstAlarm.toNat ∨ x.2.firstAlarm.toNat = y.2.firstAlarm.toNat ∧ x.1.val ≤ y.1.val) := by
  unfold rankedBefore
  split
  · simp; omega
  · split
    · simp; omega
    · simp only [decide_eq_true_eq, Fin.le_def]; omega

theorem rankedBefore_total : Std.Total fun x y : EntryNo × Entry => rankedBefore x y = true where
  total x y := by simp only [rankedBefore_iff]; omega

theorem rankedBefore_trans : IsTrans (EntryNo × Entry) fun x y => rankedBefore x y = true where
  trans x y z := by simp only [rankedBefore_iff]; omega

/-- The list computed from a table is its Alarm List (R74). -/
theorem rankedList_law (a : Ale) : ListLaw { a with alarmList := rankedList a } := by
  have htotal := rankedBefore_total
  have htrans := rankedBefore_trans
  have hperm := List.perm_insertionSort (fun x y => rankedBefore x y = true) a.inUse
  have hsorted := List.pairwise_insertionSort (fun x y => rankedBefore x y = true) a.inUse
  have hnodup : (rankedList a).Nodup := (hperm.map Prod.fst).nodup_iff.2 (inUse_nodup a)
  refine ⟨hnodup, fun i => ?_, ?_⟩
  · simp only [rankedList, List.mem_map, hperm.mem_iff, Option.isSome_iff_exists]
    exact ⟨fun ⟨x, hx, hi⟩ => ⟨x.2, mem_inUse.1 (hi ▸ hx)⟩, fun ⟨e, he⟩ => ⟨(i, e), mem_inUse.2 he, rfl⟩⟩
  · have hapart := List.pairwise_map.1 hnodup
    refine List.pairwise_map.2 (List.Pairwise.imp_of_mem (fun {x y} hx hy hxy e f he hf => ?_) (hsorted.and hapart))
    obtain ⟨hranked, hne⟩ := hxy
    have hx := mem_inUse.1 (hperm.mem_iff.1 hx)
    have hy := mem_inUse.1 (hperm.mem_iff.1 hy)
    cases hx.symm.trans he
    cases hy.symm.trans hf
    have hne : x.1.val ≠ y.1.val := Fin.val_ne_of_ne hne
    rw [rankedBefore_iff] at hranked
    simp only [← BitVec.toNat_inj, Fin.lt_def]
    omega

/-- Two entries agree in everything but the hold on them. -/
def sameButHold (x y : Option Entry) : Prop :=
  x.map (fun e => { e with holder := none, holdStart := 0 }) = y.map fun e => { e with holder := none, holdStart := 0 }

theorem sameButHold_some {x y : Option Entry} {e : Entry} (h : sameButHold x y) (he : x = some e) :
    ∃ f, y = some f ∧ e = { f with holder := e.holder, holdStart := e.holdStart } := by
  subst he
  cases y with
  | none => cases h
  | some f =>
    refine ⟨f, rfl, ?_⟩
    simp only [sameButHold, Option.map_some, Option.some.injEq, Entry.mk.injEq] at h
    obtain ⟨h1, h2, h3, h4, h5, h6, h7, h8, h9, h10, h11, -⟩ := h
    cases e
    simp_all

theorem sameButHold_of_map {x y : Option Entry} {f : Entry → Entry} (h : x = y.map f)
    (hf : ∀ e, f e = { e with holder := (f e).holder, holdStart := (f e).holdStart }) : sameButHold x y := by
  unfold sameButHold
  rw [h, Option.map_map]
  refine congrArg (Option.map · y) (funext fun e => ?_)
  rw [Function.comp_apply, hf e]

/-- The law of the Alarm List reads no hold. -/
theorem ListLaw.congr {a b : Ale} (h : ListLaw a) (hlist : b.alarmList = a.alarmList)
    (hentry : ∀ i : EntryNo, sameButHold b.places[i].entry a.places[i].entry) : ListLaw b := by
  obtain ⟨hnodup, hmem, hordered⟩ := h
  unfold ListLaw
  rw [hlist]
  refine ⟨hnodup, fun i => (hmem i).trans ?_, hordered.imp fun {i j} hij e f he hf => ?_⟩
  · have hi := congrArg Option.isSome (hentry i)
    rw [Option.isSome_map, Option.isSome_map] at hi
    rw [hi]
  · obtain ⟨e', he', hee⟩ := sameButHold_some (hentry i) he
    obtain ⟨f', hf', hff⟩ := sameButHold_some (hentry j) hf
    rw [hee, hff]
    exact hij e' f' he' hf'

/-- What the list shows of its entries is no hold (R74). -/
theorem listPositions_congr {a b : Ale} (hlist : b.alarmList = a.alarmList)
    (hentry : ∀ i : EntryNo, sameButHold b.places[i].entry a.places[i].entry) : listPositions b = listPositions a := by
  unfold listPositions
  rw [hlist]
  refine List.filterMap_congr fun i _ => ?_
  cases he : b.places[i].entry with
  | none =>
    have hi := hentry i
    rw [he, sameButHold, Option.map_none, eq_comm, Option.map_eq_none_iff] at hi
    rw [hi]
  | some e =>
    obtain ⟨f, hf, hef⟩ := sameButHold_some (hentry i) he
    rw [hf, Option.map_some, Option.map_some, hef]

/-- A list of an ordered table shows nothing when no entry is in use, and something when one is. -/
theorem listPositions_eq_nil {a : Ale} (h : ListLaw a) : listPositions a = [] ↔ a.inUse = [] := by
  obtain ⟨-, hmem, -⟩ := h
  unfold listPositions
  rw [List.filterMap_eq_nil_iff, List.eq_nil_iff_forall_not_mem]
  constructor
  · rintro hnone ⟨i, e⟩ he
    have he := mem_inUse.1 he
    have hi := hnone i ((hmem i).2 (by rw [he]; rfl))
    rw [he] at hi
    cases hi
  · intro hnone i hi
    obtain ⟨e, he⟩ := Option.isSome_iff_exists.1 ((hmem i).1 hi)
    exact absurd (mem_inUse.2 he) (hnone (i, e))

end Sys2Proof.Machine
end

section
/-!
SUPPORT. The moves of the Alarm Engine, command by command: a command leaves it, moves holds or counts alone, or is one ALE event
(R73, R75, R79 to R88).
-/

namespace Sys2Proof.Machine

/-! ### Moves -/

/-- A move of holds, counts and clock alone: the list and what it shows stand, the clock does not fall, and the law of holds is
kept. What a move leaves carries over by itself, so a use names the rest alone. -/
structure QuietMove (x y : MappedAle) : Prop where
  list : y.ale.alarmList = x.ale.alarmList := by exact rfl
  epoch : y.ale.listEpoch = x.ale.listEpoch := by exact rfl
  clock : x.ale.clock.toNat ≤ y.ale.clock.toNat := by exact le_rfl
  entry : ∀ i : EntryNo, sameButHold y.ale.places[i].entry x.ale.places[i].entry := by exact fun _ => rfl
  holds : HoldsLaw x.classes x.ale → HoldsLaw y.classes y.ale := by exact fun h => h

/-- The changes of an ALE event before its recomputation (R73): the List Epoch and the clock stand, and the law of holds is
kept. -/
structure Prepares (x y : MappedAle) : Prop where
  epoch : y.ale.listEpoch = x.ale.listEpoch := by exact rfl
  clock : y.ale.clock = x.ale.clock := by exact rfl
  holds : HoldsLaw x.classes x.ale → HoldsLaw y.classes y.ale := by exact fun h => h

theorem Prepares.trans {x y z : MappedAle} (h : Prepares x y) (h' : Prepares y z) : Prepares x z :=
  { epoch := h'.epoch.trans h.epoch
    clock := h'.clock.trans h.clock
    holds := h'.holds ∘ h.holds }

/-- Changes that leave every holder and the timers prepare an event. -/
theorem prepares_of_holders {a b : Ale} {classes : Vector SlotClass 8} (hepoch : b.listEpoch = a.listEpoch)
    (hclock : b.clock = a.clock) (hholder : ∀ i, b.holder i = a.holder i) (htimers : b.holdTimers = a.holdTimers) :
    Prepares { ale := a, classes := classes } { ale := b, classes := classes } :=
  { epoch := hepoch
    clock := hclock
    holds := fun h => h.congr hholder htimers }

/-- Everything a command does to the Alarm Engine but Incident Clear and the events of power: a quiet move, or an ALE event. -/
inductive TableMove (x y : MappedAle) : Prop
  | quiet (h : QuietMove x y)
  | event (p : Psc) (z : MappedAle) (h : Prepares x z) (hclasses : y.classes = z.classes)
      (hale : y.ale = raiseEpoch x.ale (recompute p z.ale))

theorem TableMove.of_eq {x y : MappedAle} (h : y = x) : TableMove x y := h ▸ .quiet {}

/-- Steps 2 to 5 of an ALE event over a table that its changes have prepared (R73). -/
theorem tableMove_completeEvent {x : MappedAle} {before : Ale} {u : State} (news : EventNews) (hb : before = x.ale)
    (h : Prepares x u.mappedAle) : TableMove x (completeEvent before news u).mappedAle := by
  subst hb
  exact .event u.psc u.mappedAle h (congrArg Pbi.classes (completeEvent_pbi ..)) (completeEvent_ale ..)

/-- An operation that leaves the Alarm Engine with its map adds nothing to a move. -/
theorem TableMove.then_eq {x y z : MappedAle} (h : TableMove x y) (hz : z = y) : TableMove x z := hz ▸ h

theorem tableMove_event {f : State → State} {s t : State} (h : TableMove s.mappedAle (f s).mappedAle)
    (ht : event f s = .next t) : TableMove s.mappedAle t.mappedAle := by
  rw [event_next] at ht
  injection ht with ht
  subst ht
  split
  · exact h
  · exact .of_eq rfl

/-- The completion of a command moves the Alarm Engine as its body does. -/
theorem tableMove_command {slot : Slot} {code : CommandCode} {body : InFlight → State → State × CommandOutcome} {s t : State}
    (hb : ∀ cmd, TableMove s.mappedAle (body cmd s).1.mappedAle) (h : event (carryOut slot code body) s = .next t) :
    TableMove s.mappedAle t.mappedAle := by
  refine tableMove_event ?_ h
  rcases carryOut_cases slot code body s with ⟨cmd, -, -, hc⟩ | hc
  · rw [hc]
    exact hb cmd
  · rw [hc]
    exact .of_eq rfl

/-- A command whose body leaves the Alarm Engine with its map. -/
theorem tableMove_idle {slot : Slot} {code : CommandCode} {body : InFlight → State → State × CommandOutcome} {s t : State}
    (hb : ∀ cmd, (body cmd s).1.mappedAle = s.mappedAle) (h : event (carryOut slot code body) s = .next t) :
    TableMove s.mappedAle t.mappedAle :=
  tableMove_command (fun cmd => .of_eq (hb cmd)) h

/-! ### Holds (R79 to R84) -/

/-- The end of holds under a map that leaves the slots Console whose holds go on. -/
theorem quietMove_endHolds {a : Ale} {classes classes' : Vector SlotClass 8} (released : Slot → Bool)
    (hc : ∀ slot : Slot, classes[slot] = .console → released slot = false → classes'[slot] = .console) :
    QuietMove { ale := a, classes := classes } { ale := endHolds released a, classes := classes' } :=
  { entry := fun i => sameButHold_of_map (endHolds_entry released a i i.isLt) fun e => by
      rw [releasedBy_filter]
    holds := fun h => h.endHolds hc }

theorem tableMove_endHold (slot : Slot) (s : State) :
    TableMove s.mappedAle ({ s with ale := endHold slot s.ale } : State).mappedAle :=
  .quiet (quietMove_endHolds (· == slot) fun _ h _ => h)

/-- A hold that a Console starts on an entry that no other slot holds. -/
theorem quietMove_startHold {a : Ale} {classes : Vector SlotClass 8} {slot : Slot} {i : EntryNo} {e : Entry}
    (hc : classes[slot] = .console) (he : a.places[i].entry = some e) (hfree : ∀ k, a.holder i = some k → k = slot) :
    QuietMove { ale := a, classes := classes } { ale := startHold slot i a, classes := classes } :=
  { entry := fun j => by
      refine sameButHold_of_map
        (f := fun e => if j = i then e.heldBy slot a.clock else e.releasedBy (· == slot)) ?_ fun e => ?_
      · have hj := startHold_entry slot i a j j.isLt
        by_cases h : j = i
        · subst h; simpa using hj
        · simpa [h, Fin.val_ne_of_ne h] using hj
      · split
        · rcases heldBy_cases e slot a.clock with ⟨-, h⟩ | ⟨-, h⟩ <;> rw [h]
        · rw [releasedBy_filter]
    holds := fun h => h.startHold hc he hfree }

/-- The slot class map set anew (R84, R156). -/
theorem quietMove_setMap (classes : Vector SlotClass 8) (s : State) :
    QuietMove s.mappedAle (setMap classes s).mappedAle := by
  have hmapped : (setMap classes s).mappedAle =
      { ale := endHolds (fun slot => classes[slot] != .console) s.ale, classes := classes } := by
    rw [State.mappedAle, setMap_ale, setMap_pbi]
  rw [hmapped]
  exact quietMove_endHolds _ fun slot _ hr => by simpa using hr

theorem heldByOther_eq_false {a : Ale} {i : EntryNo} {slot : Slot} :
    heldByOther a i slot = false ↔ ∀ k, a.holder i = some k → k = slot := by
  unfold heldByOther
  change (a.holder i).any _ = false ↔ _
  cases a.holder i <;> simp

/-! ### Transfers (R79 to R82) -/

theorem tableMove_entryRead (t : Transfer) (i : EntryNo) (off n : Nat) (s : State) :
    TableMove s.mappedAle (ownerRead t (.entry i) off n s).state.mappedAle := by
  unfold ownerRead
  dsimp only
  split
  · unfold lockedEntryRead
    split
    · exact .of_eq rfl
    · rename_i hclass
      split
      · exact .of_eq rfl
      · rename_i hentry
        split
        · exact .of_eq rfl
        · rename_i hfree
          obtain ⟨e, he⟩ := Option.ne_none_iff_exists'.1 (mt Option.isNone_iff_eq_none.2 hentry)
          exact .quiet (quietMove_startHold (not_not.1 hclass) he (heldByOther_eq_false.1 (Bool.eq_false_iff.2 hfree)))
  · unfold plainEntryRead
    split
    · exact .of_eq rfl
    · exact .of_eq rfl

theorem tableMove_busRead (t : Transfer) (s : State) : TableMove s.mappedAle (busRead t s).mappedAle := by
  cases h : judge t false s with
  | none => rw [busRead_none h]; exact .of_eq rfl
  | some p =>
    rw [busRead_some h]
    by_cases hp : ∃ i, p = .entry i
    · obtain ⟨i, rfl⟩ := hp
      exact tableMove_entryRead t i _ _ s
    · exact .of_eq (ownerRead_mappedAle (fun i hi => hp ⟨i, hi⟩) t _ _ s)

theorem prepares_changeEntry (i : EntryNo) {f : Entry → Entry} (hf : ∀ e, (f e).holder = e.holder) (a : Ale)
    (classes : Vector SlotClass 8) :
    Prepares { ale := a, classes := classes } { ale := changeEntry i f a, classes := classes } :=
  prepares_of_holders rfl rfl (changeEntry_holder i hf a) rfl

theorem prepares_endHolds {a : Ale} {classes classes' : Vector SlotClass 8} (released : Slot → Bool)
    (hc : ∀ slot : Slot, classes[slot] = .console → released slot = false → classes'[slot] = .console) :
    Prepares { ale := a, classes := classes } { ale := endHolds released a, classes := classes' } :=
  { holds := fun h => h.endHolds hc }

theorem tableMove_actionWrite (slot : Slot) (i : EntryNo) (word : List Byte) (s : State) :
    TableMove s.mappedAle (actionWrite slot i word s).state.mappedAle := by
  unfold actionWrite
  split
  · exact tableMove_endHold slot s
  · rename_i phase _
    exact tableMove_completeEvent noNews rfl
      ((prepares_changeEntry i (f := actedEntry phase s.ale.clock) (fun _ => rfl) s.ale s.pbi.classes).trans
        (prepares_endHolds (· == slot) fun _ h _ => h))

theorem tableMove_entryWrite (t : Transfer) (i : EntryNo) (off : Nat) (data : List Byte) (s : State) :
    TableMove s.mappedAle (ownerWrite t (.entry i) off data s).state.mappedAle := by
  change TableMove _ (entryWrite t i off data s).state.mappedAle
  unfold entryWrite
  split
  · exact .of_eq rfl
  · split
    · split
      · exact tableMove_actionWrite t.slot i data s
      · exact tableMove_endHold t.slot s
    · exact .of_eq rfl

theorem tableMove_busWrite (t : Transfer) (data : List Byte) (s : State) :
    TableMove s.mappedAle (busWrite t data s).mappedAle := by
  cases h : judge t true s with
  | none => rw [busWrite_none h]; exact .of_eq rfl
  | some p =>
    rw [busWrite_some h]
    by_cases hp : ∃ i, p = .entry i
    · obtain ⟨i, rfl⟩ := hp
      exact tableMove_entryWrite t i _ _ s
    · exact .of_eq (ownerWrite_mappedAle (fun i hi => hp ⟨i, hi⟩) t _ _ s)

/-! ### Reports (R55, R66 to R77) -/

/-- A report sets panel records before it changes the table. -/
def PanelsOnly (before a : Ale) : Prop := a = { before with panels := a.panels }

theorem PanelsOnly.prepares {before a : Ale} (h : PanelsOnly before a) (classes : Vector SlotClass 8) :
    Prepares { ale := before, classes := classes } { ale := a, classes := classes } := by
  rw [h]
  exact {}

/-- A report that moves no entry is a quiet move: the panel records alone have changed. -/
theorem PanelsOnly.quiet {before a : Ale} (h : PanelsOnly before a) (classes : Vector SlotClass 8) :
    TableMove { ale := before, classes := classes } { ale := a, classes := classes } := by
  rw [h]
  exact .quiet {}

/-- A report rolled up counts, and moves no entry (R77). -/
theorem PanelsOnly.rollUp {before a : Ale} (h : PanelsOnly before a) (zone : Option Nat) (classes : Vector SlotClass 8) :
    TableMove { ale := before, classes := classes } { ale := rollUp zone a, classes := classes } := by
  rw [h]
  cases zone with
  | none => exact .quiet {}
  | some z => exact .quiet {}

theorem gapOnly_mappedAle (gap : Option PanelNo) (s : State) : (gapOnly gap s).mappedAle = s.mappedAle :=
  mappedAle_of (offerAll_ale _ s) (offerAll_pbi _ s)

/-- An entry made in place `i`, which nobody holds (R68). -/
theorem prepares_makeEntry {i : EntryNo} {a : Ale} (p : Psc) (clock : Half) (r : Report) (hi : a.holder i = none)
    (classes : Vector SlotClass 8) : Prepares { ale := a, classes := classes }
      { ale := makeEntry i (newEntryOf p clock r) a, classes := classes } :=
  prepares_of_holders rfl rfl (makeEntry_holder rfl hi) rfl

theorem prepares_evict (i : EntryNo) (a : Ale) (classes : Vector SlotClass 8) :
    Prepares { ale := a, classes := classes } { ale := evict i a, classes := classes } :=
  { epoch := by rw [evict_eq]; rfl
    clock := by rw [evict_eq]; rfl
    holds := fun h => h.evict i }

/-- The lowest free place is free. -/
theorem freePlaceNo_free {a : Ale} {i : EntryNo} (h : a.freePlaceNo = some i) : a.places[i].entry = none := by
  have := List.find?_some h
  simpa using this

theorem tableMove_activateNew {before : Ale} {u : State} (gap : Option PanelNo) (r : Report)
    (h : PanelsOnly before u.ale) :
    TableMove { ale := before, classes := u.pbi.classes } (activateNew before gap r u).mappedAle := by
  have hstart := h.prepares u.pbi.classes
  unfold activateNew
  dsimp only
  split
  · rename_i i hi
    refine tableMove_completeEvent _ rfl (hstart.trans (prepares_makeEntry u.psc u.ale.clock r ?_ u.pbi.classes))
    unfold Ale.holder
    rw [freePlaceNo_free hi]
    rfl
  · split
    · rename_i i _
      exact tableMove_completeEvent _ rfl (hstart.trans ((prepares_evict i u.ale u.pbi.classes).trans
        (prepares_makeEntry u.psc u.ale.clock r (evict_holder_self i u.ale) u.pbi.classes)))
    · refine .then_eq (y := { ale := rollUp _ u.ale, classes := u.pbi.classes }) ?_
        (mappedAle_of (s := { u with ale := rollUp _ u.ale }) (handOn_ale ..) (handOn_pbi ..))
      exact h.rollUp _ u.pbi.classes

theorem tableMove_processReport {before : Ale} {u : State} (gap : Option PanelNo) (r : Report)
    (h : PanelsOnly before u.ale) :
    TableMove { ale := before, classes := u.pbi.classes } (processReport before gap r u).mappedAle := by
  have hstart := h.prepares u.pbi.classes
  have hidle := (h.quiet u.pbi.classes).then_eq (gapOnly_mappedAle gap u)
  unfold processReport
  split
  · split
    · exact tableMove_activateNew gap r h
    · exact hidle
  · rename_i i e _
    split
    · exact tableMove_completeEvent _ rfl (hstart.trans
        (prepares_changeEntry i (activate_holder u.ale.clock r.detection) u.ale u.pbi.classes))
    · split
      · exact tableMove_completeEvent _ rfl (hstart.trans
          (prepares_changeEntry i (f := restoreEntry u.ale.clock) (fun _ => rfl) u.ale u.pbi.classes))
      · exact hidle

theorem tableMove_panelReset (p : PanelNo) (sequence : Byte) (s : State) :
    TableMove s.mappedAle (panelReset s.ale p sequence s).mappedAle := by
  unfold panelReset
  dsimp only
  split
  · exact .quiet {}
  · refine tableMove_completeEvent _ rfl ?_
    have hrest := restoreAll_rest s.ale.clock (resetEntries p s.ale) (recordPanel p sequence false s.ale)
    refine prepares_of_holders ?_ ?_ (restoreAll_holder s.ale.clock _ (recordPanel p sequence false s.ale)) ?_
    · rw [hrest]; rfl
    · rw [hrest]; rfl
    · rw [hrest]; rfl

theorem tableMove_takeReport (r : Report) (s : State) : TableMove s.mappedAle (takeReport r s).mappedAle := by
  unfold takeReport
  split
  · split
    · exact .of_eq rfl
    · exact tableMove_processReport none r (u := s) rfl
  · rename_i p sequence _
    split
    · exact .of_eq rfl
    · exact tableMove_panelReset p sequence s
    · exact tableMove_processReport none r (u := { s with ale := recordPanel p sequence _ s.ale }) rfl
    · exact tableMove_processReport (some p) r (u := { s with ale := recordPanel p sequence true s.ale }) rfl

/-! ### The plan's coming and going (R43 to R47, R84, R85) -/

theorem QuietMove.prepares {x y : MappedAle} (h : QuietMove x y) (hclock : y.ale.clock = x.ale.clock) : Prepares x y :=
  { epoch := h.epoch, clock := hclock, holds := h.holds }

theorem tableMove_leaveValid (s u : State) (hu : u.mappedAle = s.mappedAle) :
    TableMove s.mappedAle (leaveValid s.ale u).mappedAle := by
  unfold leaveValid
  dsimp only
  refine tableMove_completeEvent noNews rfl ?_
  rw [abandon_mappedAle, ← hu]
  exact (quietMove_setMap _ u).prepares (by rw [State.mappedAle, setMap_ale]; rfl)

theorem tableMove_openedState (erase : Bool) (s : State) : TableMove s.mappedAle (openedState erase s).mappedAle := by
  have hstore : (openedStore erase s).mappedAle = s.mappedAle := by cases erase <;> rfl
  unfold openedState
  split
  · exact tableMove_leaveValid s _ hstore
  · exact .of_eq hstore

/-- Begin Load and Erase Plan (R35, R38, R46). -/
theorem tableMove_openingBody (erase : Bool) (cmd : InFlight) (s : State) :
    TableMove s.mappedAle (openingBody erase cmd s).1.mappedAle := by
  cases h : openingCheck s with
  | none =>
    rw [openingBody_accepted erase cmd h]
    exact tableMove_openedState erase s
  | some r =>
    rw [openingBody_refused erase cmd h]
    exact .of_eq rfl

theorem tableMove_completeStage (s : State) : TableMove s.mappedAle (completeStage s).mappedAle := by
  unfold completeStage
  split
  · rename_i f _
    rcases endInvalid_cases f s with ⟨-, h⟩ | ⟨-, h⟩
    · rw [h]
      exact .of_eq rfl
    · rw [h]
      exact .quiet (quietMove_setMap (loaderOnlyMap s.pbi.loaderSlot) { settle _ with rin.queue := [] })
  · rename_i zones _
    split
    · refine .event (planTaken zones s).psc (planTaken zones s).mappedAle ?_ ?_ (becomeValid_ale zones s)
      · refine ((quietMove_setMap (headerMap s.psc.planSpace s.pbi.loaderSlot) s).prepares ?_).trans
          (prepares_of_holders rfl rfl (aleTakesPlan_holder (planTaken zones s).psc _) rfl)
        rw [State.mappedAle, setMap_ale]
        rfl
      · rw [State.mappedAle, becomeValid_pbi, State.mappedAle, planTaken_pbi]
    · exact .of_eq rfl

/-! ### Every command -/

/-- Everything the command `c` does to the Alarm Engine. -/
inductive CommandMove (c : Instr) (x y : MappedAle) : Prop
  | moves (h : TableMove x y)
  | clears (slot : Slot) (hc : c = .incidentClear slot) (hale : y.ale = clearedAle x.ale)
  | blanks (hc : (∃ straps, c = .powerOn straps) ∨ c = .lossOfPower) (hale : y.ale = alePowerOn)

theorem clearComposition_ale (hadFocus : Bool) (s : State) : (clearComposition hadFocus s).ale = s.ale := by
  unfold clearComposition
  split
  · exact abandon_ale true s
  · split
    · rfl
    · rfl

theorem commandMove_incidentClear {slot : Slot} {s t : State} (h : execIncidentClear slot s = .next t) :
    CommandMove (.incidentClear slot) s.mappedAle t.mappedAle := by
  by_cases hp : s.power = true
  · rw [event_powered hp h]
    rcases carryOut_cases slot .incidentClear incidentClearBody s with ⟨cmd, -, -, hc⟩ | hc
    · rw [hc]
      unfold incidentClearBody
      split
      · exact .moves (.of_eq rfl)
      · refine .clears slot rfl ?_
        dsimp only
        exact (requestNormal_ale ..).trans (clearComposition_ale ..)
    · rw [hc]
      exact .moves (.of_eq rfl)
  · rw [event_unpowered (Bool.eq_false_iff.2 hp) h]
    exact .moves (.of_eq rfl)

theorem saturatingSucc16_toNat (h : Half) : (saturatingSucc16 h).toNat = min 65535 (h.toNat + 1) := by
  have hh := h.isLt
  unfold saturatingSucc16
  split
  · rename_i he
    rw [he]
    rfl
  · rename_i he
    have hne : h.toNat ≠ 65535 := fun hn => he (BitVec.eq_of_toNat_eq hn)
    have hone : (1 : Half).toNat = 1 := rfl
    rw [BitVec.toNat_add]
    omega

theorem tableMove_incidentClockTick {s t : State} (h : execIncidentClockTick s = .next t) :
    TableMove s.mappedAle t.mappedAle := by
  refine tableMove_event (f := fun s => { s with ale.clock := saturatingSucc16 s.ale.clock }) (.quiet { clock := ?_ }) h
  change s.ale.clock.toNat ≤ (saturatingSucc16 s.ale.clock).toNat
  rw [saturatingSucc16_toNat]
  omega

theorem tableMove_reportTake {s t : State} (h : execReportTake s = .next t) : TableMove s.mappedAle t.mappedAle := by
  refine tableMove_event ?_ h
  split
  · exact .of_eq rfl
  · split
    · exact .of_eq rfl
    · rename_i r rest _
      exact tableMove_takeReport r { s with rin.queue := rest }

theorem tableMove_holdExpiry {slot : Slot} {s t : State} (h : execHoldExpiry slot s = .next t) :
    TableMove s.mappedAle t.mappedAle := by
  refine tableMove_event ?_ h
  split
  · exact tableMove_endHold slot s
  · exact .of_eq rfl

theorem tableMove_validationStage {s t : State} (h : execValidationStage s = .next t) :
    TableMove s.mappedAle t.mappedAle := by
  refine tableMove_event ?_ h
  split
  · exact tableMove_completeStage s
  · exact .of_eq rfl

theorem tableMove_walk {s t : State} (h : execWalkStep s = .next t) : TableMove s.mappedAle t.mappedAle := by
  refine tableMove_event ?_ h
  split
  · exact .of_eq rfl
  · split
    · exact .of_eq (walkStep_mappedAle _ s)
    · exact .of_eq rfl

theorem tableMove_seal {s t : State} (h : execSeal s = .next t) : TableMove s.mappedAle t.mappedAle := by
  refine tableMove_event ?_ h
  split
  · exact .of_eq rfl
  · split
    · exact .of_eq (sealBrief_mappedAle _ s)
    · exact .of_eq rfl

theorem exec_commandMove (c : Instr) {s t : State} (h : exec c s = .next t) : CommandMove c s.mappedAle t.mappedAle := by
  cases c with
  | powerOn straps => cases h; exact .blanks (.inl ⟨straps, rfl⟩) rfl
  | lossOfPower => cases h; exact .blanks (.inr rfl) rfl
  | incidentClear slot => exact commandMove_incidentClear h
  | busReset =>
    exact .moves (tableMove_event (f := busResetState) (.quiet (quietMove_endHolds (fun _ => true) fun _ hc _ => hc)) h)
  | planSpaceWrite tr data => exact .moves (tableMove_event (tableMove_busWrite tr data s) h)
  | registerWrite tr data => exact .moves (tableMove_event (tableMove_busWrite tr data s) h)
  | commandSlotWrite tr data => exact .moves (tableMove_event (tableMove_busWrite tr data s) h)
  | intakeWrite tr data => exact .moves (tableMove_event (tableMove_busWrite tr data s) h)
  | contextSelectorWrite tr data => exact .moves (tableMove_event (tableMove_busWrite tr data s) h)
  | acknowledge slot entry change => exact .moves (tableMove_event (tableMove_busWrite _ _ s) h)
  | discount slot entry change => exact .moves (tableMove_event (tableMove_busWrite _ _ s) h)
  | clearEntry slot entry change => exact .moves (tableMove_event (tableMove_busWrite _ _ s) h)
  | planStatusRead tr => exact .moves (tableMove_event (tableMove_busRead tr s) h)
  | lockedRead tr => exact .moves (tableMove_event (tableMove_busRead tr s) h)
  | briefWindowRead tr => exact .moves (tableMove_event (tableMove_busRead tr s) h)
  | beginLoad slot => exact .moves (tableMove_command (body := openingBody false) (tableMove_openingBody false · s) h)
  | erasePlan slot => exact .moves (tableMove_command (body := openingBody true) (tableMove_openingBody true · s) h)
  | commitPlan slot => exact .moves (tableMove_idle (commitPlanBody_mappedAle · s) h)
  | abortLoad slot => exact .moves (tableMove_idle (abortLoadBody_mappedAle · s) h)
  | assignCrew slot => exact .moves (tableMove_idle (assignCrewBody_mappedAle · s) h)
  | moveCrew slot => exact .moves (tableMove_idle (moveCrewBody_mappedAle · s) h)
  | withdrawCrew slot => exact .moves (tableMove_idle (withdrawCrewBody_mappedAle · s) h)
  | setConsoleMask slot => exact .moves (tableMove_idle (setConsoleMaskBody_mappedAle · s) h)
  | takeConsoleNotice slot => exact .moves (tableMove_idle (takeConsoleNoticeBody_mappedAle · s) h)
  | briefNow slot => exact .moves (tableMove_idle (briefNowBody_mappedAle · s) h)
  | unlatchLine slot => exact .moves (tableMove_idle (unlatchLineBody_mappedAle · s) h)
  | resetMark slot => exact .moves (tableMove_idle (resetMarkBody_mappedAle · s) h)
  | requestBrief slot => exact .moves (tableMove_idle (requestBriefBody_mappedAle slot · s) h)
  | takeNotice slot => exact .moves (tableMove_idle (takeNoticeBody_mappedAle slot · s) h)
  | setMask slot => exact .moves (tableMove_idle (setMaskBody_mappedAle slot · s) h)
  | markFloor slot => exact .moves (tableMove_idle (markFloorBody_mappedAle slot · s) h)
  | validationStage => exact .moves (tableMove_validationStage h)
  | reportTake => exact .moves (tableMove_reportTake h)
  | holdExpiry slot => exact .moves (tableMove_holdExpiry h)
  | incidentClockTick => exact .moves (tableMove_incidentClockTick h)
  | lineScan levels =>
    exact .moves (tableMove_event (f := fun s => offerReports { s with lmn := scanLines s.psc levels s.lmn })
      (.of_eq (offerReports_mappedAle _)) h)
  | compositionStart => exact .moves (tableMove_event (.of_eq (startComposition_mappedAle s)) h)
  | walkStep => exact .moves (tableMove_walk h)
  -- SEAL, the one row left: its name is a keyword here.
  | _ => exact .moves (tableMove_seal h)

/-- A step moves the Alarm Engine as its front command does; with nothing waiting the part idles. -/
theorem step_commandMove {s t : State} (h : step s = .next t) : ∃ c, CommandMove c s.mappedAle t.mappedAle := by
  unfold step at h
  split at h
  · cases h
    exact ⟨.walkStep, .moves (.of_eq rfl)⟩
  · rename_i c rest _
    exact ⟨c, exec_commandMove c (s := { s with pending := rest }) h⟩

end Sys2Proof.Machine
end

section
/-!
PROOFS. The rules that every command keeps of the Live Alarm Table: O8, O10, O19 and O21 (R74, R75, R80, R87).
-/

namespace Sys2Proof.Machine

/-! ### The law of holds (R80) -/

theorem TableMove.holdsLaw {x y : MappedAle} (h : TableMove x y) (hx : HoldsLaw x.classes x.ale) :
    HoldsLaw y.classes y.ale := by
  cases h with
  | quiet h => exact h.holds hx
  | event p z h hclasses hale =>
    rw [hclasses, hale]
    exact (h.holds hx).recomputed p x.ale

/-- An accepted Incident Clear leaves no hold and no timer (R88). -/
theorem clearedAle_holdsLaw (classes : Vector SlotClass 8) (a : Ale) : HoldsLaw classes (clearedAle a) :=
  holdsLaw_of_none classes (fun i => by simp [Ale.holder, clearedAle, freePlace]) fun slot => by simp [clearedAle]

theorem alePowerOn_holdsLaw (classes : Vector SlotClass 8) : HoldsLaw classes alePowerOn := by
  obtain ⟨hplaces, -, -, htimers⟩ := alePowerOn_values
  refine holdsLaw_of_none classes (fun i => ?_) htimers
  unfold Ale.holder
  rw [hplaces]
  rfl

theorem CommandMove.holdsLaw {c : Instr} {x y : MappedAle} (h : CommandMove c x y) (hx : HoldsLaw x.classes x.ale) :
    HoldsLaw y.classes y.ale := by
  cases h with
  | moves h => exact h.holdsLaw hx
  | clears _ _ hale => rw [hale]; exact clearedAle_holdsLaw y.classes x.ale
  | blanks _ hale => rw [hale]; exact alePowerOn_holdsLaw y.classes

/-- Settles O8: each move of a command keeps the law. -/
theorem stepKeepsHolds : Obligations.StepKeepsHolds := by
  intro s t hs h
  obtain ⟨c, hmove⟩ := step_commandMove h
  exact (holdsSound_iff t).2 (hmove.holdsLaw ((holdsSound_iff s).1 hs))

/-! ### The Alarm List (R74) -/

/-- The recomputation of an ALE event leaves an ordered list, whatever the list was (R73). -/
theorem recomputed_listLaw (p : Psc) (before a : Ale) : ListLaw (raiseEpoch before (recompute p a)) := by
  have h := rankedList_law (regraded p a)
  unfold ListLaw at h ⊢
  rw [raiseEpoch_alarmList, recompute_alarmList, raiseEpoch_places, recompute_places]
  exact h

theorem TableMove.listLaw {x y : MappedAle} (h : TableMove x y) (hx : ListLaw x.ale) : ListLaw y.ale := by
  cases h with
  | quiet h => exact hx.congr h.list h.entry
  | event p z h hclasses hale =>
    rw [hale]
    exact recomputed_listLaw p x.ale z.ale

/-- An empty list is that of an empty table. -/
theorem listLaw_of_free {a : Ale} (hlist : a.alarmList = []) (hfree : ∀ i : EntryNo, a.places[i].entry = none) :
    ListLaw a := by
  unfold ListLaw
  rw [hlist]
  exact ⟨List.nodup_nil, fun i => by rw [hfree i]; simp, List.Pairwise.nil⟩

theorem clearedAle_listLaw (a : Ale) : ListLaw (clearedAle a) :=
  listLaw_of_free rfl fun i => by simp [clearedAle, freePlace]

theorem alePowerOn_listLaw : ListLaw alePowerOn := by
  obtain ⟨hplaces, -⟩ := alePowerOn_values
  exact listLaw_of_free rfl fun i => by rw [hplaces]; rfl

theorem CommandMove.listLaw {c : Instr} {x y : MappedAle} (h : CommandMove c x y) (hx : ListLaw x.ale) :
    ListLaw y.ale := by
  cases h with
  | moves h => exact h.listLaw hx
  | clears _ _ hale => rw [hale]; exact clearedAle_listLaw x.ale
  | blanks _ hale => rw [hale]; exact alePowerOn_listLaw

/-- Settles O10: a quiet move leaves the list and its order, and every other move computes the list afresh. -/
theorem stepKeepsAlarmList : Obligations.StepKeepsAlarmList := by
  intro s t hs h
  obtain ⟨c, hmove⟩ := step_commandMove h
  exact (listOrdered_iff t).2 (hmove.listLaw ((listOrdered_iff s).1 hs))

/-! ### The incident clock (R87) -/

theorem TableMove.clock_le {x y : MappedAle} (h : TableMove x y) : x.ale.clock.toNat ≤ y.ale.clock.toNat := by
  cases h with
  | quiet h => exact h.clock
  | event p z h hclasses hale => rw [hale, raiseEpoch_clock, recompute_clock, h.clock]

/-- Settles O19: the tick by its own meaning, every other command by its move. -/
theorem clockOnlyRises : Obligations.ClockOnlyRises := by
  refine ⟨fun s hp => ?_, fun c s t h hclear hon hoff => ?_⟩
  · exact ⟨_, event_powered_next (f := fun s => { s with ale.clock := saturatingSucc16 s.ale.clock }) hp,
      saturatingSucc16_toNat s.ale.clock, rfl⟩
  · cases exec_commandMove c h with
    | moves hm => exact hm.clock_le
    | clears slot hc _ => exact absurd hc (hclear slot)
    | blanks hc _ =>
      rcases hc with ⟨straps, hc⟩ | hc
      · exact absurd hc (hon straps)
      · exact absurd hc hoff

/-! ### The List Epoch (R75) -/

/-- The List Epoch that R75 gives after a list that shows `after`, where it showed `before`. -/
def EpochCounts (before after : Ale) : Prop :=
  after.listEpoch = if listPositions after = listPositions before then before.listEpoch else before.listEpoch + 1

theorem recompute_listEpoch (p : Psc) (a : Ale) : (recompute p a).listEpoch = a.listEpoch := by
  unfold recompute
  dsimp only
  split
  · rfl
  · rfl

/-- What the list shows stands while the list and the places do. -/
theorem raiseEpoch_listPositions (before a : Ale) : listPositions (raiseEpoch before a) = listPositions a := by
  unfold listPositions
  rw [raiseEpoch_alarmList, raiseEpoch_places]

theorem raiseEpoch_epochCounts {before a : Ale} (h : a.listEpoch = before.listEpoch) :
    EpochCounts before (raiseEpoch before a) := by
  unfold EpochCounts
  rw [raiseEpoch_listPositions, ← h]
  unfold raiseEpoch
  by_cases hsame : listPositions before = listPositions a
  · rw [if_pos hsame, if_pos hsame.symm]
  · rw [if_neg hsame, if_neg (Ne.symm hsame)]

theorem TableMove.epochCounts {x y : MappedAle} (h : TableMove x y) : EpochCounts x.ale y.ale := by
  cases h with
  | quiet h =>
    unfold EpochCounts
    rw [listPositions_congr h.list h.entry, if_pos rfl]
    exact h.epoch
  | event p z h hclasses hale =>
    rw [hale]
    exact raiseEpoch_epochCounts ((recompute_listEpoch p z.ale).trans h.epoch)

/-- An accepted Incident Clear raises the List Epoch when an entry was in use (R75, R88). -/
theorem clearedAle_epochCounts {a : Ale} (h : ListLaw a) : EpochCounts a (clearedAle a) := by
  have hnil : listPositions (clearedAle a) = [] := rfl
  have hshown : [] = listPositions a ↔ a.inUse.isEmpty = true := by
    rw [eq_comm, listPositions_eq_nil h, List.isEmpty_iff]
  have hepoch : (clearedAle a).listEpoch = if a.inUse.isEmpty then a.listEpoch else a.listEpoch + 1 := rfl
  unfold EpochCounts
  simp only [hnil, hshown, hepoch]

/-- Settles O21: every event raises the List Epoch by the comparison of R75, a quiet move shows the same list, and power-on sets
it to 0. -/
theorem listEpochCountsChanges : Obligations.ListEpochCountsChanges := by
  refine ⟨fun c s t hs h hon hoff => ?_, fun k s t h => ?_⟩
  · cases exec_commandMove c h with
    | moves hm => exact hm.epochCounts
    | clears _ _ hale =>
      have hale : t.ale = clearedAle s.ale := hale
      rw [hale]
      exact clearedAle_epochCounts hs
    | blanks hc _ =>
      rcases hc with ⟨straps, hc⟩ | hc
      · exact absurd hc (hon straps)
      · exact absurd hc hoff
  · cases h
    rfl

end Sys2Proof.Machine
end

section
/-!
SUPPORT. Transfers within an entry record (R79 to R82, R158 to R161, R170): which are judged to go there, and what a hold and its
end leave of the table.
-/

namespace Sys2Proof.Machine

/-! ### Where a transfer to the Live bank goes (R158, R159, R170) -/

theorem entry_covers {i : EntryNo} {off n : Nat} :
    (BusPlace.entry i).covers off n = true ↔ 32 * i.val ≤ off ∧ off + n ≤ 32 * i.val + 32 := by
  simp only [BusPlace.covers, BusPlace.start, BusPlace.bytes, Bool.and_eq_true]
  exact and_congr decide_eq_true_iff decide_eq_true_iff

/-- The bytes of an entry record belong to no other place of the Live bank. -/
theorem bankPlaces_entry {i : EntryNo} {off : Nat} (hlow : 32 * i.val ≤ off) (hhigh : off < 32 * i.val + 32) :
    bankPlaces 0x10 off = [.entry i] := by
  have hi : off / 32 = i.val := by omega
  unfold bankPlaces
  rw [if_neg (by decide), if_neg (by decide), if_pos rfl, dif_pos (hi ▸ i.isLt)]
  simp only [hi]

theorem locate_entry {i : EntryNo} {off n : Nat} (hn : 0 < n) (hlow : 32 * i.val ≤ off) (hhigh : off + n ≤ 32 * i.val + 32) :
    locate 0x10 off n = some (.entry i) := by
  unfold locate
  rw [bankPlaces_entry hlow (by omega), List.find?_singleton, if_pos (entry_covers.2 ⟨hlow, hhigh⟩)]

theorem singleBytes_pos (t : Transfer) : 0 < singleBytes t := by
  cases h : t.size <;> simp [singleBytes, Size.bytes, h]

theorem singleBytes_of_single {t : Transfer} (h : t.size ≠ .burst) : singleBytes t = t.size.bytes := if_neg h

/-- An entry record carries no burst as one (R160). -/
theorem inhibited_entry (t : Transfer) (i : EntryNo) : inhibited t (.entry i) = (t.size == .burst) := by
  simp [inhibited, carriedAsOne]

theorem movedBytes_entry (t : Transfer) (i : EntryNo) : movedBytes t (.entry i) = singleBytes t := by
  simp [movedBytes, inhibited_entry, singleBytes]

/-- The transfers that the steps of R158 take to an entry record of the Live bank. -/
theorem judge_entry_iff {t : Transfer} {write : Bool} {s : State} {i : EntryNo} (hb : t.bank = 0x10) :
    judge t write s = some (.entry i) ↔ s.pbi.classes[t.slot] ≠ .noClass ∧ aligned t = true ∧
      (32 * i.val ≤ t.offset.toNat ∧ t.offset.toNat + singleBytes t ≤ 32 * i.val + 32) ∧
      locksAllowed t write (.entry i) = true := by
  constructor
  · intro h
    obtain ⟨hc, hloc, -, hshape, hlocks⟩ := judge_some h
    simp only [shapeAllowed, Bool.and_eq_true] at hshape
    exact ⟨hc, hshape.1.1, entry_covers.1 (locate_covers hloc), hlocks⟩
  · rintro ⟨hc, ha, ⟨hlow, hhigh⟩, hlocks⟩
    have hclass : slotClass s t.slot ≠ .noClass := hc
    have hloc : locate t.bank.toNat t.offset.toNat (singleBytes t) = some (.entry i) := by
      rw [hb]
      exact locate_entry (singleBytes_pos t) hlow hhigh
    have hshape : shapeAllowed t (.entry i) = true := by
      simp [shapeAllowed, ha, movedBytes_entry, entry_covers, hlow, hhigh]
    unfold judge
    rw [if_neg hclass, hloc]
    simp [accessAllowed, hshape, hlocks]

/-- A write to the Live bank that passes the steps of R158 goes to an entry record: every other place there is read alone
(R159). -/
theorem judge_live_write {t : Transfer} {s : State} {p : BusPlace} (hb : t.bank = 0x10) (h : judge t true s = some p) :
    ∃ i, p = .entry i := by
  obtain ⟨-, hloc, haccess, -, -⟩ := judge_some h
  rw [hb] at hloc
  have hmem : p ∈ bankPlaces 0x10 t.offset.toNat := List.mem_of_find?_eq_some hloc
  unfold bankPlaces at hmem
  rw [if_neg (by decide), if_neg (by decide), if_pos rfl] at hmem
  split at hmem
  · exact ⟨_, List.mem_singleton.1 hmem⟩
  · simp only [List.mem_cons, List.not_mem_nil, or_false] at hmem
    rcases hmem with rfl | rfl | rfl | rfl | rfl | rfl | rfl <;> cases haccess

/-- A write that goes to an entry record is answered by the record's owner; a burst there moves one beat (R160). -/
theorem busWrite_entry {t : Transfer} {s : State} {i : EntryNo} {off : Nat} (data : List Byte)
    (hj : judge t true s = some (.entry i)) (hoff : t.offset.toNat = 32 * i.val + off) :
    busWrite t data s = answer t (entryWrite t i off (slice data 0 (singleBytes t)) s).termination
      (t.size == .burst && (entryWrite t i off (slice data 0 (singleBytes t)) s).termination == .done) []
      (entryWrite t i off (slice data 0 (singleBytes t)) s).state := by
  have hplace : t.offset.toNat - (BusPlace.entry i).start = off := by
    simp only [BusPlace.start]
    omega
  rw [busWrite_some hj, hplace, inhibited_entry, movedBytes_entry]
  rfl

/-- A single transfer that reads an entry record under lock is answered as R79 says. -/
theorem busRead_entry {t : Transfer} {s : State} {i : EntryNo} {off : Nat} (hj : judge t false s = some (.entry i))
    (hoff : t.offset.toNat = 32 * i.val + off) (hs : t.size ≠ .burst) (hl : t.lock = true) :
    busRead t s = answer t (lockedEntryRead t i off t.size.bytes s).termination false
      (lockedEntryRead t i off t.size.bytes s).data (lockedEntryRead t i off t.size.bytes s).state := by
  have hplace : t.offset.toNat - (BusPlace.entry i).start = off := by
    simp only [BusPlace.start]
    omega
  have hread : ownerRead t (.entry i) off t.size.bytes s = lockedEntryRead t i off t.size.bytes s := if_pos hl
  rw [busRead_some hj, hplace, inhibited_entry, movedBytes_entry, singleBytes_of_single hs, hread, beq_eq_false_iff_ne.2 hs,
    Bool.false_and]

/-! ### The state after a transfer -/

/-- A transfer that moved the Alarm Engine alone has moved nothing else but what its answer shows (R158). -/
theorem answered_frame (tr : Transfer) (e : Termination) (inhibit : Bool) (data : List Byte) (s : State) (a : Ale) :
    let t := driveAttention (answer tr e inhibit data { s with ale := a })
    t = { s with ale := t.ale, pbi := t.pbi } ∧ SameMap s t ∧ SameAreas s t ∧ Answered s t tr e inhibit data :=
  ⟨rfl, ⟨rfl, rfl⟩, ⟨rfl, rfl, rfl⟩, rfl⟩

/-- A transfer that moved nothing (R158). -/
theorem answered_unmoved (tr : Transfer) (e : Termination) (inhibit : Bool) (data : List Byte) (s : State) :
    let t := driveAttention (answer tr e inhibit data s)
    t = { s with pbi := t.pbi } ∧ SameMap s t ∧ SameAreas s t ∧ Answered s t tr e inhibit data :=
  ⟨rfl, ⟨rfl, rfl⟩, ⟨rfl, rfl, rfl⟩, rfl⟩

/-! ### Holders (R80) -/

theorem heldByOther_eq_true {a : Ale} {i : EntryNo} {slot : Slot} :
    heldByOther a i slot = true ↔ ∃ k, a.holder i = some k ∧ k ≠ slot := by
  unfold heldByOther
  change (a.holder i).any _ = true ↔ _
  cases a.holder i <;> simp

theorem holder_of_entry {a : Ale} {i : EntryNo} {e : Entry} (he : a.places[i].entry = some e) :
    a.holder i = e.holder := by
  unfold Ale.holder
  rw [he]
  rfl

/-- The end of one slot's hold takes that slot from the entry, and no other (R84). -/
theorem releasedBy_slot (slot : Slot) (e : Entry) :
    e.releasedBy (· == slot) = { e with holder := if e.holder = some slot then none else e.holder } := by
  rw [releasedBy_filter]
  cases e.holder with
  | none => rfl
  | some k =>
    by_cases hk : k = slot
    · simp [hk]
    · simp [hk]

theorem endHold_entry (slot : Slot) (a : Ale) (j : EntryNo) : (endHold slot a).places[j].entry =
    a.places[j].entry.map fun f => { f with holder := if f.holder = some slot then none else f.holder } := by
  have h : (endHold slot a).places[j].entry = a.places[j].entry.map fun e => e.releasedBy (· == slot) :=
    endHolds_entry (· == slot) a j j.isLt
  simp only [h, releasedBy_slot]

theorem endHold_change (slot : Slot) (a : Ale) (j : EntryNo) :
    (endHold slot a).places[j].change = a.places[j].change :=
  endHolds_change (· == slot) a j j.isLt

theorem endHold_timer (slot : Slot) (a : Ale) (k : Slot) :
    (endHold slot a).holdTimers[k] = if k = slot then false else a.holdTimers[k] := by
  have h : (endHold slot a).holdTimers[k] = (a.holdTimers[k] && !(k == slot)) := endHolds_timer (· == slot) a k k.isLt
  rw [h]
  by_cases hk : k = slot
  · simp [hk]
  · simp [hk]

/-- The end of one slot's hold is what the words say (R82, R84). -/
theorem holdsEnd_of_endHold {s t : State} {slot : Slot} (h : t.ale = endHold slot s.ale) : HoldsEnd s t slot := by
  unfold HoldsEnd
  rw [h]
  exact ⟨fun j => ⟨endHold_change slot s.ale j, endHold_entry slot s.ale j⟩, endHold_timer slot s.ale, rfl⟩

end Sys2Proof.Machine
end

section
/-!
PROOFS. The statements about holds and about writes to the Live bank without lock-end: O40 and O42 (R79 to R83).
-/

namespace Sys2Proof.Machine

/-! ### A locked read (R79, R81) -/

section
variable {t : Transfer} {s : State} {i : EntryNo} {off n : Nat}

theorem lockedEntryRead_fault (h : s.pbi.classes[t.slot] ≠ .console ∨ s.ale.places[i].entry = none) :
    lockedEntryRead t i off n s = refuseRead .fault s := by
  unfold lockedEntryRead
  by_cases hc : slotClass s t.slot ≠ .console
  · rw [if_pos hc]
  · rw [if_neg hc, h.resolve_left hc]
    rfl

theorem lockedEntryRead_retry {k : Slot} (hc : s.pbi.classes[t.slot] = .console) (hk : s.ale.holder i = some k)
    (hne : k ≠ t.slot) : lockedEntryRead t i off n s = refuseRead .retry s := by
  have hclass : ¬slotClass s t.slot ≠ .console := not_not.2 hc
  have hentry : ¬s.ale.places[i].entry.isNone = true := fun hnone => by
    unfold Ale.holder at hk
    rw [Option.isNone_iff_eq_none.1 hnone] at hk
    cases hk
  unfold lockedEntryRead
  rw [if_neg hclass, if_neg hentry, if_pos (heldByOther_eq_true.2 ⟨k, hk, hne⟩)]

theorem lockedEntryRead_holds {e : Entry} (hc : s.pbi.classes[t.slot] = .console) (he : s.ale.places[i].entry = some e)
    (hholder : e.holder = none ∨ e.holder = some t.slot) : lockedEntryRead t i off n s =
      readFrom (entryRecord (startHold t.slot i s.ale) i) off n { s with ale := startHold t.slot i s.ale } := by
  have hclass : ¬slotClass s t.slot ≠ .console := not_not.2 hc
  have hfree : heldByOther s.ale i t.slot = false := heldByOther_eq_false.2 fun k hk => by
    rw [holder_of_entry he] at hk
    rcases hholder with h | h
    · rw [h] at hk; cases hk
    · rw [h] at hk; cases hk; rfl
  unfold lockedEntryRead
  rw [if_neg hclass, if_neg (by rw [he]; exact Bool.false_ne_true), hfree]
  rfl

end

/-- The entry that a hold starts on, or starts again on (R64, R79). -/
theorem startHold_self {slot : Slot} {i : EntryNo} {a : Ale} {e : Entry} (he : a.places[i].entry = some e) :
    (startHold slot i a).places[i].entry = some { e with
      holder := some slot, holdStart := if e.holder = some slot then e.holdStart else a.clock } := by
  have hentry := startHold_entry slot i a i i.isLt
  have he' : a.places[i.val].entry = some e := he
  rw [if_pos rfl, he', Option.map_some] at hentry
  rw [Fin.getElem_fin, hentry]
  rcases heldBy_cases e slot a.clock with ⟨hh, h⟩ | ⟨hh, h⟩
  · rw [h, if_pos hh, ← hh]
  · rw [h, if_neg hh]

/-- The other entries when a hold starts: the slot's hold on one of them ends (R81). -/
theorem startHold_other {slot : Slot} {i j : EntryNo} (a : Ale) (hj : j ≠ i) : (startHold slot i a).places[j].entry =
    a.places[j].entry.map fun f => { f with holder := if f.holder = some slot then none else f.holder } := by
  have hentry := startHold_entry slot i a j j.isLt
  rw [if_neg (Fin.val_ne_of_ne hj)] at hentry
  simp only [releasedBy_slot] at hentry
  exact hentry

/-- Settles O40: the locked read by the three answers of its owner, the expiry by the end of the slot's hold. -/
theorem holdStartsAndExpires : Obligations.HoldStartsAndExpires := by
  refine ⟨fun s tr i off hp hb hoff hs hfit ha hl he => ?_, fun s slot hp htimer => ?_⟩
  · have hexec : exec (.lockedRead tr) s = .next (driveAttention (busRead tr s)) := event_powered_next hp
    have hjudge : s.pbi.classes[tr.slot] ≠ .noClass → judge tr false s = some (.entry i) := fun hc => by
      refine (judge_entry_iff hb).2 ⟨hc, ha, ?_, by simp [locksAllowed, hs, hl, he]⟩
      rw [singleBytes_of_single hs]
      omega
    refine ⟨fun e hc hentry hholder => ?_, fun termination hor => ?_⟩
    · rw [busRead_entry (hjudge (by rw [hc]; decide)) hoff hs hl, lockedEntryRead_holds hc hentry hholder] at hexec
      obtain ⟨hrest, hmap, hareas, hanswered⟩ := answered_frame tr .done false
        (slice (entryRecord (startHold tr.slot i s.ale) i) off tr.size.bytes) s (startHold tr.slot i s.ale)
      exact ⟨_, hexec, startHold_self hentry, fun j => ⟨startHold_change tr.slot i s.ale j j.isLt,
        fun hj => startHold_other s.ale hj⟩, startHold_timer tr.slot i s.ale, rfl, hrest, hmap, hareas, hanswered⟩
    · have hread : busRead tr s = answer tr termination false [] s := by
        rcases hor with ⟨hfault, rfl⟩ | ⟨hc, ⟨k, hk, hne⟩, rfl⟩
        · by_cases hnone : s.pbi.classes[tr.slot] = .noClass
          · exact busRead_none (if_pos hnone)
          · rw [busRead_entry (hjudge hnone) hoff hs hl, lockedEntryRead_fault hfault]
            rfl
        · rw [busRead_entry (hjudge (by rw [hc]; decide)) hoff hs hl, lockedEntryRead_retry hc hk hne]
          rfl
      rw [hread] at hexec
      exact ⟨_, hexec, answered_unmoved tr termination false [] s⟩
  · have hexec : exec (.holdExpiry slot) s = _ := event_powered_next hp
    rw [if_pos htimer] at hexec
    exact ⟨_, hexec, holdsEnd_of_endHold rfl, rfl⟩

/-! ### A write without lock-end (R80, R158, R159) -/

/-- A plain write within an entry record is answered with Retry while another slot holds the entry, and with Fault otherwise. -/
theorem entryWrite_plain {t : Transfer} (h : t.lockEnd = false) (i : EntryNo) (off : Nat) (data : List Byte) (s : State) :
    entryWrite t i off data s = refuseWrite (if heldByOther s.ale i t.slot then .retry else .fault) s := by
  unfold entryWrite
  rw [h]
  split
  · rfl
  · rfl

/-- The write is of one that passes every step of R158 and lies within the record of an entry that another slot holds. -/
def PlainWriteWaits (s : State) (t : Transfer) : Prop :=
  s.pbi.classes[t.slot] ≠ .noClass ∧ t.lock = false ∧ aligned t = true ∧
    ∃ (i : EntryNo) (h : Slot), 32 * i.val ≤ t.offset.toNat ∧
      t.offset.toNat + singleBytes t ≤ 32 * i.val + 32 ∧ holderAt s i = some h ∧ h ≠ t.slot

/-- A write to the Live bank without lock-end passes the steps of R158 when it lies within an entry record, aligned and without
lock. -/
theorem judge_plain_write_iff {t : Transfer} {s : State} {i : EntryNo} (hb : t.bank = 0x10) (he : t.lockEnd = false) :
    judge t true s = some (.entry i) ↔ s.pbi.classes[t.slot] ≠ .noClass ∧ t.lock = false ∧ aligned t = true ∧
      32 * i.val ≤ t.offset.toNat ∧ t.offset.toNat + singleBytes t ≤ 32 * i.val + 32 := by
  have hlocks : locksAllowed t true (.entry i) = true ↔ t.lock = false := by simp [locksAllowed, he]
  rw [judge_entry_iff hb, hlocks]
  tauto

/-- Everything a write to the Live bank without lock-end can come to: Retry or Fault, and nothing moves. -/
theorem busWrite_plain_cases {t : Transfer} (data : List Byte) {s : State} (hb : t.bank = 0x10) (he : t.lockEnd = false) :
    (PlainWriteWaits s t ∧ busWrite t data s = answer t .retry false [] s) ∨
    (¬PlainWriteWaits s t ∧ busWrite t data s = answer t .fault false [] s) := by
  cases hj : judge t true s with
  | none =>
    refine Or.inr ⟨?_, busWrite_none hj⟩
    rintro ⟨hc, hl, ha, i, k, hlow, hhigh, -⟩
    have hpass := (judge_plain_write_iff hb he).2 ⟨hc, hl, ha, hlow, hhigh⟩
    rw [hj] at hpass
    cases hpass
  | some p =>
    obtain ⟨i, rfl⟩ := judge_live_write hb hj
    obtain ⟨hc, hl, ha, hlow, hhigh⟩ := (judge_plain_write_iff hb he).1 hj
    have hwrite := busWrite_entry (off := t.offset.toNat - 32 * i.val) data hj (by omega)
    rw [entryWrite_plain he] at hwrite
    by_cases hheld : heldByOther s.ale i t.slot = true
    · obtain ⟨k, hk, hne⟩ := heldByOther_eq_true.1 hheld
      rw [if_pos hheld] at hwrite
      exact Or.inl ⟨⟨hc, hl, ha, i, k, hlow, hhigh, hk, hne⟩,
        hwrite.trans (congrArg (answer t .retry · [] s) (Bool.and_false _))⟩
    · rw [if_neg hheld] at hwrite
      refine Or.inr ⟨?_, hwrite.trans (congrArg (answer t .fault · [] s) (Bool.and_false _))⟩
      rintro ⟨-, -, -, j, k, hlow', hhigh', hk, hne⟩
      have hbytes := singleBytes_pos t
      have hij : j = i := Fin.ext (by omega)
      exact hheld (heldByOther_eq_true.2 ⟨k, hij ▸ hk, hne⟩)

/-- Settles O42: the answer is Retry for a record that another slot holds, and nothing moves. -/
theorem plainWriteChangesNothing : Obligations.PlainWriteChangesNothing := by
  intro s tr data hp hb he
  have hexec : exec (.registerWrite tr data) s = .next (driveAttention (busWrite tr data s)) := event_powered_next hp
  rcases busWrite_plain_cases data (s := s) hb he with ⟨hwaits, hwrite⟩ | ⟨hpasses, hwrite⟩
  · rw [hwrite] at hexec
    obtain ⟨hrest, hmap, hareas, hanswered⟩ := answered_unmoved tr .retry false [] s
    exact ⟨_, .retry, hexec, hrest, hmap, hareas, hanswered, .inl rfl, fun _ => hwaits, fun _ => rfl⟩
  · rw [hwrite] at hexec
    obtain ⟨hrest, hmap, hareas, hanswered⟩ := answered_unmoved tr .fault false [] s
    exact ⟨_, .fault, hexec, hrest, hmap, hareas, hanswered, .inr rfl, fun h => (by cases h), fun h => absurd h hpasses⟩

end Sys2Proof.Machine
end

section
/-!
SUPPORT. The entry action: its bytes, its outcomes, and what a change of entries leaves of the table until the event computes the
standings (R71 to R73, R82).
-/

namespace Sys2Proof.Machine

/-! ### An event that changes entries, panel records and holds alone (R73) -/

/-- An event changes places, panel records and hold timers alone, before it computes the standings. -/
def ChangedByEvent (s : State) (a : Ale) : Prop :=
  a = { s.ale with places := a.places, panels := a.panels, holdTimers := a.holdTimers }

theorem ChangedByEvent.counters {s t : State} {a : Ale} (h : ChangedByEvent s a)
    (ht : t.ale = raiseEpoch s.ale (recompute s.psc a)) : CountersFrame s t := by
  obtain ⟨hzones, hunplaced, -⟩ := recomputed_counts s.psc s.ale a
  unfold CountersFrame
  rw [ht, raiseEpoch_clock, recompute_clock, hzones, hunplaced]
  unfold ChangedByEvent at h
  rw [h]
  exact ⟨rfl, rfl, rfl⟩

/-- The event hands on what R73 says, when the entries that its own notices name are in the table. -/
theorem ChangedByEvent.handedOn {s v t : State} {news : EventNews} (h : ChangedByEvent s v.ale)
    (hown : ∀ o ∈ news.own, ∃ e, v.ale.places[o.2].entry = some e) (hc : v.cxm = s.cxm) (hb : v.bcm = s.bcm)
    (ht : t = { completeEvent s.ale news v with pbi := t.pbi }) (hm : t.pbi.classes = v.pbi.classes) :
    HandedOn s t news := by
  have hpsc : t.psc = v.psc := by rw [ht]; exact completeEvent_psc ..
  refine completeEvent_handedOn (v := v) hown ?_ ?_ ?_ ?_ (congrArg Cxm.contexts hc) (congrArg Cxm.consoles hc) hb
    (by rw [ht]) hpsc hm (by rw [ht]) (by rw [ht])
  all_goals
    unfold ChangedByEvent at h
    rw [h]

/-! ### The action word (R71, R82) -/

/-- The action code of an entry action (11_formats.md, action word). -/
def EntryAction.code : EntryAction → Byte
  | .acknowledge => 1
  | .discount => 2
  | .clearEntry => 3

theorem exec_action (action : EntryAction) (slot : Slot) (i : EntryNo) (change : Half) (s : State) :
    exec (action.row slot i change) s = event (busWrite (actionTransfer slot i) (actionWord action.code change)) s := by
  cases action <;> rfl

theorem ofByte_actionCode (action : EntryAction) : EntryAction.ofByte action.code = some action := by
  cases action <;> rfl

/-- A byte that is 0 or above 3 names no action. -/
theorem actionOfByte_eq_none {b : Byte} (h : b = 0 ∨ 3 < b.toNat) : EntryAction.ofByte b = none := by
  have hne : ∀ k : Byte, 1 ≤ k.toNat → k.toNat ≤ 3 → b ≠ k := by
    rintro k hlow hhigh rfl
    rcases h with rfl | h
    · exact absurd hlow (by decide)
    · omega
  unfold EntryAction.ofByte
  rw [if_neg (hne 1 (by decide) (by decide)), if_neg (hne 2 (by decide) (by decide)), if_neg (hne 3 (by decide) (by decide))]

/-- The phases that each action is allowed from, and gives (R71). -/
theorem actionResult_eq_some {action : EntryAction} {present phase : Phase} : action.result present = some phase ↔
    action = .acknowledge ∧ present = .active ∧ phase = .acknowledged ∨
      action = .discount ∧ (present = .active ∨ present = .acknowledged ∨ present = .restored) ∧ phase = .discounted ∨
      action = .clearEntry ∧ (present = .restored ∨ present = .discounted) ∧ phase = .cleared := by
  cases action <;> cases present <;> simp [EntryAction.result, eq_comm]

/-- The phases that no action of this kind is allowed from (R71). -/
theorem actionResult_eq_none {action : EntryAction} {present : Phase} : action.result present = none ↔
    action = .acknowledge ∧ present ≠ .active ∨ action = .discount ∧ (present = .discounted ∨ present = .cleared) ∨
      action = .clearEntry ∧ (present = .active ∨ present = .acknowledged ∨ present = .cleared) := by
  cases action <;> cases present <;> simp [EntryAction.result]

theorem halfOf_leHalf (h : Half) : halfOf ((leHalf h).getD 0 0) ((leHalf h).getD 1 0) = h := by
  refine BitVec.eq_of_toNat_eq ?_
  have hlt := h.isLt
  simp only [leHalf, le16, byteOf, halfOf, List.getD_cons_zero, List.getD_cons_succ, BitVec.toNat_ofNat]
  omega

/-- The action word of the holder gives the phase that its action gives, if it carries the entry's change number (R82). -/
theorem actionResult_actionWord {a : Ale} {slot : Slot} {i : EntryNo} {e : Entry} (he : a.places[i].entry = some e)
    (hholder : e.holder = some slot) (action : EntryAction) (change : Half) :
    actionResult a slot i (actionWord action.code change) =
      if change = a.places[i].change then action.result e.phase else none := by
  have hchange : halfOf ((actionWord action.code change).getD 2 0) ((actionWord action.code change).getD 3 0) = change :=
    halfOf_leHalf change
  have hcode : (actionWord action.code change).getD 0 0 = action.code := rfl
  unfold actionResult
  rw [he]
  dsimp only
  rw [hchange, hcode, ofByte_actionCode]
  by_cases h : change = a.places[i].change
  · rw [if_pos ⟨hholder, h⟩, if_pos h]
    rfl
  · rw [if_neg fun hand => h hand.2, if_neg h]

/-- An action word of a slot that does not hold the entry gives no phase (R82). -/
theorem actionResult_no_hold {a : Ale} {slot : Slot} {i : EntryNo} (h : a.holder i ≠ some slot) (word : List Byte) :
    actionResult a slot i word = none := by
  unfold actionResult
  cases he : a.places[i].entry with
  | none => rfl
  | some e =>
    rw [holder_of_entry he] at h
    exact if_neg fun hand => h hand.1

/-- An action word whose action code names no action gives no phase (R82). -/
theorem actionResult_no_action {a : Ale} {slot : Slot} {i : EntryNo} {word : List Byte}
    (h : EntryAction.ofByte (word.getD 0 0) = none) : actionResult a slot i word = none := by
  unfold actionResult
  cases a.places[i].entry with
  | none => rfl
  | some e =>
    dsimp only
    rw [h]
    exact ite_self _

/-! ### The outcomes of a lock-end write to an entry record (R80, R82) -/

section
variable {t : Transfer} {i : EntryNo} {off : Nat} {data : List Byte} {s : State}

theorem entryWrite_retry {k : Slot} (hk : s.ale.holder i = some k) (hne : k ≠ t.slot) :
    entryWrite t i off data s = refuseWrite .retry s :=
  if_pos (heldByOther_eq_true.2 ⟨k, hk, hne⟩)

theorem entryWrite_action (hfree : heldByOther s.ale i t.slot = false) (hlock : t.lockEnd = true) (hoff : off = 24)
    (hsize : t.size = .four) : entryWrite t i off data s = actionWrite t.slot i data s := by
  unfold entryWrite
  rw [hfree, if_neg Bool.false_ne_true, if_pos hlock, if_pos ⟨hoff, hsize⟩]

theorem entryWrite_fault (hfree : heldByOther s.ale i t.slot = false) (hlock : t.lockEnd = true)
    (h : off ≠ 24 ∨ t.size ≠ .four ∨ actionResult s.ale t.slot i data = none) :
    entryWrite t i off data s = faultAction t.slot s := by
  by_cases hword : off = 24 ∧ t.size = .four
  · obtain ⟨hoff, hsize⟩ := hword
    have hnone : actionResult s.ale t.slot i data = none := (h.resolve_left (not_not.2 hoff)).resolve_left (not_not.2 hsize)
    rw [entryWrite_action hfree hlock hoff hsize, actionWrite, hnone]
  · unfold entryWrite
    rw [hfree, if_neg Bool.false_ne_true, if_pos hlock, if_neg hword]

/-- A write to an entry record leaves the bus interface to its answer. -/
theorem entryWrite_pbi (t : Transfer) (i : EntryNo) (off : Nat) (data : List Byte) (s : State) :
    (entryWrite t i off data s).state.pbi = s.pbi := by
  have haction : (actionWrite t.slot i data s).state.pbi = s.pbi := by
    unfold actionWrite
    split
    · rfl
    · exact completeEvent_pbi ..
  unfold entryWrite
  split
  · rfl
  · split
    · split
      · exact haction
      · rfl
    · rfl

end

/-! ### The table of an entry action -/

/-- The table after an allowed action, before the event computes the standings (R71, R82). -/
def actedAle (slot : Slot) (i : EntryNo) (phase : Phase) (a : Ale) : Ale :=
  endHold slot (changeEntry i (actedEntry phase a.clock) a)

theorem actedAle_self {a : Ale} {slot : Slot} {i : EntryNo} {e : Entry} (phase : Phase) (he : a.places[i].entry = some e)
    (hholder : e.holder = some slot) : (actedAle slot i phase a).places[i].entry =
      some { e with phase := phase, lastChange := a.clock, holder := none } := by
  have hacted := changeEntry_entry i (actedEntry phase a.clock) a i i.isLt
  unfold actedAle
  rw [endHold_entry, Fin.getElem_fin, hacted, if_pos rfl, ← Fin.getElem_fin, he]
  simp [actedEntry, hholder]

theorem actedAle_other {a : Ale} (slot : Slot) {i j : EntryNo} (phase : Phase) (hj : j ≠ i) :
    (actedAle slot i phase a).places[j].entry = a.places[j].entry.map fun f =>
      { f with holder := if f.holder = some slot then none else f.holder } := by
  have hacted := changeEntry_entry i (actedEntry phase a.clock) a j j.isLt
  unfold actedAle
  rw [endHold_entry, Fin.getElem_fin, hacted, if_neg (Fin.val_ne_of_ne hj)]
  rfl

theorem actedAle_change (slot : Slot) (i : EntryNo) (phase : Phase) (a : Ale) (j : EntryNo) :
    (actedAle slot i phase a).places[j].change = if j = i then a.places[j].change + 1 else a.places[j].change := by
  have hacted := changeEntry_change i (actedEntry phase a.clock) a j j.isLt
  unfold actedAle
  rw [endHold_change, Fin.getElem_fin, hacted]
  simp only [Fin.ext_iff, Fin.getElem_fin]

theorem actedAle_timer (slot : Slot) (i : EntryNo) (phase : Phase) (a : Ale) (k : Slot) :
    (actedAle slot i phase a).holdTimers[k] = if k = slot then false else a.holdTimers[k] :=
  endHold_timer slot _ k

theorem actedAle_changedByEvent (slot : Slot) (i : EntryNo) (phase : Phase) (s : State) :
    ChangedByEvent s (actedAle slot i phase s.ale) := rfl

end Sys2Proof.Machine
end

section
/-!
PROOFS. The statement about entry actions: O41 (R71, R72, R80, R82).
-/

namespace Sys2Proof.Machine

/-- The state after a lock-end write to an entry record, as its owner answers it. -/
def afterWrite (tr : Transfer) (w : WriteAnswer) : State := driveAttention (answer tr w.termination false [] w.state)

/-- A single lock-end write that lies within an entry record is one event of the record's owner (R158, R160). -/
theorem exec_entryWrite {tr : Transfer} (data : List Byte) {s : State} {i : EntryNo} {off : Nat} (hp : s.power = true)
    (hc : s.pbi.classes[tr.slot] ≠ .noClass) (hb : tr.bank = 0x10) (hoff : tr.offset.toNat = 32 * i.val + off)
    (hs : tr.size ≠ .burst) (hfit : off + tr.size.bytes ≤ 32) (ha : aligned tr = true) (hl : tr.lock = false)
    (he : tr.lockEnd = true) : event (busWrite tr data) s =
      .next (afterWrite tr (entryWrite tr i off (slice data 0 tr.size.bytes) s)) := by
  have hjudge : judge tr true s = some (.entry i) := by
    refine (judge_entry_iff hb).2 ⟨hc, ha, ?_, by simp [locksAllowed, hl, he, hs]⟩
    rw [singleBytes_of_single hs]
    omega
  rw [event_powered_next hp, busWrite_entry data hjudge hoff, singleBytes_of_single hs, beq_eq_false_iff_ne.2 hs, Bool.false_and]
  rfl

/-- An entry action is one event of the record's owner, with its action word whole (R82). -/
theorem exec_action_write {s : State} {slot : Slot} (action : EntryAction) (i : EntryNo) (change : Half)
    (hp : s.power = true) (hc : s.pbi.classes[slot] ≠ .noClass) : exec (action.row slot i change) s =
      .next (afterWrite (actionTransfer slot i)
        (entryWrite (actionTransfer slot i) i 24 (actionWord action.code change) s)) := by
  have hi := i.isLt
  have hoff : (actionTransfer slot i).offset.toNat = 32 * i.val + 24 := by
    simp only [actionTransfer, BitVec.toNat_ofNat]
    omega
  have haligned : aligned (actionTransfer slot i) = true := by
    change ((actionTransfer slot i).offset.toNat % 4 == 0) = true
    rw [hoff, beq_iff_eq]
    omega
  have hwrite := exec_entryWrite (tr := actionTransfer slot i) (actionWord action.code change) hp hc rfl hoff
    (show Size.four ≠ .burst by decide) (show 24 + Size.four.bytes ≤ 32 by decide) haligned rfl rfl
  rw [exec_action, hwrite]
  exact congrArg (fun word => Host.Outcome.next (afterWrite _ (entryWrite _ i 24 word s))) (slice_whole rfl)

/-- A lock-end write to an entry record leaves the class map and the slots' own areas (R159). -/
theorem afterWrite_entry_map (tr : Transfer) (i : EntryNo) (off : Nat) (data : List Byte) (s : State) :
    SameMap s (afterWrite tr (entryWrite tr i off data s)) ∧ SameAreas s (afterWrite tr (entryWrite tr i off data s)) := by
  have hpbi := entryWrite_pbi tr i off data s
  unfold SameMap SameAreas afterWrite answer
  rw [driveAttention_pbi]
  simp only [hpbi, and_self]

/-- What every outcome of the holder's entry action leaves, and the end of the slot's hold (R82). -/
def ActionFrame (s t : State) (slot : Slot) (i : EntryNo) : Prop :=
  (∀ j : EntryNo, j ≠ i → t.ale.places[j].change = s.ale.places[j].change ∧
    sameButStanding t.ale.places[j].entry (s.ale.places[j].entry.map fun f =>
      { f with holder := if f.holder = some slot then none else f.holder })) ∧
  (∀ k : Slot, t.ale.holdTimers[k] = if k = slot then false else s.ale.holdTimers[k]) ∧
  t.ale.panels = s.ale.panels ∧ t.rin = s.rin ∧ CountersFrame s t ∧ EventFrame s t ∧ SameMap s t ∧ SameAreas s t

/-- The outcome of an allowed action (R71, R73, R82). -/
theorem action_done {s : State} {slot : Slot} {i : EntryNo} {e : Entry} {change : Half} (action : EntryAction) {phase : Phase}
    (he : s.ale.places[i].entry = some e) (hholder : e.holder = some slot) (hchange : change = s.ale.places[i].change)
    (hresult : action.result e.phase = some phase) :
    let t := afterWrite (actionTransfer slot i) (entryWrite (actionTransfer slot i) i 24 (actionWord action.code change) s)
    t.ale.places[i].change = s.ale.places[i].change + 1 ∧
      sameButStanding t.ale.places[i].entry
        (some { e with phase := phase, lastChange := s.ale.clock, holder := none }) ∧
      HandedOn s t noNews ∧
      t.pbi.response = some { slot := slot, termination := .done, burstInhibit := false, data := [] } ∧
      ActionFrame s t slot i := by
  intro t
  have hfree : heldByOther s.ale i slot = false := heldByOther_eq_false.2 fun k hk => by
    rw [holder_of_entry he, hholder, Option.some.injEq] at hk
    exact hk.symm
  have hword : actionResult s.ale slot i (actionWord action.code change) = some phase := by
    rw [actionResult_actionWord he hholder, if_pos hchange, hresult]
  have hwrite : entryWrite (actionTransfer slot i) i 24 (actionWord action.code change) s =
      { termination := .done
        state := completeEvent s.ale noNews { s with ale := actedAle slot i phase s.ale } } := by
    rw [entryWrite_action hfree rfl rfl rfl]
    unfold actionWrite
    rw [show actionResult s.ale (actionTransfer slot i).slot i (actionWord action.code change) = some phase from hword]
    rfl
  have ht : t = driveAttention (answer (actionTransfer slot i) .done false []
      (completeEvent s.ale noNews { s with ale := actedAle slot i phase s.ale })) :=
    congrArg (afterWrite (actionTransfer slot i)) hwrite
  have hale : t.ale = raiseEpoch s.ale (recompute s.psc (actedAle slot i phase s.ale)) := by
    rw [ht]
    exact completeEvent_ale ..
  have hevent : t = { completeEvent s.ale noNews { s with ale := actedAle slot i phase s.ale } with pbi := t.pbi } := by
    rw [ht]; rfl
  obtain ⟨hmap, hareas⟩ := afterWrite_entry_map (actionTransfer slot i) i 24 (actionWord action.code change) s
  obtain ⟨-, -, hpanels⟩ := recomputed_counts s.psc s.ale (actedAle slot i phase s.ale)
  refine ⟨?_, ?_, ?_, by rw [ht]; rfl, fun j hj => ⟨?_, ?_⟩, fun k => ?_, ?_, ?_, ?_, ?_, hmap, hareas⟩
  · rw [hale, recomputed_change, actedAle_change, if_pos rfl]
  · rw [hale, ← actedAle_self phase he hholder]
    exact recomputed_entry ..
  · exact (actedAle_changedByEvent slot i phase s).handedOn
      (v := { s with ale := actedAle slot i phase s.ale }) (fun o ho => absurd ho List.not_mem_nil) rfl rfl hevent hmap.1
  · rw [hale, recomputed_change, actedAle_change, if_neg hj]
  · rw [hale, ← actedAle_other slot phase hj]
    exact recomputed_entry ..
  · rw [hale, raiseEpoch_holdTimers, recompute_holdTimers, actedAle_timer]
  · rw [hale, hpanels]
    rfl
  · rw [ht]
    exact completeEvent_rin ..
  · exact (actedAle_changedByEvent slot i phase s).counters hale
  · have hcxm : t.cxm = (completeEvent s.ale noNews { s with ale := actedAle slot i phase s.ale }).cxm := by rw [hevent]
    exact eventFrame_of_offered
      (u := { s with ale := raiseEpoch s.ale (recompute s.psc (actedAle slot i phase s.ale)) }) _ rfl
      (hcxm.trans (completeEvent_cxm ..)) (by rw [ht]; simp [answer])

/-- The outcome of a lock-end write that ends in Fault: the slot's holds end, and nothing else moves (R82). -/
theorem faultAction_outcome (tr : Transfer) (s : State) :
    let t := afterWrite tr (faultAction tr.slot s)
    t.ale = endHold tr.slot s.ale ∧ HoldsEnd s t tr.slot ∧ t = { s with ale := t.ale, pbi := t.pbi } ∧ SameMap s t ∧
      SameAreas s t ∧ Answered s t tr .fault false [] :=
  ⟨rfl, holdsEnd_of_endHold rfl, answered_frame tr .fault false [] s (endHold tr.slot s.ale)⟩

/-- The end of the slot's holds leaves what every outcome of an entry action leaves. -/
theorem actionFrame_of_holdsEnd {s t : State} {slot : Slot} (i : EntryNo) (hends : HoldsEnd s t slot)
    (hrest : t = { s with ale := t.ale, pbi := t.pbi }) (hmap : SameMap s t) (hareas : SameAreas s t) :
    ActionFrame s t slot i := by
  obtain ⟨hplaces, htimers, hale⟩ := hends
  refine ⟨fun j _ => ⟨(hplaces j).1, congrArg _ (hplaces j).2⟩, htimers, by rw [hale], by rw [hrest], ?_, ?_, hmap, hareas⟩
  · unfold CountersFrame
    rw [hale]
    exact ⟨rfl, rfl, rfl⟩
  · unfold EventFrame
    rw [hrest]
    exact ⟨rfl, rfl, rfl, fun _ => rfl, fun _ => rfl, rfl, rfl, rfl⟩

/-- The outcome of the holder's entry action with a stale change number, or from a phase it is not allowed from (R82). -/
theorem action_stale {s : State} {slot : Slot} {i : EntryNo} {e : Entry} {change : Half} (action : EntryAction)
    (he : s.ale.places[i].entry = some e) (hholder : e.holder = some slot)
    (h : change ≠ s.ale.places[i].change ∨ action.result e.phase = none) :
    let t := afterWrite (actionTransfer slot i) (entryWrite (actionTransfer slot i) i 24 (actionWord action.code change) s)
    t.ale.places[i].change = s.ale.places[i].change ∧ t.ale.places[i].entry = some { e with holder := none } ∧
      HoldsEnd s t slot ∧ t.cxm = s.cxm ∧ t.bcm = s.bcm ∧
      t.pbi.response = some { slot := slot, termination := .fault, burstInhibit := false, data := [] } ∧
      ActionFrame s t slot i := by
  have hfree : heldByOther s.ale i slot = false := heldByOther_eq_false.2 fun k hk => by
    rw [holder_of_entry he, hholder, Option.some.injEq] at hk
    exact hk.symm
  have hword : actionResult s.ale slot i (actionWord action.code change) = none := by
    rw [actionResult_actionWord he hholder]
    rcases h with h | h
    · rw [if_neg h]
    · rw [h, ite_self]
  have hwrite : entryWrite (actionTransfer slot i) i 24 (actionWord action.code change) s = faultAction slot s :=
    entryWrite_fault hfree rfl (.inr (.inr hword))
  rw [hwrite]
  obtain ⟨-, hends, hrest, hmap, hareas, -⟩ := faultAction_outcome (actionTransfer slot i) s
  have hself := (hends.1 i).2
  rw [he, Option.map_some, show (actionTransfer slot i).slot = slot from rfl, if_pos hholder] at hself
  exact ⟨(hends.1 i).1, hself, hends, rfl, rfl, rfl, actionFrame_of_holdsEnd i hends hrest hmap hareas⟩

/-- Settles O41: the owner's answer to a lock-end write, by the holder of the entry and by what the action word gives. -/
theorem entryActionNeedsHoldAndPhase : Obligations.EntryActionNeedsHoldAndPhase := by
  refine ⟨fun s action slot i e change hp hc he hholder => ?_, fun s action slot i change hp hc hno => ?_,
    fun s tr data i off hp hc hb hoff hs hfit ha hl hlock => ?_⟩
  · have hexec := exec_action_write action i change hp hc
    by_cases hdone : change = s.ale.places[i].change ∧ action.result e.phase ≠ none
    · obtain ⟨hchange, hallowed⟩ := hdone
      obtain ⟨phase, hresult⟩ := Option.ne_none_iff_exists'.1 hallowed
      obtain ⟨hnumber, hentry, hhanded, hresponse, hframe⟩ := action_done action he hholder hchange hresult
      refine ⟨_, hexec, fun phase' _ hphase' => ?_, fun hstale => ?_, hframe⟩
      · have hsame := actionResult_eq_some.2 hphase'
        rw [hresult, Option.some.injEq] at hsame
        subst hsame
        exact ⟨hnumber, hentry, hhanded, hresponse⟩
      · exact absurd (actionResult_eq_none.2 (hstale.resolve_left (not_not.2 hchange))) hallowed
    · have hstale : change ≠ s.ale.places[i].change ∨ action.result e.phase = none := by tauto
      obtain ⟨hnumber, hentry, hends, hcxm, hbcm, hresponse, hframe⟩ := action_stale action he hholder hstale
      refine ⟨_, hexec, fun phase hchange hphase => ?_, fun _ => ⟨hnumber, hentry, hends, hcxm, hbcm, hresponse⟩, hframe⟩
      have hallowed := actionResult_eq_some.2 hphase
      exact absurd ⟨hchange, by rw [hallowed]; exact Option.some_ne_none _⟩ hdone
  · have hexec := exec_action_write action i change hp hc
    cases hk : s.ale.holder i with
    | some k =>
      have hne : k ≠ slot := fun h => hno (h ▸ hk)
      rw [entryWrite_retry (t := actionTransfer slot i) hk hne] at hexec
      obtain ⟨hrest, hmap, hareas, -⟩ := answered_unmoved (actionTransfer slot i) .retry false [] s
      exact ⟨_, hexec, hmap, hareas, fun _ _ => ⟨hrest, rfl⟩, fun hnone => absurd (hk.symm.trans hnone) (Option.some_ne_none k)⟩
    | none =>
      have hfree : heldByOther s.ale i slot = false := heldByOther_eq_false.2 fun k h => by rw [hk] at h; cases h
      rw [entryWrite_fault (t := actionTransfer slot i) hfree rfl (.inr (.inr (actionResult_no_hold hno _)))] at hexec
      obtain ⟨-, hends, hrest, hmap, hareas, -⟩ := faultAction_outcome (actionTransfer slot i) s
      exact ⟨_, hexec, hmap, hareas, fun k h => absurd (hk.symm.trans h) (Option.some_ne_none k).symm,
        fun _ => ⟨hends, hrest, rfl⟩⟩
  · have hexec : exec (.registerWrite tr data) s = _ := exec_entryWrite data hp hc hb hoff hs hfit ha hl hlock
    obtain ⟨hmap, hareas⟩ := afterWrite_entry_map tr i off (slice data 0 tr.size.bytes) s
    refine ⟨_, hexec, hmap, hareas, fun k hk hne => ?_, fun hself hwrong => ?_⟩
    · rw [entryWrite_retry hk hne]
      obtain ⟨hrest, -, -, hanswered⟩ := answered_unmoved tr .retry false [] s
      exact ⟨hrest, hanswered⟩
    · have hfree : heldByOther s.ale i tr.slot = false := heldByOther_eq_false.2 fun k hk => by
        rcases hself with h | h
        · cases hk.symm.trans h
        · exact Option.some.inj (hk.symm.trans h)
      have hfault : entryWrite tr i off (slice data 0 tr.size.bytes) s = faultAction tr.slot s := by
        refine entryWrite_fault hfree hlock (hwrong.imp_right fun h => ?_)
        by_cases hsize : tr.size = .four
        · refine .inr (actionResult_no_action (actionOfByte_eq_none ?_))
          rw [hsize]
          exact h.resolve_left (not_not.2 hsize)
        · exact .inl hsize
      rw [hfault]
      obtain ⟨-, hends, hrest, -, -, hanswered⟩ := faultAction_outcome tr s
      exact ⟨hends, hrest, hanswered⟩

end Sys2Proof.Machine
end

section
/-!
PROOFS. The statement about Incident Clear: O54 (R32, R88, R99, R147, R149).
-/

namespace Sys2Proof.Machine

/-! ### The table and the composition of an Incident Clear (R88) -/

/-- The part with its table and its marks cleared, before the composition and the requests (R32, R88). -/
def clearedState (s : State) : State :=
  { s with ale := clearedAle s.ale, cxm.marks := Vector.replicate 128 (unsearchedAt 0) }

theorem clearedAle_place (a : Ale) (i : EntryNo) :
    (clearedAle a).places[i] = { change := a.places[i].change, entry := none } := by
  simp [clearedAle, freePlace]

theorem inUse_isEmpty_iff {a : Ale} : a.inUse.isEmpty = true ↔ ∀ i : EntryNo, a.places[i].entry = none := by
  rw [List.isEmpty_iff, List.eq_nil_iff_forall_not_mem]
  constructor
  · exact fun h i => Option.eq_none_iff_forall_ne_some.2 fun e he => h (i, e) (mem_inUse.2 he)
  · rintro h ⟨i, e⟩ hmem
    cases (h i).symm.trans (mem_inUse.1 hmem)

theorem clearedAle_epoch_of_entries {a : Ale} (h : ∃ i : EntryNo, a.places[i].entry ≠ none) :
    (clearedAle a).listEpoch = a.listEpoch + 1 := by
  obtain ⟨i, hi⟩ := h
  exact if_neg fun hempty => hi (inUse_isEmpty_iff.1 hempty i)

theorem clearedAle_epoch_of_empty {a : Ale} (h : ∀ i : EntryNo, a.places[i].entry = none) :
    (clearedAle a).listEpoch = a.listEpoch :=
  if_pos (inUse_isEmpty_iff.2 h)

/-- Of the part, the composition of an Incident Clear touches the composer alone. -/
theorem clearComposition_rest (hadFocus : Bool) (s : State) :
    clearComposition hadFocus s = { s with bcm := (clearComposition hadFocus s).bcm } := by
  unfold clearComposition abandon disturb
  split
  · split
    · rfl
    · rfl
  · split
    · rfl
    · rfl

/-- The composition after an Incident Clear that does not abandon it: disturbed while Walking (R88). -/
theorem clearComposition_kept {hadFocus : Bool} {s : State}
    (h : ∀ x, s.bcm.composition = some x → hadFocus = false ∨ x.mode ≠ .followFocus) :
    (clearComposition hadFocus s).bcm = { s.bcm with
      composition := s.bcm.composition.map fun x => { x with disturbed := x.disturbed || x.phase == .walking } } := by
  unfold clearComposition Bcm.walking
  cases hx : s.bcm.composition with
  | none =>
    rw [Option.any_none, Option.any_none, Bool.and_false, if_neg Bool.false_ne_true, if_neg Bool.false_ne_true,
      Option.map_none, ← hx]
  | some x =>
    have hstays : ¬(hadFocus && x.mode == .followFocus) = true := by
      rw [Bool.and_eq_true, beq_iff_eq]
      rintro ⟨hfocus, hmode⟩
      rcases h x hx with hno | hno
      · exact Bool.false_ne_true (hno.symm.trans hfocus)
      · exact hno hmode
    rw [Option.any_some, Option.any_some, if_neg hstays, Option.map_some]
    by_cases hwalks : (x.phase == .walking) = true
    · rw [if_pos hwalks, hwalks, Bool.or_true, disturb_bcm, hx]
      rfl
    · rw [if_neg hwalks, Bool.eq_false_iff.2 hwalks, Bool.or_false, ← hx]

/-- The composition that an Incident Clear abandons: the focus was not None and its snapshot mode is Follow Focus (R88, R149). -/
theorem clearComposition_abandons {s : State} {x : Composition} (hx : s.bcm.composition = some x)
    (hmode : x.mode = .followFocus) : (clearComposition true s).bcm = { s.bcm with
      composition := none, pool := s.bcm.pool.set x.buffer true, urgent := s.bcm.urgent ++ [x.context] } := by
  unfold clearComposition abandon
  rw [hx, Option.any_some, Bool.true_and, if_pos (beq_iff_eq.2 hmode)]
  rfl

theorem clearComposition_normal (hadFocus : Bool) (s : State) :
    (clearComposition hadFocus s).bcm.normal = s.bcm.normal := by
  unfold clearComposition abandon disturb
  split
  · split
    · rfl
    · rfl
  · split
    · rfl
    · rfl

theorem clearComposition_buffers (hadFocus : Bool) (s : State) :
    (clearComposition hadFocus s).bcm.buffers = s.bcm.buffers := by
  unfold clearComposition
  split
  · exact abandon_buffers true s
  · split
    · rfl
    · rfl

/-! ### The command -/

/-- The part after an Incident Clear carried out, but for the command's own completion (R88). -/
def afterIncidentClear (s : State) : State :=
  requestNormal (fun _ => true) (clearComposition s.ale.focus.isSome (clearedState s))

/-- Incident Clear is carried out when no entry is Active or Acknowledged, and refused otherwise (R88). -/
theorem incidentClearBody_done {s : State} (cmd : InFlight)
    (h : ∀ (i : EntryNo) (e : Entry), s.ale.places[i].entry = some e → e.phase ≠ .active ∧ e.phase ≠ .acknowledged) :
    incidentClearBody cmd s = (afterIncidentClear s, .done []) := by
  refine if_neg fun hlive => ?_
  obtain ⟨⟨i, e⟩, hmem, hphase⟩ := List.any_eq_true.1 hlive
  obtain ⟨hactive, hacknowledged⟩ := h i e (mem_inUse.1 hmem)
  exact (standingLive_iff.1 hphase).elim hactive hacknowledged

theorem incidentClearBody_refused {s : State} (cmd : InFlight) {i : EntryNo} {e : Entry} (he : s.ale.places[i].entry = some e)
    (hphase : e.phase = .active ∨ e.phase = .acknowledged) : incidentClearBody cmd s = (s, .refused .entriesLive) :=
  if_pos (List.any_eq_true.2 ⟨(i, e), mem_inUse.2 he, standingLive_iff.2 hphase⟩)

/-- Of the part, the Normal requests touch the composer alone. -/
theorem afterIncidentClear_frame (s : State) :
    (afterIncidentClear s).ale = clearedAle s.ale ∧ (afterIncidentClear s).cxm = (clearedState s).cxm ∧
      (afterIncidentClear s).pbi = s.pbi ∧ (afterIncidentClear s).psc = s.psc ∧ (afterIncidentClear s).rin = s.rin ∧
      (afterIncidentClear s).lmn = s.lmn ∧ (afterIncidentClear s).pending = s.pending ∧
      (afterIncidentClear s).bcm.buffers = s.bcm.buffers := by
  unfold afterIncidentClear
  rw [requestNormal_ale, requestNormal_cxm, requestNormal_pbi, requestNormal_psc, requestNormal_rin, requestNormal_lmn,
    requestNormal_pending, requestNormal_buffers, clearComposition_buffers, clearComposition_rest]
  exact ⟨rfl, rfl, rfl, rfl, rfl, rfl, rfl, rfl⟩

/-- What the Normal requests of an Incident Clear leave of the composer as the composition's fate has it (R138). -/
theorem afterIncidentClear_requests (s : State) :
    let cleared := (clearComposition s.ale.focus.isSome (clearedState s)).bcm
    (afterIncidentClear s).bcm.urgent = cleared.urgent ∧ (afterIncidentClear s).bcm.pool = cleared.pool ∧
      (afterIncidentClear s).bcm.composition = cleared.composition.map (fun x => { x with
        disturbed := x.disturbed || s.cxm.contexts[x.context].assigned }) := by
  obtain ⟨hurgent, hpool, hcomposition, -⟩ :=
    requestNormal_cases (fun _ => true) (clearComposition s.ale.focus.isSome (clearedState s))
  refine ⟨hurgent, hpool, hcomposition.trans ?_⟩
  rw [clearComposition_rest]
  simp only [Bool.and_true]
  rfl

theorem afterIncidentClear_normal (s : State) (d : CtxNo) : d ∈ (afterIncidentClear s).bcm.normal ↔ d ∈ s.bcm.normal ∨
    s.cxm.contexts[d].assigned = true ∧ d ∉ (afterIncidentClear s).bcm.urgent ∧
      (afterIncidentClear s).bcm.composing ≠ some d := by
  obtain ⟨hurgent, -, hcomposition, hnormal⟩ :=
    requestNormal_cases (fun _ => true) (clearComposition s.ale.focus.isSome (clearedState s))
  have hcomposing : (afterIncidentClear s).bcm.composing =
      (clearComposition s.ale.focus.isSome (clearedState s)).bcm.composing := by
    unfold afterIncidentClear Bcm.composing
    rw [hcomposition, Option.map_map]
    rfl
  have hcontexts : (clearComposition s.ale.focus.isSome (clearedState s)).cxm = (clearedState s).cxm := by
    rw [clearComposition_rest]
  have hd := hnormal d
  rw [clearComposition_normal, hcontexts, ← hurgent, ← hcomposing] at hd
  exact hd.trans (by simp only [true_and]; rfl)

/-- A composition in Follow Focus with a focus that was not None is abandoned and requeued Urgent (R88, R149). -/
theorem afterIncidentClear_abandons {s : State} {x : Composition} (hx : s.bcm.composition = some x)
    (hfocus : s.ale.focus ≠ none) (hmode : x.mode = .followFocus) : (afterIncidentClear s).bcm.composition = none ∧
      (afterIncidentClear s).bcm.pool = s.bcm.pool.set x.buffer true ∧
      (afterIncidentClear s).bcm.urgent = s.bcm.urgent ++ [x.context] := by
  obtain ⟨hurgent, hpool, hcomposition⟩ := afterIncidentClear_requests s
  have hx' : (clearedState s).bcm.composition = some x := hx
  have hbcm := clearComposition_abandons hx' hmode
  rw [Option.isSome_iff_ne_none.2 hfocus, hbcm] at hurgent hpool hcomposition
  exact ⟨hcomposition, hpool, hurgent⟩

/-- A composition that is not abandoned stays as the clearing of the table leaves it, disturbed by a request for its context
(R88, R147). -/
theorem afterIncidentClear_keeps {s : State}
    (h : ∀ x, s.bcm.composition = some x → s.ale.focus = none ∨ x.mode ≠ .followFocus) :
    (afterIncidentClear s).bcm.composition = s.bcm.composition.map (fun x => { x with
        disturbed := x.disturbed || x.phase == .walking || s.cxm.contexts[x.context].assigned }) ∧
      (afterIncidentClear s).bcm.pool = s.bcm.pool ∧ (afterIncidentClear s).bcm.urgent = s.bcm.urgent := by
  obtain ⟨hurgent, hpool, hcomposition⟩ := afterIncidentClear_requests s
  have hbcm := clearComposition_kept (hadFocus := s.ale.focus.isSome) (s := clearedState s) fun x hx =>
    (h x hx).imp_left fun hnone => by rw [hnone]; rfl
  rw [hbcm] at hurgent hpool hcomposition
  refine ⟨hcomposition.trans ?_, hpool, hurgent⟩
  exact Option.map_map ..

/-- Settles O54: the table by the fields of the cleared one, the composer by the fate of its composition and the Normal
requests. -/
theorem incidentClearEmptiesTable : Obligations.IncidentClearEmptiesTable := by
  intro s slot cmd hr
  refine ⟨fun hidle => ?_, fun i e he hphase => refused_of_body rfl hr (incidentClearBody_refused cmd he hphase)⟩
  obtain ⟨hale, hcxm, hpbi, hpsc, hrin, hlmn, hpending, hbuffers⟩ := afterIncidentClear_frame s
  obtain ⟨t, hexec, hcompleted, hmap, htpsc, htrin, htale, htlmn, htcxm, htbcm, htpending, -⟩ :=
    exec_ready_blocks (row := .incidentClear slot) rfl hr (incidentClearBody_done cmd hidle) hpbi
  have hqueued : ∀ c : CtxNo, s.cxm.contexts[c].assigned = true → c ∈ (afterIncidentClear s).bcm.urgent ∨
      c ∈ (afterIncidentClear s).bcm.normal ∨ (afterIncidentClear s).bcm.composing = some c := fun c hc => by
    have hnormal := afterIncidentClear_normal s c
    tauto
  rw [hale] at htale
  rw [hcxm] at htcxm
  refine ⟨t, hexec, ?_⟩
  rw [htale, htcxm, htbcm, htpsc, htrin, htlmn, htpending]
  exact ⟨clearedAle_place s.ale, rfl, clearedAle_epoch_of_entries, clearedAle_epoch_of_empty,
    fun k => Vector.getElem_replicate k.isLt, rfl, fun z => Vector.getElem_replicate z.isLt, rfl, rfl, rfl, rfl, rfl,
    fun p => by simp [clearedAle], fun f => Vector.getElem_replicate f.isLt, rfl, rfl, hqueued,
    fun x hx => afterIncidentClear_abandons hx,
    fun x hx hkept => by
      obtain ⟨hcomposition, hpool, hurgent⟩ := afterIncidentClear_keeps fun y hy => Option.some.inj (hx.symm.trans hy) ▸ hkept
      exact ⟨by rw [hcomposition, hx]; rfl, hpool, hurgent⟩,
    fun hnone => by
      obtain ⟨hcomposition, hpool, hurgent⟩ := afterIncidentClear_keeps (s := s) fun y hy => by
        rw [hnone] at hy; cases hy
      exact ⟨by rw [hcomposition, hnone]; rfl, hpool, hurgent⟩,
    afterIncidentClear_normal s, hbuffers, hcompleted, hmap, hpsc, hrin, hlmn, hpending⟩

end Sys2Proof.Machine
end

section
/-!
SUPPORT. The reports that find their entry, and those without effect (R61, R69, R70).
-/

namespace Sys2Proof.Machine

theorem saturatingSucc8_toNat (b : Byte) : (saturatingSucc8 b).toNat = min 255 (b.toNat + 1) := by
  have hb := b.isLt
  unfold saturatingSucc8
  split
  · rename_i he
    rw [he]
    rfl
  · rename_i he
    have hne : b.toNat ≠ 255 := fun hn => he (BitVec.eq_of_toNat_eq hn)
    rw [BitVec.toNat_add]
    change (b.toNat + 1) % 256 = _
    omega

theorem saturatingSucc8_eq (b : Byte) : saturatingSucc8 b = BitVec.ofNat 8 (min 255 (b.toNat + 1)) := by
  refine BitVec.eq_of_toNat_eq ?_
  rw [saturatingSucc8_toNat, BitVec.toNat_ofNat]
  omega

/-! ### The entry found (R66) -/

/-- With every key and category in one place, the entry of the report's is the one found. -/
theorem findEntry_eq_some {s : State} {i : EntryNo} {e : Entry} (hunique : s.keysUnique) (he : s.ale.places[i].entry = some e) :
    s.ale.findEntry e.key e.category = some (i, e) := by
  unfold Ale.findEntry
  cases hfound : s.ale.inUse.find? fun x => x.2.key == e.key && x.2.category == e.category with
  | none =>
    have hmissed := List.find?_eq_none.1 hfound (i, e) (mem_inUse.2 he)
    simp at hmissed
  | some x =>
    obtain ⟨j, f⟩ := x
    have hf : s.ale.places[j].entry = some f := mem_inUse.1 (List.mem_of_find?_eq_some hfound)
    have hsame := List.find?_some hfound
    simp only [Bool.and_eq_true, beq_iff_eq] at hsame
    have hij : j = i := hunique j i f e hf he hsame.1 hsame.2
    subst hij
    rw [hf] at he
    cases he
    rfl

/-! ### The effect on the entry found (R69, R70) -/

section
variable {clock : Half} {detection : Byte} {e : Entry}

theorem activate_live (h : e.phase = .active ∨ e.phase = .acknowledged) :
    activate clock detection e = { e with lastChange := clock, detection := detection } := by
  unfold activate
  rcases h with h | h
  · rw [h]
  · rw [h]

theorem activate_rearms (h : e.phase = .restored ∨ e.phase = .discounted) : activate clock detection e =
    { e with phase := .active, lastChange := clock, detection := detection
             reactivations := BitVec.ofNat 8 (min 255 (e.reactivations.toNat + 1)) } := by
  unfold activate
  rw [saturatingSucc8_eq]
  rcases h with h | h
  · rw [h]
  · rw [h]

theorem activate_cleared (h : e.phase = .cleared) : activate clock detection e =
    { e with phase := .active, firstAlarm := clock, lastChange := clock, reactivations := 0, detection := detection } := by
  unfold activate
  rw [h]

end

theorem activationNotice_live {phase : Phase} (h : phase = .active ∨ phase = .acknowledged) :
    activationNotice phase = none := by
  rcases h with rfl | rfl
  · rfl
  · rfl

theorem activationNotice_rearms {phase : Phase} (h : phase = .restored ∨ phase = .discounted) :
    activationNotice phase = some .rearmed := by
  rcases h with rfl | rfl
  · rfl
  · rfl

/-- What a report comes to that finds its entry, by the report's kind and the entry's phase (R69, R70). -/
theorem processReport_found {before : Ale} {gap : Option PanelNo} {r : Report} {s : State} {i : EntryNo} {e : Entry}
    (hfound : s.ale.findEntry r.key r.kind.category = some (i, e)) : processReport before gap r s =
      if r.kind.activates = true then
        completeEvent before
          { gap := gap, own := ((activationNotice e.phase).map fun k => (k, i)).toList, rolledUp := false, floors := [] }
          { s with ale := changeEntry i (activate s.ale.clock r.detection) s.ale }
      else if e.phase.standingLive = true then
        completeEvent before { gap := gap, own := [(.restored, i)], rolledUp := false, floors := [] }
          { s with ale := changeEntry i (restoreEntry s.ale.clock) s.ale }
      else gapOnly gap s := by
  unfold processReport
  simp only [hfound]
  rfl

/-- A clearing report that finds no entry has no effect (R70). -/
theorem processReport_clears_none {before : Ale} {gap : Option PanelNo} {r : Report} {s : State}
    (hnone : s.ale.findEntry r.key r.kind.category = none) (hk : r.kind.activates = false) :
    processReport before gap r s = gapOnly gap s := by
  unfold processReport
  simp only [hnone, hk, Bool.false_eq_true, if_false]

/-- The head report, no duplicate and no Panel Reset, is processed against the table that its check leaves (R55, R59). -/
theorem exec_reportTake_processed {s : State} {r : Report} {rest : List Report} (hp : s.power = true)
    (hd : deferring s = false) (hq : s.rin.queue = r :: rest) (hn : notDuplicate s r) (hk : r.kind ≠ .panelReset) :
    exec .reportTake s = .next (driveAttention
      (processReport s.ale (gapOf s r) r { s with rin := { queue := rest }, ale := sequencedAle s r })) := by
  have hprocessed : takeReport r { s with rin := { queue := rest } } = _ := takeReport_processed hn hk
  rw [exec_reportTake hp hd hq, hprocessed]
  rfl

theorem sequencedAle_places (s : State) (r : Report) : (sequencedAle s r).places = s.ale.places := by
  rw [sequencedAle_rest]

theorem sequencedAle_clock (s : State) (r : Report) : (sequencedAle s r).clock = s.ale.clock := by
  rw [sequencedAle_rest]

/-- The sequence check moves no entry, so it finds the same ones. -/
theorem findEntry_sequenced (s : State) (r : Report) (key : DeviceKey) (category : Category) :
    (sequencedAle s r).findEntry key category = s.ale.findEntry key category := by
  unfold Ale.findEntry Ale.inUse
  rw [sequencedAle_places]

/-! ### A report without effect (R61, R70) -/

/-- A Panel Gap notice reaches no context: it is not tower-wide and names no floor (R129). -/
theorem gapNotice_reaches_none (u : State) (c : CtxNo) (a : Ale) (p : PanelNo) : ¬Reaches u c (gapNotice a p) := by
  rintro ⟨-, -, h | h | ⟨f, hf, -⟩⟩
  · cases h
  · cases h
  · cases hf

/-- The Panel Gap notice leaves every context. -/
theorem gapOnly_contexts (gap : Option PanelNo) (s : State) : (gapOnly gap s).cxm.contexts = s.cxm.contexts := by
  refine table_ext fun c => ?_
  have hqueue : (gapOnly gap s).cxm.contexts[c].queue = s.cxm.contexts[c].queue := by
    cases gap with
    | none => rfl
    | some p =>
      have htakes := offerAll_context_takes [gapNotice s.ale p] s c
      exact htakes.2 (gapNotice_reaches_none s c s.ale p)
  have hrest := offerAll_context_rest (gap.map (gapNotice s.ale)).toList s c
  exact hrest.trans (congrArg (fun q => { s.cxm.contexts[c] with queue := q }) hqueue)

/-- The state after a report without effect: its sequence check, and the Panel Gap notice of a sequence it skips. -/
def afterNoEffect (s : State) (r : Report) (rest : List Report) : State :=
  driveAttention (gapOnly (gapOf s r) { s with rin := { queue := rest }, ale := sequencedAle s r })

section
variable (s : State) (r : Report) (rest : List Report)

theorem afterNoEffect_ale : (afterNoEffect s r rest).ale = sequencedAle s r := by
  unfold afterNoEffect gapOnly
  rw [driveAttention_ale, offerAll_ale]

theorem afterNoEffect_pbi :
    (afterNoEffect s r rest).pbi = { s.pbi with attention := (afterNoEffect s r rest).pbi.attention } := by
  unfold afterNoEffect gapOnly
  rw [driveAttention_pbi, offerAll_pbi]

theorem afterNoEffect_queue : (afterNoEffect s r rest).rin.queue = rest := by
  unfold afterNoEffect gapOnly
  rw [driveAttention_rin, offerAll_rin]

theorem afterNoEffect_bcm : (afterNoEffect s r rest).bcm = s.bcm := by
  unfold afterNoEffect gapOnly
  rw [driveAttention_bcm, offerAll_bcm]

theorem afterNoEffect_contexts : (afterNoEffect s r rest).cxm.contexts = s.cxm.contexts :=
  gapOnly_contexts (gapOf s r) { s with rin := { queue := rest }, ale := sequencedAle s r }

theorem afterNoEffect_handedOn : HandedOn s (afterNoEffect s r rest) (gapNews (gapOf s r)) := by
  have hclasses : (afterNoEffect s r rest).pbi.classes = s.pbi.classes := by rw [afterNoEffect_pbi]
  exact gapOnly_handedOn (u := { s with rin := { queue := rest }, ale := sequencedAle s r }) (sequencedAle_rest s r) rfl
    (afterNoEffect_ale s r rest) (offerAll_psc ..) hclasses rfl (afterNoEffect_bcm s r rest)

theorem afterNoEffect_eventFrame : EventFrame s (afterNoEffect s r rest) :=
  eventFrame_of_offered (u := { s with rin := { queue := rest }, ale := sequencedAle s r }) _ rfl rfl
    (by simp [afterNoEffect, gapOnly])

/-- A report without effect moves no table and no request, and hands on its Panel Gap notice alone (R61, R70, R73). -/
theorem afterNoEffect_outcome :
    let t := afterNoEffect s r rest
    t.ale = { s.ale with panels := t.ale.panels } ∧ t.bcm = s.bcm ∧ t.cxm.contexts = s.cxm.contexts ∧
      panelsAfter s r t.ale.panels := by
  refine ⟨?_, afterNoEffect_bcm s r rest, afterNoEffect_contexts s r rest, ?_⟩
  · rw [afterNoEffect_ale]
    exact sequencedAle_rest s r
  · rw [afterNoEffect_ale]
    exact sequencedAle_panels s r

end

/-! ### A report that changes its entry (R69, R70) -/

/-- What a report that finds the entry in place `i` leaves of the rest, and the panel records as its check has them. -/
def FoundFrame (s t : State) (r : Report) (i : EntryNo) : Prop :=
  (∀ j : EntryNo, j ≠ i → t.ale.places[j].change = s.ale.places[j].change ∧
    sameButStanding t.ale.places[j].entry s.ale.places[j].entry) ∧
  panelsAfter s r t.ale.panels ∧ CountersFrame s t ∧ t.ale.holdTimers = s.ale.holdTimers ∧ EventFrame s t ∧
  t.pbi = { s.pbi with attention := t.pbi.attention }

theorem afterNoEffect_foundFrame (s : State) (r : Report) (rest : List Report) (i : EntryNo) :
    FoundFrame s (afterNoEffect s r rest) r i := by
  obtain ⟨hale, -, -, hpanels⟩ := afterNoEffect_outcome s r rest
  refine ⟨fun j _ => ?_, hpanels, ?_, by rw [hale], afterNoEffect_eventFrame s r rest, afterNoEffect_pbi s r rest⟩
  · rw [hale]
    exact ⟨rfl, rfl⟩
  · unfold CountersFrame
    rw [hale]
    exact ⟨rfl, rfl, rfl⟩

/-- The table with the entry in place `i` changed by a report, after its sequence check. -/
def foundAle (s : State) (r : Report) (i : EntryNo) (f : Entry → Entry) : Ale := changeEntry i f (sequencedAle s r)

theorem foundAle_changedByReport (s : State) (r : Report) (i : EntryNo) (f : Entry → Entry) :
    ChangedByReport s (foundAle s r i f) := by
  unfold ChangedByReport foundAle
  rw [sequencedAle_rest]
  rfl

theorem foundAle_entry (s : State) (r : Report) (i j : EntryNo) (f : Entry → Entry) : (foundAle s r i f).places[j].entry =
    if j = i then s.ale.places[j].entry.map f else s.ale.places[j].entry := by
  unfold foundAle
  rw [Fin.getElem_fin, changeEntry_entry, sequencedAle_places]
  simp only [Fin.ext_iff, Fin.getElem_fin]

theorem foundAle_change (s : State) (r : Report) (i j : EntryNo) (f : Entry → Entry) : (foundAle s r i f).places[j].change =
    if j = i then s.ale.places[j].change + 1 else s.ale.places[j].change := by
  unfold foundAle
  rw [Fin.getElem_fin, changeEntry_change, sequencedAle_places]
  simp only [Fin.ext_iff, Fin.getElem_fin]

/-- A report that changes the entry it finds: the entry, what the event hands on, and what it leaves (R69, R70, R72, R73). -/
theorem afterReport_found {s : State} {i : EntryNo} {e : Entry} (r : Report) (rest : List Report) (f : Entry → Entry)
    {own : List (NoticeKind × EntryNo)} (he : s.ale.places[i].entry = some e) (hown : ∀ o ∈ own, o.2 = i) :
    let news : EventNews := { gap := gapOf s r, own := own, rolledUp := false, floors := [] }
    let t := afterReport s rest (foundAle s r i f) news
    t.rin.queue = rest ∧ HandedOn s t news ∧ t.ale.places[i].change = s.ale.places[i].change + 1 ∧
      sameButStanding t.ale.places[i].entry (some (f e)) ∧ FoundFrame s t r i := by
  intro news t
  have hchanged := foundAle_changedByReport s r i f
  have hself : (foundAle s r i f).places[i].entry = some (f e) := by
    rw [foundAle_entry, if_pos rfl, he, Option.map_some]
  refine ⟨afterReport_queue rest news, afterReport_handedOn rest news hchanged fun o ho => ?_, ?_, ?_, fun j hj => ⟨?_, ?_⟩,
    ?_, afterReport_counters rest news hchanged, afterReport_holdTimers rest news hchanged, afterReport_eventFrame rest news,
    afterReport_pbi rest news⟩
  · exact ⟨f e, (hown o ho).symm ▸ hself⟩
  · rw [afterReport_change, foundAle_change, if_pos rfl]
  · rw [← hself]
    exact afterReport_entry rest news i
  · rw [afterReport_change, foundAle_change, if_neg hj]
  · have hother := foundAle_entry s r i j f
    rw [if_neg hj] at hother
    rw [← hother]
    exact afterReport_entry rest news j
  · rw [afterReport_panels]
    exact sequencedAle_panels s r

/-- The report of an activation that finds its entry is taken as one ALE event (R69). -/
theorem exec_reportTake_activates {s : State} {r : Report} {rest : List Report} {i : EntryNo} {e : Entry}
    (hp : s.power = true) (hd : deferring s = false) (hq : s.rin.queue = r :: rest) (hn : notDuplicate s r)
    (hreset : r.kind ≠ .panelReset) (hfound : s.ale.findEntry r.key r.kind.category = some (i, e))
    (hk : r.kind.activates = true) : exec .reportTake s = .next
      (afterReport s rest (foundAle s r i (activate s.ale.clock r.detection))
        { gap := gapOf s r, own := ((activationNotice e.phase).map fun k => (k, i)).toList, rolledUp := false
          floors := [] }) := by
  rw [exec_reportTake_processed hp hd hq hn hreset,
    processReport_found (i := i) (e := e) ((findEntry_sequenced s r _ _).trans hfound), if_pos hk]
  dsimp only
  rw [sequencedAle_clock]
  rfl

/-- A clearing report that finds its entry Active or Acknowledged is taken as one ALE event (R70). -/
theorem exec_reportTake_restores {s : State} {r : Report} {rest : List Report} {i : EntryNo} {e : Entry}
    (hp : s.power = true) (hd : deferring s = false) (hq : s.rin.queue = r :: rest) (hn : notDuplicate s r)
    (hreset : r.kind ≠ .panelReset) (hfound : s.ale.findEntry r.key r.kind.category = some (i, e))
    (hk : r.kind.activates = false) (hlive : e.phase.standingLive = true) : exec .reportTake s = .next
      (afterReport s rest (foundAle s r i (restoreEntry s.ale.clock))
        { gap := gapOf s r, own := [(.restored, i)], rolledUp := false, floors := [] }) := by
  rw [exec_reportTake_processed hp hd hq hn hreset,
    processReport_found (i := i) (e := e) ((findEntry_sequenced s r _ _).trans hfound), if_neg (Bool.eq_false_iff.1 hk),
    if_pos hlive]
  dsimp only
  rw [sequencedAle_clock]
  rfl

/-- A clearing report that finds its entry in another phase has no effect (R70). -/
theorem exec_reportTake_idle {s : State} {r : Report} {rest : List Report} {i : EntryNo} {e : Entry}
    (hp : s.power = true) (hd : deferring s = false) (hq : s.rin.queue = r :: rest) (hn : notDuplicate s r)
    (hreset : r.kind ≠ .panelReset) (hfound : s.ale.findEntry r.key r.kind.category = some (i, e))
    (hk : r.kind.activates = false) (hlive : e.phase.standingLive ≠ true) :
    exec .reportTake s = .next (afterNoEffect s r rest) := by
  rw [exec_reportTake_processed hp hd hq hn hreset,
    processReport_found (i := i) (e := e) ((findEntry_sequenced s r _ _).trans hfound), if_neg (Bool.eq_false_iff.1 hk),
    if_neg hlive]
  rfl

end Sys2Proof.Machine
end

section
/-!
PROOFS. The statement about reports that find their entry, or clear none: O36 (R61, R69, R70, R72).
-/

namespace Sys2Proof.Machine

/-- Settles O36: the report's kind and the entry's phase decide between an ALE event on the entry and no effect. -/
theorem reportTakeMovesEntry : Obligations.ReportTakeMovesEntry := by
  refine ⟨fun s r rest i e hp hd hq hn hreset hunique he hkey hcategory => ?_,
    fun s r rest hp hd hq hn hk hreset hnew => ?_⟩
  · have hfound : s.ale.findEntry r.key r.kind.category = some (i, e) := by
      rw [← hkey, ← hcategory]
      exact findEntry_eq_some hunique he
    cases hk : r.kind.activates with
    | true =>
      have hexec := exec_reportTake_activates hp hd hq hn hreset hfound hk
      obtain ⟨hqueue, hhanded, hchange, hentry, hframe⟩ := afterReport_found r rest (activate s.ale.clock r.detection)
        (own := ((activationNotice e.phase).map fun k => (k, i)).toList) he (by simp)
      refine ⟨_, _, hexec, hqueue, hhanded, fun _ => ⟨hchange, fun hphase => ?_, fun hphase => ?_, fun hphase => ?_⟩,
        fun h => (by cases h), hframe⟩
      · rw [activate_live hphase] at hentry
        exact ⟨by rw [activationNotice_live hphase]; rfl, hentry⟩
      · rw [activate_rearms hphase] at hentry
        exact ⟨by rw [activationNotice_rearms hphase]; rfl, hentry⟩
      · rw [activate_cleared hphase] at hentry
        exact ⟨by rw [hphase]; rfl, hentry⟩
    | false =>
      by_cases hlive : e.phase.standingLive = true
      · have hexec := exec_reportTake_restores hp hd hq hn hreset hfound hk hlive
        obtain ⟨hqueue, hhanded, hchange, hentry, hframe⟩ := afterReport_found r rest (restoreEntry s.ale.clock)
          (own := [(.restored, i)]) he (by simp)
        exact ⟨_, _, hexec, hqueue, hhanded, fun h => (by cases h), fun _ => ⟨fun _ => ⟨rfl, hchange, hentry⟩,
          fun hactive hacknowledged => absurd (standingLive_iff.1 hlive) (not_or.2 ⟨hactive, hacknowledged⟩)⟩, hframe⟩
      · have hexec := exec_reportTake_idle hp hd hq hn hreset hfound hk hlive
        obtain ⟨hale, hbcm, hcontexts, -⟩ := afterNoEffect_outcome s r rest
        exact ⟨_, [], hexec, afterNoEffect_queue s r rest, afterNoEffect_handedOn s r rest, fun h => (by cases h),
          fun _ => ⟨fun hphase => absurd (standingLive_iff.2 hphase) hlive, fun _ _ => ⟨rfl, hale, hbcm, hcontexts⟩⟩,
          afterNoEffect_foundFrame s r rest i⟩
  · have hnone : (sequencedAle s r).findEntry r.key r.kind.category = none :=
      (findEntry_sequenced s r _ _).trans (findEntry_eq_none hnew)
    have hexec := exec_reportTake_processed hp hd hq hn hreset
    rw [processReport_clears_none (s := { s with rin := { queue := rest }, ale := sequencedAle s r }) hnone hk] at hexec
    obtain ⟨hale, hbcm, hcontexts, hpanels⟩ := afterNoEffect_outcome s r rest
    exact ⟨_, hexec, afterNoEffect_queue s r rest, afterNoEffect_handedOn s r rest, hale, hbcm, hcontexts, hpanels,
      afterNoEffect_eventFrame s r rest, afterNoEffect_pbi s r rest⟩

end Sys2Proof.Machine
end

section
/-!
SUPPORT. The activations that find a full table: the entry evicted, and the roll-up counts (R76, R77).
-/

namespace Sys2Proof.Machine

/-! ### The entry to evict (R76) -/

/-- The order of eviction in one formula (R76). -/
theorem evictedBefore_iff {x y : EntryNo × Entry} : evictedBefore x y = true ↔
    x.2.lastChange.toNat < y.2.lastChange.toNat ∨
      x.2.lastChange.toNat = y.2.lastChange.toNat ∧ x.1.val ≤ y.1.val := by
  unfold evictedBefore
  split
  · simp only [decide_eq_true_eq]; omega
  · simp only [decide_eq_true_eq, Fin.le_def]; omega

theorem evictedBefore_total : Std.Total fun x y : EntryNo × Entry => evictedBefore x y = true where
  total x y := by simp only [evictedBefore_iff]; omega

theorem evictedBefore_trans : IsTrans (EntryNo × Entry) fun x y => evictedBefore x y = true where
  trans x y z := by simp only [evictedBefore_iff]; omega

/-- The Cleared entries in the order of eviction. -/
def clearedInOrder (a : Ale) : List (EntryNo × Entry) :=
  (a.inUse.filter fun x => x.2.phase == .cleared).insertionSort fun x y => evictedBefore x y = true

theorem evictee_eq (a : Ale) : a.evictee = (clearedInOrder a).head?.map (·.1) := rfl

theorem mem_clearedInOrder {a : Ale} {i : EntryNo} {e : Entry} :
    (i, e) ∈ clearedInOrder a ↔ a.places[i].entry = some e ∧ e.phase = .cleared := by
  unfold clearedInOrder
  rw [(List.perm_insertionSort _ _).mem_iff, List.mem_filter, mem_inUse, beq_iff_eq]

/-- The entry evicted is Cleared. -/
theorem evictee_cleared {a : Ale} {k : EntryNo} (h : a.evictee = some k) :
    ∃ e, a.places[k].entry = some e ∧ e.phase = .cleared := by
  rw [evictee_eq] at h
  obtain ⟨⟨i, e⟩, hhead, rfl⟩ := Option.map_eq_some_iff.1 h
  exact ⟨e, mem_clearedInOrder.1 (List.mem_of_mem_head? hhead)⟩

/-- The Cleared entry that goes before every other one is evicted (R76). -/
theorem evictee_eq_some {a : Ale} {i : EntryNo} {e : Entry} (he : a.places[i].entry = some e) (hcleared : e.phase = .cleared)
    (hfirst : ∀ (j : EntryNo) (f : Entry), a.places[j].entry = some f → f.phase = .cleared → j ≠ i →
      e.lastChange.toNat < f.lastChange.toNat ∨ e.lastChange = f.lastChange ∧ i < j) : a.evictee = some i := by
  have htotal := evictedBefore_total
  have htrans := evictedBefore_trans
  have hsorted : (clearedInOrder a).Pairwise fun x y => evictedBefore x y = true := List.pairwise_insertionSort _ _
  have hmem : (i, e) ∈ clearedInOrder a := mem_clearedInOrder.2 ⟨he, hcleared⟩
  rw [evictee_eq]
  cases hlist : clearedInOrder a with
  | nil =>
    rw [hlist] at hmem
    exact absurd hmem List.not_mem_nil
  | cons x rest =>
    obtain ⟨j, f⟩ := x
    have hji : j = i := by
      by_contra hne
      have hf : (j, f) ∈ clearedInOrder a := by rw [hlist]; exact List.mem_cons_self
      obtain ⟨hf, hfcleared⟩ := mem_clearedInOrder.1 hf
      have hlater : (i, e) ∈ rest := by
        rw [hlist] at hmem
        exact (List.mem_cons.1 hmem).resolve_left fun h => hne (congrArg Prod.fst h).symm
      rw [hlist] at hsorted
      have hbefore := evictedBefore_iff.1 (List.rel_of_pairwise_cons hsorted hlater)
      have hafter := hfirst j f hf hfcleared hne
      dsimp only at hbefore
      simp only [← BitVec.toNat_inj, Fin.lt_def] at hafter
      omega
    rw [hji]
    rfl

/-! ### The outcome at a full table (R76, R77) -/

theorem freePlaceNo_eq_none {a : Ale} (h : ∀ j : EntryNo, a.places[j].entry ≠ none) : a.freePlaceNo = none := by
  unfold Ale.freePlaceNo
  exact List.find?_eq_none.2 fun j _ hj => h j (Option.isNone_iff_eq_none.1 hj)

/-- What the event of a report that is rolled up says of itself: the floor of its zone is touched (R73, R77). -/
def rollUpNews (s : State) (r : Report) : EventNews :=
  { gap := gapOf s r, own := [], rolledUp := true
    floors := ((s.psc.deviceLookup r.key).bind fun d => s.psc.zoneFloor d.zone).toList }

/-- The table with the entry in place `k` evicted for the new one, after the report's sequence check (R68, R76). -/
def evictedAle (s : State) (r : Report) (k : EntryNo) : Ale :=
  makeEntry k (newEntryOf s.psc s.ale.clock r) (evict k (sequencedAle s r))

/-- The table with the report counted, after its sequence check (R77). -/
def rolledUpAle (s : State) (r : Report) : Ale :=
  rollUp ((s.psc.deviceLookup r.key).map (·.zone)) (sequencedAle s r)

/-- The state after a report that is rolled up: no standing is computed, for no entry moved. -/
def afterRollUp (s : State) (r : Report) (rest : List Report) : State :=
  driveAttention (handOn s.ale (rollUpNews s r) { s with rin := { queue := rest }, ale := rolledUpAle s r })

theorem zoneFloor_of_lookup (p : Psc) (d : Option DeviceInfo) :
    ((d.map (·.zone)).bind p.zoneFloor).toList = (d.bind fun d => p.zoneFloor d.zone).toList := by
  cases d with
  | none => rfl
  | some d => rfl

/-- An activation that finds no entry in a full table is an ALE event with the entry of the evictee's place, or is rolled up. -/
theorem exec_reportTake_full {s : State} {r : Report} {rest : List Report} (hp : s.power = true) (hd : deferring s = false)
    (hq : s.rin.queue = r :: rest) (hn : notDuplicate s r) (hk : r.kind.activates = true)
    (hnew : ∀ (j : EntryNo) (f : Entry), s.ale.places[j].entry = some f → f.key = r.key → f.category ≠ r.kind.category)
    (hfull : ∀ j : EntryNo, s.ale.places[j].entry ≠ none) : exec .reportTake s = .next (match s.ale.evictee with
      | some k => afterReport s rest (evictedAle s r k)
          { gap := gapOf s r, own := [(.newEntry, k)], rolledUp := false, floors := [] }
      | none => afterRollUp s r rest) := by
  have hreset : r.kind ≠ .panelReset := fun h => by rw [h] at hk; cases hk
  have hnone : (sequencedAle s r).findEntry r.key r.kind.category = none :=
    (findEntry_sequenced s r _ _).trans (findEntry_eq_none hnew)
  have hplaces := sequencedAle_places s r
  have hfree : (sequencedAle s r).freePlaceNo = none := freePlaceNo_eq_none fun j => by
    rw [hplaces]
    exact hfull j
  have hevictee : (sequencedAle s r).evictee = s.ale.evictee := by
    unfold Ale.evictee Ale.inUse
    rw [hplaces]
  rw [exec_reportTake_processed hp hd hq hn hreset]
  unfold processReport activateNew
  simp only [hnone, hk, if_true, hfree, hevictee, sequencedAle_clock]
  cases s.ale.evictee with
  | some k => rfl
  | none =>
    dsimp only
    unfold afterRollUp rollUpNews rolledUpAle
    rw [← zoneFloor_of_lookup]
    rfl

/-! ### The table after an eviction (R76, R84) -/

/-- The end of the hold on an evicted entry, of another entry and of the timers (R84). -/
theorem evict_other {a : Ale} {k j : EntryNo} {e : Entry} (he : a.places[k].entry = some e) (hj : j ≠ k) :
    (evict k a).places[j].change = a.places[j].change ∧ (evict k a).places[j].entry = a.places[j].entry.map fun f =>
      { f with holder := if f.holder = e.holder then none else f.holder } := by
  have hentry := endHolds_entry (fun slot => decide (a.holder k = some slot)) a j j.isLt
  have hchange := endHolds_change (fun slot => decide (a.holder k = some slot)) a j j.isLt
  have hreleased : (fun f : Entry => f.releasedBy fun slot => decide (a.holder k = some slot)) =
      fun f => { f with holder := if f.holder = e.holder then none else f.holder } := funext fun f => by
    rw [releasedBy_filter, holder_of_entry he]
    cases hf : f.holder with
    | none => simp
    | some slot =>
      by_cases h : e.holder = some slot
      · simp [h]
      · simp [h, Ne.symm h]
  rw [hreleased] at hentry
  have hplace : (evict k a).places[j] =
      (endHolds (fun slot => decide (a.holder k = some slot)) a).places[j] := by
    rw [evict_eq]
    simp [Fin.val_ne_of_ne hj]
  rw [hplace]
  exact ⟨hchange, hentry⟩

theorem evict_self_change (k : EntryNo) (a : Ale) : (evict k a).places[k].change = a.places[k].change := by
  have hchange := endHolds_change (fun slot => decide (a.holder k = some slot)) a k k.isLt
  rw [evict_eq]
  simp only [Fin.getElem_fin, getElem_updateAt, if_true]
  exact hchange

theorem evict_timer {a : Ale} {k : EntryNo} {e : Entry} (he : a.places[k].entry = some e) (slot : Slot) :
    (evict k a).holdTimers[slot] = if e.holder = some slot then false else a.holdTimers[slot] := by
  have htimer := endHolds_timer (fun slot => decide (a.holder k = some slot)) a slot slot.isLt
  rw [evict_eq]
  refine htimer.trans ?_
  rw [holder_of_entry he]
  by_cases h : e.holder = some slot
  · simp [h]
  · simp [h]

theorem evictedAle_changedByEvent (s : State) (r : Report) (k : EntryNo) : ChangedByEvent s (evictedAle s r k) := by
  unfold ChangedByEvent evictedAle
  rw [evict_eq, sequencedAle_rest]
  rfl

theorem evictedAle_panels (s : State) (r : Report) (k : EntryNo) : panelsAfter s r (evictedAle s r k).panels := by
  unfold evictedAle
  rw [evict_eq]
  exact sequencedAle_panels s r

theorem evictedAle_self (s : State) (r : Report) (k : EntryNo) : (evictedAle s r k).places[k] =
    { change := s.ale.places[k].change + 1, entry := some (newEntryOf s.psc s.ale.clock r) } := by
  unfold evictedAle
  rw [makeEntry_place, if_pos rfl, evict_self_change, sequencedAle_places]

theorem evictedAle_other {s : State} (r : Report) {k j : EntryNo} {e : Entry} (he : s.ale.places[k].entry = some e)
    (hj : j ≠ k) : (evictedAle s r k).places[j].change = s.ale.places[j].change ∧
      (evictedAle s r k).places[j].entry = s.ale.places[j].entry.map fun f =>
        { f with holder := if f.holder = e.holder then none else f.holder } := by
  have hother := evict_other (a := sequencedAle s r) (e := e) (by rw [sequencedAle_places]; exact he) hj
  rw [sequencedAle_places] at hother
  unfold evictedAle
  rw [makeEntry_place, if_neg hj]
  exact hother

theorem evictedAle_timer {s : State} (r : Report) {k : EntryNo} {e : Entry} (he : s.ale.places[k].entry = some e)
    (slot : Slot) : (evictedAle s r k).holdTimers[slot] = if e.holder = some slot then false else s.ale.holdTimers[slot] := by
  have htimer := evict_timer (a := sequencedAle s r) (e := e) (by rw [sequencedAle_places]; exact he) slot
  have hsame : (sequencedAle s r).holdTimers = s.ale.holdTimers := by rw [sequencedAle_rest]
  rw [hsame] at htimer
  exact htimer

/-! ### The table of a report rolled up (R77) -/

theorem rolledUpAle_rest (s : State) (r : Report) : rolledUpAle s r = { s.ale with
    panels := (rolledUpAle s r).panels
    zoneRollups := (rolledUpAle s r).zoneRollups
    unplacedRollup := (rolledUpAle s r).unplacedRollup } := by
  unfold rolledUpAle rollUp
  rw [sequencedAle_rest]
  split
  · rfl
  · rfl

theorem rolledUpAle_panels (s : State) (r : Report) : panelsAfter s r (rolledUpAle s r).panels := by
  have hpanels : (rolledUpAle s r).panels = (sequencedAle s r).panels := by
    unfold rolledUpAle rollUp
    split
    · rfl
    · rfl
  rw [hpanels]
  exact sequencedAle_panels s r

/-- A report with a zone counts in that zone alone (R77). -/
theorem rolledUpAle_zone {s : State} {r : Report} {d : DeviceInfo} (h : s.psc.deviceLookup r.key = some d) :
    (rolledUpAle s r).unplacedRollup = s.ale.unplacedRollup ∧
      ∀ z : Fin 2048, (rolledUpAle s r).zoneRollups[z].toNat =
        if z.val = d.zone then min 255 (s.ale.zoneRollups[z].toNat + 1) else s.ale.zoneRollups[z].toNat := by
  have hcounted : rolledUpAle s r = { sequencedAle s r with
      zoneRollups := (sequencedAle s r).zoneRollups.setIfInBounds d.zone
        (saturatingSucc8 ((sequencedAle s r).zoneRollups[d.zone]?.getD 0)) } := by
    unfold rolledUpAle
    rw [h]
    rfl
  have hzones : (sequencedAle s r).zoneRollups = s.ale.zoneRollups := by rw [sequencedAle_rest]
  rw [hcounted, hzones]
  refine ⟨by rw [sequencedAle_rest], fun z => ?_⟩
  rw [Fin.getElem_fin, Vector.getElem_setIfInBounds]
  by_cases hz : z.val = d.zone
  · rw [if_pos hz.symm, if_pos hz, saturatingSucc8_toNat, ← hz, Vector.getElem?_eq_getElem z.isLt]
    rfl
  · rw [if_neg (Ne.symm hz), if_neg hz]
    rfl

/-- A report without a zone counts in the unplaced count alone (R77). -/
theorem rolledUpAle_unplaced {s : State} {r : Report} (h : s.psc.deviceLookup r.key = none) :
    (rolledUpAle s r).zoneRollups = s.ale.zoneRollups ∧
      (rolledUpAle s r).unplacedRollup.toNat = min 255 (s.ale.unplacedRollup.toNat + 1) := by
  have hcounted : rolledUpAle s r = { sequencedAle s r with
      unplacedRollup := saturatingSucc8 (sequencedAle s r).unplacedRollup } := by
    unfold rolledUpAle
    rw [h]
    rfl
  rw [hcounted, ← saturatingSucc8_toNat]
  rw [sequencedAle_rest]
  exact ⟨rfl, rfl⟩

section
variable (s : State) (r : Report) (rest : List Report)

theorem afterRollUp_ale : (afterRollUp s r rest).ale = rolledUpAle s r := by
  unfold afterRollUp
  rw [driveAttention_ale, handOn_ale]

theorem afterRollUp_queue : (afterRollUp s r rest).rin.queue = rest := by
  unfold afterRollUp
  rw [driveAttention_rin, handOn_rin]

theorem afterRollUp_pbi :
    (afterRollUp s r rest).pbi = { s.pbi with attention := (afterRollUp s r rest).pbi.attention } := by
  unfold afterRollUp
  rw [driveAttention_pbi, handOn_pbi]

theorem afterRollUp_eventFrame : EventFrame s (afterRollUp s r rest) :=
  eventFrame_of_offered (u := { s with rin := { queue := rest }, ale := rolledUpAle s r }) _ rfl
    (handOn_cxm s.ale (rollUpNews s r) { s with rin := { queue := rest }, ale := rolledUpAle s r })
    (by simp [afterRollUp])

/-- The count moves neither the focus nor an entry, and the event hands on what R73 says. -/
theorem afterRollUp_handedOn : HandedOn s (afterRollUp s r rest) (rollUpNews s r) := by
  have hfocus : FocusAfter s { s with rin := { queue := rest }, ale := rolledUpAle s r } := by
    unfold FocusAfter
    rw [rolledUpAle_rest]
    exact ⟨fun _ => ⟨rfl, rfl⟩, fun h => absurd rfl h⟩
  have hclasses : (afterRollUp s r rest).pbi.classes = s.pbi.classes := by rw [afterRollUp_pbi]
  exact handOn_handedOn (u := { s with rin := { queue := rest }, ale := rolledUpAle s r })
    (fun o ho => absurd ho List.not_mem_nil) hfocus rfl rfl rfl (afterRollUp_ale s r rest) (handOn_psc ..) hclasses rfl rfl

end

end Sys2Proof.Machine
end

section
/-!
PROOFS. The statement about activations at a full table: O37 (R73, R76, R77).
-/

namespace Sys2Proof.Machine

/-- Settles O37: the evictee decides between an ALE event with the new entry in its place and a roll-up. -/
theorem reportTakeAtFullTable : Obligations.ReportTakeAtFullTable := by
  intro s r rest hp hd hq hn hk hnew hfull
  have hexec := exec_reportTake_full hp hd hq hn hk hnew hfull
  cases hevictee : s.ale.evictee with
  | some k =>
    rw [hevictee] at hexec
    have hchanged := evictedAle_changedByEvent s r k
    have hself := evictedAle_self s r k
    have hpanels := evictedAle_panels s r k
    refine ⟨_, hexec, afterReport_queue rest _, by rw [afterReport_panels]; exact hpanels, afterReport_eventFrame rest _,
      afterReport_pbi rest _, fun i e he hcleared hfirst => ?_, fun hnone => ?_⟩
    · have hi : k = i := Option.some.inj (hevictee.symm.trans (evictee_eq_some he hcleared hfirst))
      subst hi
      obtain ⟨hmapped, hunmapped⟩ := newEntryOf_lookup s.psc s.ale.clock r
      have hentry := afterReport_entry (s := s) (a := evictedAle s r k) rest
        { gap := gapOf s r, own := [(.newEntry, k)], rolledUp := false, floors := [] } k
      rw [hself] at hentry
      obtain ⟨standing, hentry⟩ := sameButStanding_some hentry
      refine ⟨by rw [afterReport_change, hself], hchanged.counters (afterReport_ale rest _), ?_,
        ⟨_, hentry, rfl, rfl, rfl, rfl, rfl, rfl, rfl, rfl, hmapped, hunmapped⟩, fun j hj => ⟨?_, ?_⟩, fun slot => ?_⟩
      · refine ChangedByEvent.handedOn (v := { s with rin := { queue := rest }, ale := evictedAle s r k }) hchanged
          (fun o ho => ?_) rfl rfl rfl (by rw [afterReport_pbi])
        rw [List.mem_singleton.1 ho, hself]
        exact ⟨_, rfl⟩
      · rw [afterReport_change, (evictedAle_other r he hj).1]
      · rw [← (evictedAle_other r he hj).2]
        exact afterReport_entry rest _ j
      · rw [afterReport_ale, raiseEpoch_holdTimers, recompute_holdTimers, evictedAle_timer r he]
    · obtain ⟨e, he, hcleared⟩ := evictee_cleared hevictee
      exact absurd hcleared (hnone k e he)
  | none =>
    rw [hevictee] at hexec
    have hale := afterRollUp_ale s r rest
    refine ⟨_, hexec, afterRollUp_queue s r rest, by rw [hale]; exact rolledUpAle_panels s r, afterRollUp_eventFrame s r rest,
      afterRollUp_pbi s r rest, fun i e he hcleared hfirst => ?_, fun _ => ⟨?_, afterRollUp_handedOn s r rest, fun d h => ?_,
        fun h => ?_⟩⟩
    · cases hevictee.symm.trans (evictee_eq_some he hcleared hfirst)
    · rw [hale]
      exact rolledUpAle_rest s r
    · rw [hale]
      exact rolledUpAle_zone h
    · rw [hale]
      exact rolledUpAle_unplaced h

end Sys2Proof.Machine
end

section
/-!
SUPPORT. What standings and the focus are computed from (R91, R98): their laws said of the Alarm Engine and the plan store alone,
what each law reads, and that the recomputation of an ALE event establishes both (R73).
-/

namespace Sys2Proof.Machine

/-! ### What the standing formula reads (R91) -/

/-- An entry with its standing and its hold blank: the rest of it is all that the standing formula reads. -/
def Entry.unrated (e : Entry) : Entry := { e with standing := 0, holder := none, holdStart := 0 }

/-- The in-use entries with their standings and holds blank. -/
def unratedAll (entries : List (EntryNo × Entry)) : List (EntryNo × Entry) := entries.map fun o => (o.1, o.2.unrated)

theorem corroboration_unrated (entries : List (EntryNo × Entry)) (i : EntryNo) (e : Entry) :
    corroboration (unratedAll entries) i e.unrated = corroboration entries i e := by
  unfold corroboration unratedAll
  rw [List.countP_map]
  rfl

theorem spread_unrated (entries : List (EntryNo × Entry)) (e : Entry) :
    spread (unratedAll entries) e.unrated = spread entries e := by
  unfold spread unratedAll
  simp only [List.any_map]
  rfl

theorem standingOf_unrated (p : Psc) (entries : List (EntryNo × Entry)) (i : EntryNo) (e : Entry) :
    standingOf p (unratedAll entries) i e.unrated = standingOf p entries i e := by
  unfold standingOf rawStanding
  rw [corroboration_unrated, spread_unrated]
  rfl

/-- The formula reads the plan store's weights, and nothing else of it. -/
theorem standingOf_weight {p q : Psc} (h : q.weight = p.weight) : standingOf q = standingOf p := by
  unfold standingOf rawStanding
  rw [h]

/-- Two tables agree in all that the standing formula reads. -/
def SameButRating (x y : Ale) : Prop :=
  ∀ i : EntryNo, x.places[i].entry.map Entry.unrated = y.places[i].entry.map Entry.unrated

theorem SameButRating.unratedAll_inUse {x y : Ale} (h : SameButRating x y) : unratedAll x.inUse = unratedAll y.inUse := by
  unfold unratedAll Ale.inUse
  rw [List.map_filterMap, List.map_filterMap]
  refine List.filterMap_congr fun i _ => ?_
  have hi := congrArg (Option.map fun e => (i, e)) (h i)
  rw [Option.map_map, Option.map_map] at hi ⊢
  exact hi

theorem SameButRating.standingOf {x y : Ale} (h : SameButRating x y) {p q : Psc} (hw : p.weight = q.weight) (i : EntryNo)
    {e f : Entry} (he : e.unrated = f.unrated) : standingOf p x.inUse i e = standingOf q y.inUse i f := by
  rw [← standingOf_unrated p, ← standingOf_unrated q, h.unratedAll_inUse, he, standingOf_weight hw]

/-! ### The law of standings (R91) -/

/-- Every in-use entry carries the standing of R91 to R95, of a plan store and an Alarm Engine. -/
def StandingLaw (p : Psc) (a : Ale) : Prop :=
  ∀ (i : EntryNo) (e : Entry), a.places[i].entry = some e → e.standing = standingOf p a.inUse i e

theorem standingsTrue_iff (s : State) : s.standingsTrue ↔ StandingLaw s.psc s.ale := Iff.rfl

/-- The law reads no hold, and of the plan store its weights alone. -/
theorem StandingLaw.congr {p q : Psc} {a b : Ale} (h : StandingLaw p a) (hw : q.weight = p.weight)
    (hentry : ∀ i : EntryNo, sameButHold b.places[i].entry a.places[i].entry) : StandingLaw q b := by
  intro i e he
  have hsame : SameButRating b a := fun j => by
    have hj := congrArg (Option.map fun e : Entry => { e with standing := 0 }) (hentry j)
    rw [Option.map_map, Option.map_map] at hj
    exact hj
  obtain ⟨f, hf, hef⟩ := sameButHold_some (hentry i) he
  calc e.standing = f.standing := by rw [hef]
    _ = standingOf p a.inUse i f := h i f hf
    _ = standingOf q b.inUse i e := (hsame.standingOf hw i (by rw [hef]; rfl)).symm

theorem standingLaw_of_free (p : Psc) {a : Ale} (hfree : ∀ i : EntryNo, a.places[i].entry = none) : StandingLaw p a := by
  intro i e he
  cases (hfree i).symm.trans he

/-- The recomputation rates nothing but standings. -/
theorem recomputed_sameButRating (p : Psc) (before a : Ale) : SameButRating (raiseEpoch before (recompute p a)) a := by
  intro i
  rw [raiseEpoch_places, recompute_places, Fin.getElem_fin, regraded_entry, Option.map_map]
  rfl

/-- The recomputation of an ALE event gives every entry its standing, whatever it stood at (R73, R91). -/
theorem recomputed_standingLaw (p : Psc) (before a : Ale) : StandingLaw p (raiseEpoch before (recompute p a)) := by
  intro i e he
  have hsame := recomputed_sameButRating p before a
  rw [raiseEpoch_places, recompute_places, Fin.getElem_fin, regraded_entry] at he
  obtain ⟨f, -, rfl⟩ := Option.map_eq_some_iff.1 he
  exact (hsame.standingOf rfl i rfl).symm

/-! ### The law of the focus (R98) -/

/-- The focus and the focus entry are those of the table's first eligible entry. -/
def FocusLaw (a : Ale) : Prop := a.focus = (focusOf a).map (·.2) ∧ a.focusEntry = (focusOf a).map (·.1)

/-- The floor that the entry in place `i` may give the focus. -/
def Ale.focusFloorAt (a : Ale) (i : EntryNo) : Option Nat := a.places[i].entry.bind Entry.focusFloor

/-- The phases that have a standing, by name (R92). -/
theorem graded_iff (p : Phase) : p.graded = true ↔ p = .active ∨ p = .acknowledged ∨ p = .restored := by
  cases p <;> simp [Phase.graded]

theorem focusFloor_eq_some {e : Entry} {f : Nat} : e.focusFloor = some f ↔
    e.category = .fire ∧ (e.phase = .active ∨ e.phase = .acknowledged ∨ e.phase = .restored) ∧ e.floor = some f := by
  unfold Entry.focusFloor
  rw [← graded_iff]
  split <;> simp_all

theorem eligible_iff {s : State} {i : EntryNo} {f : Nat} : eligible s i f ↔ s.ale.focusFloorAt i = some f := by
  unfold eligible Ale.focusFloorAt
  simp only [Option.bind_eq_some_iff, focusFloor_eq_some]

theorem not_eligible_iff {s : State} {i : EntryNo} : (∀ f, ¬eligible s i f) ↔ s.ale.focusFloorAt i = none := by
  simp only [eligible_iff, Option.eq_none_iff_forall_ne_some, ne_eq]

theorem focusOf_eq_none {a : Ale} : focusOf a = none ↔ ∀ i ∈ a.alarmList, a.focusFloorAt i = none := by
  unfold focusOf
  simp only [List.findSome?_eq_none_iff, Option.map_eq_none_iff]
  rfl

/-- The first eligible entry of the Alarm List and its floor. -/
theorem focusOf_eq_some {a : Ale} {i : EntryNo} {f : Nat} : focusOf a = some (i, f) ↔
    ∃ before after, a.alarmList = before ++ i :: after ∧ a.focusFloorAt i = some f ∧
      ∀ j ∈ before, a.focusFloorAt j = none := by
  unfold focusOf
  simp only [List.findSome?_eq_some_iff, Option.map_eq_some_iff, Option.map_eq_none_iff, Prod.mk.injEq]
  constructor
  · rintro ⟨before, j, after, hlist, ⟨f, hf, rfl, rfl⟩, hbefore⟩
    exact ⟨before, after, hlist, hf, hbefore⟩
  · rintro ⟨before, after, hlist, hf, hbefore⟩
    exact ⟨before, i, after, hlist, ⟨f, hf, rfl, rfl⟩, hbefore⟩

theorem focusTrue_iff (s : State) : s.focusTrue ↔ FocusLaw s.ale := by
  unfold State.focusTrue FocusLaw
  simp only [not_eligible_iff]
  simp only [eligible_iff]
  constructor
  · rintro (⟨before, after, i, f, hlist, hf, hbefore, hfocus, hentry⟩ | ⟨hnone, hfocus, hentry⟩)
    · rw [focusOf_eq_some.2 ⟨before, after, hlist, hf, hbefore⟩]
      exact ⟨hfocus, hentry⟩
    · rw [focusOf_eq_none.2 hnone]
      exact ⟨hfocus, hentry⟩
  · rintro ⟨hfocus, hentry⟩
    cases hfound : focusOf s.ale with
    | none =>
      rw [hfound] at hfocus hentry
      exact .inr ⟨focusOf_eq_none.1 hfound, hfocus, hentry⟩
    | some found =>
      obtain ⟨before, after, hlist, hf, hbefore⟩ := focusOf_eq_some.1 hfound
      rw [hfound] at hfocus hentry
      exact .inl ⟨before, after, found.1, found.2, hlist, hf, hbefore, hfocus, hentry⟩

/-- The first eligible entry is found by the list and by what no hold touches. -/
theorem focusOf_congr {a b : Ale} (hlist : b.alarmList = a.alarmList)
    (hentry : ∀ i : EntryNo, sameButHold b.places[i].entry a.places[i].entry) : focusOf b = focusOf a := by
  have hfloor : b.focusFloorAt = a.focusFloorAt := funext fun i => by
    have hi := congrArg (Option.bind · Entry.focusFloor) (hentry i)
    simp only [Option.bind_map] at hi
    exact hi
  unfold focusOf
  rw [hlist]
  exact congrArg (List.findSome? · a.alarmList) (funext fun i => congrArg (Option.map _) (congrFun hfloor i))

theorem FocusLaw.congr {a b : Ale} (h : FocusLaw a) (hlist : b.alarmList = a.alarmList) (hfocus : b.focus = a.focus)
    (hfocusEntry : b.focusEntry = a.focusEntry)
    (hentry : ∀ i : EntryNo, sameButHold b.places[i].entry a.places[i].entry) : FocusLaw b := by
  unfold FocusLaw
  rw [focusOf_congr hlist hentry, hfocus, hfocusEntry]
  exact h

theorem focusLaw_of_empty {a : Ale} (hlist : a.alarmList = []) (hfocus : a.focus = none) (hentry : a.focusEntry = none) :
    FocusLaw a := by
  have hfound : focusOf a = none := focusOf_eq_none.2 (by rw [hlist]; simp)
  unfold FocusLaw
  rw [hfound, hfocus, hentry]
  exact ⟨rfl, rfl⟩

theorem recompute_focusLaw (p : Psc) (a : Ale) : FocusLaw (recompute p a) := by
  unfold FocusLaw
  rw [show focusOf (recompute p a) = focusOf { regraded p a with alarmList := rankedList (regraded p a) } by
    unfold focusOf; rw [recompute_alarmList, recompute_places]]
  unfold recompute
  extract_lets graded listed found focus
  change _ = focus ∧ _ = found.map (·.1)
  clear_value focus found
  split
  · rename_i hsame
    exact ⟨hsame.symm, rfl⟩
  · exact ⟨rfl, rfl⟩

/-- The recomputation of an ALE event finds the focus, whatever it was (R73, R98). -/
theorem recomputed_focusLaw (p : Psc) (before a : Ale) : FocusLaw (raiseEpoch before (recompute p a)) :=
  (recompute_focusLaw p a).congr (raiseEpoch_alarmList ..) (raiseEpoch_focus ..) (raiseEpoch_focusEntry ..) fun i => by
    rw [raiseEpoch_places]
    rfl

end Sys2Proof.Machine
end

section
/-!
SUPPORT. The moves of a command over what standings and the focus are computed from: a command leaves them, or is one ALE event,
or leaves an empty table (R73, R91, R98). A preparation of an event needs no condition here, since the recomputation reads nothing
of the standings, the list and the focus before it.
-/

namespace Sys2Proof.Machine

/-- The Alarm Engine and the plan store that gives it its class weights (R18). -/
structure WeightedAle where
  psc : Psc
  ale : Ale

/-- The Alarm Engine of a state and its plan store. -/
def State.weightedAle (s : State) : WeightedAle := { psc := s.psc, ale := s.ale }

theorem weightedAle_of {s t : State} (hp : t.psc = s.psc) (hm : t.mappedAle = s.mappedAle) :
    t.weightedAle = s.weightedAle := by
  have ha : t.ale = s.ale := congrArg MappedAle.ale hm
  rw [State.weightedAle, State.weightedAle, hp, ha]

/-! ### Moves -/

/-- A move of holds, counts, clock and plan status alone: weights, list and focus stand, and of the entries all but their holds.
What a move leaves carries over by itself, so a use names the rest alone. -/
structure QuietRating (x y : WeightedAle) : Prop where
  weight : y.psc.weight = x.psc.weight := by exact rfl
  list : y.ale.alarmList = x.ale.alarmList := by exact rfl
  focus : y.ale.focus = x.ale.focus := by exact rfl
  focusEntry : y.ale.focusEntry = x.ale.focusEntry := by exact rfl
  entry : ∀ i : EntryNo, sameButHold y.ale.places[i].entry x.ale.places[i].entry := by exact fun _ => rfl

theorem QuietRating.trans {x y z : WeightedAle} (h : QuietRating x y) (h' : QuietRating y z) : QuietRating x z :=
  { weight := h'.weight.trans h.weight
    list := h'.list.trans h.list
    focus := h'.focus.trans h.focus
    focusEntry := h'.focusEntry.trans h.focusEntry
    entry := fun i => (h'.entry i).trans (h.entry i) }

/-- Everything a command does to standings and focus: a quiet move, an ALE event, or an empty table. -/
inductive RatingMove (x y : WeightedAle) : Prop
  | quiet (h : QuietRating x y)
  | event (before z : Ale) (hale : y.ale = raiseEpoch before (recompute y.psc z))
  | empties (hfree : ∀ i : EntryNo, y.ale.places[i].entry = none) (hlist : y.ale.alarmList = [])
      (hfocus : y.ale.focus = none) (hentry : y.ale.focusEntry = none)

theorem RatingMove.of_eq {x y : WeightedAle} (h : y = x) : RatingMove x y := h ▸ .quiet {}

theorem RatingMove.after_quiet {x y z : WeightedAle} (h : QuietRating x y) (hm : RatingMove y z) : RatingMove x z := by
  cases hm with
  | quiet h' => exact .quiet (h.trans h')
  | event before w hale => exact .event before w hale
  | empties hfree hlist hfocus hentry => exact .empties hfree hlist hfocus hentry

theorem RatingMove.standingLaw {x y : WeightedAle} (h : RatingMove x y) (hx : StandingLaw x.psc x.ale) :
    StandingLaw y.psc y.ale := by
  cases h with
  | quiet h => exact hx.congr h.weight h.entry
  | event before z hale => rw [hale]; exact recomputed_standingLaw y.psc before z
  | empties hfree => exact standingLaw_of_free y.psc hfree

theorem RatingMove.focusLaw {x y : WeightedAle} (h : RatingMove x y) (hx : FocusLaw x.ale) : FocusLaw y.ale := by
  cases h with
  | quiet h => exact hx.congr h.list h.focus h.focusEntry h.entry
  | event before z hale => rw [hale]; exact recomputed_focusLaw y.psc before z
  | empties hfree hlist hfocus hentry => exact focusLaw_of_empty hlist hfocus hentry

/-- Steps 2 to 5 of an ALE event, whatever table its changes have left (R73). -/
theorem ratingMove_completeEvent (x : WeightedAle) (before : Ale) (news : EventNews) (u : State) :
    RatingMove x (completeEvent before news u).weightedAle :=
  .event before u.ale ((completeEvent_ale before news u).trans
    (congrArg (fun p => raiseEpoch before (recompute p u.ale)) (completeEvent_psc before news u).symm))

theorem ratingMove_event {f : State → State} {s t : State} (h : RatingMove s.weightedAle (f s).weightedAle)
    (ht : event f s = .next t) : RatingMove s.weightedAle t.weightedAle := by
  rw [event_next] at ht
  injection ht with ht
  subst ht
  split
  · exact h
  · exact .of_eq rfl

/-- An event whose effect leaves the plan store and the Alarm Engine. -/
theorem ratingMove_idle {f : State → State} {s t : State} (hp : (f s).psc = s.psc) (hm : (f s).mappedAle = s.mappedAle)
    (ht : event f s = .next t) : RatingMove s.weightedAle t.weightedAle :=
  ratingMove_event (.of_eq (weightedAle_of hp hm)) ht

/-- The completion of a command moves standings and focus as its body does. -/
theorem ratingMove_command {slot : Slot} {code : CommandCode} {body : InFlight → State → State × CommandOutcome} {s t : State}
    (hb : ∀ cmd, RatingMove s.weightedAle (body cmd s).1.weightedAle) (h : event (carryOut slot code body) s = .next t) :
    RatingMove s.weightedAle t.weightedAle := by
  refine ratingMove_event ?_ h
  rcases carryOut_cases slot code body s with ⟨cmd, -, -, hc⟩ | hc
  · rw [hc]
    exact hb cmd
  · rw [hc]
    exact .of_eq rfl

/-- A command whose body leaves the plan store and the Alarm Engine. -/
theorem ratingMove_idleCommand {slot : Slot} {code : CommandCode} {body : InFlight → State → State × CommandOutcome}
    {s t : State} (hp : ∀ cmd, (body cmd s).1.psc = s.psc) (hm : ∀ cmd, (body cmd s).1.mappedAle = s.mappedAle)
    (h : event (carryOut slot code body) s = .next t) : RatingMove s.weightedAle t.weightedAle :=
  ratingMove_command (fun cmd => .of_eq (weightedAle_of (hp cmd) (hm cmd))) h

/-- A plan that is Valid neither before nor after gives the built-in weights throughout (R18). -/
theorem weight_of_notValid {p q : Psc} (hp : p.valid = false) (hq : q.valid = false) : q.weight = p.weight := by
  funext cls
  rw [Psc.weight, Psc.weight, hp, hq]
  rfl

/-! ### Holds (R79 to R84) -/

theorem quietRating_endHolds (p : Psc) (released : Slot → Bool) (a : Ale) :
    QuietRating { psc := p, ale := a } { psc := p, ale := endHolds released a } :=
  { entry := (quietMove_endHolds (classes := Vector.replicate 8 .noClass) released fun _ h _ => h).entry }

theorem ratingMove_endHold (slot : Slot) (s : State) :
    RatingMove s.weightedAle ({ s with ale := endHold slot s.ale } : State).weightedAle :=
  .quiet (quietRating_endHolds s.psc (· == slot) s.ale)

theorem quietRating_setMap (classes : Vector SlotClass 8) (s : State) :
    QuietRating s.weightedAle (setMap classes s).weightedAle := by
  have hmapped : (setMap classes s).weightedAle =
      { psc := s.psc, ale := endHolds (fun slot => classes[slot] != .console) s.ale } := by
    rw [State.weightedAle, setMap_ale, setMap_psc]
  rw [hmapped]
  exact quietRating_endHolds s.psc _ s.ale

/-! ### Transfers (R79 to R82) -/

theorem ratingMove_lockedEntryRead (t : Transfer) (i : EntryNo) (off n : Nat) (s : State) :
    RatingMove s.weightedAle (lockedEntryRead t i off n s).state.weightedAle := by
  unfold lockedEntryRead
  split
  · exact .of_eq rfl
  · rename_i hclass
    split
    · exact .of_eq rfl
    · rename_i hentry
      split
      · exact .of_eq rfl
      · rename_i hfree
        obtain ⟨e, he⟩ := Option.ne_none_iff_exists'.1 (mt Option.isNone_iff_eq_none.2 hentry)
        exact .quiet { entry := (quietMove_startHold (not_not.1 hclass) he
          (heldByOther_eq_false.1 (Bool.eq_false_iff.2 hfree))).entry }

theorem ratingMove_ownerRead (t : Transfer) (p : BusPlace) (off n : Nat) (s : State) :
    RatingMove s.weightedAle (ownerRead t p off n s).state.weightedAle := by
  by_cases hp : ∃ i, p = .entry i
  · obtain ⟨i, rfl⟩ := hp
    unfold ownerRead plainEntryRead
    dsimp only
    split
    · exact ratingMove_lockedEntryRead t i off n s
    · split
      · exact .of_eq rfl
      · exact .of_eq rfl
  · exact .of_eq (weightedAle_of (ownerRead_psc t p off n s) (ownerRead_mappedAle (fun i hi => hp ⟨i, hi⟩) t off n s))

theorem ratingMove_busRead (t : Transfer) (s : State) : RatingMove s.weightedAle (busRead t s).weightedAle := by
  cases h : judge t false s with
  | none => rw [busRead_none h]; exact .of_eq rfl
  | some p => rw [busRead_some h]; exact ratingMove_ownerRead t p _ _ s

/-- An entry action that is taken is an ALE event, and one that is refused ends the writer's hold alone (R82). -/
theorem ratingMove_entryWrite (t : Transfer) (i : EntryNo) (off : Nat) (data : List Byte) (s : State) :
    RatingMove s.weightedAle (entryWrite t i off data s).state.weightedAle := by
  unfold entryWrite actionWrite
  split
  · exact .of_eq rfl
  · split
    · split
      · split
        · exact ratingMove_endHold t.slot s
        · exact ratingMove_completeEvent s.weightedAle s.ale noNews _
      · exact ratingMove_endHold t.slot s
    · exact .of_eq rfl

/-- Plan space is stored to while Loading alone, when the weights are the built-in ones (R2, R18). -/
theorem ratingMove_planSpaceStore (t : Transfer) (bank : Fin 32) (off : Nat) (data : List Byte) (s : State) :
    RatingMove s.weightedAle (planSpaceStore t bank off data s).state.weightedAle := by
  rcases planSpaceStore_cases t bank off data s with ⟨⟨hloading, -⟩, h⟩ | ⟨-, h⟩
  · have hvalid : s.psc.valid = false := valid_eq_false.2 (by rw [hloading]; decide)
    rw [h]
    exact .quiet { weight := weight_of_notValid hvalid hvalid }
  · rw [h]
    exact .of_eq rfl

theorem ratingMove_ownerWrite (t : Transfer) (p : BusPlace) (off : Nat) (data : List Byte) (s : State) :
    RatingMove s.weightedAle (ownerWrite t p off data s).state.weightedAle := by
  by_cases hentry : ∃ i, p = .entry i
  · obtain ⟨i, rfl⟩ := hentry
    exact ratingMove_entryWrite t i off data s
  · by_cases hplan : ∃ bank, p = .planSpace bank
    · obtain ⟨bank, rfl⟩ := hplan
      exact ratingMove_planSpaceStore t bank off data s
    · exact .of_eq (weightedAle_of (ownerWrite_psc (fun bank hb => hplan ⟨bank, hb⟩) t off data s)
        (ownerWrite_mappedAle (fun i hi => hentry ⟨i, hi⟩) t off data s))

theorem ratingMove_busWrite (t : Transfer) (data : List Byte) (s : State) :
    RatingMove s.weightedAle (busWrite t data s).weightedAle := by
  cases h : judge t true s with
  | none => rw [busWrite_none h]; exact .of_eq rfl
  | some p => rw [busWrite_some h]; exact ratingMove_ownerWrite t p _ _ s

/-! ### Reports (R55, R66 to R77) -/

/-- A report rolled up counts, and moves no entry (R77). -/
theorem quietRating_rollUp (p : Psc) (zone : Option Nat) (a : Ale) :
    QuietRating { psc := p, ale := a } { psc := p, ale := rollUp zone a } := by
  cases zone with
  | none => exact {}
  | some z => exact {}

theorem ratingMove_activateNew (before : Ale) (gap : Option PanelNo) (r : Report) (s : State) :
    RatingMove s.weightedAle (activateNew before gap r s).weightedAle := by
  unfold activateNew
  dsimp only
  split
  · exact ratingMove_completeEvent ..
  · split
    · exact ratingMove_completeEvent ..
    · refine .after_quiet (quietRating_rollUp s.psc (newEntryOf s.psc s.ale.clock r).zone s.ale) (.of_eq ?_)
      rw [State.weightedAle, handOn_psc, handOn_ale]

theorem ratingMove_processReport (before : Ale) (gap : Option PanelNo) (r : Report) (s : State) :
    RatingMove s.weightedAle (processReport before gap r s).weightedAle := by
  have hidle : RatingMove s.weightedAle (gapOnly gap s).weightedAle :=
    .of_eq (weightedAle_of (gapOnly_psc gap s) (gapOnly_mappedAle gap s))
  unfold processReport
  split
  · split
    · exact ratingMove_activateNew before gap r s
    · exact hidle
  · split
    · exact ratingMove_completeEvent ..
    · split
      · exact ratingMove_completeEvent ..
      · exact hidle

theorem ratingMove_takeReport (r : Report) (s : State) : RatingMove s.weightedAle (takeReport r s).weightedAle := by
  have hrecorded : ∀ (p : PanelNo) (sequence : Byte) (gap : Bool),
      QuietRating s.weightedAle ({ s with ale := recordPanel p sequence gap s.ale } : State).weightedAle := fun _ _ _ => {}
  unfold takeReport
  split
  · split
    · exact .of_eq rfl
    · exact ratingMove_processReport s.ale none r s
  · rename_i p sequence _
    split
    · exact .of_eq rfl
    · unfold panelReset
      dsimp only
      split
      · exact .quiet (hrecorded p sequence false)
      · exact ratingMove_completeEvent ..
    · exact (ratingMove_processReport ..).after_quiet (hrecorded p sequence _)
    · exact (ratingMove_processReport ..).after_quiet (hrecorded p sequence true)

/-! ### The plan's coming and going (R35 to R47, R85, R86) -/

/-- Begin Load and Erase Plan leave a plan that is not Valid, and so the built-in weights of one that was not (R18). -/
theorem quietRating_openedStore (erase : Bool) {s : State} (hs : s.psc.valid = false) :
    QuietRating s.weightedAle (openedStore erase s).weightedAle := by
  cases erase
  · exact { weight := weight_of_notValid hs rfl }
  · exact { weight := weight_of_notValid hs rfl }

/-- Begin Load and Erase Plan from a Valid plan are an ALE event (R46). -/
theorem ratingMove_openedState (erase : Bool) (s : State) :
    RatingMove s.weightedAle (openedState erase s).weightedAle := by
  unfold openedState
  split
  · exact ratingMove_completeEvent ..
  · rename_i hvalid
    exact .quiet (quietRating_openedStore erase (Bool.eq_false_iff.2 hvalid))

theorem ratingMove_openingBody (erase : Bool) (cmd : InFlight) (s : State) :
    RatingMove s.weightedAle (openingBody erase cmd s).1.weightedAle := by
  cases h : openingCheck s with
  | none =>
    rw [openingBody_accepted erase cmd h]
    exact ratingMove_openedState erase s
  | some r =>
    rw [openingBody_refused erase cmd h]
    exact .of_eq rfl

/-- A plan status that is not Valid leaves the weights of one that was not (R18). -/
theorem quietRating_setStatus {state : PlanState} {s : State} (hs : s.psc.state ≠ .valid) (hstate : state ≠ .valid)
    (origin : RunOrigin) (stage : Fin 8) (reason : PlanReason) (offset : Nat) (revision : Half) :
    QuietRating s.weightedAle (setStatus state origin stage reason offset revision s).weightedAle :=
  { weight := weight_of_notValid (valid_eq_false.2 hs) (valid_eq_false.2 hstate) }

theorem ratingMove_commitPlanBody (cmd : InFlight) (s : State) :
    RatingMove s.weightedAle (commitPlanBody cmd s).1.weightedAle := by
  unfold commitPlanBody
  split
  · rename_i h
    exact .quiet (quietRating_setStatus (by rw [h]; decide) (by decide) ..)
  · exact .of_eq rfl

theorem ratingMove_abortLoadBody (cmd : InFlight) (s : State) :
    RatingMove s.weightedAle (abortLoadBody cmd s).1.weightedAle := by
  unfold abortLoadBody
  split
  · rename_i h
    exact .quiet (quietRating_setStatus (by rw [h]; decide) (by decide) ..)
  · exact .of_eq rfl

/-- A stage of a run (R41 to R43): the plan becomes Valid by an ALE event, and otherwise it is Valid neither before nor after. -/
theorem ratingMove_completeStage {s : State} (hs : s.psc.state = .validating) :
    RatingMove s.weightedAle (completeStage s).weightedAle := by
  unfold completeStage
  split
  · rename_i f _
    have hinvalid := quietRating_setStatus (state := .invalid) (s := s) (by rw [hs]; decide) (by decide)
      s.psc.origin s.psc.stage f.reason f.offset s.psc.revision
    rcases endInvalid_cases f s with ⟨-, h⟩ | ⟨-, h⟩
    · rw [h]
      exact .quiet hinvalid
    · rw [h]
      refine .quiet (hinvalid.trans ?_)
      exact quietRating_setMap (loaderOnlyMap s.pbi.loaderSlot) { settle (setStatus ..) with rin.queue := [] }
  · rename_i zones _
    split
    · refine .event s.ale (planTaken zones s).ale ((becomeValid_ale zones s).trans ?_)
      rw [← becomeValid_psc]
      rfl
    · exact .quiet {}

theorem ratingMove_validationStage {s t : State} (h : execValidationStage s = .next t) :
    RatingMove s.weightedAle t.weightedAle := by
  refine ratingMove_event ?_ h
  split
  · rename_i hs
    exact ratingMove_completeStage hs
  · exact .of_eq rfl

/-! ### The rest of the commands -/

/-- An accepted Incident Clear empties the table, the list and the focus (R88, R99). -/
theorem ratingMove_clears {x y : WeightedAle} {a : Ale} (hale : y.ale = clearedAle a) : RatingMove x y := by
  obtain ⟨p, b⟩ := y
  subst hale
  exact .empties (fun i => by rw [clearedAle_place]) rfl rfl rfl

theorem ratingMove_incidentClearBody (cmd : InFlight) (s : State) :
    RatingMove s.weightedAle (incidentClearBody cmd s).1.weightedAle := by
  unfold incidentClearBody
  split
  · exact .of_eq rfl
  · exact ratingMove_clears ((requestNormal_ale ..).trans (clearComposition_ale ..))

/-- The events of power leave the table of power-on (R90, R99). -/
theorem ratingMove_powerOnAle (x : WeightedAle) (p : Psc) : RatingMove x { psc := p, ale := alePowerOn } := by
  obtain ⟨hplaces, -⟩ := alePowerOn_values
  exact .empties (fun i => by rw [hplaces]; rfl) rfl rfl rfl

theorem ratingMove_reportTake {s t : State} (h : execReportTake s = .next t) : RatingMove s.weightedAle t.weightedAle := by
  refine ratingMove_event ?_ h
  split
  · exact .of_eq rfl
  · split
    · exact .of_eq rfl
    · rename_i r rest _
      exact ratingMove_takeReport r { s with rin.queue := rest }

theorem ratingMove_holdExpiry {slot : Slot} {s t : State} (h : execHoldExpiry slot s = .next t) :
    RatingMove s.weightedAle t.weightedAle := by
  refine ratingMove_event ?_ h
  split
  · exact ratingMove_endHold slot s
  · exact .of_eq rfl

theorem ratingMove_walk {s t : State} (h : execWalkStep s = .next t) : RatingMove s.weightedAle t.weightedAle := by
  refine ratingMove_event ?_ h
  split
  · exact .of_eq rfl
  · split
    · exact .of_eq (weightedAle_of (walkStep_psc _ s) (walkStep_mappedAle _ s))
    · exact .of_eq rfl

theorem ratingMove_seal {s t : State} (h : execSeal s = .next t) : RatingMove s.weightedAle t.weightedAle := by
  refine ratingMove_event ?_ h
  split
  · exact .of_eq rfl
  · split
    · exact .of_eq (weightedAle_of (sealBrief_psc _ s) (sealBrief_mappedAle _ s))
    · exact .of_eq rfl

/-- Every command moves standings and focus in one of the ways of `RatingMove`. -/
theorem exec_ratingMove (c : Instr) {s t : State} (h : exec c s = .next t) : RatingMove s.weightedAle t.weightedAle := by
  cases c with
  | powerOn straps => cases h; exact ratingMove_powerOnAle ..
  | lossOfPower => cases h; exact ratingMove_powerOnAle ..
  | incidentClear slot => exact ratingMove_command (ratingMove_incidentClearBody · s) h
  | busReset => exact ratingMove_event (f := busResetState) (.quiet (quietRating_endHolds s.psc (fun _ => true) s.ale)) h
  | planSpaceWrite tr data => exact ratingMove_event (ratingMove_busWrite tr data s) h
  | registerWrite tr data => exact ratingMove_event (ratingMove_busWrite tr data s) h
  | commandSlotWrite tr data => exact ratingMove_event (ratingMove_busWrite tr data s) h
  | intakeWrite tr data => exact ratingMove_event (ratingMove_busWrite tr data s) h
  | contextSelectorWrite tr data => exact ratingMove_event (ratingMove_busWrite tr data s) h
  | acknowledge slot entry change => exact ratingMove_event (ratingMove_busWrite _ _ s) h
  | discount slot entry change => exact ratingMove_event (ratingMove_busWrite _ _ s) h
  | clearEntry slot entry change => exact ratingMove_event (ratingMove_busWrite _ _ s) h
  | planStatusRead tr => exact ratingMove_event (ratingMove_busRead tr s) h
  | lockedRead tr => exact ratingMove_event (ratingMove_busRead tr s) h
  | briefWindowRead tr => exact ratingMove_event (ratingMove_busRead tr s) h
  | beginLoad slot => exact ratingMove_command (body := openingBody false) (ratingMove_openingBody false · s) h
  | erasePlan slot => exact ratingMove_command (body := openingBody true) (ratingMove_openingBody true · s) h
  | commitPlan slot => exact ratingMove_command (ratingMove_commitPlanBody · s) h
  | abortLoad slot => exact ratingMove_command (ratingMove_abortLoadBody · s) h
  | assignCrew slot => exact ratingMove_idleCommand (assignCrewBody_psc · s) (assignCrewBody_mappedAle · s) h
  | moveCrew slot => exact ratingMove_idleCommand (moveCrewBody_psc · s) (moveCrewBody_mappedAle · s) h
  | withdrawCrew slot => exact ratingMove_idleCommand (withdrawCrewBody_psc · s) (withdrawCrewBody_mappedAle · s) h
  | setConsoleMask slot => exact ratingMove_idleCommand (setConsoleMaskBody_psc · s) (setConsoleMaskBody_mappedAle · s) h
  | takeConsoleNotice slot =>
    exact ratingMove_idleCommand (takeConsoleNoticeBody_psc · s) (takeConsoleNoticeBody_mappedAle · s) h
  | briefNow slot => exact ratingMove_idleCommand (briefNowBody_psc · s) (briefNowBody_mappedAle · s) h
  | unlatchLine slot => exact ratingMove_idleCommand (unlatchLineBody_psc · s) (unlatchLineBody_mappedAle · s) h
  | resetMark slot => exact ratingMove_idleCommand (resetMarkBody_psc · s) (resetMarkBody_mappedAle · s) h
  | requestBrief slot => exact ratingMove_idleCommand (requestBriefBody_psc slot · s) (requestBriefBody_mappedAle slot · s) h
  | takeNotice slot => exact ratingMove_idleCommand (takeNoticeBody_psc slot · s) (takeNoticeBody_mappedAle slot · s) h
  | setMask slot => exact ratingMove_idleCommand (setMaskBody_psc slot · s) (setMaskBody_mappedAle slot · s) h
  | markFloor slot => exact ratingMove_idleCommand (markFloorBody_psc slot · s) (markFloorBody_mappedAle slot · s) h
  | validationStage => exact ratingMove_validationStage h
  | reportTake => exact ratingMove_reportTake h
  | holdExpiry slot => exact ratingMove_holdExpiry h
  | incidentClockTick =>
    exact ratingMove_event (f := fun s => { s with ale.clock := saturatingSucc16 s.ale.clock }) (.quiet {}) h
  | lineScan levels =>
    exact ratingMove_idle (f := fun s => offerReports { s with lmn := scanLines s.psc levels s.lmn })
      (offerReports_psc _) (offerReports_mappedAle _) h
  | compositionStart => exact ratingMove_idle (startComposition_psc s) (startComposition_mappedAle s) h
  | walkStep => exact ratingMove_walk h
  -- SEAL, the one row left: its name is a keyword here.
  | _ => exact ratingMove_seal h

/-- A step moves standings and focus as its front command does; with nothing waiting the part idles. -/
theorem step_ratingMove {s t : State} (h : step s = .next t) : RatingMove s.weightedAle t.weightedAle := by
  unfold step at h
  split at h
  · cases h
    exact .of_eq rfl
  · rename_i c rest _
    exact exec_ratingMove c (s := { s with pending := rest }) h

end Sys2Proof.Machine
end

section
/-!
PROOFS. The rules of standings and focus: O9, O11 and O24 (R91, R93, R98).
-/

namespace Sys2Proof.Machine

/-! ### What every step keeps (R91, R98) -/

/-- Settles O9: a quiet move leaves all that the formula reads, an ALE event rates every entry afresh, and an empty table has no
entry. -/
theorem stepKeepsStandings : Obligations.StepKeepsStandings := by
  intro s t hs h
  exact (standingsTrue_iff t).2 ((step_ratingMove h).standingLaw ((standingsTrue_iff s).1 hs))

/-- Settles O11: a quiet move leaves the list with its entries' floors and the focus, an ALE event finds the focus afresh, and an
empty table has no eligible entry. -/
theorem stepKeepsFocus : Obligations.StepKeepsFocus := by
  intro s t hs h
  exact (focusTrue_iff t).2 ((step_ratingMove h).focusLaw ((focusTrue_iff s).1 hs))

/-! ### Corroboration (R93) -/

/-- Two times lie within a distance when neither is later than the other by more. -/
theorem timeGap_le_iff (a b : Half) (n : Nat) : timeGap a b ≤ n ↔ b.toNat ≤ a.toNat + n ∧ a.toNat ≤ b.toNat + n := by
  unfold timeGap; omega

/-- The conditions of R93 on an entry that corroborates another. -/
theorem corroborates_iff (e o : Entry) : corroborates e o = true ↔
    o.zone = e.zone ∧ o.category = .fire ∧ (o.phase = .active ∨ o.phase = .acknowledged ∨ o.phase = .restored) ∧
      o.firstAlarm.toNat ≤ e.firstAlarm.toNat + 90 ∧ e.firstAlarm.toNat ≤ o.firstAlarm.toNat + 90 := by
  simp only [corroborates, Bool.and_eq_true, beq_iff_eq, decide_eq_true_eq, graded_iff, timeGap_le_iff, and_assoc]

/-- Settles O24: the credit counts the entries that meet the conditions of R93, and each condition is symmetric between two graded
Fire entries of one zone. -/
theorem corroborationCountsNeighbours : Obligations.CorroborationCountsNeighbours := by
  refine ⟨fun entries i e => ?_, fun e f he hf hge hgf hz => ?_⟩
  · have hcredited : (e.category == .fire && e.zone.isSome) = true ↔ e.category = .fire ∧ e.zone ≠ none := by
      rw [Bool.and_eq_true, beq_iff_eq, Option.isSome_iff_ne_none]
    unfold corroboration
    refine if_congr hcredited (congrArg (20 * min 3 ·) ?_) rfl
    rw [List.countP_eq_length_filter]
    refine congrArg List.length (List.filter_congr fun o _ => ?_)
    rw [Bool.eq_iff_iff, Bool.and_eq_true, bne_iff_ne, corroborates_iff, decide_eq_true_iff]
  · rw [corroborates_iff, corroborates_iff, ← graded_iff, ← graded_iff]
    exact ⟨fun ⟨_, _, _, hfe, hef⟩ => ⟨hz, he, hge, hef, hfe⟩, fun ⟨_, _, _, hef, hfe⟩ => ⟨hz.symm, hf, hgf, hfe, hef⟩⟩

end Sys2Proof.Machine
end

section
/-!
SUPPORT. The contacts and the lifts one by one: what debouncing, unlatching and the judgement of a position make of each (R110
to R117).
-/

namespace Sys2Proof.Machine

/-! ### Debouncing (R109 to R111) -/

/-- A contact in use is an alarm contact or a supervisory one. -/
theorem ContactKind.used {k : ContactKind} (h : k ≠ .unused) : k = .alarmContact ∨ k = .supervisoryContact := by
  cases k with
  | unused => exact absurd rfl h
  | alarmContact => exact .inl rfl
  | supervisoryContact => exact .inr rfl

section
variable {c : Contact} {sample : Bool}

/-- The ways a sample agrees with the accepted state of a contact that is not latched. -/
theorem agrees_cases (hl : c.accepted ≠ .latchedActive) (h : c.accepted = .active ↔ sample = true) :
    (c.accepted = .normal ∧ sample = false) ∨ (c.accepted = .active ∧ sample = true) := by
  cases ha : c.accepted with
  | normal => exact .inl ⟨rfl, by simpa [ha] using h⟩
  | active => exact .inr ⟨rfl, h.1 ha⟩
  | latchedActive => exact absurd ha hl

/-- The ways a sample differs from the accepted state of a contact that is not latched. -/
theorem differs_cases (hl : c.accepted ≠ .latchedActive) (h : ¬(c.accepted = .active ↔ sample = true)) :
    (c.accepted = .normal ∧ sample = true) ∨ (c.accepted = .active ∧ sample = false) := by
  cases ha : c.accepted with
  | normal => exact .inl ⟨rfl, by simpa [ha] using h⟩
  | active => exact .inr ⟨rfl, by simpa [ha] using h⟩
  | latchedActive => exact absurd ha hl

theorem debounce_unused (hk : c.kind = .unused) : debounce sample c = c := if_pos hk

/-- A latched contact waits for Unlatch Line, whatever its samples (R110). -/
theorem debounce_latched (hk : c.kind ≠ .unused) (ha : c.accepted = .latchedActive) :
    debounce sample c = { c with count := 0 } := by
  simp [debounce, hk, ha]

/-- A sample that agrees with the accepted state starts the count again (R110). -/
theorem debounce_agrees (hk : c.kind ≠ .unused) (hl : c.accepted ≠ .latchedActive)
    (h : c.accepted = .active ↔ sample = true) : debounce sample c = { c with count := 0 } := by
  rcases agrees_cases hl h with ⟨ha, rfl⟩ | ⟨ha, rfl⟩ <;> simp [debounce, hk, ha]

/-- A differing sample before the third is counted (R110). -/
theorem debounce_counts (hk : c.kind ≠ .unused) (hl : c.accepted ≠ .latchedActive)
    (h : ¬(c.accepted = .active ↔ sample = true)) (hc : c.count ≠ 2) :
    debounce sample c = { c with count := c.count + 1 } := by
  rcases differs_cases hl h with ⟨ha, rfl⟩ | ⟨ha, rfl⟩ <;> simp [debounce, hk, ha, hc]

/-- The third sample away from Normal is accepted (R111). -/
theorem debounce_third_normal (hk : c.kind ≠ .unused) (ha : c.accepted = .normal) (hc : c.count = 2) :
    debounce true c = acceptActive c := by
  simp [debounce, hk, ha, hc]

/-- The third sample away from Active is accepted (R111). -/
theorem debounce_third_active (hk : c.kind ≠ .unused) (ha : c.accepted = .active) (hc : c.count = 2) :
    debounce false c = acceptNormal c := by
  simp [debounce, hk, ha, hc]

/-- What is pending after a sample is what the statements say of it (R111). -/
theorem debounce_pending (sample : Bool) (c : Contact) : (debounce sample c).pending = contactPending c sample := by
  by_cases hk : c.kind = .unused
  · simp [debounce_unused hk, contactPending, hk]
  by_cases hl : c.accepted = .latchedActive
  · simp [debounce_latched hk hl, contactPending, hl]
  by_cases hs : c.accepted = .active ↔ sample = true
  · rw [debounce_agrees hk hl hs]
    rcases agrees_cases hl hs with ⟨ha, rfl⟩ | ⟨ha, rfl⟩ <;> simp [contactPending, ha]
  by_cases hc : c.count = 2
  · rcases differs_cases hl hs with ⟨ha, rfl⟩ | ⟨ha, rfl⟩
    · rw [debounce_third_normal hk ha hc]
      rcases ContactKind.used hk with h | h <;> simp [acceptActive, contactPending, activationReport, h, ha, hc]
    · rw [debounce_third_active hk ha hc]
      rcases ContactKind.used hk with h | h <;> simp [acceptNormal, contactPending, clearingReport, h, ha, hc]
  · simp [debounce_counts hk hl hs hc, contactPending, hc]

end

/-- The record `y` is that of contact `x` after one more sample, but for its pending report (R110, R111). -/
def Debounced (sample : Bool) (x y : Contact) : Prop :=
  y.kind = x.kind ∧ y.tableCapture = x.tableCapture ∧
    (x.kind = .unused → y.accepted = x.accepted ∧ y.count = x.count ∧ y.capture = x.capture) ∧
    (x.kind ≠ .unused →
      (x.accepted = .latchedActive → y.accepted = .latchedActive ∧ y.count = 0 ∧ y.capture = x.capture) ∧
      (x.accepted ≠ .latchedActive → (x.accepted = .active ↔ sample = true) →
        y.accepted = x.accepted ∧ y.count = 0 ∧ y.capture = x.capture) ∧
      (x.accepted ≠ .latchedActive → ¬(x.accepted = .active ↔ sample = true) →
        (x.count ≠ 2 → y.accepted = x.accepted ∧ y.count.val = x.count.val + 1 ∧ y.capture = x.capture) ∧
        (x.count = 2 → y.count = 0 ∧
          (x.accepted = .normal →
            y.accepted = (if x.capture = .latched then .latchedActive else .active) ∧ y.capture = x.capture) ∧
          (x.accepted = .active → y.accepted = .normal ∧ y.capture = x.tableCapture))))

theorem debounced_debounce (sample : Bool) (x : Contact) : Debounced sample x (debounce sample x) := by
  by_cases hk : x.kind = .unused
  · rw [debounce_unused hk]
    exact ⟨rfl, rfl, fun _ => ⟨rfl, rfl, rfl⟩, fun h => absurd hk h⟩
  by_cases hl : x.accepted = .latchedActive
  · rw [debounce_latched hk hl]
    exact ⟨rfl, rfl, fun h => absurd h hk, fun _ => ⟨fun _ => ⟨hl, rfl, rfl⟩, fun h => absurd hl h, fun h => absurd hl h⟩⟩
  by_cases hs : x.accepted = .active ↔ sample = true
  · rw [debounce_agrees hk hl hs]
    exact ⟨rfl, rfl, fun h => absurd h hk, fun _ =>
      ⟨fun h => absurd h hl, fun _ _ => ⟨rfl, rfl, rfl⟩, fun _ h => absurd hs h⟩⟩
  by_cases hc : x.count = 2
  · rcases differs_cases hl hs with ⟨ha, rfl⟩ | ⟨ha, rfl⟩
    · rw [debounce_third_normal hk ha hc]
      exact ⟨rfl, rfl, fun h => absurd h hk, fun _ => ⟨fun h => absurd h hl, fun _ h => absurd h hs, fun _ _ =>
        ⟨fun h => absurd hc h, fun _ => ⟨rfl, fun _ => ⟨rfl, rfl⟩, fun h => absurd (ha.symm.trans h) nofun⟩⟩⟩⟩
    · rw [debounce_third_active hk ha hc]
      exact ⟨rfl, rfl, fun h => absurd h hk, fun _ => ⟨fun h => absurd h hl, fun _ h => absurd h hs, fun _ _ =>
        ⟨fun h => absurd hc h, fun _ => ⟨rfl, fun h => absurd (ha.symm.trans h) nofun, fun _ => ⟨rfl, rfl⟩⟩⟩⟩⟩
  · rw [debounce_counts hk hl hs hc]
    have hcount : (x.count + 1).val = x.count.val + 1 := by omega
    exact ⟨rfl, rfl, fun h => absurd h hk, fun _ => ⟨fun h => absurd h hl, fun _ h => absurd h hs, fun _ _ =>
      ⟨fun _ => ⟨rfl, hcount, rfl⟩, fun h => absurd h hc⟩⟩⟩

/-! ### Unlatching (R113) -/

theorem contactOf_eq_none {line : Byte} (h : line.toNat < 16 ∨ 31 < line.toNat) : contactOf line = none :=
  dif_neg (by omega)

theorem contactOf_eq_some {line : Byte} {k : Fin 16} (h : line.toNat = 16 + k.val) : contactOf line = some k := by
  rw [contactOf, dif_pos (by omega)]
  exact congrArg some (Fin.ext (by simp only; omega))

/-- A contact in use unlatched (R113). -/
theorem unlatched_eq (sample : Bool) {c : Contact} (hk : c.kind ≠ .unused) : unlatched sample c =
    if sample = true then { c with accepted := .active, capture := .follow, count := 0 }
    else { c with
      accepted := .normal, capture := c.tableCapture, count := 0
      pending := some (if c.kind = .alarmContact then .restore else .supervisoryClear) } := by
  unfold unlatched acceptNormal
  rcases ContactKind.used hk with h | h <;> rw [h] <;> rfl

section
variable {cmd : InFlight} {s : State}

theorem unlatchLineBody_noContact (h : contactOf (commandByte cmd 1) = none) :
    unlatchLineBody cmd s = (s, .refused .badLine) := by
  rw [unlatchLineBody, h]

variable {k : Fin 16}

theorem unlatchLineBody_unused (h : contactOf (commandByte cmd 1) = some k) (hk : s.lmn.contacts[k].kind = .unused) :
    unlatchLineBody cmd s = (s, .refused .badLine) := by
  rw [unlatchLineBody, h]
  exact if_pos hk

theorem unlatchLineBody_notLatched (h : contactOf (commandByte cmd 1) = some k) (hk : s.lmn.contacts[k].kind ≠ .unused)
    (ha : s.lmn.contacts[k].accepted ≠ .latchedActive) : unlatchLineBody cmd s = (s, .refused .wrongState) := by
  rw [unlatchLineBody, h]
  exact (if_neg hk).trans (if_pos ha)

theorem unlatchLineBody_latched {c : Contact} (h : contactOf (commandByte cmd 1) = some k)
    (hk : s.lmn.contacts[k].kind ≠ .unused) (ha : s.lmn.contacts[k].accepted = .latchedActive)
    (hc : c = unlatched s.lmn.samples[contactLine k] s.lmn.contacts[k]) : unlatchLineBody cmd s =
      ({ s with lmn := { s.lmn with contacts := s.lmn.contacts.set k c } },
        .done [commandByte cmd 1, Accepted.latchedActive.code, c.accepted.code, pendingCode c.pending]) := by
  subst hc
  rw [unlatchLineBody, h]
  refine (if_neg hk).trans ((if_neg (not_not.2 ha)).trans ?_)
  rw [ha]

/-- No outcome of the command moves the bus interface (R113). -/
theorem unlatchLineBody_pbi (cmd : InFlight) (s : State) : (unlatchLineBody cmd s).1.pbi = s.pbi := by
  cases h : contactOf (commandByte cmd 1) with
  | none => rw [unlatchLineBody_noContact h]
  | some k =>
    by_cases hk : s.lmn.contacts[k].kind = .unused
    · rw [unlatchLineBody_unused h hk]
    by_cases ha : s.lmn.contacts[k].accepted = .latchedActive
    · rw [unlatchLineBody_latched h hk ha rfl]
    · rw [unlatchLineBody_notLatched h hk ha]

end

/-! ### Gray lines (R106, R116) -/

/-- A bit of a word made of seven given bits. -/
theorem getLsbD_ofBits (f : Fin 7 → Bool) {i : Nat} (h : i < 7) : (BitVec.ofNat 7 (Nat.ofBits f)).getLsbD i = f ⟨i, h⟩ := by
  rw [BitVec.getLsbD_ofNat, Nat.testBit_ofBits_lt f i h, decide_eq_true h, Bool.true_and]

/-- The Gray bits of a lift are the samples of its first seven lines (R106). -/
theorem getLsbD_grayBits {samples : Vector Bool 32} {line i : Nat} (h : line + 7 < 32) (hi : i < 7) :
    (grayBits samples line).getLsbD i = samples[line + i] := by
  have hbits : grayBits samples line = BitVec.ofNat 7 (Nat.ofBits fun i : Fin 7 => samples[line + i.val]?.getD false) := by
    refine congrArg (BitVec.ofNat 7) ?_
    simp [List.range_succ, Nat.ofBits_succ, -getElem?_pos]
    omega
  rw [hbits, getLsbD_ofBits _ hi]
  simp [show line + i < 32 by omega]

/-- The decoded bit `n` places below the highest (R116). -/
def decodedBelow (g : BitVec 7) : Nat → Bool
  | 0 => g.getLsbD 6
  | n + 1 => decodedBelow g n ^^ g.getLsbD (5 - n)

theorem getLsbD_grayDecode (g : BitVec 7) {i : Nat} (h : i < 7) : (grayDecode g).getLsbD i = decodedBelow g (6 - i) := by
  have hbits : grayDecode g = BitVec.ofNat 7 (Nat.ofBits fun i : Fin 7 => decodedBelow g (6 - i.val)) := by
    refine congrArg (BitVec.ofNat 7) ?_
    simp [Nat.ofBits_succ, decodedBelow]
    omega
  rw [hbits, getLsbD_ofBits _ h]

/-- The highest decoded bit is its Gray line's (R116). -/
theorem getLsbD_grayDecode_six (g : BitVec 7) : (grayDecode g).getLsbD 6 = g.getLsbD 6 :=
  getLsbD_grayDecode g (by omega)

/-- A lower decoded bit is the XOR of the one above it and of its Gray line (R116). -/
theorem getLsbD_grayDecode_lower (g : BitVec 7) (i : Fin 6) :
    (grayDecode g).getLsbD i.val = ((grayDecode g).getLsbD (i.val + 1) ^^ g.getLsbD i.val) := by
  rw [getLsbD_grayDecode g (by omega), getLsbD_grayDecode g (by omega), show 6 - i.val = 6 - (i.val + 1) + 1 by omega,
    decodedBelow, show 5 - (6 - (i.val + 1)) = i.val by omega]

/-! ### The position of a lift (R115 to R117) -/

section
variable {floors c f : Nat} {v : BitVec 7} {l : Lift}

/-- A candidate outside the building moves nothing (R117). -/
theorem judgePosition_outside (h : v.toNat < l.base.toNat ∨ l.base.toNat + floors ≤ v.toNat) :
    judgePosition floors v l = { l with decoded := some v, implausible := true } :=
  if_pos (by omega)

/-- A lift whose floor is unknown shows a candidate in the building (R117). -/
theorem judgePosition_unknown (hc : v.toNat = l.base.toNat + c) (hf : c < floors) (hs : l.shown = none) :
    judgePosition floors v l = { l with decoded := some v, shown := some c, implausible := false, tracking := false } := by
  have hcandidate : ((v.toNat : Int) - l.base.toNat).toNat = c := by omega
  simp only [judgePosition, hcandidate, hs]
  exact if_neg (by omega)

/-- A lift whose floor is known shows a candidate within its max step, and steps towards one out of reach (R117). -/
theorem judgePosition_known (hc : v.toNat = l.base.toNat + c) (hf : c < floors) (hs : l.shown = some f) :
    judgePosition floors v l = if max c f - min c f ≤ l.maxStep.toNat then
      { l with decoded := some v, shown := some c, implausible := false, tracking := false }
    else { l with
      decoded := some v, shown := some (stepTowards f c l.maxStep.toNat), implausible := false, tracking := true } := by
  have hcandidate : ((v.toNat : Int) - l.base.toNat).toNat = c := by omega
  simp only [judgePosition, hcandidate, hs]
  exact if_neg (by omega)

end

/-- The shown floor follows a candidate out of reach further up by the max step (R117). -/
theorem stepTowards_up {f c step : Nat} (h : f + step < c) : stepTowards f c step = f + step := by
  rw [stepTowards, if_pos (by omega)]; omega

/-- The shown floor follows a candidate out of reach further down by the max step (R117). -/
theorem stepTowards_down {f c step : Nat} (h : c + step < f) : stepTowards f c step = f - step := by
  rw [stepTowards, if_neg (by omega)]; omega

/-- The lift `y` is `x` moved by the table of R117 for the decoded value `v`. -/
def Followed (floors : Nat) (v : BitVec 7) (x y : Lift) : Prop :=
  ((v.toNat < x.base.toNat ∨ x.base.toNat + floors ≤ v.toNat) →
    y.shown = x.shown ∧ y.implausible = true ∧ y.tracking = x.tracking) ∧
  ∀ c, v.toNat = x.base.toNat + c → c < floors → y.implausible = false ∧
    (x.shown = none → y.shown = some c ∧ y.tracking = false) ∧
    ∀ f, x.shown = some f →
      (c ≤ f + x.maxStep.toNat → f ≤ c + x.maxStep.toNat → y.shown = some c ∧ y.tracking = false) ∧
      (f + x.maxStep.toNat < c → y.shown = some (f + x.maxStep.toNat) ∧ y.tracking = true) ∧
      (c + x.maxStep.toNat < f → y.shown = some (f - x.maxStep.toNat) ∧ y.tracking = true)

theorem followed_judgePosition (floors : Nat) (v : BitVec 7) (l : Lift) : Followed floors v l (judgePosition floors v l) := by
  refine ⟨fun hout => ?_, fun c hc hfloors => ?_⟩
  · rw [judgePosition_outside hout]; exact ⟨rfl, rfl, rfl⟩
  cases hs : l.shown with
  | none => rw [judgePosition_unknown hc hfloors hs]; exact ⟨rfl, fun _ => ⟨rfl, rfl⟩, nofun⟩
  | some f =>
    rw [judgePosition_known hc hfloors hs]
    by_cases hnear : max c f - min c f ≤ l.maxStep.toNat
    · rw [if_pos hnear]
      refine ⟨rfl, nofun, fun g hg => ?_⟩
      cases hg
      exact ⟨fun _ _ => ⟨rfl, rfl⟩, fun h => absurd h (by omega), fun h => absurd h (by omega)⟩
    · rw [if_neg hnear]
      refine ⟨rfl, nofun, fun g hg => ?_⟩
      cases hg
      exact ⟨fun _ _ => absurd hnear (by omega), fun h => ⟨by rw [stepTowards_up h], rfl⟩,
        fun h => ⟨by rw [stepTowards_down h], rfl⟩⟩

/-- The judgement of a position leaves the plan's settings, the fault and the pending report (R117). -/
theorem judgePosition_frame (floors : Nat) (v : BitVec 7) (l : Lift) :
    judgePosition floors v l = { l with
      decoded := some v, shown := (judgePosition floors v l).shown, implausible := (judgePosition floors v l).implausible
      tracking := (judgePosition floors v l).tracking } := by
  unfold judgePosition
  simp only
  split
  · rfl
  · split
    · rfl
    · split
      · rfl
      · rfl

/-- A lift whose fault line is at rest: a fault that stood is gone, with Trouble Clear pending (R115). -/
def faultCleared (l : Lift) : Lift := if l.fault then { l with fault := false, pending := some .troubleClear } else l

theorem faultCleared_rest (l : Lift) : faultCleared l = { l with fault := false, pending := (faultCleared l).pending } := by
  unfold faultCleared
  split
  · rfl
  · rename_i h
    rw [Bool.not_eq_true] at h
    rw [← h]

section
variable {floors : Nat} {fault : Bool} {gray : BitVec 7} {l : Lift}

theorem examineLift_disabled (h : l.enabled = false) : examineLift floors fault gray l = l := by
  simp [examineLift, h]

theorem examineLift_fault (h : l.enabled = true) :
    examineLift floors true gray l = if l.fault then l else { l with fault := true, pending := some .trouble } := by
  simp [examineLift, h]

theorem examineLift_noFault (h : l.enabled = true) :
    examineLift floors false gray l = judgePosition floors (grayDecode gray) (faultCleared l) := by
  simp [examineLift, h, faultCleared]

/-- A fault line that is active leaves the position as it was (R115). -/
theorem examineLift_fault_position (h : l.enabled = true) :
    (examineLift floors true gray l).fault = true ∧ (examineLift floors true gray l).shown = l.shown ∧
      (examineLift floors true gray l).decoded = l.decoded ∧ (examineLift floors true gray l).implausible = l.implausible ∧
      (examineLift floors true gray l).tracking = l.tracking := by
  rw [examineLift_fault h]
  split
  · exact ⟨‹_›, rfl, rfl, rfl, rfl⟩
  · exact ⟨rfl, rfl, rfl, rfl, rfl⟩

/-- A fault line at rest lets the position follow the Gray lines (R115 to R117). -/
theorem examineLift_noFault_position (h : l.enabled = true) :
    (examineLift floors false gray l).fault = false ∧
      (examineLift floors false gray l).decoded = some (grayDecode gray) ∧
      Followed floors (grayDecode gray) l (examineLift floors false gray l) := by
  rw [examineLift_noFault h, faultCleared_rest]
  exact ⟨by rw [judgePosition_frame], by rw [judgePosition_frame], followed_judgePosition floors (grayDecode gray)
    { l with fault := false, pending := (faultCleared l).pending }⟩

/-- What is pending after the examination is what the statements say of it (R115). -/
theorem examineLift_pending : (examineLift floors fault gray l).pending = liftPending l fault := by
  cases he : l.enabled with
  | false => simp [examineLift_disabled he, liftPending, he]
  | true =>
    cases fault with
    | true => rw [examineLift_fault he]; cases hf : l.fault <;> simp [liftPending, he, hf]
    | false =>
      rw [examineLift_noFault he, judgePosition_frame]
      cases hf : l.fault <;> simp [faultCleared, liftPending, he, hf]

/-- No examination moves the settings of the line table (R114). -/
theorem examineLift_settings : (examineLift floors fault gray l).enabled = l.enabled ∧
    (examineLift floors fault gray l).base = l.base ∧ (examineLift floors fault gray l).maxStep = l.maxStep := by
  cases he : l.enabled with
  | false => rw [examineLift_disabled he]; exact ⟨he, rfl, rfl⟩
  | true =>
    cases fault with
    | true =>
      rw [examineLift_fault he]
      split <;> exact ⟨he, rfl, rfl⟩
    | false =>
      rw [examineLift_noFault he, judgePosition_frame, faultCleared_rest]
      exact ⟨he, rfl, rfl⟩

end

end Sys2Proof.Machine
end

section
/-!
SUPPORT. One scan as a whole: what its offers leave of the lines, and the state it comes to (R109, R112).
-/

namespace Sys2Proof.Machine

/-! ### What the offers leave (R54, R112) -/

/-- The state without its pending reports and its Intake Queue, all that an offer can move (R54). -/
def State.unreported (s : State) : State :=
  { s with
    rin := { queue := [] }
    lmn := { s.lmn with
      contacts := tabulate fun k => { s.lmn.contacts[k] with pending := none }
      lifts := tabulate fun k => { s.lmn.lifts[k] with pending := none } } }

theorem offerPending_unreported (r : Report) {clear : Lmn → Lmn} {s : State}
    (h : ({ s with lmn := clear s.lmn } : State).unreported = s.unreported) :
    (offerPending r clear s).unreported = s.unreported := by
  rcases offerPending_cases r clear s with ⟨-, hoffer⟩ | ⟨-, hoffer⟩
  · rw [hoffer]; exact h
  · rw [hoffer]

/-- A change made at every place hides that it was made at one already. -/
theorem tabulate_updateAt {α : Type} {n : Nat} (f : α → α) (h : ∀ x, f (f x) = f x) (v : Vector α n) (k : Fin n) :
    (tabulate fun j : Fin n => f (updateAt v k f)[j]) = tabulate fun j => f v[j] :=
  table_ext fun j => by
    simp only [Fin.getElem_fin, getElem_tabulate, getElem_updateAt]
    split
    · exact h _
    · rfl

theorem offerLift_unreported (s : State) (k : Fin 2) : (offerLift s k).unreported = s.unreported := by
  unfold offerLift
  split
  · rfl
  · have hlifts := tabulate_updateAt (fun r : Lift => { r with pending := none }) (fun _ => rfl) s.lmn.lifts k
    exact offerPending_unreported _
      (congrArg (fun v => { s.unreported with lmn := { s.unreported.lmn with lifts := v } }) hlifts)

theorem offerContact_unreported (s : State) (k : Fin 16) : (offerContact s k).unreported = s.unreported := by
  unfold offerContact
  split
  · rfl
  · have hcontacts := tabulate_updateAt (fun r : Contact => { r with pending := none }) (fun _ => rfl) s.lmn.contacts k
    exact offerPending_unreported _
      (congrArg (fun v => { s.unreported with lmn := { s.unreported.lmn with contacts := v } }) hcontacts)

theorem offerReports_unreported (s : State) : (offerReports s).unreported = s.unreported := by
  unfold offerReports
  rw [foldl_keeps State.unreported offerContact_unreported, foldl_keeps State.unreported offerLift_unreported]

section
variable {s u : State} (h : u.unreported = s.unreported)
include h

theorem frame_of_unreported : u = { s with rin := u.rin, lmn := u.lmn } :=
  congrArg (fun v => { v with rin := u.rin, lmn := u.lmn }) h

theorem samples_of_unreported : u.lmn.samples = s.lmn.samples := congrArg (·.lmn.samples) h

theorem contact_of_unreported (k : Fin 16) :
    u.lmn.contacts[k] = { s.lmn.contacts[k] with pending := u.lmn.contacts[k].pending } := by
  have hk := congrArg (fun v => { v.lmn.contacts[k] with pending := u.lmn.contacts[k].pending }) h
  simp only [State.unreported, Fin.getElem_fin, getElem_tabulate] at hk
  exact hk

theorem lift_of_unreported (k : Fin 2) :
    u.lmn.lifts[k] = { s.lmn.lifts[k] with pending := u.lmn.lifts[k].pending } := by
  have hk := congrArg (fun v => { v.lmn.lifts[k] with pending := u.lmn.lifts[k].pending }) h
  simp only [State.unreported, Fin.getElem_fin, getElem_tabulate] at hk
  exact hk

end

/-! ### The state a scan comes to (R109) -/

/-- The state after parts 1 to 3 of a scan, before its offers (R109). -/
def scannedState (levels : BitVec 32) (s : State) : State := { s with lmn := scanLines s.psc levels s.lmn }

section
variable {levels : BitVec 32} {s u : State} (hu : offerReports (scannedState levels s) = u)
include hu

theorem exec_lineScan (hp : s.power = true) : exec (.lineScan levels) s = .next (driveAttention u) := by
  have hline : exec (.lineScan levels) s = event (fun s => offerReports (scannedState levels s)) s := rfl
  rw [hline, event_powered_next hp, hu]

theorem scan_unreported : u.unreported = (scannedState levels s).unreported := hu ▸ offerReports_unreported _

/-- A scan leaves all but the Line Monitor and the Intake Queue (R109). -/
theorem scan_frame : u = { s with rin := u.rin, lmn := u.lmn } :=
  (frame_of_unreported (scan_unreported hu)).trans rfl

theorem scan_samples : u.lmn.samples = sampleLines s.psc levels := samples_of_unreported (scan_unreported hu)

/-- A sample is the line's level, turned over by an Inverted polarity (R106). -/
theorem scan_sample (n : Fin 32) :
    u.lmn.samples[n] = (levels.getLsbD n.val ^^ (s.psc.valid && lineInverted s.psc.planSpace n.val)) := by
  simp [scan_samples hu, sampleLines]

theorem scannedState_contact (k : Fin 16) : (scannedState levels s).lmn.contacts[k] =
    debounce u.lmn.samples[16 + k.val] s.lmn.contacts[k] := by
  simp [scannedState, scanLines, scan_samples hu, contactLine]

theorem scannedState_lift (k : Fin 2) : (scannedState levels s).lmn.lifts[k] =
    examineLift (headerFloors s.psc.planSpace) u.lmn.samples[8 * k.val + 7] (grayBits u.lmn.samples (8 * k.val))
      s.lmn.lifts[k] := by
  simp [scannedState, scanLines, scan_samples hu, liftLine, show 8 * k.val + 7 < 32 by omega]

/-- A contact after a scan is debounced, but for a report that the Intake Queue took (R54, R110). -/
theorem scan_contact (k : Fin 16) : u.lmn.contacts[k] =
    { debounce u.lmn.samples[16 + k.val] s.lmn.contacts[k] with pending := u.lmn.contacts[k].pending } := by
  have h := contact_of_unreported (scan_unreported hu) k
  rwa [scannedState_contact hu] at h

/-- A lift after a scan is examined, but for a report that the Intake Queue took (R54, R115). -/
theorem scan_lift (k : Fin 2) : u.lmn.lifts[k] =
    { examineLift (headerFloors s.psc.planSpace) u.lmn.samples[8 * k.val + 7] (grayBits u.lmn.samples (8 * k.val))
        s.lmn.lifts[k] with pending := u.lmn.lifts[k].pending } := by
  have h := lift_of_unreported (scan_unreported hu) k
  rwa [scannedState_lift hu] at h

end

end Sys2Proof.Machine
end

section
/-!
PROOFS. The statements about the Line Monitor and the lifts: O55, O56 and O57 (R54, R106, R109 to R117).
-/

namespace Sys2Proof.Machine

/-- Settles O55: the four outcomes of the command's body, the contact unlatched by its last sample. -/
theorem unlatchLineFollowsSample : Obligations.UnlatchLineFollowsSample := by
  intro s slot cmd hr
  obtain ⟨u, o, hbody⟩ : ∃ u o, unlatchLineBody cmd s = (u, o) := ⟨_, _, rfl⟩
  have hpbi : u.pbi = s.pbi := by rw [← unlatchLineBody_pbi cmd s, hbody]
  obtain ⟨t, hexec, hcompleted, hmap, -, -, -, hlmn, -, -, -, hframe⟩ :=
    exec_ready_blocks (row := .unlatchLine slot) rfl hr hbody hpbi
  refine ⟨t, hexec, hmap, fun hline => ?_, fun k hline => ⟨fun hunused => ?_, fun hused hstate => ?_, fun hused hlatched => ?_⟩⟩
  · cases hbody.symm.trans (unlatchLineBody_noContact (contactOf_eq_none hline))
    exact ⟨hframe, hcompleted⟩
  · cases hbody.symm.trans (unlatchLineBody_unused (contactOf_eq_some hline) hunused)
    exact ⟨hframe, hcompleted⟩
  · cases hbody.symm.trans (unlatchLineBody_notLatched (contactOf_eq_some hline) hused hstate)
    exact ⟨hframe, hcompleted⟩
  · cases hbody.symm.trans (unlatchLineBody_latched (contactOf_eq_some hline) hused hlatched rfl)
    have hcontact : t.lmn.contacts[k] = unlatched s.lmn.samples[contactLine k] s.lmn.contacts[k] := by
      rw [hlmn]; simp
    rw [hcontact]
    exact ⟨hframe, unlatched_eq _ hused, hcompleted⟩

/-- Settles O56: every contact is debounced, every pending report is that of its examination, and the offers of the scan give
the reports to the Intake Queue in order. -/
theorem lineScanDebounces : Obligations.LineScanDebounces := by
  intro s levels hp
  obtain ⟨hqueue, hleft, hlifts, hcontacts⟩ := offerReports_cases (scannedState levels s)
  obtain ⟨u, hu⟩ : ∃ u, offerReports (scannedState levels s) = u := ⟨_, rfl⟩
  rw [hu] at hqueue hleft hlifts hcontacts
  refine ⟨driveAttention u, exec_lineScan hu hp, ?_, fun n => scan_sample hu n, fun k => ⟨_, _, rfl, scan_contact hu k, ?_⟩,
    fun k => (scannedState levels s).lmn.lifts[k].pending, fun k => (scannedState levels s).lmn.contacts[k].pending,
    fun k => ?_, fun k => ?_, hqueue, hleft, hlifts, hcontacts⟩
  · rw [scan_frame hu]; rfl
  · exact debounced_debounce u.lmn.samples[16 + k.val] s.lmn.contacts[k]
  · exact (congrArg Lift.pending (scannedState_lift hu k)).trans examineLift_pending
  · exact (congrArg Contact.pending (scannedState_contact hu k)).trans (debounce_pending _ _)

/-- Settles O57: the examination of the lift, by its fault line and then by the branches of R117. -/
theorem liftFollowsItsLines : Obligations.LiftFollowsItsLines := by
  intro s levels k hp
  obtain ⟨u, hu⟩ : ∃ u, offerReports (scannedState levels s) = u := ⟨_, rfl⟩
  refine ⟨driveAttention u, s.lmn.lifts[k], _, exec_lineScan hu hp, rfl, scan_lift hu k, ?_⟩
  obtain ⟨henabled, hbase, hstep⟩ := examineLift_settings (floors := headerFloors s.psc.planSpace)
    (fault := u.lmn.samples[8 * k.val + 7]) (gray := grayBits u.lmn.samples (8 * k.val)) (l := s.lmn.lifts[k])
  rw [driveAttention_lmn]
  refine ⟨henabled, hbase, hstep, fun hoff => ?_, fun hon hfault => ?_, fun hon hfault => ?_⟩
  · rw [examineLift_disabled hoff]
  · rw [hfault]
    exact examineLift_fault_position hon
  · rw [hfault]
    obtain ⟨hclear, hdecoded, hfollowed⟩ := examineLift_noFault_position (floors := headerFloors s.psc.planSpace)
      (gray := grayBits u.lmn.samples (8 * k.val)) hon
    refine ⟨hclear, _, hdecoded, ?_, fun i => ?_, hfollowed⟩
    · rw [getLsbD_grayDecode_six, getLsbD_grayBits (by omega) (by omega)]
    · rw [getLsbD_grayDecode_lower, getLsbD_grayBits (by omega) (by omega)]

end Sys2Proof.Machine
end

section
/-!
SUPPORT. Queueing one notice (R131): the lowest level queued, an equation for each of the four cases, and the law of a queue that
every case keeps.
-/

namespace Sys2Proof.Machine

/-! ### The lowest level queued -/

theorem lowestLevel_append (l : List Notice) (n : Notice) : lowestLevel (l ++ [n]) = min (lowestLevel l) n.level := by
  simp [lowestLevel]

theorem le_lowestLevel_iff {l : List Notice} {x : Level} : x ≤ lowestLevel l ↔ ∀ m ∈ l, x ≤ m.level := by
  induction l using List.reverseRecOn with
  | nil => simpa [lowestLevel] using Fin.le_last x
  | append_singleton l n ih => simp [lowestLevel_append, ih, or_imp, forall_and]

/-- Some notice has the lowest level, when that is below the highest a level can be. -/
theorem exists_level_eq_lowest {l : List Notice} {x : Level} (h : lowestLevel l < x) :
    ∃ m ∈ l, m.level = lowestLevel l := by
  induction l using List.reverseRecOn with
  | nil => exact absurd h (not_lt.2 (Fin.le_last x))
  | append_singleton l n ih =>
    rw [lowestLevel_append] at h ⊢
    rcases min_choice (lowestLevel l) n.level with hmin | hmin
    · rw [hmin] at h ⊢
      obtain ⟨m, hm, hlevel⟩ := ih h
      exact ⟨m, List.mem_append_left _ hm, hlevel⟩
    · exact ⟨n, by simp, hmin.symm⟩

/-! ### The four cases (R131) -/

section
variable {capacity : Nat} {q : NoticeQueue} {n : Notice}

theorem enqueue_of_key (h : ∃ m ∈ q.notices, m.sameKey n = true) :
    enqueue capacity q n = { q with notices := q.notices.map fun m => if m.sameKey n then n else m } :=
  if_pos (List.any_eq_true.2 h)

theorem enqueue_of_new (h : ∀ m ∈ q.notices, m.sameKey n = false) :
    enqueue capacity q n =
      if q.notices.length < capacity then { q with notices := q.notices ++ [n] }
      else if lowestLevel q.notices < n.level then
        { q with notices := (q.notices.eraseP fun m => m.level == lowestLevel q.notices) ++ [n] }
      else { q with overrun := true } :=
  if_neg (by simpa using h)

theorem enqueue_of_room (h : ∀ m ∈ q.notices, m.sameKey n = false) (hroom : q.notices.length < capacity) :
    enqueue capacity q n = { q with notices := q.notices ++ [n] } := by
  rw [enqueue_of_new h, if_pos hroom]

theorem enqueue_of_higher (h : ∀ m ∈ q.notices, m.sameKey n = false) (hfull : capacity ≤ q.notices.length)
    (hlevel : lowestLevel q.notices < n.level) : enqueue capacity q n =
      { q with notices := (q.notices.eraseP fun m => m.level == lowestLevel q.notices) ++ [n] } := by
  rw [enqueue_of_new h, if_neg (not_lt.2 hfull), if_pos hlevel]

theorem enqueue_of_lost (h : ∀ m ∈ q.notices, m.sameKey n = false) (hfull : capacity ≤ q.notices.length)
    (hlevel : n.level ≤ lowestLevel q.notices) : enqueue capacity q n = { q with overrun := true } := by
  rw [enqueue_of_new h, if_neg (not_lt.2 hfull), if_neg (not_lt.2 hlevel)]

end

/-! ### One notice per key (R128) -/

theorem Notice.sameKey_eq_false_symm {m n : Notice} (h : m.sameKey n = false) : n.sameKey m = false :=
  Bool.eq_false_iff.2 fun h' => by simp [Notice.sameKey_symm h'] at h

/-- A notice whose key differs from another's differs from all that share that key. -/
theorem Notice.sameKey_eq_false_trans {l m n : Notice} (h : l.sameKey m = false) (h' : m.sameKey n = true) :
    l.sameKey n = false :=
  Bool.eq_false_iff.2 fun hl => by simp [Notice.sameKey_trans hl (Notice.sameKey_symm h')] at h

/-- Where no two notices share a key, `n` takes the place of the one notice that has its key, and every other stays. -/
theorem replaceKey_eq {pre post : List Notice} {m n : Notice}
    (hq : (pre ++ m :: post).Pairwise fun x y => x.sameKey y = false) (hkey : m.sameKey n = true) :
    ((pre ++ m :: post).map fun x => if x.sameKey n then n else x) = pre ++ n :: post := by
  obtain ⟨-, hpost, hpre⟩ := List.pairwise_append.1 hq
  have hstays : ∀ l : List Notice, (∀ x ∈ l, x.sameKey m = false) → (l.map fun x => if x.sameKey n then n else x) = l :=
    fun l hl => (List.map_congr_left fun x hx => by
      rw [Notice.sameKey_eq_false_trans (hl x hx) hkey]; rfl).trans (List.map_id l)
  rw [List.map_append, List.map_cons, if_pos hkey, hstays pre fun x hx => hpre x hx m (by simp),
    hstays post fun x hx => Notice.sameKey_eq_false_symm ((List.pairwise_cons.1 hpost).1 x hx)]

theorem replaceKey_pairwise {l : List Notice} (n : Notice) (h : l.Pairwise fun x y => x.sameKey y = false) :
    (l.map fun x => if x.sameKey n then n else x).Pairwise fun x y => x.sameKey y = false := by
  rw [List.pairwise_map]
  refine h.imp fun {x y} hxy => ?_
  by_cases hx : x.sameKey n = true
  · have hy : y.sameKey n = false := Notice.sameKey_eq_false_trans (Notice.sameKey_eq_false_symm hxy) hx
    rw [if_pos hx, hy]
    exact Notice.sameKey_eq_false_symm hy
  · rw [if_neg hx]
    split
    · exact Bool.eq_false_iff.2 hx
    · exact hxy

theorem append_pairwise {l : List Notice} {n : Notice} (h : l.Pairwise fun x y => x.sameKey y = false)
    (hnew : ∀ m ∈ l, m.sameKey n = false) : (l ++ [n]).Pairwise fun x y => x.sameKey y = false :=
  List.pairwise_append.2 ⟨h, List.pairwise_singleton _ n, fun m hm _ hx => List.mem_singleton.1 hx ▸ hnew m hm⟩

/-! ### The law of a queue (R131, R132) -/

theorem emptyQueue_sound (capacity : Nat) : emptyQueue.sound capacity :=
  ⟨Nat.zero_le _, .nil, fun h => by cases h⟩

/-- Queueing keeps the law of a queue, whichever case applies. -/
theorem enqueue_sound {capacity : Nat} (hcapacity : 0 < capacity) {q : NoticeQueue} (n : Notice) (h : q.sound capacity) :
    (enqueue capacity q n).sound capacity := by
  obtain ⟨hlength, hkeys, hoverrun⟩ := h
  rcases enqueue_cases capacity q n with ⟨-, he⟩ | ⟨hnew, ⟨hroom, he⟩ | ⟨-, hlevel, he⟩ | ⟨hfull, -, he⟩⟩ <;> rw [he]
  · exact ⟨by simpa using hlength, replaceKey_pairwise n hkeys, fun ho => by simpa using hoverrun ho⟩
  · exact ⟨by simpa using hroom, append_pairwise hkeys hnew, fun _ => by simp⟩
  · obtain ⟨m, hm, hlowest⟩ := exists_level_eq_lowest hlevel
    have hsub := List.eraseP_sublist (l := q.notices) (p := fun m => m.level == lowestLevel q.notices)
    have herased := List.length_eraseP_of_mem (p := fun m => m.level == lowestLevel q.notices) hm (by simpa using hlowest)
    have hpos := List.length_pos_of_mem hm
    refine ⟨?_, append_pairwise (hkeys.sublist hsub) fun x hx => hnew x (hsub.subset hx), fun _ => by simp⟩
    rw [List.length_append, herased, List.length_singleton]
    omega
  · exact ⟨hlength, hkeys, fun _ => List.length_pos_iff.1 (hcapacity.trans_le hfull)⟩

/-- Taking the head keeps the law of a queue (R132). -/
theorem takeHead_sound {capacity : Nat} {q left : NoticeQueue} {n : Notice} (ht : takeHead q = some (n, left))
    (h : q.sound capacity) : left.sound capacity := by
  rcases takeHead_cases q with ⟨-, hnone⟩ | ⟨m, rest, hq, hsome⟩
  · cases hnone.symm.trans ht
  · cases hsome.symm.trans ht
    obtain ⟨hlength, hkeys, -⟩ := h
    rw [hq] at hlength hkeys
    exact ⟨(Nat.le_succ _).trans hlength, (List.pairwise_cons.1 hkeys).2, fun ho => by simpa using (Bool.and_eq_true_iff.1 ho).2⟩

/-- The first notice of the lowest level goes, and the new one joins the tail (R131, case 3). -/
theorem eraseP_lowest {pre post : List Notice} {m : Notice} (hpre : ∀ x ∈ pre, m.level < x.level)
    (hpost : ∀ x ∈ post, m.level ≤ x.level) : lowestLevel (pre ++ m :: post) = m.level ∧
      ((pre ++ m :: post).eraseP fun x => x.level == m.level) = pre ++ post := by
  refine ⟨le_antisymm (le_lowestLevel_iff.1 le_rfl m (by simp)) (le_lowestLevel_iff.2 fun x hx => ?_), ?_⟩
  · rcases List.mem_append.1 hx with hx | hx
    · exact (hpre x hx).le
    · rcases List.mem_cons.1 hx with rfl | hx
      · exact le_rfl
      · exact hpost x hx
  · rw [List.eraseP_append_right _ fun x hx => by simpa using (hpre x hx).ne', List.eraseP_cons_of_pos (by simp)]

end Sys2Proof.Machine
end

section
/-!
PROOFS. The statement about queueing: O22 (R131).
-/

namespace Sys2Proof.Machine

/-- Settles O22: the equation of each case, read off a queue without two notices of one key. -/
theorem queueingFollowsFourCases : Obligations.QueueingFollowsFourCases := by
  refine ⟨rfl, rfl, fun capacity q n hcapacity hsound => ⟨enqueue_sound hcapacity n hsound, fun pre post m hq hkey => ?_,
    enqueue_of_room, fun pre post m hq hnew hfull hlevel hpre hpost => ?_, fun hnew hfull hlevel => ?_⟩⟩
  · obtain ⟨-, hkeys, -⟩ := hsound
    rw [hq] at hkeys
    rw [enqueue_of_key ⟨m, by simp [hq], hkey⟩, hq, replaceKey_eq hkeys hkey]
  · obtain ⟨hlowest, herased⟩ := eraseP_lowest hpre hpost
    rw [← hq] at hlowest
    rw [enqueue_of_higher hnew hfull.ge (hlowest ▸ hlevel), hlowest, hq, herased]
  · exact enqueue_of_lost hnew hfull.ge (le_lowestLevel_iff.2 hlevel)

end Sys2Proof.Machine
end

section
/-!
SUPPORT. Which operations keep the law of the notice queues (R131, R132), block by block.
-/

namespace Sys2Proof.Machine

/-- The law of the notice queues carries over from `s` to `t`. -/
def KeepsQueues (s t : State) : Prop := s.queuesSound → t.queuesSound

theorem KeepsQueues.refl (s : State) : KeepsQueues s s := id

theorem KeepsQueues.trans {s t u : State} (h : KeepsQueues s t) (h' : KeepsQueues t u) : KeepsQueues s u := h' ∘ h

/-- The law reads the contexts and the Console Queues alone. -/
theorem keepsQueues_of_crews {s t : State} (hc : t.cxm.contexts = s.cxm.contexts) (hq : t.cxm.consoles = s.cxm.consoles) :
    KeepsQueues s t := by
  unfold KeepsQueues State.queuesSound
  rw [hc, hq]
  exact id

theorem keepsQueues_of_cxm {s t : State} (h : t.cxm = s.cxm) : KeepsQueues s t := keepsQueues_of_crews (by rw [h]) (by rw [h])

/-- What an operation keeps, it keeps after changes that leave the contexts and the Console Queues. -/
theorem KeepsQueues.after {s u t : State} (h : KeepsQueues u t) (hu : u.cxm = s.cxm) : KeepsQueues s t :=
  (keepsQueues_of_cxm hu).trans h

/-! ### Events and completions -/

theorem keepsQueues_event {f : State → State} {s t : State} (h : KeepsQueues s (f s)) (ht : event f s = .next t) :
    KeepsQueues s t := by
  rw [event_next] at ht
  injection ht with ht
  subst ht
  split
  · exact h.trans (keepsQueues_of_cxm rfl)
  · exact .refl s

/-- A completion moves no queue but as the body of its command does. -/
theorem keepsQueues_command {slot : Slot} {code : CommandCode} {body : InFlight → State → State × CommandOutcome} {s t : State}
    (hb : ∀ cmd, KeepsQueues s (body cmd s).1) (h : event (carryOut slot code body) s = .next t) : KeepsQueues s t := by
  refine keepsQueues_event ?_ h
  rcases carryOut_cases slot code body s with ⟨cmd, -, -, hc⟩ | hc
  · rw [hc]
    exact (hb cmd).trans (keepsQueues_of_cxm rfl)
  · rw [hc]
    exact .refl s

/-! ### Contexts and Console Queues -/

/-- One context's record replaced by one whose queue is sound when the old one was. -/
theorem keepsQueues_setContext {c : CtxNo} {x : Context} {s : State}
    (h : s.cxm.contexts[c].queue.sound contextCapacity → x.queue.sound contextCapacity) :
    KeepsQueues s (setContext c x s) := fun ⟨hcontexts, hconsoles⟩ => by
  refine ⟨fun d => ?_, hconsoles⟩
  rw [setContext_context]
  split
  · exact h (hcontexts c)
  · exact hcontexts d

/-- One Console Queue changed, its queue sound when it was. -/
theorem keepsQueues_updateConsole {q : Fin 2} {f : ConsoleQueue → ConsoleQueue} {s : State}
    (h : s.cxm.consoles[q].queue.sound consoleCapacity → (f s.cxm.consoles[q]).queue.sound consoleCapacity) :
    KeepsQueues s { s with cxm.consoles := updateAt s.cxm.consoles q f } := fun ⟨hcontexts, hconsoles⟩ => by
  refine ⟨hcontexts, fun r => ?_⟩
  simp only [Fin.getElem_fin, getElem_updateAt]
  split
  · rename_i hr
    cases Fin.ext hr
    exact h (hconsoles q)
  · exact hconsoles r

/-- A notice offered is queued where it is delivered, and queueing keeps the law. -/
theorem keepsQueues_offer (n : Notice) (s : State) : KeepsQueues s (offer n s) := fun ⟨hcontexts, hconsoles⟩ => by
  refine ⟨fun c => ?_, fun q => ?_⟩
  · rw [offer_context]
    split
    · exact enqueue_sound (by decide) n (hcontexts c)
    · exact hcontexts c
  · rw [offer_console]
    split
    · exact enqueue_sound (by decide) n (hconsoles q)
    · exact hconsoles q

theorem keepsQueues_offerAll (ns : List Notice) (s : State) : KeepsQueues s (offerAll ns s) := by
  induction ns generalizing s with
  | nil => exact .refl s
  | cons n ns ih => exact (keepsQueues_offer n s).trans (ih _)

/-! ### Events of the Alarm Engine, and marks (R30, R73) -/

theorem keepsQueues_handOn (before : Ale) (news : EventNews) (s : State) : KeepsQueues s (handOn before news s) :=
  (keepsQueues_offerAll _ s).trans (keepsQueues_of_cxm (handOn_cxm before news s))

theorem keepsQueues_completeEvent (before : Ale) (news : EventNews) (s : State) :
    KeepsQueues s (completeEvent before news s) :=
  (keepsQueues_handOn before news _).after rfl

theorem keepsQueues_changeMark (f : Nat) (m : FloorMark) (carried : Option CtxNo) (s : State) :
    KeepsQueues s (changeMark f m carried s) :=
  (keepsQueues_offer (markNotice f m carried) s).trans
    (keepsQueues_of_crews (by rw [changeMark_cxm]) (by rw [changeMark_cxm]))

theorem keepsQueues_unmark (f : Nat) (s : State) : KeepsQueues s (unmark f s) := keepsQueues_changeMark f _ _ s

theorem keepsQueues_unmarkAll (fs : List Nat) (s : State) : KeepsQueues s (fs.foldl (fun s f => unmark f s) s) := by
  induction fs generalizing s with
  | nil => exact .refl s
  | cons f fs ih => exact (keepsQueues_unmark f s).trans (ih _)

/-! ### The plan's coming and going (R40, R43 to R47) -/

theorem keepsQueues_leaveValid (before : Ale) (s : State) : KeepsQueues s (leaveValid before s) := by
  refine (keepsQueues_completeEvent before noNews _).after ?_
  rw [abandon_cxm]
  exact setMap_cxm (loaderOnlyMap s.pbi.loaderSlot) s

theorem keepsQueues_openingBody (erase : Bool) (cmd : InFlight) (s : State) :
    KeepsQueues s (openingBody erase cmd s).1 := by
  have hstore : (openedStore erase s).cxm = s.cxm := by cases erase <;> rfl
  cases h : openingCheck s with
  | some r =>
    rw [openingBody_refused erase cmd h]
    exact .refl s
  | none =>
    rw [openingBody_accepted erase cmd h]
    unfold openedState
    split
    · exact (keepsQueues_of_cxm hstore).trans (keepsQueues_leaveValid s.ale _)
    · exact keepsQueues_of_cxm hstore

theorem commitPlanBody_cxm (cmd : InFlight) (s : State) : (commitPlanBody cmd s).1.cxm = s.cxm := by
  unfold commitPlanBody
  split <;> rfl

theorem abortLoadBody_cxm (cmd : InFlight) (s : State) : (abortLoadBody cmd s).1.cxm = s.cxm := by
  unfold abortLoadBody
  split <;> rfl

theorem keepsQueues_completeStage (s : State) : KeepsQueues s (completeStage s) := by
  unfold completeStage
  split
  · rename_i f _
    rcases endInvalid_cases f s with ⟨-, h⟩ | ⟨-, h⟩
    · rw [h]
      exact keepsQueues_of_cxm rfl
    · rw [h]
      exact keepsQueues_of_cxm (setMap_cxm _ _)
  · rename_i zones _
    split
    · have htaken : KeepsQueues s { planTaken zones s with ale := (becomeValid zones s).ale } :=
        keepsQueues_of_crews rfl rfl
      exact htaken.trans ((keepsQueues_offerAll _ _).trans (keepsQueues_of_cxm (becomeValid_cxm zones s)))
    · exact keepsQueues_of_cxm rfl

/-! ### Crews and their notices (R121 to R134, R140, R141) -/

theorem keepsQueues_assignCrewBody (cmd : InFlight) (s : State) : KeepsQueues s (assignCrewBody cmd s).1 := by
  unfold assignCrewBody
  dsimp only
  split
  · exact .refl s
  · refine .trans ?_ (keepsQueues_of_cxm (briefRequest_cxm _ _ _ _))
    exact keepsQueues_setContext (fun h => h)

theorem keepsQueues_moveCrewBody (cmd : InFlight) (s : State) : KeepsQueues s (moveCrewBody cmd s).1 := by
  unfold moveCrewBody
  dsimp only
  split
  · exact .refl s
  · refine .trans ?_ (keepsQueues_of_cxm (briefRequest_cxm _ _ _ _))
    exact keepsQueues_setContext (fun h => h)

/-- A context freed gives up its queue; the floors that it was searching are told of (R124). -/
theorem keepsQueues_release (c : CtxNo) (s : State) : KeepsQueues s (release c s) := by
  have hcomposer : (returnPublished c (dropFromComposer c s)).cxm = s.cxm := by rw [returnPublished_cxm, dropFromComposer_cxm]
  exact (keepsQueues_of_cxm hcomposer).trans ((keepsQueues_setContext fun _ => emptyQueue_sound contextCapacity).trans
    (keepsQueues_unmarkAll (searchingFloors s c) _))

theorem keepsQueues_withdrawCrewBody (cmd : InFlight) (s : State) : KeepsQueues s (withdrawCrewBody cmd s).1 := by
  unfold withdrawCrewBody
  split
  · exact .refl s
  · exact keepsQueues_release _ s

theorem keepsQueues_setConsoleMaskBody (cmd : InFlight) (s : State) : KeepsQueues s (setConsoleMaskBody cmd s).1 := by
  unfold setConsoleMaskBody
  dsimp only
  split
  · exact .refl s
  · exact keepsQueues_updateConsole (fun h => h)

theorem keepsQueues_takeConsoleNoticeBody (cmd : InFlight) (s : State) :
    KeepsQueues s (takeConsoleNoticeBody cmd s).1 := by
  unfold takeConsoleNoticeBody
  split
  · exact .refl s
  · split
    · exact .refl s
    · exact keepsQueues_updateConsole (takeHead_sound ‹_›)

theorem keepsQueues_takeNoticeBody (slot : Slot) (cmd : InFlight) (s : State) :
    KeepsQueues s (takeNoticeBody slot cmd s).1 := by
  unfold takeNoticeBody
  split
  · exact .refl s
  · split
    · exact .refl s
    · exact keepsQueues_setContext (takeHead_sound ‹_›)

theorem keepsQueues_setMaskBody (slot : Slot) (cmd : InFlight) (s : State) : KeepsQueues s (setMaskBody slot cmd s).1 := by
  unfold setMaskBody
  split
  · exact .refl s
  · exact keepsQueues_setContext (fun h => h)

theorem requestBriefBody_cxm (slot : Slot) (cmd : InFlight) (s : State) : (requestBriefBody slot cmd s).1.cxm = s.cxm := by
  unfold requestBriefBody
  split
  · rfl
  · split
    · exact briefRequest_cxm _ _ _ s
    · rfl

theorem briefNowBody_cxm (cmd : InFlight) (s : State) : (briefNowBody cmd s).1.cxm = s.cxm := by
  unfold briefNowBody
  split
  · rfl
  · exact briefRequest_cxm _ _ _ s

/-! ### Marks, lines and the incident -/

theorem keepsQueues_markFloorBody (slot : Slot) (cmd : InFlight) (s : State) :
    KeepsQueues s (markFloorBody slot cmd s).1 := by
  unfold markFloorBody
  split
  · exact .refl s
  · dsimp only
    split
    · exact .refl s
    · exact keepsQueues_changeMark _ _ _ s

theorem keepsQueues_resetMarkBody (cmd : InFlight) (s : State) : KeepsQueues s (resetMarkBody cmd s).1 := by
  unfold resetMarkBody
  split
  · exact .refl s
  · dsimp only
    split
    · exact .refl s
    · exact keepsQueues_unmark _ s

theorem unlatchLineBody_cxm (cmd : InFlight) (s : State) : (unlatchLineBody cmd s).1.cxm = s.cxm := by
  unfold unlatchLineBody
  split
  · rfl
  · dsimp only
    split
    · rfl
    · split <;> rfl

theorem keepsQueues_incidentClearBody (cmd : InFlight) (s : State) : KeepsQueues s (incidentClearBody cmd s).1 := by
  unfold incidentClearBody
  split
  · exact .refl s
  · refine keepsQueues_of_crews ?_ ?_
    · dsimp only
      rw [requestNormal_cxm, clearComposition_rest]
    · dsimp only
      rw [requestNormal_cxm, clearComposition_rest]

/-! ### Reports and scans (R55, R66 to R77, R109) -/

theorem keepsQueues_gapOnly (gap : Option PanelNo) (s : State) : KeepsQueues s (gapOnly gap s) := keepsQueues_offerAll _ s

theorem keepsQueues_activateNew (before : Ale) (gap : Option PanelNo) (r : Report) (s : State) :
    KeepsQueues s (activateNew before gap r s) := by
  unfold activateNew
  dsimp only
  split
  · exact (keepsQueues_completeEvent before _ _).after rfl
  · split
    · exact (keepsQueues_completeEvent before _ _).after rfl
    · exact (keepsQueues_handOn before _ _).after rfl

theorem keepsQueues_processReport (before : Ale) (gap : Option PanelNo) (r : Report) (s : State) :
    KeepsQueues s (processReport before gap r s) := by
  unfold processReport
  split
  · split
    · exact keepsQueues_activateNew before gap r s
    · exact keepsQueues_gapOnly gap s
  · split
    · exact (keepsQueues_completeEvent before _ _).after rfl
    · split
      · exact (keepsQueues_completeEvent before _ _).after rfl
      · exact keepsQueues_gapOnly gap s

theorem keepsQueues_panelReset (before : Ale) (p : PanelNo) (sequence : Byte) (s : State) :
    KeepsQueues s (panelReset before p sequence s) := by
  unfold panelReset
  dsimp only
  split
  · exact keepsQueues_of_cxm rfl
  · exact (keepsQueues_completeEvent before _ _).after rfl

theorem keepsQueues_takeReport (r : Report) (s : State) : KeepsQueues s (takeReport r s) := by
  unfold takeReport
  split
  · split
    · exact .refl s
    · exact keepsQueues_processReport _ _ r s
  · split
    · exact .refl s
    · exact keepsQueues_panelReset _ _ _ s
    · exact (keepsQueues_processReport _ _ r _).after rfl
    · exact (keepsQueues_processReport _ _ r _).after rfl

theorem offerReports_cxm (s : State) : (offerReports s).cxm = s.cxm := by
  rw [frame_of_unreported (offerReports_unreported s)]

/-! ### Compositions (R142 to R153) -/

theorem startComposition_cxm (s : State) : (startComposition s).cxm = s.cxm := by
  unfold startComposition
  split
  · split <;> rfl
  · rfl

theorem putItem_cxm (c : Composition) (bytes : List Byte) (sw : State × Walk) : (putItem c bytes sw).1.cxm = sw.1.cxm := by
  unfold putItem
  split <;> rfl

theorem putEntries_cxm (c : Composition) (floor : Nat) (es : List (EntryNo × Entry)) (sw : State × Walk) :
    (putEntries c floor es sw).1.cxm = sw.1.cxm := by
  unfold putEntries
  rw [foldl_keeps fun u : State × Walk => u.1.cxm]
  exact fun _ _ => putItem_cxm c _ _

/-- A step of a walk moves no context (R143). -/
theorem walkStep_cxm (c : Composition) (s : State) : (walkStep c s).cxm = s.cxm := by
  unfold walkStep
  dsimp only
  split
  · exact (setComposition_cxm _ _).trans (putItem_cxm c _ _)
  · split
    · rfl
    · exact (setComposition_cxm _ _).trans (putItem_cxm c _ _)
  · split
    · rfl
    · exact (setComposition_cxm _ _).trans ((putEntries_cxm c _ _ _).trans (putItem_cxm c _ _))
  · rfl
  · rfl

/-- The seal leaves the queue of the context whose brief it publishes (R153). -/
theorem keepsQueues_sealBrief (c : Composition) (s : State) : KeepsQueues s (sealBrief c s) := by
  unfold sealBrief
  extract_lets old epoch framed published _ returned
  have hpublished : KeepsQueues framed published := keepsQueues_setContext (fun h => h)
  have hreturned : returned.cxm = published.cxm := by
    dsimp only [returned]
    split <;> rfl
  exact (hpublished.after rfl).trans (keepsQueues_of_cxm hreturned)

/-! ### Transfers (R158 to R166) -/

theorem lockedEntryRead_cxm (t : Transfer) (i : EntryNo) (off n : Nat) (s : State) :
    (lockedEntryRead t i off n s).state.cxm = s.cxm := by
  unfold lockedEntryRead
  split
  · rfl
  · split
    · rfl
    · split <;> rfl

/-- A read of a brief moves nothing of a context but Fresh (R155). -/
theorem keepsQueues_briefRead (t : Transfer) (off n : Nat) (s : State) : KeepsQueues s (briefRead t off n s).state := by
  unfold briefRead
  split
  · exact .refl s
  · split
    · exact .refl s
    · dsimp only
      split
      · exact keepsQueues_setContext (fun h => h)
      · exact .refl s

/-- The owner of any place but the brief window moves no context at a read. -/
theorem ownerRead_cxm {p : BusPlace} (hp : p ≠ .briefWindow) (t : Transfer) (off n : Nat) (s : State) :
    (ownerRead t p off n s).state.cxm = s.cxm := by
  cases p with
  | briefWindow => exact absurd rfl hp
  | entry i =>
    simp only [ownerRead]
    split
    · exact lockedEntryRead_cxm t i off n s
    · unfold plainEntryRead
      split <;> rfl
  | planStatus => simp only [ownerRead, planStatusAnswer, readFrom]; split <;> rfl
  | contextRecord => simp only [ownerRead, contextWindowRead]; split <;> rfl
  | planSpace bank => simp only [ownerRead, planSpaceRead]; split <;> rfl
  | _ => rfl

theorem keepsQueues_busRead (t : Transfer) (s : State) : KeepsQueues s (busRead t s) := by
  cases h : judge t false s with
  | none => rw [busRead_none h]; exact keepsQueues_of_cxm rfl
  | some p =>
    rw [busRead_some h]
    by_cases hp : p = .briefWindow
    · subst hp
      exact (keepsQueues_briefRead t _ _ s).trans (keepsQueues_of_cxm rfl)
    · exact keepsQueues_of_cxm (ownerRead_cxm hp t _ _ s)

/-- A lock-end write is an ALE event when its action has a result, and moves the holds alone otherwise (R71, R82). -/
theorem keepsQueues_entryWrite (t : Transfer) (i : EntryNo) (off : Nat) (data : List Byte) (s : State) :
    KeepsQueues s (entryWrite t i off data s).state := by
  unfold entryWrite
  split
  · exact .refl s
  · split
    · split
      · unfold actionWrite
        split
        · exact keepsQueues_of_cxm rfl
        · exact (keepsQueues_completeEvent s.ale noNews _).after rfl
      · exact keepsQueues_of_cxm rfl
    · exact .refl s

/-- The owner of any place but an entry record moves no context at a write. -/
theorem ownerWrite_cxm {p : BusPlace} (hp : ∀ i, p ≠ .entry i) (t : Transfer) (off : Nat) (data : List Byte) (s : State) :
    (ownerWrite t p off data s).state.cxm = s.cxm := by
  cases p with
  | entry i => exact absurd rfl (hp i)
  | commandSlot k =>
    unfold ownerWrite commandAnswer
    dsimp only
    split
    · rfl
    · split <;> rfl
  | selector k =>
    unfold ownerWrite selectorWrite
    dsimp only
    split
    · rfl
    · split <;> rfl
  | intake =>
    unfold ownerWrite intakeAnswer
    dsimp only
    split <;> rfl
  | planSpace bank =>
    unfold ownerWrite planSpaceStore
    dsimp only
    split <;> rfl
  | _ => rfl

theorem keepsQueues_busWrite (t : Transfer) (data : List Byte) (s : State) : KeepsQueues s (busWrite t data s) := by
  cases h : judge t true s with
  | none => rw [busWrite_none h]; exact keepsQueues_of_cxm rfl
  | some p =>
    rw [busWrite_some h]
    by_cases hp : ∃ i, p = .entry i
    · obtain ⟨i, rfl⟩ := hp
      exact (keepsQueues_entryWrite t i _ _ s).trans (keepsQueues_of_cxm rfl)
    · exact keepsQueues_of_cxm (ownerWrite_cxm (fun i hi => hp ⟨i, hi⟩) t _ _ s)

/-! ### Power (R40, R44) -/

/-- After power-on, and while the power is off, every queue is empty (R119, R130). -/
theorem queuesSound_of_powerOn {s : State} (h : s.cxm = cxmPowerOn) : s.queuesSound := by
  obtain ⟨hcontexts, hconsoles, -⟩ := cxmPowerOn_values
  refine ⟨fun c => ?_, fun q => ?_⟩
  · rw [h, hcontexts c]
    exact emptyQueue_sound contextCapacity
  · rw [h, (hconsoles q).1]
    exact emptyQueue_sound consoleCapacity

end Sys2Proof.Machine
end

section
/-!
PROOFS. The law of the notice queues: O13 (R131, R132), command by command.
-/

namespace Sys2Proof.Machine

theorem keepsQueues_validationStage {s t : State} (h : execValidationStage s = .next t) : KeepsQueues s t := by
  refine keepsQueues_event ?_ h
  split
  · exact keepsQueues_completeStage s
  · exact .refl s

theorem keepsQueues_reportTake {s t : State} (h : execReportTake s = .next t) : KeepsQueues s t := by
  refine keepsQueues_event ?_ h
  split
  · exact .refl s
  · split
    · exact .refl s
    · exact (keepsQueues_takeReport _ _).after rfl

theorem keepsQueues_holdExpiry {slot : Slot} {s t : State} (h : execHoldExpiry slot s = .next t) : KeepsQueues s t := by
  refine keepsQueues_event ?_ h
  split
  · exact keepsQueues_of_cxm rfl
  · exact .refl s

theorem keepsQueues_lineScan {levels : BitVec 32} {s t : State} (h : execLineScan levels s = .next t) : KeepsQueues s t :=
  keepsQueues_event (f := fun s => offerReports (scannedState levels s)) (keepsQueues_of_cxm (offerReports_cxm (scannedState levels s))) h

theorem keepsQueues_walk {s t : State} (h : execWalkStep s = .next t) : KeepsQueues s t := by
  refine keepsQueues_event ?_ h
  split
  · exact .refl s
  · split
    · exact keepsQueues_of_cxm (walkStep_cxm _ s)
    · exact .refl s

theorem keepsQueues_seal {s t : State} (h : execSeal s = .next t) : KeepsQueues s t := by
  refine keepsQueues_event ?_ h
  split
  · exact .refl s
  · split
    · exact keepsQueues_sealBrief _ s
    · exact .refl s

/-- Every command keeps the law of the notice queues. -/
theorem exec_keepsQueues (c : Instr) {s t : State} (h : exec c s = .next t) : KeepsQueues s t := by
  cases c with
  | powerOn straps => cases h; exact fun _ => queuesSound_of_powerOn rfl
  | lossOfPower => cases h; exact fun _ => queuesSound_of_powerOn rfl
  | busReset => exact keepsQueues_event (f := busResetState) (keepsQueues_of_cxm rfl) h
  | planSpaceWrite tr data => exact keepsQueues_event (keepsQueues_busWrite tr data s) h
  | registerWrite tr data => exact keepsQueues_event (keepsQueues_busWrite tr data s) h
  | commandSlotWrite tr data => exact keepsQueues_event (keepsQueues_busWrite tr data s) h
  | intakeWrite tr data => exact keepsQueues_event (keepsQueues_busWrite tr data s) h
  | contextSelectorWrite tr data => exact keepsQueues_event (keepsQueues_busWrite tr data s) h
  | acknowledge slot entry change => exact keepsQueues_event (keepsQueues_busWrite _ _ s) h
  | discount slot entry change => exact keepsQueues_event (keepsQueues_busWrite _ _ s) h
  | clearEntry slot entry change => exact keepsQueues_event (keepsQueues_busWrite _ _ s) h
  | planStatusRead tr => exact keepsQueues_event (keepsQueues_busRead tr s) h
  | lockedRead tr => exact keepsQueues_event (keepsQueues_busRead tr s) h
  | briefWindowRead tr => exact keepsQueues_event (keepsQueues_busRead tr s) h
  | beginLoad slot => exact keepsQueues_command (body := openingBody false) (keepsQueues_openingBody false · s) h
  | erasePlan slot => exact keepsQueues_command (body := openingBody true) (keepsQueues_openingBody true · s) h
  | commitPlan slot => exact keepsQueues_command (fun cmd => keepsQueues_of_cxm (commitPlanBody_cxm cmd s)) h
  | abortLoad slot => exact keepsQueues_command (fun cmd => keepsQueues_of_cxm (abortLoadBody_cxm cmd s)) h
  | incidentClear slot => exact keepsQueues_command (keepsQueues_incidentClearBody · s) h
  | assignCrew slot => exact keepsQueues_command (keepsQueues_assignCrewBody · s) h
  | moveCrew slot => exact keepsQueues_command (keepsQueues_moveCrewBody · s) h
  | withdrawCrew slot => exact keepsQueues_command (keepsQueues_withdrawCrewBody · s) h
  | setConsoleMask slot => exact keepsQueues_command (keepsQueues_setConsoleMaskBody · s) h
  | takeConsoleNotice slot => exact keepsQueues_command (keepsQueues_takeConsoleNoticeBody · s) h
  | briefNow slot => exact keepsQueues_command (fun cmd => keepsQueues_of_cxm (briefNowBody_cxm cmd s)) h
  | unlatchLine slot => exact keepsQueues_command (fun cmd => keepsQueues_of_cxm (unlatchLineBody_cxm cmd s)) h
  | resetMark slot => exact keepsQueues_command (keepsQueues_resetMarkBody · s) h
  | requestBrief slot => exact keepsQueues_command (fun cmd => keepsQueues_of_cxm (requestBriefBody_cxm slot cmd s)) h
  | takeNotice slot => exact keepsQueues_command (keepsQueues_takeNoticeBody slot · s) h
  | setMask slot => exact keepsQueues_command (keepsQueues_setMaskBody slot · s) h
  | markFloor slot => exact keepsQueues_command (keepsQueues_markFloorBody slot · s) h
  | validationStage => exact keepsQueues_validationStage h
  | reportTake => exact keepsQueues_reportTake h
  | holdExpiry slot => exact keepsQueues_holdExpiry h
  | incidentClockTick =>
    exact keepsQueues_event (f := fun s => { s with ale.clock := saturatingSucc16 s.ale.clock }) (keepsQueues_of_cxm rfl) h
  | lineScan levels => exact keepsQueues_lineScan h
  | compositionStart => exact keepsQueues_event (keepsQueues_of_cxm (startComposition_cxm s)) h
  | walkStep => exact keepsQueues_walk h
  -- SEAL, the one row left: its name is a keyword here.
  | _ => exact keepsQueues_seal h

/-- Settles O13: every queue is changed by queueing a notice, by a take of its head or by the Free values of its context alone, and
each of these keeps the law. -/
theorem stepKeepsQueues : Obligations.StepKeepsQueues := by
  intro s t hs h
  unfold step at h
  split at h
  · cases h
    exact hs
  · rename_i c rest _
    exact exec_keepsQueues c (s := { s with pending := rest }) h hs

end Sys2Proof.Machine
end

section
/-!
SUPPORT. How a command that moves the contexts and the Console Queues alone ends, and the takes of a notice in particular (R126,
R130, R132 to R134).
-/

namespace Sys2Proof.Machine

/-- A command in flight whose body moves the CXM alone ends with the CXM as the body leaves it, and nothing else moved but the
command's own result. -/
theorem exec_ready_cxm {row : Instr} {slot : Slot} {code : CommandCode} {cmd : InFlight} {s : State} {x : Cxm}
    {o : CommandOutcome} {body : InFlight → State → State × CommandOutcome}
    (hrow : exec row s = event (carryOut slot code body) s) (hr : Ready s slot code cmd)
    (hb : body cmd s = ({ s with cxm := x }, o)) :
    ∃ t, exec row s = .next t ∧ Completed s t slot cmd o ∧ SameMap s t ∧ t.cxm = x ∧
      t = { s with cxm := t.cxm, pbi := t.pbi } := by
  obtain ⟨t, ht, hc, hm, -, -, -, -, hx, -, -, hrest⟩ := exec_ready_blocks hrow hr hb rfl
  dsimp only at hx hrest
  exact ⟨t, ht, hc, hm, hx, by rw [hx]; exact hrest⟩

/-- Overrun is kept while the queue holds notices (R132). -/
theorem takeHead_cons {q : NoticeQueue} {n : Notice} {rest : List Notice} (h : q.notices = n :: rest) :
    takeHead q = some (n, { notices := rest, overrun := if rest = [] then false else q.overrun }) := by
  unfold takeHead
  rw [h]
  cases rest <;> simp

theorem takeHead_nil {q : NoticeQueue} (h : q.notices = []) : takeHead q = none := by
  unfold takeHead
  rw [h]

/-- A take from the queue `q`, which `put` puts back: an empty queue is refused, and any other gives its head, the number left and
the Overrun held before (R133, R134). -/
theorem exec_take {row : Instr} {slot : Slot} {code : CommandCode} {cmd : InFlight} {s : State}
    {body : InFlight → State → State × CommandOutcome} (q : NoticeQueue) (put : NoticeQueue → Cxm)
    (hrow : exec row s = event (carryOut slot code body) s) (hr : Ready s slot code cmd)
    (hempty : takeHead q = none → body cmd s = (s, .refused .queueEmpty))
    (htake : ∀ n left, takeHead q = some (n, left) →
      body cmd s = ({ s with cxm := put left }, .done (takenBytes n q left))) :
    ∃ t, exec row s = .next t ∧ SameMap s t ∧ t = { s with cxm := t.cxm, pbi := t.pbi } ∧
      (q.notices = [] → t.cxm = s.cxm ∧ Completed s t slot cmd (.refused .queueEmpty)) ∧
      ∀ n rest, q.notices = n :: rest →
        t.cxm = put { notices := rest, overrun := if rest = [] then false else q.overrun } ∧
          Completed s t slot cmd (.done (noticeBytes n ++ [byteOf rest.length, flagByte q.overrun])) := by
  cases hq : q.notices with
  | nil =>
    obtain ⟨t, ht, hc, hm, hx, hrest⟩ := exec_ready_cxm (x := s.cxm) hrow hr (hempty (takeHead_nil hq))
    exact ⟨t, ht, hm, hrest, fun _ => ⟨hx, hc⟩, fun _ _ h => (by cases h)⟩
  | cons n rest =>
    obtain ⟨t, ht, hc, hm, hx, hrest⟩ := exec_ready_cxm hrow hr (htake _ _ (takeHead_cons hq))
    refine ⟨t, ht, hm, hrest, fun h => (by cases h), fun m tail h => ?_⟩
    cases h
    exact ⟨hx, hc⟩

/-- A mask clamped to 7 and then to a level is clamped to that level (R126). -/
theorem min_clampLevel_val (b : Byte) (ceiling : Level) : (min (clampLevel b) ceiling).val = min b.toNat ceiling.val := by
  have hmin : (min (clampLevel b) ceiling).val = min (clampLevel b).val ceiling.val := rfl
  have hclamp : (clampLevel b).val = min b.toNat 7 := rfl
  have hceiling := ceiling.isLt
  omega

/-! ### The bodies past their checks -/

section
variable {slot : Slot} {cmd : InFlight} {s : State} {c : CtxNo}

theorem setMaskBody_ok (h : gatewayContext slot cmd s = .ok c) : setMaskBody slot cmd s =
    ({ s with cxm.contexts := s.cxm.contexts.set c { s.cxm.contexts[c] with
        mask := min (clampLevel (commandByte cmd 1)) s.cxm.contexts[c].ceiling } },
      .done [byteOf (min (clampLevel (commandByte cmd 1)) s.cxm.contexts[c].ceiling).val]) := by
  unfold setMaskBody
  rw [h]
  rfl

theorem setMaskBody_refused {r : CommandReason} (h : gatewayContext slot cmd s = .error r) :
    setMaskBody slot cmd s = (s, .refused r) := by
  unfold setMaskBody
  rw [h]

theorem setConsoleMaskBody_eq {q : Fin 2} (h : cmd.console = some q) : setConsoleMaskBody cmd s =
    ({ s with cxm.consoles := s.cxm.consoles.set q { s.cxm.consoles[q] with mask := clampLevel (commandByte cmd 1) } },
      .done [byteOf (clampLevel (commandByte cmd 1)).val]) := by
  unfold setConsoleMaskBody
  rw [h]
  rfl

theorem takeNoticeBody_empty (h : gatewayContext slot cmd s = .ok c) (hq : takeHead s.cxm.contexts[c].queue = none) :
    takeNoticeBody slot cmd s = (s, .refused .queueEmpty) := by
  unfold takeNoticeBody
  simp only [h, hq]

theorem takeNoticeBody_takes (h : gatewayContext slot cmd s = .ok c) {n : Notice} {left : NoticeQueue}
    (hq : takeHead s.cxm.contexts[c].queue = some (n, left)) : takeNoticeBody slot cmd s =
      ({ s with cxm.contexts := s.cxm.contexts.set c { s.cxm.contexts[c] with queue := left } },
        .done (takenBytes n s.cxm.contexts[c].queue left)) := by
  unfold takeNoticeBody
  simp only [h, hq]
  rfl

theorem takeNoticeBody_refused {r : CommandReason} (h : gatewayContext slot cmd s = .error r) :
    takeNoticeBody slot cmd s = (s, .refused r) := by
  unfold takeNoticeBody
  rw [h]

theorem takeConsoleNoticeBody_empty {q : Fin 2} (h : cmd.console = some q)
    (hq : takeHead s.cxm.consoles[q].queue = none) : takeConsoleNoticeBody cmd s = (s, .refused .queueEmpty) := by
  unfold takeConsoleNoticeBody
  simp only [h, hq]

theorem takeConsoleNoticeBody_takes {q : Fin 2} (h : cmd.console = some q) {n : Notice} {left : NoticeQueue}
    (hq : takeHead s.cxm.consoles[q].queue = some (n, left)) : takeConsoleNoticeBody cmd s =
      ({ s with cxm.consoles := s.cxm.consoles.set q { s.cxm.consoles[q] with queue := left } },
        .done (takenBytes n s.cxm.consoles[q].queue left)) := by
  unfold takeConsoleNoticeBody
  simp only [h, hq]
  rfl

end

end Sys2Proof.Machine
end

section
/-!
PROOFS. The statements about masks and takes: O49 (R120, R126, R130) and O50 (R120, R132 to R134).
-/

namespace Sys2Proof.Machine

/-- Settles O49: each command sets the one mask, clamped, and Set Mask is refused by the checks of every Gateway command. -/
theorem masksAreSet : Obligations.MasksAreSet := by
  refine ⟨fun s slot cmd c hr hsel hassigned howner => ?_, fun s slot cmd q hr hconsole => ?_, fun s slot cmd reason hr h => ?_⟩
  · have hg : gatewayContext slot cmd s = .ok c := gatewayContext_ok.2 ⟨hsel, hassigned, howner⟩
    obtain ⟨t, ht, hc, hm, hx, hrest⟩ := exec_ready_cxm (row := .setMask slot) rfl hr (setMaskBody_ok hg)
    have hmask : t.cxm.contexts[c].mask = min (clampLevel (commandByte cmd 1)) s.cxm.contexts[c].ceiling := by
      rw [hx]; simp
    exact ⟨t, ht, by rw [hmask, min_clampLevel_val], by rw [hmask, hx], hmask ▸ hc, hm, hrest⟩
  · obtain ⟨t, ht, hc, hm, hx, hrest⟩ := exec_ready_cxm (row := .setConsoleMask slot) rfl hr (setConsoleMaskBody_eq hconsole)
    have hmask : t.cxm.consoles[q].mask = clampLevel (commandByte cmd 1) := by
      rw [hx]; simp
    exact ⟨t, ht, by rw [hmask]; rfl, by rw [hmask, hx], hmask ▸ hc, hm, hrest⟩
  · exact refused_of_body rfl hr (setMaskBody_refused (gatewayContext_error h))

/-- Settles O50: both takes take from one queue and put back what is left of it. -/
theorem takesRemoveTheHead : Obligations.TakesRemoveTheHead := by
  refine ⟨fun s slot cmd c hr hsel hassigned howner => ?_, fun s slot cmd reason hr h => ?_, fun s slot cmd q hr hconsole => ?_⟩
  · have hg : gatewayContext slot cmd s = .ok c := gatewayContext_ok.2 ⟨hsel, hassigned, howner⟩
    exact exec_take s.cxm.contexts[c].queue _ rfl hr (takeNoticeBody_empty hg) fun _ _ => takeNoticeBody_takes hg
  · exact refused_of_body rfl hr (takeNoticeBody_refused (gatewayContext_error h))
  · exact exec_take s.cxm.consoles[q].queue _ rfl hr (takeConsoleNoticeBody_empty hconsole)
      fun _ _ => takeConsoleNoticeBody_takes hconsole

end Sys2Proof.Machine
end

section
/-!
SUPPORT. The checks of the crew commands: what each field of the record names, and the first check that fails (R121, R123, R124).
-/

namespace Sys2Proof.Machine

/-! ### Fields of the record -/

section
variable {cmd : InFlight} {s : State}

theorem commandContext_eq {c : CtxNo} (h : (commandByte cmd 1).toNat = c.val) : commandContext cmd = some c := by
  unfold commandContext
  rw [dif_pos (h ▸ c.isLt)]
  exact congrArg some (Fin.ext h)

theorem commandContext_eq_none (h : ¬(commandByte cmd 1).toNat ≤ 31) : commandContext cmd = none :=
  dif_neg (by omega)

theorem exists_commandContext (h : (commandByte cmd 1).toNat ≤ 31) :
    ∃ c : CtxNo, (commandByte cmd 1).toNat = c.val ∧ commandContext cmd = some c :=
  ⟨⟨_, Nat.lt_succ_of_le h⟩, rfl, commandContext_eq rfl⟩

theorem gatewaySlot_eq_some {b : Byte} {owner : Slot} :
    gatewaySlot s b = some owner ↔ b.toNat = owner.val ∧ s.pbi.classes[owner] = .gateway := by
  unfold gatewaySlot
  constructor
  · intro h
    split at h
    · split at h
      · cases h
        exact ⟨rfl, ‹_›⟩
      · cases h
    · cases h
  · rintro ⟨hb, hclass⟩
    have hlt : b.toNat < 8 := hb ▸ owner.isLt
    obtain rfl : (⟨b.toNat, hlt⟩ : Slot) = owner := Fin.ext hb
    rw [dif_pos hlt]
    exact if_pos hclass

theorem ofByte_modeCode (mode : Mode) : Mode.ofByte mode.code = some mode := by
  cases mode <;> rfl

theorem modeOfByte_eq_some {b : Byte} {mode : Mode} : Mode.ofByte b = some mode ↔ b = mode.code := by
  refine ⟨fun h => ?_, fun h => h ▸ ofByte_modeCode mode⟩
  unfold Mode.ofByte at h
  split at h
  · cases h
    assumption
  · split at h
    · cases h
      assumption
    · cases h

theorem commandCrewLabel_getElem (cmd : InFlight) (k : Fin 4) : (commandCrewLabel cmd)[k] = cmd.record[2 + k.val] := by
  match k with
  | 0 | 1 | 2 | 3 => rfl

theorem crewLabel_isText : ((commandCrewLabel cmd).toList.all fun b => isTextByte b.toNat) = true ↔
    ∀ k : Fin 4, isTextByte (cmd.record[2 + k.val]).toNat = true := by
  rw [List.all_eq_true]
  simp only [← commandCrewLabel_getElem]
  constructor
  · exact fun h k => h _ (by simp)
  · intro h b hb
    obtain ⟨k, hk, rfl⟩ := List.getElem_of_mem hb
    have hk' : k < 4 := by simpa using hk
    simpa using h ⟨k, hk'⟩

/-- A label under a Valid plan that names no floor is unknown (R21). -/
theorem floorOfLabel_unknown {k : Fin 13} (hv : s.psc.valid = true) (h : ¬labelKnown s cmd k) :
    floorOfLabel s (commandLabel cmd k) = .error .unknownLabel :=
  floorOfLabel_error (Or.inr ⟨hv, firstFails_singleton.2 ⟨h, rfl⟩⟩)

theorem floorOfLabel_noPlan {k : Fin 13} (hv : ¬s.psc.valid = true) :
    floorOfLabel s (commandLabel cmd k) = .error .noPlan := floorOfLabel_error (Or.inl ⟨hv, rfl⟩)

/-! ### A context by its number (R124) -/

theorem assignedByNumber_ok {c : CtxNo} (h : (commandByte cmd 1).toNat = c.val) (ha : s.cxm.contexts[c].assigned = true) :
    assignedByNumber cmd s = .ok c := by
  unfold assignedByNumber
  rw [commandContext_eq h]
  exact if_pos ha

/-- The number of a context that is not Assigned, where one is asked for. -/
theorem exists_free_of_not (h : ¬∀ c : CtxNo, (commandByte cmd 1).toNat = c.val → s.cxm.contexts[c].assigned = true) :
    ∃ c : CtxNo, commandContext cmd = some c ∧ s.cxm.contexts[c].assigned = false := by
  push Not at h
  obtain ⟨c, hc, ha⟩ := h
  exact ⟨c, commandContext_eq hc, Bool.eq_false_iff.2 ha⟩

/-- The checks of a command that names an Assigned context by its number name the first that fails (R124). -/
theorem assignedByNumber_error {r : CommandReason} (h : FirstFails (numberTable s cmd) r) :
    assignedByNumber cmd s = .error r := by
  unfold assignedByNumber
  rcases h with ⟨hnumber, rfl⟩ | ⟨-, h⟩
  · rw [commandContext_eq_none hnumber]
  · obtain ⟨hfree, rfl⟩ := firstFails_singleton.1 h
    obtain ⟨c, hc, ha⟩ := exists_free_of_not hfree
    rw [hc]
    exact if_neg (Bool.eq_false_iff.1 ha)

/-! ### Assign Crew (R121) -/

theorem assignChecks_ok {c : CtxNo} {owner : Slot} {mode : Mode} {floor : Nat} (hc : (commandByte cmd 1).toNat = c.val)
    (hvalid : s.psc.valid = true) (hfree : s.cxm.contexts[c].assigned = false)
    (howner : (commandByte cmd 6).toNat = owner.val) (hclass : s.pbi.classes[owner] = .gateway)
    (hmode : commandByte cmd 7 = mode.code) (htext : ∀ k : Fin 4, isTextByte (cmd.record[2 + k.val]).toNat = true)
    (hfloor : s.psc.floorOf (commandLabel cmd 8) = .floor floor) :
    assignChecks cmd s = .ok { context := c, owner := owner, mode := mode, floor := floor } := by
  unfold assignChecks
  simp only [commandContext_eq hc, hvalid, hfree, gatewaySlot_eq_some.2 ⟨howner, hclass⟩, modeOfByte_eq_some.2 hmode,
    if_pos (crewLabel_isText.2 htext), floorOfLabel_ok.2 hfloor, Bool.not_true, Bool.false_eq_true, if_false]

/-- The checks of Assign Crew name the first that fails (R121). -/
theorem assignChecks_error {r : CommandReason} (h : FirstFails (assignTable s cmd) r) : assignChecks cmd s = .error r := by
  unfold assignChecks
  rcases h with ⟨hnumber, rfl⟩ | ⟨hnumber, h⟩
  · rw [commandContext_eq_none hnumber]
  obtain ⟨c, hc, hcontext⟩ := exists_commandContext hnumber
  rw [hcontext]
  dsimp only
  rcases h with ⟨hvalid, rfl⟩ | ⟨hvalid, h⟩
  · rw [if_pos (by simpa using hvalid)]
  rw [if_neg (by simpa using hvalid)]
  rcases h with ⟨huse, rfl⟩ | ⟨hfree, h⟩
  · have hassigned : s.cxm.contexts[c].assigned = true := by
      by_contra hn
      exact huse fun d hd => by cases Fin.ext (hc.symm.trans hd); exact Bool.eq_false_iff.2 hn
    rw [if_pos hassigned]
  rw [if_neg (Bool.eq_false_iff.1 (hfree c hc))]
  rcases h with ⟨hslot, rfl⟩ | ⟨⟨owner, howner⟩, h⟩
  · have hnone : gatewaySlot s (commandByte cmd 6) = none :=
      Option.eq_none_iff_forall_ne_some.2 fun owner ho => hslot ⟨owner, gatewaySlot_eq_some.1 ho⟩
    rw [hnone]
  rw [gatewaySlot_eq_some.2 howner]
  dsimp only
  rcases h with ⟨hform, rfl⟩ | ⟨⟨⟨mode, hmode⟩, htext⟩, h⟩
  · split
    · rfl
    · rename_i mode hmode
      exact if_neg fun htext => hform ⟨⟨mode, modeOfByte_eq_some.1 hmode⟩, crewLabel_isText.1 htext⟩
  obtain ⟨hlabel, rfl⟩ := firstFails_singleton.1 h
  rw [modeOfByte_eq_some.2 hmode]
  dsimp only
  rw [if_pos (crewLabel_isText.2 htext), floorOfLabel_unknown hvalid hlabel]

/-! ### Move Crew (R123) -/

/-- The changes that a Move Crew with byte 2 of `p` names, of the mode and the floor given. -/
def namedMovement (cmd : InFlight) (c : CtxNo) (mode : Mode) (floor p : Nat) : Movement :=
  { context := c
    mode := if p % 2 = 1 then some mode else none
    floor := if p / 2 % 2 = 1 then some floor else none
    windows := if p / 4 % 2 = 1 then some (clampWindow (commandByte cmd 8), clampWindow (commandByte cmd 9)) else none }

theorem moveChecks_ok {c : CtxNo} {mode : Mode} {floor p : Nat} (hc : (commandByte cmd 1).toNat = c.val)
    (hassigned : s.cxm.contexts[c].assigned = true) (hp : p = (commandByte cmd 2).toNat) (hpresent : p % 8 ≠ 0)
    (hmode : p % 2 = 1 → commandByte cmd 3 = mode.code)
    (hfloor : p / 2 % 2 = 1 → s.psc.floorOf (commandLabel cmd 4) = .floor floor) :
    moveChecks cmd s = .ok (namedMovement cmd c mode floor p) := by
  unfold moveChecks namedMovement
  rw [commandContext_eq hc]
  dsimp only
  rw [← hp, if_neg (by rw [hassigned]; decide), if_neg hpresent]
  have hnamed : (if p % 2 = 1 then Mode.ofByte (commandByte cmd 3) else none) = if p % 2 = 1 then some mode else none := by
    split
    · exact modeOfByte_eq_some.2 (hmode ‹_›)
    · rfl
  rw [if_neg fun ⟨hbit, hnone⟩ => by simp [modeOfByte_eq_some.2 (hmode hbit)] at hnone, hnamed]
  by_cases hbit : p / 2 % 2 = 1
  · rw [if_pos hbit, floorOfLabel_ok.2 (hfloor hbit), if_pos hbit]
  · rw [if_neg hbit, if_neg hbit]

/-- The checks of Move Crew name the first that fails (R123). -/
theorem moveChecks_error {p : Nat} {r : CommandReason} (hp : p = (commandByte cmd 2).toNat)
    (h : FirstFails (moveTable s cmd p) r) : moveChecks cmd s = .error r := by
  unfold moveChecks
  rcases h with ⟨hnumber, rfl⟩ | ⟨hnumber, h⟩
  · rw [commandContext_eq_none hnumber]
  obtain ⟨c, hc, hcontext⟩ := exists_commandContext hnumber
  rw [hcontext]
  dsimp only
  rw [← hp]
  rcases h with ⟨hfree, rfl⟩ | ⟨hassigned, h⟩
  · obtain ⟨d, hd, ha⟩ := exists_free_of_not hfree
    cases hcontext.symm.trans hd
    rw [if_pos (by rw [ha]; decide)]
  rw [if_neg (by rw [hassigned c hc]; decide)]
  rcases h with ⟨hform, rfl⟩ | ⟨⟨hpresent, hmode⟩, h⟩
  · split
    · rfl
    · rename_i hpresent
      refine if_pos ?_
      by_contra hn
      refine hform ⟨hpresent, fun hbit => ?_⟩
      obtain ⟨mode, hmode⟩ := Option.ne_none_iff_exists'.1 fun hnone => hn ⟨hbit, hnone⟩
      exact ⟨mode, modeOfByte_eq_some.1 hmode⟩
  have hnamed : ¬(p % 2 = 1 ∧ Mode.ofByte (commandByte cmd 3) = none) := fun ⟨hbit, hnone⟩ => by
    obtain ⟨mode, hm⟩ := hmode hbit
    simp [modeOfByte_eq_some.2 hm] at hnone
  rw [if_neg hpresent, if_neg hnamed]
  rcases h with ⟨hplan, rfl⟩ | ⟨hplan, h⟩
  · obtain ⟨hbit, hvalid⟩ := Classical.not_imp.1 hplan
    rw [if_pos hbit, floorOfLabel_noPlan hvalid]
  · obtain ⟨hlabel, rfl⟩ := firstFails_singleton.1 h
    obtain ⟨hbit, hunknown⟩ := Classical.not_imp.1 hlabel
    rw [if_pos hbit, floorOfLabel_unknown (hplan hbit) hunknown]

/-- The changes present are applied together (R123). -/
theorem movedContext_named (cmd : InFlight) (c : CtxNo) (mode : Mode) (floor p : Nat) (old : Context) :
    movedContext (namedMovement cmd c mode floor p) old = { old with
      mode := if p % 2 = 1 then mode else old.mode
      fixedFloor := if p / 2 % 2 = 1 then floor else old.fixedFloor
      previousFloor := if p / 2 % 2 = 1 then some old.fixedFloor else old.previousFloor
      below := if p / 4 % 2 = 1 then clampWindow (commandByte cmd 8) else old.below
      above := if p / 4 % 2 = 1 then clampWindow (commandByte cmd 9) else old.above } := by
  unfold movedContext namedMovement
  dsimp only
  congr 1
  · split <;> rfl
  · split <;> rfl
  · by_cases hbit : p / 2 % 2 = 1 <;> simp [hbit]
  · split <;> rfl
  · split <;> rfl

end

end Sys2Proof.Machine
end

section
/-!
PROOFS. The statements about Assign Crew, O46 (R121, R122), and Move Crew, O47 (R123, R138, R149).
-/

namespace Sys2Proof.Machine

/-! ### The Urgent request of a crew command (R122, R123, R138) -/

theorem abandon_rest (requeue : Bool) (s : State) : abandon requeue s = { s with bcm := (abandon requeue s).bcm } := by
  unfold abandon
  split <;> rfl

/-- A brief request moves the composer alone (R138). -/
theorem briefRequest_rest (c : CtxNo) (u : Urgency) (fromMove : Bool) (s : State) :
    briefRequest c u fromMove s = { s with bcm := (briefRequest c u fromMove s).bcm } := by
  unfold briefRequest
  split
  · rfl
  · rfl
  · exact abandon_rest true s
  · rfl
  · rfl
  · split <;> rfl

/-- The contexts and ranges that a later state sees when nothing but the composer moved. -/
theorem currentRange_congr {s t : State} (hp : t.psc = s.psc) (ha : t.ale = s.ale) (hx : t.cxm = s.cxm) (c : CtxNo) :
    currentRange t c = currentRange s c := by
  unfold currentRange
  rw [hp, ha, hx]

/-- A command in flight whose body replaces the context `c` by `x` and then makes an Urgent request for it ends with the contexts
so, the composer as the request leaves it, and nothing else moved but the command's own result. -/
theorem exec_ready_requests {row : Instr} {slot : Slot} {code : CommandCode} {cmd : InFlight} {s : State} {c : CtxNo}
    {x : Context} {fromMove : Bool} {o : CommandOutcome} {body : InFlight → State → State × CommandOutcome}
    (hrow : exec row s = event (carryOut slot code body) s) (hr : Ready s slot code cmd)
    (hb : body cmd s = (briefRequest c .urgent fromMove (setContext c x s), o)) :
    ∃ t, exec row s = .next t ∧ Completed s t slot cmd o ∧ SameMap s t ∧ t.cxm = (setContext c x s).cxm ∧
      t.bcm = (briefRequest c .urgent fromMove (setContext c x s)).bcm ∧
      currentRange t c = currentRange (setContext c x s) c ∧ t = { s with cxm := t.cxm, bcm := t.bcm, pbi := t.pbi } := by
  obtain ⟨t, ht, hc, hm, hpsc, -, hale, -, hcxm, hbcm, -, hrest⟩ := exec_ready_blocks hrow hr hb (by simp)
  rw [briefRequest_psc] at hpsc
  rw [briefRequest_ale] at hale
  rw [briefRequest_cxm] at hcxm
  refine ⟨t, ht, hc, hm, hcxm, hbcm, currentRange_congr hpsc hale hcxm c, ?_⟩
  rw [hcxm, hbcm]
  rw [briefRequest_rest] at hrest
  exact hrest

/-- What the state with context `c` replaced by `x` holds of the contexts. -/
theorem contexts_of_setContext {s t : State} {c : CtxNo} {x : Context} (h : t.cxm = (setContext c x s).cxm) :
    t.cxm.contexts[c] = x ∧ (∀ d : CtxNo, d ≠ c → t.cxm.contexts[d] = s.cxm.contexts[d]) ∧
      t.cxm.consoles = s.cxm.consoles ∧ t.cxm.marks = s.cxm.marks := by
  rw [h]
  exact ⟨by rw [setContext_context, if_pos rfl], fun d hd => by rw [setContext_context, if_neg hd], rfl, rfl⟩

/-- A context that is not Assigned is neither requested nor composed (R137). -/
theorem State.requestsSound.not_requested {s : State} (h : s.requestsSound) {c : CtxNo}
    (hc : s.cxm.contexts[c].assigned = false) : c ∉ s.bcm.urgent ∧ c ∉ s.bcm.normal ∧ s.bcm.composing ≠ some c := by
  obtain ⟨-, hassigned, hcomposed⟩ := h
  have hnot : c ∉ s.bcm.urgent ++ s.bcm.normal := fun hm => Bool.eq_false_iff.1 hc (hassigned c hm)
  rw [List.mem_append, not_or] at hnot
  refine ⟨hnot.1, hnot.2, fun hk => ?_⟩
  obtain ⟨x, hx, rfl⟩ := Option.map_eq_some_iff.1 hk
  exact Bool.eq_false_iff.1 hc (hcomposed x hx).2

/-- An Urgent request for an Assigned context that is neither requested nor composed joins the Urgent group (R138). -/
theorem briefRequest_joins {s : State} {c : CtxNo} (fromMove : Bool) (ha : s.cxm.contexts[c].assigned = true)
    (hu : c ∉ s.bcm.urgent) (hn : c ∉ s.bcm.normal) (hk : s.bcm.composing ≠ some c) :
    (briefRequest c .urgent fromMove s).bcm = { s.bcm with urgent := s.bcm.urgent ++ [c] } := by
  rcases briefRequest_cases c .urgent fromMove s with ⟨hf, -⟩ | ⟨-, hk', -⟩ | ⟨-, -, ⟨hu', -⟩ | ⟨-, hn', -⟩ | ⟨-, hn', -⟩ |
    ⟨-, -, hb⟩⟩
  · exact absurd ha (Bool.eq_false_iff.1 hf)
  · exact absurd hk' hk
  · exact absurd hu' hu
  · exact absurd hn' hn
  · exact absurd hn' hn
  · exact hb

/-- The Urgent request of a move leaves its context in the Urgent group alone, whether a composition for it was abandoned, it was
raised from the Normal group or it was in neither; every other context stays where it is (R123, R138, R149). -/
theorem briefRequest_moves {s : State} {c : CtxNo} (ha : s.cxm.contexts[c].assigned = true)
    (hd : (s.bcm.urgent ++ s.bcm.normal).Nodup)
    (hk : ∀ x, s.bcm.composition = some x → x.context ∉ s.bcm.urgent ++ s.bcm.normal) :
    let t := briefRequest c .urgent true s
    c ∈ t.bcm.urgent ∧ c ∉ t.bcm.normal ∧ t.bcm.composing ≠ some c ∧
      (s.bcm.composing ≠ some c → t.bcm.composition = s.bcm.composition) ∧
      ∀ d, d ≠ c → (d ∈ t.bcm.urgent ↔ d ∈ s.bcm.urgent) ∧ (d ∈ t.bcm.normal ↔ d ∈ s.bcm.normal) := by
  obtain ⟨-, hnormal, hdisjoint⟩ := List.nodup_append.1 hd
  have hothers : ∀ d, d ≠ c → (d ∈ s.bcm.urgent ++ [c] ↔ d ∈ s.bcm.urgent) := fun d hdc => by simp [hdc]
  have hjoined : c ∈ s.bcm.urgent ++ [c] := by simp
  dsimp only
  rcases briefRequest_cases c .urgent true s with ⟨hf, -⟩ | ⟨-, hcomposed, hb⟩ | ⟨-, hother, ⟨hu, hb⟩ | ⟨-, -, hn, -⟩ |
    ⟨-, -, -, hb⟩ | ⟨-, hn, hb⟩⟩
  · exact absurd ha (Bool.eq_false_iff.1 hf)
  · rw [hb, if_pos rfl]
    obtain ⟨x, hx, rfl⟩ := Option.map_eq_some_iff.1 hcomposed
    rcases abandon_cases true s with ⟨hnone, -⟩ | ⟨y, hy, habandon⟩
    · cases hnone.symm.trans hx
    · cases hx.symm.trans hy
      rw [habandon]
      exact ⟨hjoined, fun hm => hk x hx (List.mem_append_right _ hm), fun h => (by cases h), fun h => absurd hcomposed h,
        fun d hdc => ⟨hothers d hdc, Iff.rfl⟩⟩
  · rw [hb]
    exact ⟨hu, fun hn => hdisjoint c hu c hn rfl, hother, fun _ => rfl, fun _ _ => ⟨Iff.rfl, Iff.rfl⟩⟩
  · cases hn
  · rw [hb]
    exact ⟨hjoined, fun hm => (hnormal.mem_erase_iff.1 hm).1 rfl, hother, fun _ => rfl,
      fun d hdc => ⟨hothers d hdc, List.mem_erase_of_ne hdc⟩⟩
  · rw [hb]
    exact ⟨hjoined, hn, hother, fun _ => rfl, fun d hdc => ⟨hothers d hdc, Iff.rfl⟩⟩

/-! ### Assign Crew (R122) -/

theorem assignCrewBody_ok {cmd : InFlight} {s : State} {a : Assignment} {c : CtxNo} {x : Context}
    (h : assignChecks cmd s = .ok a) (hc : a.context = c) (hx : assignedContext cmd a s.cxm.contexts[c] = x) :
    assignCrewBody cmd s = (briefRequest c .urgent false (setContext c x s),
      .done ([byteOf c.val, byteOf a.floor, byteOf x.below.val, byteOf x.above.val, byteOf x.mask.val, byteOf x.ceiling.val] ++
        rangeBytes (currentRange (setContext c x s) c))) := by
  subst hc hx
  unfold assignCrewBody
  rw [h]

theorem assignCrewBody_refused {cmd : InFlight} {s : State} {r : CommandReason} (h : assignChecks cmd s = .error r) :
    assignCrewBody cmd s = (s, .refused r) := by
  unfold assignCrewBody
  rw [h]

/-- Settles O46: the context replaced and the Urgent request made, or the first of the six checks that fails. -/
theorem assignCrewAssigns : Obligations.AssignCrewAssigns := by
  refine ⟨fun s slot cmd c owner mode floor hr hsound hc hvalid hfree howner hclass hmode htext hfloor => ?_,
    fun s slot cmd reason hr h => refused_of_body rfl hr (assignCrewBody_refused (assignChecks_error h))⟩
  have hchecks := assignChecks_ok hc hvalid hfree howner hclass hmode htext hfloor
  obtain ⟨x, hx⟩ : ∃ x, assignedContext cmd { context := c, owner := owner, mode := mode, floor := floor }
    s.cxm.contexts[c] = x := ⟨_, rfl⟩
  obtain ⟨t, ht, hcompleted, hmap, hcxm, hbcm, hrange, hrest⟩ :=
    exec_ready_requests (row := .assignCrew slot) rfl hr (assignCrewBody_ok hchecks rfl hx)
  obtain ⟨hcontext, hothers, hconsoles, hmarks⟩ := contexts_of_setContext hcxm
  obtain ⟨hu, hn, hk⟩ := hsound.not_requested hfree
  have hcrewed : (setContext c x s).cxm.contexts[c].assigned = true := by
    rw [setContext_context, if_pos rfl, ← hx]
    rfl
  rw [briefRequest_joins false hcrewed hu hn hk] at hbcm
  rw [← hrange] at hcompleted
  refine ⟨t, ht, ⟨x, hcontext, ?_⟩, hothers, hconsoles, hmarks, hbcm, hmap, hrest⟩
  subst hx
  exact ⟨rfl, commandCrewLabel_getElem cmd, rfl, rfl, rfl, rfl, rfl, rfl, rfl, min_clampLevel_val _ _, rfl, rfl, rfl, rfl,
    hcompleted⟩

/-! ### Move Crew (R123) -/

theorem moveCrewBody_ok {cmd : InFlight} {s : State} {m : Movement} {c : CtxNo} {x : Context} (h : moveChecks cmd s = .ok m)
    (hc : m.context = c) (hx : movedContext m s.cxm.contexts[c] = x) : moveCrewBody cmd s =
      (briefRequest c .urgent true (setContext c x s),
        .done ([orNone x.previousFloor, byteOf x.fixedFloor, x.mode.code, byteOf x.below.val, byteOf x.above.val] ++
          rangeBytes (currentRange s c) ++ rangeBytes (currentRange (setContext c x s) c))) := by
  subst hc hx
  unfold moveCrewBody
  rw [h]

theorem moveCrewBody_refused {cmd : InFlight} {s : State} {r : CommandReason} (h : moveChecks cmd s = .error r) :
    moveCrewBody cmd s = (s, .refused r) := by
  unfold moveCrewBody
  rw [h]

/-- Settles O47: the context with the changes present and the Urgent request of the move, or the first check that fails. -/
theorem moveCrewMoves : Obligations.MoveCrewMoves := by
  refine ⟨fun s slot cmd c mode floor p hr hsound hc hassigned hp hpresent hmode hfloor => ?_,
    fun s slot cmd p reason hr hp h => refused_of_body rfl hr (moveCrewBody_refused (moveChecks_error hp h))⟩
  have hchecks := moveChecks_ok hc hassigned hp hpresent hmode hfloor
  obtain ⟨x, hx⟩ : ∃ x, movedContext (namedMovement cmd c mode floor p) s.cxm.contexts[c] = x := ⟨_, rfl⟩
  obtain ⟨t, ht, hcompleted, hmap, hcxm, hbcm, hrange, hrest⟩ :=
    exec_ready_requests (row := .moveCrew slot) (c := c) rfl hr (moveCrewBody_ok (c := c) hchecks rfl hx)
  obtain ⟨hcontext, hothers, hconsoles, hmarks⟩ := contexts_of_setContext hcxm
  have hcrewed : (setContext c x s).cxm.contexts[c].assigned = true := by
    rw [setContext_context, if_pos rfl, ← hx]
    exact hassigned
  obtain ⟨hd, -, hcomposed⟩ := hsound
  obtain ⟨hurgent, hnormal, hcomposing, hkept, hqueued⟩ := briefRequest_moves hcrewed hd fun y hy => (hcomposed y hy).1
  rw [← hbcm] at hurgent hnormal hcomposing hkept hqueued
  have hbuffers : t.bcm.buffers = s.bcm.buffers := by
    rw [hbcm, briefRequest_buffers]
    rfl
  rw [← hrange, ← hcontext] at hcompleted
  exact ⟨t, ht, hcontext.trans (hx.symm.trans (movedContext_named cmd c mode floor p _)), hothers, hconsoles, hmarks, hbuffers,
    hurgent, hnormal, hcomposing, hkept, hqueued, hcompleted, hmap, hrest⟩

end Sys2Proof.Machine
end

section
/-!
PROOFS. The statement about Withdraw Crew, O48 (R31, R124, R149).
-/

namespace Sys2Proof.Machine

/-! ### The composer and the pool of a withdrawn context (R124, steps 1 and 2) -/

/-- Everything the composer does with a withdrawn context (R124): its requests go, and a composition for it is abandoned. -/
theorem dropFromComposer_cases (c : CtxNo) (s : State) :
    (∃ x, s.bcm.composition = some x ∧ x.context = c ∧ dropFromComposer c s = { s with
      bcm.urgent := s.bcm.urgent.erase c, bcm.normal := s.bcm.normal.erase c, bcm.composition := none
      bcm.pool := s.bcm.pool.set x.buffer true }) ∨
    ((∀ x, s.bcm.composition = some x → x.context ≠ c) ∧
      dropFromComposer c s = { s with bcm.urgent := s.bcm.urgent.erase c, bcm.normal := s.bcm.normal.erase c }) := by
  unfold dropFromComposer
  by_cases hc : ∃ x, s.bcm.composition = some x ∧ x.context = c
  · obtain ⟨x, hx, rfl⟩ := hc
    refine Or.inl ⟨x, hx, rfl, ?_⟩
    rw [if_pos (by rw [Bcm.composing, hx]; rfl)]
    unfold abandon
    simp only [hx]
    rfl
  · refine Or.inr ⟨fun x hx he => hc ⟨x, hx, he⟩, if_neg fun h => hc ?_⟩
    exact Option.map_eq_some_iff.1 h

theorem returnPublished_rest (c : CtxNo) (s : State) :
    returnPublished c s = { s with bcm.pool := (returnPublished c s).bcm.pool } := by
  unfold returnPublished
  split <;> rfl

theorem returnPublished_pool (c : CtxNo) (s : State) (b : BufNo) :
    (returnPublished c s).bcm.pool[b] = true ↔ s.bcm.pool[b] = true ∨ s.cxm.contexts[c].published = some b := by
  unfold returnPublished
  split
  · rename_i a ha
    rw [ha]
    simp [Vector.getElem_set, Fin.ext_iff, or_comm]
  · rename_i hn
    rw [hn]
    simp

/-- The state in which a withdrawal releases the context's floors: the context Free and gone from the composer (R124). -/
def freedState (c : CtxNo) (s : State) : State :=
  setContext c (freeContext s.cxm.contexts[c].briefEpoch) (returnPublished c (dropFromComposer c s))

theorem release_eq (c : CtxNo) (s : State) :
    release c s = (searchingFloors s c).foldl (fun s f => unmark f s) (freedState c s) := rfl

theorem freedState_cxm (c : CtxNo) (s : State) : (freedState c s).cxm =
    { s.cxm with contexts := s.cxm.contexts.set c (freeContext s.cxm.contexts[c].briefEpoch) } := by
  unfold freedState
  rw [setContext_cxm, returnPublished_cxm, dropFromComposer_cxm]

theorem freedState_context (c d : CtxNo) (s : State) : (freedState c s).cxm.contexts[d] =
    if d = c then freeContext s.cxm.contexts[c].briefEpoch else s.cxm.contexts[d] := by
  unfold freedState
  rw [setContext_context, returnPublished_cxm, dropFromComposer_cxm]

theorem freedState_rest (c : CtxNo) (s : State) :
    freedState c s = { s with cxm := (freedState c s).cxm, bcm := (freedState c s).bcm } := by
  unfold freedState
  rw [returnPublished_rest]
  rcases dropFromComposer_cases c s with ⟨x, -, -, h⟩ | ⟨-, h⟩
  · rw [h]; rfl
  · rw [h]; rfl

/-- What the composer holds once a context is withdrawn: a composition for another context goes on. -/
theorem freedState_bcm (c : CtxNo) (s : State) :
    (freedState c s).bcm.urgent = s.bcm.urgent.erase c ∧ (freedState c s).bcm.normal = s.bcm.normal.erase c ∧
      (freedState c s).bcm.composition = s.bcm.composition.filter (fun x => decide (x.context ≠ c)) ∧
      (freedState c s).bcm.buffers = s.bcm.buffers := by
  unfold freedState
  rw [setContext_bcm, returnPublished_rest]
  rcases dropFromComposer_cases c s with ⟨x, hx, hc, h⟩ | ⟨hother, h⟩
  · rw [h]
    exact ⟨rfl, rfl, by rw [hx, Option.filter_some, if_neg (by simp [hc])], rfl⟩
  · rw [h]
    refine ⟨rfl, rfl, ?_, rfl⟩
    cases hx : s.bcm.composition with
    | none => rfl
    | some x => rw [Option.filter_some, if_pos (decide_eq_true (hother x hx))]

/-- The buffers of a withdrawn context are back in the pool, the published one and the working one (R124, R149). -/
theorem freedState_pool (c : CtxNo) (s : State) :
    (∀ b, s.cxm.contexts[c].published = some b → (freedState c s).bcm.pool[b] = true) ∧
      ∀ x, s.bcm.composition = some x → x.context = c → (freedState c s).bcm.pool[x.buffer] = true := by
  unfold freedState
  simp only [setContext_bcm, returnPublished_pool, dropFromComposer_cxm]
  refine ⟨fun b hb => Or.inr hb, fun x hx hc => Or.inl ?_⟩
  rcases dropFromComposer_cases c s with ⟨y, hy, -, h⟩ | ⟨hother, -⟩
  · cases hx.symm.trans hy
    rw [h]
    simp
  · exact absurd hc (hother x hx)

/-! ### The floors released (R31) -/

/-- The floors Searching under a context, in rising order, as floor numbers. -/
def searchedFloors (s : State) (c : CtxNo) : List (Fin 128) :=
  (List.finRange 128).filter fun f => decide (s.cxm.marks[f].mark = .searching ∧ s.cxm.marks[f].context = some c)

theorem mem_searchedFloors {s : State} {c : CtxNo} {f : Fin 128} :
    f ∈ searchedFloors s c ↔ s.cxm.marks[f].mark = .searching ∧ s.cxm.marks[f].context = some c := by
  simp [searchedFloors]

theorem searchedFloors_pairwise (s : State) (c : CtxNo) : (searchedFloors s c).Pairwise (· < ·) :=
  (List.pairwise_lt_finRange 128).filter _

theorem searchingFloors_eq (s : State) (c : CtxNo) : searchingFloors s c = (searchedFloors s c).map (·.val) := by
  unfold searchingFloors searchedFloors
  rw [← List.map_coe_finRange_eq_range, List.filter_map]
  congr 1
  refine List.filter_congr fun f _ => ?_
  rw [Function.comp_apply, markAt_eq, Bool.eq_iff_iff]
  simp

theorem unmark_marks (f : Nat) (g : Fin 128) (s : State) :
    (unmark f s).cxm.marks[g] = if g.val = f then unsearchedAt s.ale.clock else s.cxm.marks[g] := by
  unfold unmark
  simp [changeMark_cxm, Vector.getElem_setIfInBounds, eq_comm]

theorem unmarkAll_marks (fs : List Nat) (g : Fin 128) (s : State) :
    (fs.foldl (fun s f => unmark f s) s).cxm.marks[g] =
      if g.val ∈ fs then unsearchedAt s.ale.clock else s.cxm.marks[g] := by
  induction fs generalizing s with
  | nil => simp
  | cons f fs ih =>
    rw [List.foldl_cons, ih, unmark_ale, unmark_marks]
    by_cases hf : g.val = f <;> simp [hf]

/-- The release of the floors leaves every block but the CXM and the composer's requests (R31). -/
theorem release_frame (c : CtxNo) (s : State) :
    (release c s).psc = s.psc ∧ (release c s).rin = s.rin ∧ (release c s).ale = s.ale ∧ (release c s).lmn = s.lmn ∧
      (release c s).pbi = s.pbi ∧ (release c s).pending = s.pending ∧ (release c s).bcm.buffers = s.bcm.buffers := by
  obtain ⟨-, -, -, hbuffers⟩ := freedState_bcm c s
  have hkept := foldl_keeps (fun u : State => (u.psc, u.rin, u.ale, u.lmn, u.pbi, u.pending, u.bcm.buffers))
    (step := fun u f => unmark f u) (fun u f => by simp [unmark]) (searchingFloors s c) (freedState c s)
  rw [← release_eq, hbuffers, freedState_rest] at hkept
  simpa using hkept

/-- A context that is not Assigned is offered nothing (R129). -/
theorem offerAll_unassigned (ns : List Notice) {s : State} {c : CtxNo} (h : s.cxm.contexts[c].assigned = false) :
    (offerAll ns s).cxm.contexts[c] = s.cxm.contexts[c] := by
  induction ns generalizing s with
  | nil => rfl
  | cons n ns ih =>
    have hsame : (offer n s).cxm.contexts[c] = s.cxm.contexts[c] := by
      rw [offer_context]
      exact if_neg (by rw [deliveredTo, h]; simp)
    exact (ih (s := offer n s) (by rw [hsame, h])).trans hsame

/-- Queues play no part in a context's range (R24). -/
theorem inRange_of_offerAll {s t : State} (ns : List Notice) (hp : t.psc = s.psc) (ha : t.ale = s.ale)
    (hc : t.cxm.contexts = (offerAll ns s).cxm.contexts) (c : CtxNo) (f : Nat) : inRange t c f = inRange s c f := by
  unfold inRange currentRange rangeOf
  rw [hp, ha, hc, offerAll_context_rest]
  rfl

/-! ### The release, told and requested (R30, R31, R124) -/

/-- The notice of a floor released by the withdrawal of context `c` (R30, R31). -/
def releasedNotice (s : State) (c : CtxNo) (f : Fin 128) : Notice :=
  { kind := .floorMarked, level := 1, time := s.ale.clock, entry := none, floor := .placed f.val, context := some c, panel := none }

section
variable (c : CtxNo) (s : State)

/-- The effects of the release on the contexts, the Console Queues and the composer, from the state that holds the context Free. -/
theorem release_cases :
    let u := freedState c s
    let t := release c s
    t.cxm.contexts = (offerAll ((searchedFloors s c).map (releasedNotice s c)) u).cxm.contexts ∧
      t.cxm.consoles = (offerAll ((searchedFloors s c).map (releasedNotice s c)) u).cxm.consoles ∧
      t.bcm.urgent = u.bcm.urgent ∧ t.bcm.pool = u.bcm.pool ∧
      t.bcm.composition = u.bcm.composition.map (fun x => { x with
        disturbed := x.disturbed || (searchedFloors s c).any fun f =>
          inRange u x.context f.val || (x.phase == .walking && x.range.holds f.val) }) ∧
      ∀ d, d ∈ t.bcm.normal ↔ d ∈ u.bcm.normal ∨
        (∃ f ∈ searchedFloors s c, inRange u d f.val = true) ∧ d ∉ u.bcm.urgent ∧ u.bcm.composing ≠ some d := by
  have hmarks : ∀ f, markAt (freedState c s) f = markAt s f := fun f => by unfold markAt; rw [freedState_cxm]
  have hclock : (freedState c s).ale.clock = s.ale.clock := by rw [freedState_rest]
  have hsearching : ∀ f ∈ searchingFloors s c,
      (markAt (freedState c s) f).mark = .searching ∧ (markAt (freedState c s) f).context = some c := fun f hf => by
    rw [hmarks]
    simpa using (List.mem_filter.1 hf).2
  have hrelease := unmarkAll_cases c (searchingFloors s c) (freedState c s) (List.nodup_range.filter _) hsearching
  have hnotices : (searchingFloors s c).map (releaseNotice (freedState c s) c) =
      (searchedFloors s c).map (releasedNotice s c) := by
    rw [searchingFloors_eq, List.map_map]
    refine List.map_congr_left fun f _ => ?_
    rw [Function.comp_apply, releaseNotice, hclock]
    rfl
  rw [← release_eq, hnotices, searchingFloors_eq] at hrelease
  simpa only [List.any_map, Function.comp_def, List.mem_map, exists_exists_and_eq_and] using hrelease

theorem release_inRange (d : CtxNo) (f : Nat) : inRange (release c s) d f = inRange (freedState c s) d f := by
  obtain ⟨hpsc, -, hale, -⟩ := release_frame c s
  exact inRange_of_offerAll _ (by rw [hpsc, freedState_rest]) (by rw [hale, freedState_rest]) (release_cases c s).1 d f

theorem release_context_free : (release c s).cxm.contexts[c] = freeContext s.cxm.contexts[c].briefEpoch := by
  have hfree : (freedState c s).cxm.contexts[c] = freeContext s.cxm.contexts[c].briefEpoch := by
    rw [freedState_context, if_pos rfl]
  rw [(release_cases c s).1, offerAll_unassigned _ (by rw [hfree]; rfl), hfree]

theorem release_context_other {d : CtxNo} (h : d ≠ c) :
    (release c s).cxm.contexts[d] = { s.cxm.contexts[d] with queue := (release c s).cxm.contexts[d].queue } := by
  have hother := offerAll_context_rest ((searchedFloors s c).map (releasedNotice s c)) (freedState c s) d
  rw [← (release_cases c s).1, freedState_context, if_neg h] at hother
  exact hother

theorem release_console_mask (q : Fin 2) : (release c s).cxm.consoles[q].mask = s.cxm.consoles[q].mask := by
  obtain ⟨-, hconsoles, -⟩ := release_cases c s
  rw [hconsoles, offerAll_console_mask, freedState_cxm]

theorem release_marks (f : Fin 128) : (release c s).cxm.marks[f] =
    if s.cxm.marks[f].mark = .searching ∧ s.cxm.marks[f].context = some c then unsearchedAt s.ale.clock
    else s.cxm.marks[f] := by
  rw [release_eq, unmarkAll_marks, freedState_rest, freedState_cxm]
  simp only [mem_searchingFloors]

/-- The withdrawn context's own floors lie in no range of its own any more: it is Free. -/
theorem release_not_inRange (f : Nat) : inRange (release c s) c f ≠ true := fun h => by
  have hassigned := inRange_assigned h
  rw [release_context_free] at hassigned
  cases hassigned

/-- The composition a withdrawal leaves: none for the withdrawn context, and one for another disturbed by the floors (R147). -/
theorem release_composition : (release c s).bcm.composition =
    (s.bcm.composition.filter fun x => decide (x.context ≠ c)).map fun x => { x with
      disturbed := x.disturbed || (searchedFloors s c).any fun f =>
        inRange (release c s) x.context f.val || (x.phase == .walking && x.range.holds f.val) } := by
  obtain ⟨-, -, -, -, hcomposition, -⟩ := release_cases c s
  obtain ⟨-, -, hfreed, -⟩ := freedState_bcm c s
  simp only [← release_inRange] at hcomposition
  rw [hcomposition, hfreed]

theorem release_composing : (release c s).bcm.composing = (freedState c s).bcm.composing := by
  obtain ⟨-, -, -, -, hcomposition, -⟩ := release_cases c s
  rw [Bcm.composing, hcomposition, Option.map_map]
  rfl

theorem release_composing_ne : (release c s).bcm.composing ≠ some c := fun h => by
  obtain ⟨-, -, hfreed, -⟩ := freedState_bcm c s
  rw [release_composing, Bcm.composing, hfreed] at h
  obtain ⟨x, hx, hc⟩ := Option.map_eq_some_iff.1 h
  exact of_decide_eq_true (Option.mem_filter_iff.1 hx).2 hc

/-- The Normal group after a withdrawal: the context is gone from it, and every other context whose range holds a floor released
is in it, in the Urgent group or composed (R30, R138). -/
theorem mem_release_normal (hd : (s.bcm.urgent ++ s.bcm.normal).Nodup) (d : CtxNo) : d ∈ (release c s).bcm.normal ↔
    d ≠ c ∧ d ∈ s.bcm.normal ∨
      (∃ f ∈ searchedFloors s c, inRange (release c s) d f.val = true) ∧ d ∉ s.bcm.urgent ∧
        (release c s).bcm.composing ≠ some d := by
  obtain ⟨-, -, -, -, -, hnormal⟩ := release_cases c s
  obtain ⟨hurgent', hnormal', -⟩ := freedState_bcm c s
  obtain ⟨-, hdistinct, -⟩ := List.nodup_append.1 hd
  rw [hnormal, hurgent', hnormal', hdistinct.mem_erase_iff, ← release_composing]
  simp only [← release_inRange]
  refine or_congr_right (and_congr_right fun ⟨f, _, hf⟩ => ?_)
  have hne : d ≠ c := fun he => release_not_inRange c s f.val (he ▸ hf)
  rw [List.mem_erase_of_ne hne]

end

/-- The notices of the floors released, as the state after the command sees them: the withdrawn context is Free and is offered
none (R31, R129, R130). -/
theorem release_told {c : CtxNo} {s t : State} (ht : t.cxm = (release c s).cxm) (hp : t.psc = s.psc) (ha : t.ale = s.ale)
    (hm : t.pbi.classes = s.pbi.classes) :
    Told { s with cxm := { s.cxm with contexts := s.cxm.contexts.set c (freeContext s.cxm.contexts[c].briefEpoch) } } t
      ((searchedFloors s c).map (releasedNotice s c)) := by
  obtain ⟨hcontexts, hconsoles, -⟩ := release_cases c s
  refine offerAll_told (u := freedState c s) _ ?_ ?_ (by rw [ht, hcontexts]) (by rw [ht, hconsoles]) ?_ ?_ ?_
  · rw [freedState_cxm]
  · rw [freedState_cxm]
  · rw [hp, freedState_rest]
  · rw [ha, freedState_rest]
  · rw [hm, freedState_rest]

/-! ### Withdraw Crew (R124) -/

theorem withdrawCrewBody_ok {cmd : InFlight} {s : State} {c : CtxNo} (h : assignedByNumber cmd s = .ok c) :
    withdrawCrewBody cmd s = (release c s,
      .done ([byteOf c.val] ++ s.cxm.contexts[c].crewLabel.toList ++
        [orNone (s.cxm.contexts[c].owner.map (·.val)), byteOf s.cxm.contexts[c].queue.notices.length])) := by
  unfold withdrawCrewBody
  rw [h]

theorem withdrawCrewBody_refused {cmd : InFlight} {s : State} {r : CommandReason} (h : assignedByNumber cmd s = .error r) :
    withdrawCrewBody cmd s = (s, .refused r) := by
  unfold withdrawCrewBody
  rw [h]

/-- Settles O48: the context released with the effects of its floors' mark changes, or the first of the two checks that fails. -/
theorem withdrawCrewReleases : Obligations.WithdrawCrewReleases := by
  refine ⟨fun s slot cmd c hr hsound hc hassigned => ?_,
    fun s slot cmd reason hr h => refused_of_body rfl hr (withdrawCrewBody_refused (assignedByNumber_error h))⟩
  obtain ⟨hfpsc, hfrin, hfale, hflmn, hfpbi, hfpending, hfbuffers⟩ := release_frame c s
  obtain ⟨t, ht, hcompleted, hmap, hpsc, hrin, hale, hlmn, hcxm, hbcm, hpending, -⟩ :=
    exec_ready_blocks (row := .withdrawCrew slot) rfl hr (withdrawCrewBody_ok (assignedByNumber_ok hc hassigned)) hfpbi
  have hrange : ∀ d f, inRange t d f = inRange (release c s) d f := fun d f => by
    unfold inRange
    rw [currentRange_congr hpsc hale hcxm]
  obtain ⟨hdistinct, -⟩ := hsound
  obtain ⟨-, -, hurgent, hpool, -⟩ := release_cases c s
  rw [(freedState_bcm c s).1] at hurgent
  obtain ⟨hpublished, hworking⟩ := freedState_pool c s
  have hcomposition := release_composition c s
  have hnormal := mem_release_normal c s hdistinct
  refine ⟨t, ht, ?_, fun d hd => ?_, fun q => ?_, fun f => ?_, ⟨searchedFloors s c, searchedFloors_pairwise s c,
    fun f => mem_searchedFloors, release_told hcxm (hpsc.trans hfpsc) (hale.trans hfale) hmap.1, ?_, ?_⟩, ?_, ?_, ?_, ?_, ?_,
    ?_, ?_, ?_, hmap, hcompleted, hpsc.trans hfpsc, hrin.trans hfrin, hale.trans hfale, hlmn.trans hflmn,
    hpending.trans hfpending⟩
  · rw [hcxm, release_context_free]
  · rw [hcxm]
    exact release_context_other c s hd
  · rw [hcxm, release_console_mask]
  · rw [hcxm, release_marks]
    rfl
  · simp only [hrange, hbcm]
    exact hnormal
  · intro x hx hother
    simp only [hrange, hbcm]
    rw [hcomposition, hx, Option.filter_some, if_pos (decide_eq_true hother)]
    rfl
  · rw [hbcm, hurgent]
  · intro hnone
    rw [hbcm, hcomposition, hnone]
    rfl
  · rw [hbcm, hurgent]
    exact fun hm => ((List.nodup_append.1 hdistinct).1.mem_erase_iff.1 hm).1 rfl
  · rw [hbcm, hnormal]
    rintro (⟨hne, -⟩ | ⟨⟨f, -, hf⟩, -⟩)
    · exact hne rfl
    · exact release_not_inRange c s f.val hf
  · rw [hbcm]
    exact release_composing_ne c s
  · rw [hbcm, hpool]
    exact hpublished
  · intro x hx hown
    rw [hbcm, hpool, hcomposition, hx, Option.filter_some, if_neg (by simp [hown])]
    exact ⟨rfl, hworking x hx hown⟩
  · rw [hbcm, hfbuffers]

end Sys2Proof.Machine
end

section
/-!
SUPPORT. The laws of the composer, R119, R137, R145 and R151 to R154: what they read of a state, and the changes of contexts,
of requests and of the pool under which they carry over.
-/

namespace Sys2Proof.Machine

/-- The laws of the brief buffers, each of which a step keeps under the others: one place each (R151), canonical form, no
composition past its buffer (R145), and whole published briefs (R152 to R154). -/
structure BriefLaws (s : State) : Prop where
  placed : s.buffersPlaced
  canonical : ∀ b : BufNo, s.bcm.buffers[b].wf
  fits : s.briefFits
  whole : s.briefsWhole

/-- The laws of the composer: each that holds of `s` holds of `t`. -/
structure KeepsBriefing (s t : State) : Prop where
  requests : s.requestsSound → t.requestsSound
  blank : s.requestsSound → s.freeIsBlank → t.freeIsBlank
  placed : s.buffersPlaced → t.buffersPlaced
  briefs : BriefLaws s → BriefLaws t

theorem KeepsBriefing.refl (s : State) : KeepsBriefing s s := ⟨id, fun _ h => h, id, id⟩

theorem KeepsBriefing.trans {s t u : State} (h : KeepsBriefing s t) (h' : KeepsBriefing t u) : KeepsBriefing s u :=
  ⟨h'.requests ∘ h.requests, fun hr hb => h'.blank (h.requests hr) (h.blank hr hb), h'.placed ∘ h.placed, h'.briefs ∘ h.briefs⟩

/-! ### The places of a buffer (R151) -/

/-- How many contexts publish a buffer. -/
def publishers (s : State) (b : BufNo) : Nat := (List.finRange 32).countP fun c => s.cxm.contexts[c].published == some b

/-- Each buffer's places, counted apart. -/
theorem buffersPlaced_iff {s : State} : s.buffersPlaced ↔ ∀ b : BufNo,
    (s.bcm.pool[b]).toNat + publishers s b + (s.bcm.composition.any fun x => x.buffer == b).toNat = 1 :=
  forall_congr' fun b => by
    unfold bufferPlaces publishers
    cases s.bcm.pool[b] <;> cases (s.bcm.composition.any fun x => x.buffer == b) <;> rfl

theorem publishers_pos {s : State} {c : CtxNo} {b : BufNo} (h : s.cxm.contexts[c].published = some b) : 0 < publishers s b :=
  List.countP_pos_iff.2 ⟨c, List.mem_finRange c, beq_iff_eq.2 h⟩

theorem publishers_congr {s t : State} (h : ∀ c : CtxNo, t.cxm.contexts[c].published = s.cxm.contexts[c].published)
    (b : BufNo) : publishers t b = publishers s b :=
  List.countP_congr fun c _ => by rw [h c]

/-- A count whose test changes for one member alone. -/
theorem countP_change {α : Type} [DecidableEq α] {l : List α} (hl : l.Nodup) {a : α} (ha : a ∈ l) {p q : α → Bool}
    (h : ∀ x, x ≠ a → q x = p x) : l.countP q + (p a).toNat = l.countP p + (q a).toNat := by
  have hrest : (l.erase a).countP q = (l.erase a).countP p := List.countP_congr fun x hx => by
    rw [h x fun he => (hl.mem_erase_iff.1 hx).1 he]
  have hperm := List.perm_cons_erase ha
  rw [hperm.countP_eq, hperm.countP_eq, List.countP_cons, List.countP_cons, hrest]
  cases p a <;> cases q a <;> simp

/-- The publishers of a buffer when one context changes what it publishes. -/
theorem publishers_change {s t : State} {c : CtxNo}
    (h : ∀ d : CtxNo, d ≠ c → t.cxm.contexts[d].published = s.cxm.contexts[d].published) (b : BufNo) :
    publishers t b + (s.cxm.contexts[c].published == some b).toNat =
      publishers s b + (t.cxm.contexts[c].published == some b).toNat :=
  countP_change (p := fun d => s.cxm.contexts[d].published == some b) (q := fun d => t.cxm.contexts[d].published == some b)
    (List.nodup_finRange 32) (List.mem_finRange c) fun d hd => by rw [h d hd]

/-- The buffer of a composition stands in no other place. -/
theorem State.buffersPlaced.working {s : State} (h : s.buffersPlaced) {x : Composition} (hx : s.bcm.composition = some x) :
    s.bcm.pool[x.buffer] = false ∧ publishers s x.buffer = 0 := by
  have hone := buffersPlaced_iff.1 h x.buffer
  rw [hx, Option.any_some, beq_self_eq_true] at hone
  cases hp : s.bcm.pool[x.buffer] <;> simp_all

/-- No context publishes the buffer of a composition. -/
theorem State.buffersPlaced.published_ne {s : State} (h : s.buffersPlaced) {x : Composition}
    (hx : s.bcm.composition = some x) {c : CtxNo} {b : BufNo} (hb : s.cxm.contexts[c].published = some b) : b ≠ x.buffer := by
  rintro rfl
  exact absurd (h.working hx).2 (publishers_pos hb).ne'

/-- Buffers are placed alike where the pool and the buffer of the composition are the same. -/
theorem buffersPlaced_congr {s t : State} (hpool : t.bcm.pool = s.bcm.pool)
    (hpublished : ∀ c : CtxNo, t.cxm.contexts[c].published = s.cxm.contexts[c].published)
    (hworking : t.bcm.composition.map (·.buffer) = s.bcm.composition.map (·.buffer)) (h : s.buffersPlaced) : t.buffersPlaced := by
  rw [buffersPlaced_iff] at h ⊢
  intro b
  have hany : ∀ o : Option Composition, (o.any fun x => x.buffer == b) = (o.map (·.buffer)).any (· == b) := fun o => by
    cases o <;> rfl
  rw [hpool, publishers_congr hpublished, hany, hworking, ← hany]
  exact h b

/-! ### Contexts -/

/-- A context keeps what the composer's laws read of it: its buffer and its brief epoch; an Assigned one stays Assigned, and one
that is Free afterwards is as blank as it was. -/
structure SameBrief (x y : Context) : Prop where
  published : y.published = x.published := by rfl
  epoch : y.briefEpoch = x.briefEpoch := by rfl
  assigned : x.assigned = true → y.assigned = true := by exact fun h => h
  free : y.assigned = false → x = freeContext x.briefEpoch → y = freeContext y.briefEpoch

theorem SameBrief.refl (x : Context) : SameBrief x x := { free := fun _ h => h }

/-- Of a context that is Assigned afterwards nothing is asked but its buffer and its epoch. -/
theorem SameBrief.of_assigned {x y : Context} (h : y.assigned = true) (hp : y.published = x.published)
    (he : y.briefEpoch = x.briefEpoch) : SameBrief x y :=
  { published := hp, epoch := he, assigned := fun _ => h, free := fun hf => absurd h (Bool.eq_false_iff.1 hf) }

/-- The laws carry over where every context keeps what they read of it and the composer stands. -/
theorem keepsBriefing_of_contexts {s t : State} (h : ∀ c : CtxNo, SameBrief s.cxm.contexts[c] t.cxm.contexts[c])
    (hb : t.bcm = s.bcm) : KeepsBriefing s t := by
  have hplaced : s.buffersPlaced → t.buffersPlaced :=
    buffersPlaced_congr (by rw [hb]) (fun c => (h c).published) (by rw [hb])
  refine ⟨fun ⟨hdistinct, hassigned, hcomposed⟩ => ?_, fun _ hblank c hc => ?_, hplaced, fun hl => ?_⟩
  · unfold State.requestsSound
    rw [hb]
    exact ⟨hdistinct, fun c hc => (h c).assigned (hassigned c hc),
      fun x hx => ⟨(hcomposed x hx).1, (h _).assigned (hcomposed x hx).2⟩⟩
  · have hfree : s.cxm.contexts[c].assigned = false := by
      cases ha : s.cxm.contexts[c].assigned with
      | false => rfl
      | true => rw [(h c).assigned ha] at hc; cases hc
    exact (h c).free hc (hblank c hfree)
  · refine ⟨hplaced hl.placed, by rw [hb]; exact hl.canonical, by unfold State.briefFits; rw [hb]; exact hl.fits,
      fun c b hcb => ?_⟩
    rw [(h c).published] at hcb
    rw [hb, (h c).epoch]
    exact hl.whole c b hcb

/-- The laws read the contexts and the composer alone. -/
theorem keepsBriefing_of_same {s t : State} (hc : t.cxm.contexts = s.cxm.contexts) (hb : t.bcm = s.bcm) : KeepsBriefing s t :=
  keepsBriefing_of_contexts (fun c => by rw [hc]; exact .refl _) hb

/-- What an operation keeps, it keeps after changes that leave the contexts and the composer. -/
theorem KeepsBriefing.after {s u t : State} (h : KeepsBriefing u t) (hc : u.cxm.contexts = s.cxm.contexts)
    (hb : u.bcm = s.bcm) : KeepsBriefing s t :=
  (keepsBriefing_of_same hc hb).trans h

theorem keepsBriefing_setContext {c : CtxNo} {x : Context} {s : State} (h : SameBrief s.cxm.contexts[c] x) :
    KeepsBriefing s (setContext c x s) :=
  keepsBriefing_of_contexts (fun d => by
    rw [setContext_context]
    split
    · rename_i hd
      rw [hd]
      exact h
    · exact .refl _) rfl

theorem keepsBriefing_offer (n : Notice) (s : State) : KeepsBriefing s (offer n s) :=
  keepsBriefing_of_contexts (fun c => by
    rw [offer_context]
    split
    · rename_i hd
      have ha := ((deliveredTo_iff s c n).1 hd).1
      exact .of_assigned ha rfl rfl
    · exact .refl _) (offer_bcm n s)

theorem keepsBriefing_offerAll (ns : List Notice) (s : State) : KeepsBriefing s (offerAll ns s) := by
  induction ns generalizing s with
  | nil => exact .refl s
  | cons n ns ih => exact (keepsBriefing_offer n s).trans (ih _)

/-! ### Requests, disturbance and abandonment (R137 to R139, R147, R149) -/

/-- Where a composition goes on as it walked, in its buffer, and the contexts, the pool and the buffers stand, the laws but that of
the requests carry over. -/
theorem keepsBriefing_of_queue {s t : State} (hc : t.cxm.contexts = s.cxm.contexts) (hpool : t.bcm.pool = s.bcm.pool)
    (hbuffers : t.bcm.buffers = s.bcm.buffers)
    (hcomposition : t.bcm.composition.map (fun x => (x.buffer, x.phase, x.walk)) =
      s.bcm.composition.map fun x => (x.buffer, x.phase, x.walk))
    (hrequests : s.requestsSound → t.requestsSound) : KeepsBriefing s t := by
  have hplaced : s.buffersPlaced → t.buffersPlaced := buffersPlaced_congr hpool (fun c => by rw [hc]) (by
    simpa [Function.comp_def] using congrArg (Option.map Prod.fst) hcomposition)
  refine ⟨hrequests, fun _ hblank => ?_, hplaced, fun hl => ⟨hplaced hl.placed, ?_, fun y hy => ?_, ?_⟩⟩
  · unfold State.freeIsBlank
    rw [hc]
    exact hblank
  · rw [hbuffers]
    exact hl.canonical
  · rw [hy, Option.map_some] at hcomposition
    obtain ⟨x, hx, he⟩ := Option.map_eq_some_iff.1 hcomposition.symm
    simp only [Prod.mk.injEq] at he
    obtain ⟨-, hphase, hwalk⟩ := he
    rw [← hphase, ← hwalk]
    exact hl.fits x hx
  · unfold State.briefsWhole
    rw [hc, hbuffers]
    exact hl.whole

theorem keepsBriefing_disturb (s : State) : KeepsBriefing s (disturb s) := by
  refine keepsBriefing_of_queue rfl rfl rfl (by simp [Option.map_map, Function.comp_def]) fun ⟨hdistinct, hassigned, hcomposed⟩ =>
    ⟨hdistinct, hassigned, fun y hy => ?_⟩
  obtain ⟨x, hx, rfl⟩ := Option.map_eq_some_iff.1 hy
  exact hcomposed x hx

theorem keepsBriefing_disturbFloors (fs : List Nat) (s : State) : KeepsBriefing s (disturbFloors fs s) := by
  unfold disturbFloors
  split
  · exact keepsBriefing_disturb s
  · exact .refl s

/-- A composition that ends gives its buffer back to the pool; its context may join the Urgent group (R149). -/
theorem keepsBriefing_abandon (requeue : Bool) (s : State) : KeepsBriefing s (abandon requeue s) := by
  rcases abandon_cases requeue s with ⟨-, h⟩ | ⟨x, hx, h⟩
  · rw [h]
    exact .refl s
  · have hcxm := abandon_cxm requeue s
    have hplaced : s.buffersPlaced → (abandon requeue s).buffersPlaced := fun hp => by
      obtain ⟨hpool, hnone⟩ := hp.working hx
      rw [buffersPlaced_iff] at hp ⊢
      intro b
      rw [publishers_congr (s := s) fun c => by rw [hcxm], h]
      have hone := hp b
      by_cases hb : x.buffer = b
      · subst hb
        simp [hnone]
      · have hne : x.buffer.val ≠ b.val := fun he => hb (Fin.ext he)
        rw [hx, Option.any_some, beq_eq_false_iff_ne.2 hb] at hone
        simpa [Vector.getElem_set_ne, hne] using hone
    refine ⟨fun ⟨hdistinct, hassigned, hcomposed⟩ => ?_, fun _ hblank => ?_, hplaced, fun hl => ⟨hplaced hl.placed, ?_, ?_, ?_⟩⟩
    · obtain ⟨hnot, ha⟩ := hcomposed x hx
      unfold State.requestsSound
      rw [hcxm, h]
      refine ⟨?_, ?_, fun y hy => by cases hy⟩
      · cases requeue with
        | false => exact hdistinct
        | true => simpa using List.nodup_middle.2 (List.nodup_cons.2 ⟨hnot, hdistinct⟩)
      · cases requeue with
        | false => exact hassigned
        | true =>
          intro c hc
          by_cases he : c = x.context
          · rw [he]
            exact ha
          · exact hassigned c (by simpa [he] using hc)
    · unfold State.freeIsBlank
      rw [hcxm]
      exact hblank
    · rw [abandon_buffers]
      exact hl.canonical
    · intro y hy
      rw [h] at hy
      cases hy
    · unfold State.briefsWhole
      rw [hcxm, abandon_buffers]
      exact hl.whole

theorem keepsBriefing_focusChanged (s : State) : KeepsBriefing s (focusChanged s) := by
  unfold focusChanged
  split
  · exact keepsBriefing_abandon true s
  · exact .refl s

/-- A request for an Assigned context that is in neither group and is not composed may join either (R138). -/
theorem requestsSound_join {s t : State} {c : CtxNo} (ha : s.cxm.contexts[c].assigned = true) (hk : s.bcm.composing ≠ some c)
    (hc : t.cxm = s.cxm) (hx : t.bcm.composition = s.bcm.composition)
    (hq : (t.bcm.urgent ++ t.bcm.normal).Perm (c :: (s.bcm.urgent ++ s.bcm.normal).erase c)) (h : s.requestsSound) :
    t.requestsSound := by
  obtain ⟨hdistinct, hassigned, hcomposed⟩ := h
  unfold State.requestsSound
  rw [hc, hx]
  simp only [hq.mem_iff, List.mem_cons]
  refine ⟨hq.nodup_iff.2 (List.nodup_cons.2 ⟨fun hm => (hdistinct.mem_erase_iff.1 hm).1 rfl, hdistinct.erase c⟩), ?_,
    fun x hx => ⟨?_, (hcomposed x hx).2⟩⟩
  · rintro d (rfl | hd)
    · exact ha
    · exact hassigned d (List.mem_of_mem_erase hd)
  · rintro (he | hd)
    · exact hk (by rw [Bcm.composing, hx, Option.map_some, he])
    · exact (hcomposed x hx).1 (List.mem_of_mem_erase hd)

theorem keepsBriefing_briefRequest (c : CtxNo) (u : Urgency) (fromMove : Bool) (s : State) :
    KeepsBriefing s (briefRequest c u fromMove s) := by
  have hcxm := briefRequest_cxm c u fromMove s
  rcases briefRequest_cases c u fromMove s with ⟨-, h⟩ | ⟨-, -, h⟩ | ⟨ha, hk, ⟨-, h⟩ | ⟨-, -, -, h⟩ | ⟨hu, hn, -, h⟩ |
    ⟨hu, hn, h⟩⟩
  · rw [h]; exact .refl s
  · rw [h]
    cases fromMove
    · exact keepsBriefing_disturb s
    · exact keepsBriefing_abandon true s
  · rw [h]; exact .refl s
  · rw [h]; exact .refl s
  · refine keepsBriefing_of_queue (by rw [hcxm]) (by rw [h]) (by rw [h]) (by rw [h])
      (requestsSound_join ha hk hcxm (by rw [h]) ?_)
    rw [h, List.erase_append_right _ hu, List.append_assoc]
    exact List.perm_middle
  · refine keepsBriefing_of_queue (by rw [hcxm]) (by rw [h]) (by rw [h]) (by rw [h])
      (requestsSound_join ha hk hcxm (by rw [h]) ?_)
    rw [h, List.erase_of_not_mem (by simp [hu, hn])]
    cases u with
    | urgent => simp
    | normal => simp [← List.append_assoc]

theorem keepsBriefing_handRequests (rs : List (CtxNo × Urgency)) (s : State) : KeepsBriefing s (handRequests rs s) := by
  have hrun : ∀ (rs : List (CtxNo × Urgency)) (u : State),
      KeepsBriefing u (rs.foldl (fun s r => briefRequest r.1 r.2 false s) u) := fun rs => by
    induction rs with
    | nil => exact .refl
    | cons r rs ih => exact fun u => (keepsBriefing_briefRequest r.1 r.2 false u).trans (ih _)
  exact (hrun _ _).after rfl rfl

theorem keepsBriefing_requestNormal (p : CtxNo → Bool) (s : State) : KeepsBriefing s (requestNormal p s) :=
  keepsBriefing_handRequests _ s

end Sys2Proof.Machine
end

section
/-!
SUPPORT. The composer's own events, each said once as the state it leaves (R142 to R145, R148, R151 to R153).
-/

namespace Sys2Proof.Machine

/-! ### COMPOSITION_START (R137, R142, R151) -/

/-- The head of the request queue is the head of the Urgent group, or of the Normal group when that is empty (R137). -/
theorem head_eq_some {b : Bcm} {c : CtxNo} :
    b.head = some c ↔ b.urgent.head? = some c ∨ b.urgent = [] ∧ b.normal.head? = some c := by
  unfold Bcm.head
  cases b.urgent <;> simp

/-- The head taken from the queue leaves the rest of it in order. -/
theorem head_cons_rest {b : Bcm} {c : CtxNo} (h : b.head = some c) :
    c :: (b.urgent.tail ++ if b.urgent.isEmpty then b.normal.tail else b.normal) = b.urgent ++ b.normal := by
  unfold Bcm.head at h
  cases hu : b.urgent with
  | nil =>
    rw [hu, List.head?_nil, Option.none_or] at h
    simpa using List.cons_head?_tail h
  | cons d rest =>
    rw [hu, List.head?_cons, Option.some_or] at h
    simpa using (Option.some.inj h).symm

/-- The buffer taken is the lowest-numbered of the pool (R151). -/
theorem lowestFree_eq_some {b : Bcm} {k : BufNo} (hk : b.pool[k] = true) (hlow : ∀ j : BufNo, j < k → b.pool[j] = false) :
    b.lowestFree = some k := by
  unfold Bcm.lowestFree
  refine List.find?_eq_some_iff_getElem.2 ⟨hk, k.val, by simp, by simp, fun j hj => ?_⟩
  simpa using hlow ⟨j, hj.trans k.isLt⟩ hj

theorem lowestFree_pooled {b : Bcm} {k : BufNo} (h : b.lowestFree = some k) : b.pool[k] = true :=
  List.find?_some (p := fun k => b.pool[k]) h

/-- The composition that a start makes, and the composer with it (R142). -/
def startedBcm (s : State) (c : CtxNo) (b : BufNo) (r : FloorRange) : Bcm :=
  { s.bcm with
    urgent := s.bcm.urgent.tail
    normal := if s.bcm.urgent.isEmpty then s.bcm.normal.tail else s.bcm.normal
    pool := s.bcm.pool.set b false
    composition := some
      { context := c, buffer := b, range := r, mode := s.cxm.contexts[c].mode, restarts := 0, disturbed := false
        phase := .walking, walk := newWalk r } }

theorem startComposition_started {s : State} {c : CtxNo} {b : BufNo} {r : FloorRange} (hidle : s.bcm.composition = none)
    (hc : s.bcm.head = some c) (hb : s.bcm.lowestFree = some b) (hr : currentRange s c = some r) :
    startComposition s = { s with bcm := startedBcm s c b r } := by
  unfold startComposition
  simp only [hidle, hc, hb, hr]
  rfl

/-- Everything a start can do. -/
theorem startComposition_cases (s : State) : startComposition s = s ∨ ∃ c b r, s.bcm.composition = none ∧
    s.bcm.head = some c ∧ s.bcm.lowestFree = some b ∧ startComposition s = { s with bcm := startedBcm s c b r } := by
  cases hidle : s.bcm.composition with
  | some x => exact Or.inl (by unfold startComposition; rw [hidle])
  | none =>
    cases hc : s.bcm.head with
    | none => exact Or.inl (by unfold startComposition; rw [hidle, hc])
    | some c =>
      cases hb : s.bcm.lowestFree with
      | none => exact Or.inl (by unfold startComposition; rw [hidle, hc, hb])
      | some b =>
        cases hr : currentRange s c with
        | none => exact Or.inl (by unfold startComposition; simp only [hidle, hc, hb, hr])
        | some r => exact Or.inr ⟨c, b, r, rfl, rfl, rfl, startComposition_started hidle hc hb hr⟩

/-! ### WALK_STEP (R143 to R145, R148) -/

/-- An item that a walk step tests for space, with what meeting it does to the walk's flags. -/
structure MetItem where
  bytes : List Byte
  meet  : WalkFlags → WalkFlags

/-- A Zone item and the Entry items that follow it, in Alarm List order (R143). -/
def zoneItems (s : State) (firstSection : Bool) (zone : Nat) : List MetItem :=
  { bytes := zoneItem s zone, meet := id } ::
    (zoneEntries s.ale zone).map fun e => { bytes := entryItem s e.1 e.2, meet := fun f => f.meetEntry firstSection e.2 }

/-- The items that the step at the walk's place tests; Lift items are written untested (R145). -/
def metItems (s : State) (c : Composition) : List MetItem :=
  match c.walk.pos with
  | .floorHead f => [{ bytes := floorHeadItem s f, meet := fun flags => flags.meetFloor (markAt s f).mark }]
  | .feature f j =>
    match (floorFeatures s.psc f)[j]? with
    | none => []
    | some loc =>
      [{ bytes := featureItem s loc, meet := fun flags => flags.meetFeature (s.psc.planSpace.u8 (loc + 1)) }]
  | .zone f j =>
    match (floorZones s.psc f)[j]? with
    | none => []
    | some loc => zoneItems s (f == c.range.low) (s.psc.planSpace.u16 (loc + 2))
  | .lift _ | .unplaced => []

/-- The place that the walk comes to next (R143). -/
def nextPlace (p : Psc) (c : Composition) : WalkPos :=
  match c.walk.pos with
  | .floorHead f => placeAfter p c.range.high f 0 0
  | .feature f j => placeAfter p c.range.high f (j + 1) 0
  | .zone f j => placeAfter p c.range.high f (floorFeatures p f).length (j + 1)
  | .lift k => if k = 0 then .lift 1 else .unplaced
  | .unplaced => .unplaced

/-- A walk that has tested these items and comes to `pos` (R145). -/
def testedWalk (items : List MetItem) (pos : WalkPos) (w : Walk) : Walk :=
  let bytes := items.map (·.bytes)
  { w with
    pos := pos
    offset := w.offset + (laidDown w.offset bytes).length
    items := w.items + items.length - leftOut w.offset bytes
    omitted := if leftOut w.offset bytes = 0 then w.omitted else min 65535 (w.omitted + leftOut w.offset bytes)
    flags := items.foldl (fun f i => i.meet f) w.flags }

/-- What the unplaced step reads into the walk (R143). -/
def unplacedRead (s : State) (w : Walk) : Walk :=
  { w with unplacedRollup := s.ale.unplacedRollup, unplacedEntries := (unplacedEntries s.ale).length }

/-- The composition after a walk step. -/
def walkedOn (s : State) (c : Composition) : Composition :=
  match c.walk.pos with
  | .lift _ =>
    { c with walk := { c.walk with offset := c.walk.offset + 12, items := c.walk.items + 1, pos := nextPlace s.psc c } }
  | .unplaced => completeWalk { c with walk := unplacedRead s c.walk }
  | _ => { c with walk := testedWalk (metItems s c) (nextPlace s.psc c) c.walk }

/-- The bytes that a walk step writes at the walk's offset. -/
def walkedBytes (s : State) (c : Composition) : List Byte :=
  match c.walk.pos with
  | .lift k => liftItem s k
  | _ => laidDown c.walk.offset ((metItems s c).map (·.bytes))

theorem length_liftItem (s : State) (k : Fin 2) : (liftItem s k).length = 12 := rfl

/-- One item met and tested for space. -/
def testItem (c : Composition) (sw : State × Walk) (i : MetItem) : State × Walk :=
  putItem c i.bytes (sw.1, { sw.2 with flags := i.meet sw.2.flags })

/-- Items tested one after another, the walk then set to a place. -/
theorem testedItems_eq (c : Composition) (items : List MetItem) (pos : WalkPos) (s : State) :
    setComposition { c with walk := { (items.foldl (testItem c) (s, c.walk)).2 with pos := pos } }
        (items.foldl (testItem c) (s, c.walk)).1 =
      setComposition { c with walk := testedWalk items pos c.walk }
        (storeBytes c c.walk.offset (laidDown c.walk.offset (items.map (·.bytes))) s) := by
  obtain ⟨hstate, hwalk, -⟩ := putItems_cases c MetItem.bytes MetItem.meet items (s, c.walk)
  change (items.foldl (testItem c) (s, c.walk)).1 = _ at hstate
  change (items.foldl (testItem c) (s, c.walk)).2 = _ at hwalk
  rw [hstate, hwalk]
  unfold testedWalk
  dsimp only

/-- An Entry item reads nothing that an item before it changes. -/
theorem entryItem_congr {s t : State} (h : t.psc = s.psc) : entryItem t = entryItem s := by
  funext i e
  unfold entryItem
  rw [h]

/-- The Entry items of a zone, as the items that the step tests. -/
theorem putEntries_eq (c : Composition) (floor : Nat) (es : List (EntryNo × Entry)) {s : State} {sw : State × Walk}
    (h : sw.1.psc = s.psc) : putEntries c floor es sw =
      (es.map fun e : EntryNo × Entry => ({ bytes := entryItem s e.1 e.2
                                            meet := fun f => f.meetEntry (floor == c.range.low) e.2 } : MetItem)).foldl
        (testItem c) sw := by
  unfold putEntries
  rw [List.foldl_map]
  induction es generalizing sw with
  | nil => simp only [List.foldl_nil]
  | cons e es ih =>
    have hitem : testItem c sw { bytes := entryItem s e.1 e.2, meet := fun f => f.meetEntry (floor == c.range.low) e.2 } =
        putItem c (entryItem sw.1 e.1 e.2)
          (sw.1, { sw.2 with flags := sw.2.flags.meetEntry (floor == c.range.low) e.2 }) := by
      rw [entryItem_congr h, testItem]
    rw [List.foldl_cons, List.foldl_cons, hitem]
    refine ih ?_
    rw [putItem_psc]
    exact h

theorem zoneStep_eq (p : Psc) (c : Composition) (f j : Nat) :
    zoneStep p c f j = placeAfter p c.range.high f (floorFeatures p f).length j := by
  unfold placeAfter
  rw [if_neg (lt_irrefl _)]
  rfl

theorem featureStep_eq (p : Psc) (c : Composition) (f j : Nat) :
    featureStep p c f j = placeAfter p c.range.high f j 0 := rfl

/-- One item tested, the walk then set to a place. -/
theorem testedItem_eq (c : Composition) (bytes : List Byte) (meet : WalkFlags → WalkFlags) (pos : WalkPos) (s : State) :
    setComposition { c with walk := { (putItem c bytes (s, { c.walk with flags := meet c.walk.flags })).2 with pos := pos } }
        (putItem c bytes (s, { c.walk with flags := meet c.walk.flags })).1 =
      setComposition { c with walk := testedWalk [{ bytes := bytes, meet := meet }] pos c.walk }
        (storeBytes c c.walk.offset (laidDown c.walk.offset [bytes]) s) := by
  have h := testedItems_eq c [{ bytes := bytes, meet := meet }] pos s
  simp only [List.foldl_cons, List.foldl_nil, testItem, List.map_cons, List.map_nil] at h
  exact h

/-- No item tested, the walk then set to a place. -/
theorem testedNone_eq (c : Composition) (pos : WalkPos) (s : State) :
    setComposition { c with walk := { c.walk with pos := pos } } s =
      setComposition { c with walk := testedWalk [] pos c.walk } (storeBytes c c.walk.offset (laidDown c.walk.offset []) s) := by
  have h := testedItems_eq c [] pos s
  simp only [List.foldl_nil, List.map_nil] at h
  exact h

/-- A Zone item and its Entry items tested, the walk then set to a place. -/
theorem testedZone_eq (c : Composition) (floor zone : Nat) (pos : WalkPos) (s : State) :
    let sw := putEntries c floor (zoneEntries s.ale zone) (putItem c (zoneItem s zone) (s, c.walk))
    setComposition { c with walk := { sw.2 with pos := pos } } sw.1 =
      setComposition { c with walk := testedWalk (zoneItems s (floor == c.range.low) zone) pos c.walk }
        (storeBytes c c.walk.offset
          (laidDown c.walk.offset ((zoneItems s (floor == c.range.low) zone).map (·.bytes))) s) := by
  have h := testedItems_eq c (zoneItems s (floor == c.range.low) zone) pos s
  have hentries := putEntries_eq c floor (zoneEntries s.ale zone) (putItem_psc c (zoneItem s zone) (s, c.walk))
  have hzone : (zoneItems s (floor == c.range.low) zone).foldl (testItem c) (s, c.walk) =
      putEntries c floor (zoneEntries s.ale zone) (putItem c (zoneItem s zone) (s, c.walk)) := by
    rw [hentries, zoneItems, List.foldl_cons, testItem]
    simp only [id_eq]
  rw [hzone] at h
  exact h

/-- One step of a walk: its bytes stored at the walk's offset, and the composition moved on. -/
theorem walkStep_eq (c : Composition) (s : State) :
    walkStep c s = setComposition (walkedOn s c) (storeBytes c c.walk.offset (walkedBytes s c) s) := by
  unfold walkStep walkedOn walkedBytes nextPlace metItems
  cases hpos : c.walk.pos with
  | floorHead f =>
    have h := testedItem_eq c (floorHeadItem s f) (fun flags => flags.meetFloor (markAt s f).mark)
      (placeAfter s.psc c.range.high f 0 0) s
    dsimp only at h
    simp only [featureStep_eq, List.map_cons, List.map_nil]
    exact h
  | feature f j =>
    dsimp only
    rw [featureStep_eq]
    cases hloc : (floorFeatures s.psc f)[j]? with
    | none => exact testedNone_eq c _ s
    | some loc =>
      simp only [List.map_cons, List.map_nil]
      have h := testedItem_eq c (featureItem s loc) (fun flags => flags.meetFeature (s.psc.planSpace.u8 (loc + 1)))
        (placeAfter s.psc c.range.high f (j + 1) 0) s
      dsimp only at h
      exact h
  | zone f j =>
    dsimp only
    rw [zoneStep_eq]
    cases hloc : (floorZones s.psc f)[j]? with
    | none => exact testedNone_eq c _ s
    | some loc =>
      have h := testedZone_eq c f (s.psc.planSpace.u16 (loc + 2))
        (placeAfter s.psc c.range.high f (floorFeatures s.psc f).length (j + 1)) s
      dsimp only at h
      exact h
  | lift k => rfl
  | unplaced =>
    dsimp only
    rw [List.map_nil, laidDown, storeBytes_nil, unplacedRead]

/-! ### SEAL (R152, R153) -/

/-- Two changes of one place, one after the other. -/
theorem updateAt_updateAt {α : Type} {n : Nat} (v : Vector α n) (i : Fin n) (f g : α → α) :
    updateAt (updateAt v i f) i g = updateAt v i fun x => g (f x) := by
  refine table_ext fun k => ?_
  simp only [Fin.getElem_fin, getElem_updateAt]
  split <;> rfl

/-- The epoch that a seal gives to the context of its composition (R153). -/
def sealedEpoch (s : State) (c : Composition) : Half := s.cxm.contexts[c.context].briefEpoch + 1

/-- The buffer framed by its header and trailer (R152). -/
def framedBrief (s : State) (c : Composition) (m : Memory) : Memory :=
  (m.writeAll 0 (briefHeader s c (sealedEpoch s c))).writeAll c.walk.offset (briefTrailer c (sealedEpoch s c))

/-- The context that a seal publishes to (R153). -/
def sealedContext (s : State) (c : Composition) : Context :=
  { s.cxm.contexts[c.context] with briefEpoch := sealedEpoch s c, published := some c.buffer, fresh := true }

theorem sealBrief_cxm (c : Composition) (s : State) :
    (sealBrief c s).cxm = { s.cxm with contexts := s.cxm.contexts.set c.context (sealedContext s c) } := by
  unfold sealBrief
  dsimp only
  split <;> rfl

/-- What a seal leaves of the composer (R153). -/
theorem sealBrief_bcm (c : Composition) (s : State) :
    (sealBrief c s).bcm.composition = none ∧ (sealBrief c s).bcm.urgent = s.bcm.urgent ∧
      (sealBrief c s).bcm.normal = (if c.disturbed then s.bcm.normal ++ [c.context] else s.bcm.normal) ∧
      (sealBrief c s).bcm.buffers = updateAt s.bcm.buffers c.buffer (framedBrief s c) ∧
      ∀ b : BufNo, (sealBrief c s).bcm.pool[b] = (s.bcm.pool[b] || s.cxm.contexts[c.context].published == some b) := by
  have hbuffers := updateAt_updateAt s.bcm.buffers c.buffer (fun m => m.writeAll 0 (briefHeader s c (sealedEpoch s c)))
    fun m => m.writeAll c.walk.offset (briefTrailer c (sealedEpoch s c))
  unfold sealBrief
  dsimp only
  cases hp : s.cxm.contexts[c.context].published with
  | none => exact ⟨rfl, rfl, rfl, hbuffers, fun b => by simp⟩
  | some a =>
    refine ⟨rfl, rfl, rfl, hbuffers, fun b => ?_⟩
    by_cases he : a = b
    · subst he
      simp
    · have hv : a.val ≠ b.val := fun h => he (Fin.ext h)
      simp [Vector.getElem_set_ne, hv, he]

theorem sealBrief_rest (c : Composition) (s : State) :
    sealBrief c s = { s with cxm := (sealBrief c s).cxm, bcm := (sealBrief c s).bcm } := by
  unfold sealBrief
  dsimp only
  split <;> rfl

@[simp] theorem length_briefHeader (s : State) (c : Composition) (epoch : Half) : (briefHeader s c epoch).length = 32 := by
  simp [briefHeader]

@[simp] theorem length_briefTrailer (c : Composition) (epoch : Half) : (briefTrailer c epoch).length = 16 := by
  simp [briefTrailer]

/-- Bytes read back from where they were stored. -/
theorem readAll_writeAll {m : Memory} (h : m.wf) (a : Nat) (bs : List Byte) : (m.writeAll a bs).readAll a bs.length = bs := by
  refine List.ext_getElem (by simp) fun i h1 h2 => ?_
  simp only [Memory.readAll, List.getElem_map, List.getElem_range]
  rw [Memory.read_writeAll h, if_pos (by omega), Nat.add_sub_cancel_left, List.getD_eq_getElem _ _ h2]

/-- Bytes stored elsewhere leave what a run of addresses reads. -/
theorem readAll_writeAll_apart {m : Memory} (h : m.wf) {a off n : Nat} {bs : List Byte}
    (hapart : off + n ≤ a ∨ a + bs.length ≤ off) : (m.writeAll a bs).readAll off n = m.readAll off n := by
  refine List.map_congr_left fun k hk => ?_
  have hk' := List.mem_range.1 hk
  rw [Memory.read_writeAll h, if_neg (by omega)]

/-- The framed buffer shows its header, its trailer, and between them the items as they stood (R152). -/
theorem framedBrief_reads {s : State} {c : Composition} {m : Memory} (hm : m.wf) (hoff : 32 ≤ c.walk.offset) :
    (framedBrief s c m).readAll 0 32 = briefHeader s c (sealedEpoch s c) ∧
      (framedBrief s c m).readAll c.walk.offset 16 = briefTrailer c (sealedEpoch s c) ∧
      ∀ a, 32 ≤ a → a < c.walk.offset → (framedBrief s c m).read a = m.read a := by
  have hheader : (m.writeAll 0 (briefHeader s c (sealedEpoch s c))).wf := Memory.writeAll_wf 0 _ hm
  refine ⟨?_, ?_, fun a hlow hhigh => ?_⟩
  · exact (readAll_writeAll_apart hheader (Or.inl (by simpa using hoff))).trans
      (by simpa using readAll_writeAll hm 0 (briefHeader s c (sealedEpoch s c)))
  · simpa [framedBrief] using readAll_writeAll hheader c.walk.offset (briefTrailer c (sealedEpoch s c))
  · unfold framedBrief
    rw [Memory.read_writeAll hheader, if_neg (by omega), Memory.read_writeAll hm, if_neg (by simp; omega)]

theorem framedBrief_wf (s : State) (c : Composition) {m : Memory} (hm : m.wf) : (framedBrief s c m).wf :=
  Memory.writeAll_wf _ _ (Memory.writeAll_wf _ _ hm)

end Sys2Proof.Machine
end

section
/-!
SUPPORT. The composer's own events and the release of a context keep the laws of the composer (R124, R142 to R153).
-/

namespace Sys2Proof.Machine

/-! ### Fields read back from a run of bytes -/

theorem u16_of_reads {m : Memory} {a k : Nat} (hlow : m.read a = byteOf k) (hhigh : m.read (a + 1) = byteOf (k / 256))
    (hk : k < 65536) : m.u16 a = k := by
  unfold Memory.u16 Memory.u8
  rw [hlow, hhigh, byteOf, byteOf, BitVec.toNat_ofNat, BitVec.toNat_ofNat]
  omega

/-- A 2-byte field within a run of bytes. -/
theorem u16_of_readAll {m : Memory} {a n k : Nat} {before behind : List Byte}
    (h : m.readAll a n = before ++ (le16 k ++ behind)) (hk : k < 65536) : m.u16 (a + before.length) = k := by
  have hn : n = before.length + (2 + behind.length) := by
    have hlen := congrArg List.length h
    simp only [Memory.readAll, le16, List.length_map, List.length_range, List.length_append, List.length_cons,
      List.length_nil] at hlen
    omega
  have hread : ∀ j, j < n → (before ++ (le16 k ++ behind))[j]? = some (m.read (a + j)) := fun j hj => by
    rw [← h]
    simp [Memory.readAll, hj]
  have hlow := hread before.length (by omega)
  have hhigh := hread (before.length + 1) (by omega)
  rw [List.getElem?_append_right (by omega)] at hlow hhigh
  simp only [Nat.sub_self, Nat.add_sub_cancel_left, le16, List.cons_append, List.getElem?_cons_zero,
    List.getElem?_cons_succ, Option.some.injEq] at hlow hhigh
  exact u16_of_reads hlow.symm (by rw [Nat.add_assoc, ← hhigh]) hk

/-- A change of one place leaves every other. -/
theorem updateAt_ne {α : Type} {n : Nat} (v : Vector α n) {i k : Fin n} (f : α → α) (h : k ≠ i) : (updateAt v i f)[k] = v[k] := by
  simp only [Fin.getElem_fin, getElem_updateAt]
  exact if_neg fun he => h (Fin.ext he)

/-! ### The bounds of a walk (R145) -/

/-- A composition has written within its buffer, as far as its place allows. -/
def Composition.fits (x : Composition) : Prop :=
  headerBytes ≤ x.walk.offset ∧ x.walk.offset ≤ (if x.phase = .sealing then itemLimit + 24 else walkRoom x.walk.pos)

theorem newWalk_fits (r : FloorRange) : headerBytes ≤ (newWalk r).offset ∧ (newWalk r).offset ≤ walkRoom (newWalk r).pos :=
  ⟨le_rfl, show 32 ≤ 8152 by omega⟩

/-- Items tested for space end by 8152, wherever the first of them stands below it. -/
theorem laidDown_end (off : Nat) (items : List (List Byte)) (h : off ≤ itemLimit) :
    off + (laidDown off items).length ≤ itemLimit := by
  induction items generalizing off with
  | nil => exact h
  | cons item rest ih =>
    unfold laidDown
    split
    · rename_i hfit
      have := ih (off + item.length) hfit
      rw [List.length_append]
      omega
    · exact ih off h

theorem walkRoom_placeAfter (p : Psc) (high f i j : Nat) : walkRoom (placeAfter p high f i j) = itemLimit := by
  unfold placeAfter
  split
  · rfl
  · split
    · rfl
    · split <;> rfl

/-- The place after one that tests items has room for the items' end. -/
theorem walkRoom_nextPlace (p : Psc) {c : Composition} (hlift : ∀ k, c.walk.pos ≠ .lift k) (hplace : c.walk.pos ≠ .unplaced) :
    walkRoom (nextPlace p c) = itemLimit ∧ walkRoom c.walk.pos = itemLimit := by
  unfold nextPlace
  cases hpos : c.walk.pos with
  | floorHead f => exact ⟨walkRoom_placeAfter .., rfl⟩
  | feature f j => exact ⟨walkRoom_placeAfter .., rfl⟩
  | zone f j => exact ⟨walkRoom_placeAfter .., rfl⟩
  | lift k => exact absurd hpos (hlift k)
  | unplaced => exact absurd hpos hplace

/-- The end of a walk, and a new walk into the same buffer, stand within it (R148). -/
theorem completeWalk_fits {c : Composition} (hlow : headerBytes ≤ c.walk.offset) (hhigh : c.walk.offset ≤ itemLimit + 24)
    (hphase : c.phase = .walking) : (completeWalk c).fits := by
  unfold completeWalk Composition.fits
  split
  · simpa [hphase] using newWalk_fits c.range
  · simpa using ⟨hlow, hhigh⟩

/-- The composition after a walk step, at a place whose items are tested. -/
theorem walkedOn_tested (s : State) {c : Composition} (hlift : ∀ k, c.walk.pos ≠ .lift k) (hplace : c.walk.pos ≠ .unplaced) :
    walkedOn s c = { c with walk := testedWalk (metItems s c) (nextPlace s.psc c) c.walk } := by
  unfold walkedOn
  cases hpos : c.walk.pos with
  | lift k => exact absurd hpos (hlift k)
  | unplaced => exact absurd hpos hplace
  | _ => rfl

theorem walkedOn_same (s : State) (c : Composition) :
    (walkedOn s c).context = c.context ∧ (walkedOn s c).buffer = c.buffer ∧ (walkedOn s c).range = c.range ∧
      (walkedOn s c).mode = c.mode := by
  unfold walkedOn completeWalk
  split
  · exact ⟨rfl, rfl, rfl, rfl⟩
  · split <;> exact ⟨rfl, rfl, rfl, rfl⟩
  · exact ⟨rfl, rfl, rfl, rfl⟩

theorem walkedOn_fits (s : State) {c : Composition} (hphase : c.phase = .walking) (h : c.fits) : (walkedOn s c).fits := by
  obtain ⟨hlow, hhigh⟩ := h
  rw [hphase, if_neg (by decide)] at hhigh
  by_cases hplace : c.walk.pos = .unplaced
  · rw [hplace] at hhigh
    unfold walkedOn
    rw [hplace]
    exact completeWalk_fits (c := { c with walk := unplacedRead s c.walk }) hlow hhigh hphase
  by_cases hlift : ∃ k, c.walk.pos = .lift k
  · obtain ⟨k, hk⟩ := hlift
    rw [hk] at hhigh
    unfold walkedOn nextPlace Composition.fits
    simp only [hk, hphase, walkRoom] at hhigh ⊢
    match k with
    | 0 => simp at hhigh ⊢; omega
    | 1 => simp at hhigh ⊢; omega
  · have hnot : ∀ k, c.walk.pos ≠ .lift k := fun k hk => hlift ⟨k, hk⟩
    obtain ⟨hnext, hroom⟩ := walkRoom_nextPlace s.psc hnot hplace
    rw [hroom] at hhigh
    rw [walkedOn_tested s hnot hplace, Composition.fits]
    dsimp only [testedWalk]
    rw [hphase, if_neg (by decide), hnext]
    exact ⟨Nat.le_add_right_of_le hlow, laidDown_end _ _ hhigh⟩

/-! ### The events (R142, R143, R153) -/

/-- Where the composition goes on for its context in its buffer, and that buffer alone changes, the laws carry over. -/
theorem keepsBriefing_of_work {s t : State} {x y : Composition} {f : Memory → Memory} (hx : s.bcm.composition = some x)
    (hc : t.cxm.contexts = s.cxm.contexts)
    (hb : t.bcm = { s.bcm with composition := some y, buffers := updateAt s.bcm.buffers x.buffer f })
    (hcontext : y.context = x.context) (hbuffer : y.buffer = x.buffer) (hwf : ∀ m : Memory, m.wf → (f m).wf)
    (hfits : x.fits → y.fits) : KeepsBriefing s t := by
  have hplaced : s.buffersPlaced → t.buffersPlaced :=
    buffersPlaced_congr (by rw [hb]) (fun c => by rw [hc]) (by rw [hb, hx, Option.map_some, Option.map_some, hbuffer])
  have hothers : ∀ b : BufNo, b ≠ x.buffer → t.bcm.buffers[b] = s.bcm.buffers[b] := fun b hne => by
    rw [hb]
    exact updateAt_ne _ _ hne
  refine ⟨fun ⟨hdistinct, hassigned, hcomposed⟩ => ?_, fun _ hblank => ?_, hplaced, fun hl => ⟨hplaced hl.placed, fun b => ?_,
    fun z hz => ?_, fun c b hcb => ?_⟩⟩
  · unfold State.requestsSound
    rw [hb, hc]
    refine ⟨hdistinct, hassigned, fun z hz => ?_⟩
    cases hz
    simpa only [hcontext] using hcomposed x hx
  · unfold State.freeIsBlank
    rw [hc]
    exact hblank
  · rw [hb]
    simp only [Fin.getElem_fin, getElem_updateAt]
    split
    · exact hwf _ (hl.canonical b)
    · exact hl.canonical b
  · rw [hb] at hz
    cases hz
    exact hfits (hl.fits x hx)
  · rw [hc] at hcb ⊢
    rw [hothers b (hl.placed.published_ne hx hcb)]
    exact hl.whole c b hcb

theorem keepsBriefing_startComposition (s : State) : KeepsBriefing s (startComposition s) := by
  rcases startComposition_cases s with h | ⟨c, b, r, hidle, hc, hb, h⟩
  · rw [h]
    exact .refl s
  rw [h]
  have hqueue := head_cons_rest hc
  have hpublishers : publishers { s with bcm := startedBcm s c b r } = publishers s := rfl
  have hplaced : s.buffersPlaced → State.buffersPlaced { s with bcm := startedBcm s c b r } := fun hp => by
    rw [buffersPlaced_iff, hpublishers]
    rw [buffersPlaced_iff] at hp
    intro a
    have hone := hp a
    rw [hidle, Option.any_none] at hone
    by_cases ha : b = a
    · subst ha
      rw [lowestFree_pooled hb] at hone
      simpa [startedBcm] using hone
    · have hne : b.val ≠ a.val := fun he => ha (Fin.ext he)
      have hother := beq_eq_false_iff_ne.2 ha
      simpa [startedBcm, Vector.getElem_set_ne, hne, hother] using hone
  refine ⟨fun ⟨hdistinct, hassigned, _⟩ => ?_, fun _ hblank => hblank, hplaced, fun hl => ⟨hplaced hl.placed, hl.canonical,
    fun x hx => ?_, hl.whole⟩⟩
  · rw [← hqueue] at hdistinct hassigned
    obtain ⟨hnot, hrest⟩ := List.nodup_cons.1 hdistinct
    refine ⟨hrest, fun d hd => hassigned d (List.mem_cons_of_mem _ hd), fun x hx => ?_⟩
    cases hx
    exact ⟨hnot, hassigned c List.mem_cons_self⟩
  · cases hx
    exact newWalk_fits r

theorem keepsBriefing_walkStep {c : Composition} {s : State} (hc : s.bcm.composition = some c) (hphase : c.phase = .walking) :
    KeepsBriefing s (walkStep c s) := by
  obtain ⟨hcontext, hbuffer, -, -⟩ := walkedOn_same s c
  rw [walkStep_eq]
  exact keepsBriefing_of_work (f := fun m => m.writeAll c.walk.offset (walkedBytes s c)) hc rfl rfl hcontext hbuffer
    (fun _ hm => Memory.writeAll_wf _ _ hm) (walkedOn_fits s hphase)

/-- A framed buffer is whole for its context (R152, R154). -/
theorem framedBrief_whole (s : State) {c : Composition} {m : Memory} (hm : m.wf) (hlow : headerBytes ≤ c.walk.offset)
    (hhigh : c.walk.offset ≤ itemLimit + 24) :
    (framedBrief s c m).u16 0 = (sealedEpoch s c).toNat ∧ (framedBrief s c m).u16 10 = briefLength c ∧
      (framedBrief s c m).u16 c.walk.offset = (sealedEpoch s c).toNat := by
  obtain ⟨hheader, htrailer, -⟩ := framedBrief_reads (s := s) hm hlow
  have hlength : briefLength c < 65536 := by
    unfold briefLength
    have : itemLimit + 24 + trailerBytes < 65536 := by decide
    omega
  have hepoch := (sealedEpoch s c).isLt
  simp only [briefHeader, briefTrailer, List.append_assoc, leHalf] at hheader htrailer
  refine ⟨u16_of_readAll (before := []) hheader hepoch, ?_, u16_of_readAll (before := []) htrailer hepoch⟩
  have h := u16_of_readAll (before := le16 (sealedEpoch s c).toNat ++ ([byteOf c.context.val, c.mode.code] ++
    (s.cxm.contexts[c.context].crewLabel.toList ++ le16 (headerRevision s.psc.planSpace).toNat)))
    (by simpa only [List.append_assoc] using hheader) hlength
  simpa [le16] using h

theorem sealBrief_context (c : Composition) (s : State) (d : CtxNo) : (sealBrief c s).cxm.contexts[d] =
    if d = c.context then sealedContext s c else s.cxm.contexts[d] := by
  rw [sealBrief_cxm]
  exact setContext_context c.context d (sealedContext s c) s

/-- The buffers after a seal: the published one leaves for the pool, the working one is published (R151, R153). -/
theorem buffersPlaced_sealBrief {c : Composition} {s : State} (hc : s.bcm.composition = some c) (h : s.buffersPlaced) :
    (sealBrief c s).buffersPlaced := by
  obtain ⟨hidle, -, -, -, hpool⟩ := sealBrief_bcm c s
  have hchange := publishers_change (s := s) (t := sealBrief c s) (c := c.context) fun d hd => by
    rw [sealBrief_context, if_neg hd]
  rw [buffersPlaced_iff] at h ⊢
  intro b
  have hone := h b
  have hmove := hchange b
  have hold : (s.cxm.contexts[c.context].published == some b) = true → 0 < publishers s b := fun hb =>
    publishers_pos (beq_iff_eq.1 hb)
  have hnew : ((sealedContext s c).published == some b) = (c.buffer == b) := rfl
  rw [sealBrief_context, if_pos rfl, hnew] at hmove
  rw [hc, Option.any_some] at hone
  rw [hidle, hpool, Option.any_none]
  cases hb : s.cxm.contexts[c.context].published == some b with
  | false =>
    rw [hb] at hmove
    rw [Bool.or_false]
    simp only [Bool.toNat_false] at hmove ⊢
    omega
  | true =>
    have hpos := hold hb
    rw [hb] at hmove
    rw [Bool.or_true]
    simp only [Bool.toNat_true, Bool.toNat_false] at hmove ⊢
    omega

/-- A seal publishes a whole brief (R152, R153). -/
theorem briefsWhole_sealBrief {c : Composition} {s : State} (hc : s.bcm.composition = some c) (hphase : c.phase = .sealing)
    (h : BriefLaws s) : (sealBrief c s).briefsWhole := by
  obtain ⟨-, -, -, hbuffers, -⟩ := sealBrief_bcm c s
  obtain ⟨hlow, hhigh⟩ := h.fits c hc
  rw [hphase, if_pos rfl] at hhigh
  intro d b hb
  rw [sealBrief_context] at hb ⊢
  by_cases hd : d = c.context
  · rw [if_pos hd] at hb ⊢
    obtain rfl : c.buffer = b := Option.some.inj hb
    have hframed : (sealBrief c s).bcm.buffers[c.buffer] = framedBrief s c s.bcm.buffers[c.buffer] := by
      rw [hbuffers]
      simp
    obtain ⟨hepoch, hlength, htrailer⟩ := framedBrief_whole s (h.canonical c.buffer) hlow hhigh
    have htop : itemLimit + 24 + trailerBytes = bufferBytes := rfl
    simp only [hframed, hepoch, hlength]
    unfold briefLength
    refine ⟨by omega, by omega, rfl, ?_⟩
    rw [Nat.add_sub_cancel]
    exact htrailer
  · rw [if_neg hd] at hb ⊢
    have hne := h.placed.published_ne hc hb
    have hsame : (sealBrief c s).bcm.buffers[b] = s.bcm.buffers[b] := by
      rw [hbuffers]
      exact updateAt_ne _ _ hne
    rw [hsame]
    exact h.whole d b hb

theorem keepsBriefing_sealBrief {c : Composition} {s : State} (hc : s.bcm.composition = some c) (hphase : c.phase = .sealing) :
    KeepsBriefing s (sealBrief c s) := by
  obtain ⟨hidle, hurgent, hnormal, hbuffers, -⟩ := sealBrief_bcm c s
  have hplaced : s.buffersPlaced → (sealBrief c s).buffersPlaced := buffersPlaced_sealBrief hc
  have hassignedSame : ∀ d : CtxNo, (sealBrief c s).cxm.contexts[d].assigned = s.cxm.contexts[d].assigned := fun d => by
    rw [sealBrief_context]
    split
    · rename_i hd
      rw [hd]
      rfl
    · rfl
  refine ⟨fun ⟨hdistinct, hassigned, hcomposed⟩ => ?_, fun ⟨_, _, hcomposed⟩ hblank d hd => ?_, hplaced, fun hl =>
    ⟨hplaced hl.placed, fun b => ?_, fun y hy => ?_, briefsWhole_sealBrief hc hphase hl⟩⟩
  · obtain ⟨hnot, ha⟩ := hcomposed c hc
    unfold State.requestsSound
    rw [hidle, hurgent, hnormal]
    simp only [hassignedSame]
    cases c.disturbed with
    | false => exact ⟨hdistinct, hassigned, fun y hy => by cases hy⟩
    | true =>
      rw [if_pos rfl, ← List.append_assoc]
      refine ⟨(List.perm_append_singleton _ _).nodup_iff.2 (List.nodup_cons.2 ⟨hnot, hdistinct⟩), fun d hd => ?_,
        fun y hy => by cases hy⟩
      rcases List.mem_append.1 hd with hd | hd
      · exact hassigned d hd
      · obtain rfl := List.mem_singleton.1 hd
        exact ha
  · rw [hassignedSame] at hd
    have hne : d ≠ c.context := by
      rintro rfl
      rw [(hcomposed c hc).2] at hd
      cases hd
    rw [sealBrief_context, if_neg hne]
    exact hblank d hd
  · rw [hbuffers]
    simp only [Fin.getElem_fin, getElem_updateAt]
    split
    · exact framedBrief_wf s c (hl.canonical b)
    · exact hl.canonical b
  · rw [hidle] at hy
    cases hy

/-! ### A context released (R124) -/

/-- The pool once a context is withdrawn: it gains the context's published buffer and that of a composition for it. -/
theorem freedState_pool_eq (c : CtxNo) (s : State) (b : BufNo) : (freedState c s).bcm.pool[b] =
    (s.bcm.pool[b] || s.bcm.composition.any (fun x => decide (x.context = c) && x.buffer == b) ||
      s.cxm.contexts[c].published == some b) := by
  have hdropped : (dropFromComposer c s).bcm.pool[b] =
      (s.bcm.pool[b] || s.bcm.composition.any fun x => decide (x.context = c) && x.buffer == b) := by
    rcases dropFromComposer_cases c s with ⟨x, hx, hc, h⟩ | ⟨hother, h⟩
    · rw [h, hx, Option.any_some, decide_eq_true hc, Bool.true_and]
      simp only [Fin.getElem_fin, Vector.getElem_set, Fin.ext_iff, beq_eq_decide]
      split <;> simp_all
    · rw [h]
      cases hx : s.bcm.composition with
      | none => simp
      | some x => simp [hother x hx]
  rw [Bool.eq_iff_iff, Bool.or_eq_true, beq_iff_eq, ← hdropped, ← dropFromComposer_cxm c s]
  exact returnPublished_pool c (dropFromComposer c s) b

theorem buffersPlaced_freedState (c : CtxNo) {s : State} (h : s.buffersPlaced) : (freedState c s).buffersPlaced := by
  obtain ⟨-, -, hcomposition, -⟩ := freedState_bcm c s
  have hchange := publishers_change (s := s) (t := freedState c s) (c := c) fun d hd => by
    rw [freedState_context, if_neg hd]
  rw [buffersPlaced_iff] at h ⊢
  intro b
  have hone := h b
  have hmove := hchange b
  have hold : (s.cxm.contexts[c].published == some b) = true → 0 < publishers s b := fun hb =>
    publishers_pos (beq_iff_eq.1 hb)
  have hnone : ((freeContext s.cxm.contexts[c].briefEpoch).published == some b) = false := rfl
  have hworking : (s.bcm.composition.any fun x => x.buffer == b).toNat =
      (s.bcm.composition.any fun x => decide (x.context = c) && x.buffer == b).toNat +
        ((s.bcm.composition.filter fun x => decide (x.context ≠ c)).any fun x => x.buffer == b).toNat := by
    cases s.bcm.composition with
    | none => rfl
    | some x => by_cases hx : x.context = c <;> simp [Option.filter_some, hx]
  rw [freedState_context, if_pos rfl, hnone] at hmove
  rw [hworking] at hone
  rw [freedState_pool_eq, hcomposition]
  revert hone hmove hold
  generalize s.bcm.pool[b] = p, (s.cxm.contexts[c].published == some b) = q,
    (s.bcm.composition.any fun x => decide (x.context = c) && x.buffer == b) = w
  intro hone hmove hold
  cases q with
  | false =>
    simp only [Bool.toNat_false] at hmove
    cases p <;> cases w <;> simp at hone ⊢ <;> omega
  | true =>
    have hpos := hold rfl
    simp only [Bool.toNat_true, Bool.toNat_false] at hmove
    rw [Bool.or_true, Bool.toNat_true]
    omega

/-- A context that leaves the composer, its requests, its composition and its published buffer with it (R124). -/
theorem keepsBriefing_freedState (c : CtxNo) (s : State) : KeepsBriefing s (freedState c s) := by
  obtain ⟨hurgent, hnormal, hcomposition, hbuffers⟩ := freedState_bcm c s
  have hplaced : s.buffersPlaced → (freedState c s).buffersPlaced := buffersPlaced_freedState c
  have hgone : ∀ x, (freedState c s).bcm.composition = some x → s.bcm.composition = some x ∧ x.context ≠ c := fun x hx => by
    rw [hcomposition, Option.filter_eq_some_iff] at hx
    simpa using hx
  refine ⟨fun ⟨hdistinct, hassigned, hcomposed⟩ => ?_, fun _ hblank d hd => ?_, hplaced, fun hl =>
    ⟨hplaced hl.placed, by rw [hbuffers]; exact hl.canonical, fun x hx => hl.fits x (hgone x hx).1, fun d b hb => ?_⟩⟩
  · have hsub : (s.bcm.urgent.erase c ++ s.bcm.normal.erase c).Sublist (s.bcm.urgent ++ s.bcm.normal) :=
      List.Sublist.append List.erase_sublist List.erase_sublist
    have hother : ∀ d ∈ s.bcm.urgent.erase c ++ s.bcm.normal.erase c, d ≠ c := fun d hd => by
      rcases List.mem_append.1 hd with hd | hd
      · exact (hdistinct.of_append_left.mem_erase_iff.1 hd).1
      · exact (hdistinct.of_append_right.mem_erase_iff.1 hd).1
    unfold State.requestsSound
    rw [hurgent, hnormal]
    refine ⟨hsub.nodup hdistinct, fun d hd => ?_, fun x hx => ?_⟩
    · rw [freedState_context, if_neg (hother d hd)]
      exact hassigned d (hsub.subset hd)
    · obtain ⟨hx, hne⟩ := hgone x hx
      obtain ⟨hnot, ha⟩ := hcomposed x hx
      rw [freedState_context, if_neg hne]
      exact ⟨fun hm => hnot (hsub.subset hm), ha⟩
  · rw [freedState_context] at hd ⊢
    split
    · rfl
    · rename_i hne
      rw [if_neg hne] at hd
      exact hblank d hd
  · rw [freedState_context] at hb ⊢
    rw [hbuffers]
    split
    · rename_i hc
      rw [if_pos hc] at hb
      cases hb
    · rename_i hne
      rw [if_neg hne] at hb
      exact hl.whole d b hb

/-! ### Marks (R29 to R31) -/

theorem keepsBriefing_changeMark (f : Nat) (m : FloorMark) (carried : Option CtxNo) (s : State) :
    KeepsBriefing s (changeMark f m carried s) :=
  ((keepsBriefing_offer (markNotice f m carried) _).trans
    ((keepsBriefing_requestNormal _ _).trans (keepsBriefing_disturbFloors [f] _))).after rfl rfl

theorem keepsBriefing_unmark (f : Nat) (s : State) : KeepsBriefing s (unmark f s) := keepsBriefing_changeMark f _ _ s

theorem keepsBriefing_unmarkAll (fs : List Nat) (s : State) : KeepsBriefing s (fs.foldl (fun s f => unmark f s) s) := by
  induction fs generalizing s with
  | nil => exact .refl s
  | cons f fs ih => exact (keepsBriefing_unmark f s).trans (ih _)

theorem keepsBriefing_release (c : CtxNo) (s : State) : KeepsBriefing s (release c s) :=
  (keepsBriefing_freedState c s).trans (keepsBriefing_unmarkAll (searchingFloors s c) _)

/-! ### Power (R40, R44) -/

/-- After power-on, and while the power is off, every buffer stands in the pool, nothing waits, and every context is Free (R119,
R151). -/
theorem keepsBriefing_powerOn {s t : State} (hc : t.cxm = cxmPowerOn) (hb : t.bcm = bcmPowerOn) : KeepsBriefing s t := by
  obtain ⟨hcontexts, -, -⟩ := cxmPowerOn_values
  have hfree : ∀ c : CtxNo, t.cxm.contexts[c] = freeContext 0 := fun c => by rw [hc, hcontexts]
  have hempty : ∀ b : BufNo, t.bcm.buffers[b] = [] := fun b => by simp [hb, bcmPowerOn]
  have hidle : t.bcm.composition = none := by rw [hb, bcmPowerOn]
  have hplaced : t.buffersPlaced := buffersPlaced_iff.2 fun b => by
    have hnone : publishers t b = 0 := List.countP_eq_zero.2 fun c _ => by rw [hfree c]; exact Bool.false_ne_true
    rw [hnone, hidle, hb]
    simp [bcmPowerOn]
  refine ⟨fun _ => ?_, fun _ _ c _ => by rw [hfree c]; rfl, fun _ => hplaced, fun _ => ⟨hplaced, fun b => ?_, fun x hx => ?_,
    fun c b hcb => ?_⟩⟩
  · unfold State.requestsSound
    rw [hidle, hb]
    exact ⟨List.nodup_nil, fun c hc => absurd hc List.not_mem_nil, fun x hx => by cases hx⟩
  · rw [hempty b]
    exact ⟨List.Pairwise.nil, fun _ hm => absurd hm List.not_mem_nil⟩
  · rw [hidle] at hx
    cases hx
  · rw [hfree c] at hcb
    cases hcb

end Sys2Proof.Machine
end

section
/-!
SUPPORT. Which operations keep the laws of the composer (R119, R137, R145, R151 to R154), block by block.
-/

namespace Sys2Proof.Machine

/-! ### Events and completions -/

theorem keepsBriefing_event {f : State → State} {s t : State} (h : KeepsBriefing s (f s)) (ht : event f s = .next t) :
    KeepsBriefing s t := by
  rw [event_next] at ht
  injection ht with ht
  subst ht
  split
  · exact h.trans (keepsBriefing_of_same rfl rfl)
  · exact .refl s

/-- A completion keeps the laws when the body of its command does. -/
theorem keepsBriefing_command {slot : Slot} {code : CommandCode} {body : InFlight → State → State × CommandOutcome} {s t : State}
    (hb : ∀ cmd, KeepsBriefing s (body cmd s).1) (h : event (carryOut slot code body) s = .next t) : KeepsBriefing s t := by
  refine keepsBriefing_event ?_ h
  rcases carryOut_cases slot code body s with ⟨cmd, -, -, hc⟩ | hc
  · rw [hc]
    exact (hb cmd).trans (keepsBriefing_of_same rfl rfl)
  · rw [hc]
    exact .refl s

/-- A completion whose body moves neither the contexts nor the composer. -/
theorem keepsBriefing_commandOf {slot : Slot} {code : CommandCode} {body : InFlight → State → State × CommandOutcome}
    {s t : State} (hb : ∀ cmd, (body cmd s).1.cxm.contexts = s.cxm.contexts ∧ (body cmd s).1.bcm = s.bcm)
    (h : event (carryOut slot code body) s = .next t) : KeepsBriefing s t :=
  keepsBriefing_command (fun cmd => keepsBriefing_of_same (hb cmd).1 (hb cmd).2) h

/-! ### Events of the Alarm Engine (R73) -/

theorem keepsBriefing_handOn (before : Ale) (news : EventNews) (s : State) : KeepsBriefing s (handOn before news s) := by
  unfold handOn
  dsimp only
  refine .trans ?_ ((keepsBriefing_handRequests _ _).trans (keepsBriefing_disturbFloors _ _))
  split
  · exact (keepsBriefing_offerAll _ s).trans (keepsBriefing_focusChanged _)
  · exact keepsBriefing_offerAll _ s

theorem keepsBriefing_completeEvent (before : Ale) (news : EventNews) (s : State) :
    KeepsBriefing s (completeEvent before news s) :=
  (keepsBriefing_handOn before news _).after rfl rfl

/-! ### The plan's coming and going (R40, R43 to R47) -/

theorem keepsBriefing_leaveValid (before : Ale) (s : State) : KeepsBriefing s (leaveValid before s) :=
  ((keepsBriefing_abandon false _).trans (keepsBriefing_completeEvent before noNews _)).after rfl rfl

theorem keepsBriefing_openingBody (erase : Bool) (cmd : InFlight) (s : State) :
    KeepsBriefing s (openingBody erase cmd s).1 := by
  have hstore : KeepsBriefing s (openedStore erase s) := by
    cases erase <;> exact keepsBriefing_of_same rfl rfl
  cases h : openingCheck s with
  | some r =>
    rw [openingBody_refused erase cmd h]
    exact .refl s
  | none =>
    rw [openingBody_accepted erase cmd h]
    unfold openedState
    split
    · exact hstore.trans (keepsBriefing_leaveValid s.ale _)
    · exact hstore

theorem commitPlanBody_bcm (cmd : InFlight) (s : State) : (commitPlanBody cmd s).1.bcm = s.bcm := by
  unfold commitPlanBody
  split <;> rfl

theorem abortLoadBody_bcm (cmd : InFlight) (s : State) : (abortLoadBody cmd s).1.bcm = s.bcm := by
  unfold abortLoadBody
  split <;> rfl

theorem keepsBriefing_completeStage (s : State) : KeepsBriefing s (completeStage s) := by
  unfold completeStage
  split
  · rename_i f _
    rcases endInvalid_cases f s with ⟨-, h⟩ | ⟨-, h⟩
    · rw [h]
      exact keepsBriefing_of_same rfl rfl
    · rw [h]
      exact keepsBriefing_of_same rfl rfl
  · rename_i zones _
    split
    · rw [becomeValid_eq]
      exact ((keepsBriefing_completeEvent s.ale noNews _).trans (keepsBriefing_requestNormal _ _)).after rfl rfl
    · exact keepsBriefing_of_same rfl rfl

/-! ### Crews and their notices (R121 to R134, R140, R141) -/

theorem keepsBriefing_assignCrewBody (cmd : InFlight) (s : State) : KeepsBriefing s (assignCrewBody cmd s).1 := by
  unfold assignCrewBody
  dsimp only
  split
  · exact .refl s
  · refine .trans ?_ (keepsBriefing_briefRequest _ _ _ _)
    exact keepsBriefing_setContext (.of_assigned rfl rfl rfl)

/-- A Move Crew that passes its checks names an Assigned context (R123). -/
theorem moveChecks_assigned {cmd : InFlight} {s : State} {m : Movement} (h : moveChecks cmd s = .ok m) :
    s.cxm.contexts[m.context].assigned = true := by
  unfold moveChecks at h
  cases hc : commandContext cmd with
  | none => rw [hc] at h; cases h
  | some c =>
    rw [hc] at h
    dsimp only at h
    cases ha : s.cxm.contexts[c].assigned with
    | false => rw [ha, Bool.not_false, if_pos rfl] at h; cases h
    | true =>
      rw [ha, Bool.not_true, if_neg Bool.false_ne_true] at h
      split at h
      · cases h
      · split at h
        · cases h
        · split at h
          · split at h
            · cases h
            · cases h; exact ha
          · cases h; exact ha

theorem keepsBriefing_moveCrewBody (cmd : InFlight) (s : State) : KeepsBriefing s (moveCrewBody cmd s).1 := by
  unfold moveCrewBody
  dsimp only
  split
  · exact .refl s
  · rename_i m hm
    refine .trans ?_ (keepsBriefing_briefRequest _ _ _ _)
    exact keepsBriefing_setContext (.of_assigned (moveChecks_assigned hm) rfl rfl)

theorem keepsBriefing_withdrawCrewBody (cmd : InFlight) (s : State) : KeepsBriefing s (withdrawCrewBody cmd s).1 := by
  unfold withdrawCrewBody
  split
  · exact .refl s
  · exact keepsBriefing_release _ s

theorem keepsBriefing_setConsoleMaskBody (cmd : InFlight) (s : State) : KeepsBriefing s (setConsoleMaskBody cmd s).1 := by
  unfold setConsoleMaskBody
  dsimp only
  split
  · exact .refl s
  · exact keepsBriefing_of_same rfl rfl

theorem keepsBriefing_takeConsoleNoticeBody (cmd : InFlight) (s : State) :
    KeepsBriefing s (takeConsoleNoticeBody cmd s).1 := by
  unfold takeConsoleNoticeBody
  split
  · exact .refl s
  · split
    · exact .refl s
    · exact keepsBriefing_of_same rfl rfl

theorem keepsBriefing_takeNoticeBody (slot : Slot) (cmd : InFlight) (s : State) :
    KeepsBriefing s (takeNoticeBody slot cmd s).1 := by
  unfold takeNoticeBody
  split
  · exact .refl s
  · rename_i c hc
    obtain ⟨-, ha, -⟩ := gatewayContext_ok.1 hc
    split
    · exact .refl s
    · exact keepsBriefing_setContext (.of_assigned ha rfl rfl)

theorem keepsBriefing_setMaskBody (slot : Slot) (cmd : InFlight) (s : State) : KeepsBriefing s (setMaskBody slot cmd s).1 := by
  unfold setMaskBody
  split
  · exact .refl s
  · rename_i c hc
    obtain ⟨-, ha, -⟩ := gatewayContext_ok.1 hc
    exact keepsBriefing_setContext (.of_assigned ha rfl rfl)

theorem keepsBriefing_requestBriefBody (slot : Slot) (cmd : InFlight) (s : State) :
    KeepsBriefing s (requestBriefBody slot cmd s).1 := by
  unfold requestBriefBody
  split
  · exact .refl s
  · split
    · exact keepsBriefing_briefRequest _ _ _ s
    · exact .refl s

theorem keepsBriefing_briefNowBody (cmd : InFlight) (s : State) : KeepsBriefing s (briefNowBody cmd s).1 := by
  unfold briefNowBody
  split
  · exact .refl s
  · exact keepsBriefing_briefRequest _ _ _ s

/-! ### Marks, lines and the incident -/

theorem keepsBriefing_markFloorBody (slot : Slot) (cmd : InFlight) (s : State) :
    KeepsBriefing s (markFloorBody slot cmd s).1 := by
  unfold markFloorBody
  split
  · exact .refl s
  · dsimp only
    split
    · exact .refl s
    · exact keepsBriefing_changeMark _ _ _ s

theorem keepsBriefing_resetMarkBody (cmd : InFlight) (s : State) : KeepsBriefing s (resetMarkBody cmd s).1 := by
  unfold resetMarkBody
  split
  · exact .refl s
  · dsimp only
    split
    · exact .refl s
    · exact keepsBriefing_unmark _ s

theorem unlatchLineBody_bcm (cmd : InFlight) (s : State) : (unlatchLineBody cmd s).1.bcm = s.bcm := by
  unfold unlatchLineBody
  split
  · rfl
  · dsimp only
    split
    · rfl
    · split <;> rfl

theorem keepsBriefing_clearComposition (hadFocus : Bool) (s : State) : KeepsBriefing s (clearComposition hadFocus s) := by
  unfold clearComposition
  split
  · exact keepsBriefing_abandon true s
  · split
    · exact keepsBriefing_disturb s
    · exact .refl s

theorem keepsBriefing_incidentClearBody (cmd : InFlight) (s : State) : KeepsBriefing s (incidentClearBody cmd s).1 := by
  unfold incidentClearBody
  split
  · exact .refl s
  · exact ((keepsBriefing_clearComposition _ _).trans (keepsBriefing_requestNormal _ _)).after rfl rfl

/-! ### Reports and scans (R55, R66 to R77, R109) -/

theorem keepsBriefing_activateNew (before : Ale) (gap : Option PanelNo) (r : Report) (s : State) :
    KeepsBriefing s (activateNew before gap r s) := by
  unfold activateNew
  dsimp only
  split
  · exact (keepsBriefing_completeEvent before _ _).after rfl rfl
  · split
    · exact (keepsBriefing_completeEvent before _ _).after rfl rfl
    · exact (keepsBriefing_handOn before _ _).after rfl rfl

theorem keepsBriefing_gapOnly (gap : Option PanelNo) (s : State) : KeepsBriefing s (gapOnly gap s) :=
  keepsBriefing_offerAll _ s

theorem keepsBriefing_processReport (before : Ale) (gap : Option PanelNo) (r : Report) (s : State) :
    KeepsBriefing s (processReport before gap r s) := by
  unfold processReport
  split
  · split
    · exact keepsBriefing_activateNew before gap r s
    · exact keepsBriefing_gapOnly gap s
  · split
    · exact (keepsBriefing_completeEvent before _ _).after rfl rfl
    · split
      · exact (keepsBriefing_completeEvent before _ _).after rfl rfl
      · exact keepsBriefing_gapOnly gap s

theorem keepsBriefing_panelReset (before : Ale) (p : PanelNo) (sequence : Byte) (s : State) :
    KeepsBriefing s (panelReset before p sequence s) := by
  unfold panelReset
  dsimp only
  split
  · exact keepsBriefing_of_same rfl rfl
  · exact (keepsBriefing_completeEvent before _ _).after rfl rfl

theorem keepsBriefing_takeReport (r : Report) (s : State) : KeepsBriefing s (takeReport r s) := by
  unfold takeReport
  split
  · split
    · exact .refl s
    · exact keepsBriefing_processReport _ _ r s
  · split
    · exact .refl s
    · exact keepsBriefing_panelReset _ _ _ s
    · exact (keepsBriefing_processReport _ _ r _).after rfl rfl
    · exact (keepsBriefing_processReport _ _ r _).after rfl rfl

theorem offerReports_bcm (s : State) : (offerReports s).bcm = s.bcm := by
  rw [frame_of_unreported (offerReports_unreported s)]

/-! ### Transfers (R155, R158 to R166) -/

/-- A read of a brief moves nothing of a context but Fresh, which a Free context never has set (R155). -/
theorem keepsBriefing_briefRead (t : Transfer) (off n : Nat) (s : State) : KeepsBriefing s (briefRead t off n s).state := by
  unfold briefRead
  split
  · exact .refl s
  · split
    · exact .refl s
    · dsimp only
      split
      · refine keepsBriefing_setContext { free := fun _ hblank => ?_ }
        rw [hblank]
        rfl
      · exact .refl s

theorem lockedEntryRead_bcm (t : Transfer) (i : EntryNo) (off n : Nat) (s : State) :
    (lockedEntryRead t i off n s).state.bcm = s.bcm := by
  unfold lockedEntryRead
  split
  · rfl
  · split
    · rfl
    · split <;> rfl

/-- No read moves the composer. -/
theorem ownerRead_bcm {p : BusPlace} (t : Transfer) (off n : Nat) (s : State) :
    (ownerRead t p off n s).state.bcm = s.bcm := by
  cases p with
  | briefWindow =>
    simp only [ownerRead, briefRead]
    split
    · rfl
    · split
      · rfl
      · dsimp only
        split <;> rfl
  | entry i =>
    simp only [ownerRead]
    split
    · exact lockedEntryRead_bcm t i off n s
    · unfold plainEntryRead
      split <;> rfl
  | planStatus => simp only [ownerRead, planStatusAnswer, readFrom]; split <;> rfl
  | contextRecord => simp only [ownerRead, contextWindowRead]; split <;> rfl
  | planSpace bank => simp only [ownerRead, planSpaceRead]; split <;> rfl
  | _ => rfl

theorem keepsBriefing_busRead (t : Transfer) (s : State) : KeepsBriefing s (busRead t s) := by
  cases h : judge t false s with
  | none => rw [busRead_none h]; exact keepsBriefing_of_same rfl rfl
  | some p =>
    rw [busRead_some h]
    by_cases hp : p = .briefWindow
    · subst hp
      exact (keepsBriefing_briefRead t _ _ s).trans (keepsBriefing_of_same rfl rfl)
    · exact keepsBriefing_of_same (congrArg Cxm.contexts (ownerRead_cxm hp t _ _ s)) (ownerRead_bcm t _ _ s)

/-- A lock-end write is an ALE event when its action has a result, and moves the holds alone otherwise (R71, R82). -/
theorem keepsBriefing_entryWrite (t : Transfer) (i : EntryNo) (off : Nat) (data : List Byte) (s : State) :
    KeepsBriefing s (entryWrite t i off data s).state := by
  unfold entryWrite
  split
  · exact .refl s
  · split
    · split
      · unfold actionWrite
        split
        · exact keepsBriefing_of_same rfl rfl
        · exact (keepsBriefing_completeEvent s.ale noNews _).after rfl rfl
      · exact keepsBriefing_of_same rfl rfl
    · exact .refl s

/-- The owner of any place but an entry record leaves the composer at a write. -/
theorem ownerWrite_bcm {p : BusPlace} (hp : ∀ i, p ≠ .entry i) (t : Transfer) (off : Nat) (data : List Byte) (s : State) :
    (ownerWrite t p off data s).state.bcm = s.bcm := by
  cases p with
  | entry i => exact absurd rfl (hp i)
  | commandSlot k =>
    unfold ownerWrite commandAnswer
    dsimp only
    split
    · rfl
    · split <;> rfl
  | selector k =>
    unfold ownerWrite selectorWrite
    dsimp only
    split
    · rfl
    · split <;> rfl
  | intake =>
    unfold ownerWrite intakeAnswer
    dsimp only
    split <;> rfl
  | planSpace bank =>
    unfold ownerWrite planSpaceStore
    dsimp only
    split <;> rfl
  | _ => rfl

theorem keepsBriefing_busWrite (t : Transfer) (data : List Byte) (s : State) : KeepsBriefing s (busWrite t data s) := by
  cases h : judge t true s with
  | none => rw [busWrite_none h]; exact keepsBriefing_of_same rfl rfl
  | some p =>
    rw [busWrite_some h]
    by_cases hp : ∃ i, p = .entry i
    · obtain ⟨i, rfl⟩ := hp
      exact (keepsBriefing_entryWrite t i _ _ s).trans (keepsBriefing_of_same rfl rfl)
    · have hother : ∀ i, p ≠ .entry i := fun i hi => hp ⟨i, hi⟩
      exact keepsBriefing_of_same (congrArg Cxm.contexts (ownerWrite_cxm hother t _ _ s)) (ownerWrite_bcm hother t _ _ s)

end Sys2Proof.Machine
end

section
/-!
PROOFS. The laws of the composer: O12 (R119, R137), O14 (R151) and O15 (R145, R152 to R154), command by command.
-/

namespace Sys2Proof.Machine

theorem keepsBriefing_validationStage {s t : State} (h : execValidationStage s = .next t) : KeepsBriefing s t := by
  refine keepsBriefing_event ?_ h
  split
  · exact keepsBriefing_completeStage s
  · exact .refl s

theorem keepsBriefing_reportTake {s t : State} (h : execReportTake s = .next t) : KeepsBriefing s t := by
  refine keepsBriefing_event ?_ h
  split
  · exact .refl s
  · split
    · exact .refl s
    · exact (keepsBriefing_takeReport _ _).after rfl rfl

theorem keepsBriefing_holdExpiry {slot : Slot} {s t : State} (h : execHoldExpiry slot s = .next t) : KeepsBriefing s t := by
  refine keepsBriefing_event ?_ h
  split
  · exact keepsBriefing_of_same rfl rfl
  · exact .refl s

theorem keepsBriefing_lineScan {levels : BitVec 32} {s t : State} (h : execLineScan levels s = .next t) : KeepsBriefing s t :=
  keepsBriefing_event (f := fun s => offerReports (scannedState levels s))
    (keepsBriefing_of_same (congrArg Cxm.contexts (offerReports_cxm (scannedState levels s)))
      (offerReports_bcm (scannedState levels s))) h

theorem keepsBriefing_walk {s t : State} (h : execWalkStep s = .next t) : KeepsBriefing s t := by
  refine keepsBriefing_event ?_ h
  split
  · exact .refl s
  · rename_i c hc
    split
    · exact keepsBriefing_walkStep hc ‹_›
    · exact .refl s

theorem keepsBriefing_seal {s t : State} (h : execSeal s = .next t) : KeepsBriefing s t := by
  refine keepsBriefing_event ?_ h
  split
  · exact .refl s
  · rename_i c hc
    split
    · exact keepsBriefing_sealBrief hc ‹_›
    · exact .refl s

/-- Every command keeps the laws of the composer. -/
theorem exec_keepsBriefing (c : Instr) {s t : State} (h : exec c s = .next t) : KeepsBriefing s t := by
  cases c with
  | powerOn straps => cases h; exact keepsBriefing_powerOn rfl rfl
  | lossOfPower => cases h; exact keepsBriefing_powerOn rfl rfl
  | busReset => exact keepsBriefing_event (f := busResetState) (keepsBriefing_of_same rfl rfl) h
  | planSpaceWrite tr data => exact keepsBriefing_event (keepsBriefing_busWrite tr data s) h
  | registerWrite tr data => exact keepsBriefing_event (keepsBriefing_busWrite tr data s) h
  | commandSlotWrite tr data => exact keepsBriefing_event (keepsBriefing_busWrite tr data s) h
  | intakeWrite tr data => exact keepsBriefing_event (keepsBriefing_busWrite tr data s) h
  | contextSelectorWrite tr data => exact keepsBriefing_event (keepsBriefing_busWrite tr data s) h
  | acknowledge slot entry change => exact keepsBriefing_event (keepsBriefing_busWrite _ _ s) h
  | discount slot entry change => exact keepsBriefing_event (keepsBriefing_busWrite _ _ s) h
  | clearEntry slot entry change => exact keepsBriefing_event (keepsBriefing_busWrite _ _ s) h
  | planStatusRead tr => exact keepsBriefing_event (keepsBriefing_busRead tr s) h
  | lockedRead tr => exact keepsBriefing_event (keepsBriefing_busRead tr s) h
  | briefWindowRead tr => exact keepsBriefing_event (keepsBriefing_busRead tr s) h
  | beginLoad slot => exact keepsBriefing_command (body := openingBody false) (keepsBriefing_openingBody false · s) h
  | erasePlan slot => exact keepsBriefing_command (body := openingBody true) (keepsBriefing_openingBody true · s) h
  | commitPlan slot =>
    exact keepsBriefing_commandOf (fun cmd => ⟨congrArg Cxm.contexts (commitPlanBody_cxm cmd s), commitPlanBody_bcm cmd s⟩) h
  | abortLoad slot =>
    exact keepsBriefing_commandOf (fun cmd => ⟨congrArg Cxm.contexts (abortLoadBody_cxm cmd s), abortLoadBody_bcm cmd s⟩) h
  | incidentClear slot => exact keepsBriefing_command (keepsBriefing_incidentClearBody · s) h
  | assignCrew slot => exact keepsBriefing_command (keepsBriefing_assignCrewBody · s) h
  | moveCrew slot => exact keepsBriefing_command (keepsBriefing_moveCrewBody · s) h
  | withdrawCrew slot => exact keepsBriefing_command (keepsBriefing_withdrawCrewBody · s) h
  | setConsoleMask slot => exact keepsBriefing_command (keepsBriefing_setConsoleMaskBody · s) h
  | takeConsoleNotice slot => exact keepsBriefing_command (keepsBriefing_takeConsoleNoticeBody · s) h
  | briefNow slot => exact keepsBriefing_command (keepsBriefing_briefNowBody · s) h
  | unlatchLine slot =>
    exact keepsBriefing_commandOf (fun cmd => ⟨congrArg Cxm.contexts (unlatchLineBody_cxm cmd s), unlatchLineBody_bcm cmd s⟩) h
  | resetMark slot => exact keepsBriefing_command (keepsBriefing_resetMarkBody · s) h
  | requestBrief slot => exact keepsBriefing_command (keepsBriefing_requestBriefBody slot · s) h
  | takeNotice slot => exact keepsBriefing_command (keepsBriefing_takeNoticeBody slot · s) h
  | setMask slot => exact keepsBriefing_command (keepsBriefing_setMaskBody slot · s) h
  | markFloor slot => exact keepsBriefing_command (keepsBriefing_markFloorBody slot · s) h
  | validationStage => exact keepsBriefing_validationStage h
  | reportTake => exact keepsBriefing_reportTake h
  | holdExpiry slot => exact keepsBriefing_holdExpiry h
  | incidentClockTick =>
    exact keepsBriefing_event (f := fun s => { s with ale.clock := saturatingSucc16 s.ale.clock })
      (keepsBriefing_of_same rfl rfl) h
  | lineScan levels => exact keepsBriefing_lineScan h
  | compositionStart => exact keepsBriefing_event (keepsBriefing_startComposition s) h
  | walkStep => exact keepsBriefing_walk h
  -- SEAL, the one row left: its name is a keyword here.
  | _ => exact keepsBriefing_seal h

theorem step_keepsBriefing {s t : State} (h : step s = .next t) : KeepsBriefing s t := by
  unfold step at h
  split at h
  · cases h
    exact .refl s
  · rename_i c rest _
    exact (exec_keepsBriefing c (s := { s with pending := rest }) h).after rfl rfl

/-- Settles O12: a request joins the queue for an Assigned context that is neither queued nor composed, and a context becomes Free
only when its requests and its composition go with it. -/
theorem stepKeepsRequests : Obligations.StepKeepsRequests := fun _ _ hrequests h =>
  ⟨(step_keepsBriefing h).requests hrequests, (step_keepsBriefing h).blank hrequests⟩

/-- Settles O14: a start moves a buffer from the pool to the composition, a seal moves that one to its context and the earlier one
to the pool, and an abandonment or a withdrawal gives buffers back to the pool. -/
theorem stepKeepsBuffers : Obligations.StepKeepsBuffers := fun _ _ hplaced h => (step_keepsBriefing h).placed hplaced

/-- Settles O15: the walk's bounds and the whole briefs are kept together with the buffers' places and their canonical form, which
say that a composition writes in no published buffer. -/
theorem stepKeepsBriefs : Obligations.StepKeepsBriefs := by
  intro s t hmemories hplaced hfits hwhole h
  have hlaws : BriefLaws s := { placed := hplaced, canonical := hmemories.2, fits := hfits, whole := hwhole }
  have hkept := (step_keepsBriefing h).briefs hlaws
  exact ⟨hkept.fits, hkept.whole⟩

end Sys2Proof.Machine
end

section
/-!
PROOFS. The statements about the two commands that ask for a brief: O51 (R141) and O52 (R120, R140).
-/

namespace Sys2Proof.Machine

/-! ### What becomes of a request for an Assigned context (R138) -/

section
variable {s : State} {c : CtxNo} (u : Urgency) (ha : s.cxm.contexts[c].assigned = true)
include ha

theorem disposition_of_assigned : disposition s c u false =
    if s.bcm.composing = some c then .disturbing else if c ∈ s.bcm.urgent then .merged
    else if c ∈ s.bcm.normal then if u = .urgent then .raised else .merged else .queued := by
  unfold disposition
  rw [ha]
  rfl

/-- A request for the context being composed disturbs the composition. -/
theorem briefRequest_disturbs (hk : s.bcm.composing = some c) :
    disposition s c u false = .disturbing ∧ ∃ x, s.bcm.composition = some x ∧
      (briefRequest c u false s).bcm = { s.bcm with composition := some { x with disturbed := true } } := by
  have hd : disposition s c u false = .disturbing := by simp [disposition_of_assigned u ha, hk]
  obtain ⟨x, hx, -⟩ := Option.map_eq_some_iff.1 hk
  refine ⟨hd, x, hx, ?_⟩
  unfold briefRequest
  rw [hd]
  simp [hx]

variable (hk : s.bcm.composing ≠ some c)
include hk

theorem briefRequest_merges (h : c ∈ s.bcm.urgent ∨ c ∈ s.bcm.normal ∧ u = .normal) :
    disposition s c u false = .merged ∧ (briefRequest c u false s).bcm = s.bcm := by
  have hd : disposition s c u false = .merged := by
    by_cases hu : c ∈ s.bcm.urgent
    · simp [disposition_of_assigned u ha, hk, hu]
    · obtain ⟨hn, rfl⟩ := h.resolve_left hu
      simp [disposition_of_assigned .normal ha, hk, hu, hn]
  exact ⟨hd, by unfold briefRequest; rw [hd]⟩

omit u in
theorem briefRequest_raises (hu : c ∉ s.bcm.urgent) (hn : c ∈ s.bcm.normal) :
    disposition s c .urgent false = .raised ∧ (briefRequest c .urgent false s).bcm =
      { s.bcm with normal := s.bcm.normal.erase c, urgent := s.bcm.urgent ++ [c] } := by
  have hd : disposition s c .urgent false = .raised := by
    simp [disposition_of_assigned .urgent ha, hk, hu, hn]
  exact ⟨hd, by unfold briefRequest; rw [hd]⟩

theorem briefRequest_queues (hu : c ∉ s.bcm.urgent) (hn : c ∉ s.bcm.normal) :
    disposition s c u false = .queued ∧ (briefRequest c u false s).bcm = { s.bcm with
      urgent := if u = .urgent then s.bcm.urgent ++ [c] else s.bcm.urgent
      normal := if u = .urgent then s.bcm.normal else s.bcm.normal ++ [c] } := by
  have hd : disposition s c u false = .queued := by simp [disposition_of_assigned u ha, hk, hu, hn]
  refine ⟨hd, ?_⟩
  unfold briefRequest
  rw [hd]
  cases u <;> rfl

end

/-- A command in flight whose body makes a request for a context ends with the composer as the request leaves it, and nothing else
moved but the command's own result. -/
theorem exec_ready_briefs {row : Instr} {slot : Slot} {code : CommandCode} {cmd : InFlight} {s : State} {c : CtxNo} {u : Urgency}
    {body : InFlight → State → State × CommandOutcome} (hrow : exec row s = event (carryOut slot code body) s)
    (hr : Ready s slot code cmd)
    (hb : body cmd s = (briefRequest c u false s,
      .done (briefBytes (disposition s c u false) s.cxm.contexts[c].briefEpoch))) :
    ∃ t, exec row s = .next t ∧
      Completed s t slot cmd (.done ([(disposition s c u false).code, 0] ++ leHalf s.cxm.contexts[c].briefEpoch)) ∧
      SameMap s t ∧ t = { s with bcm := t.bcm, pbi := t.pbi } ∧ t.bcm = (briefRequest c u false s).bcm := by
  obtain ⟨t, ht, hc, hm, -, -, -, -, -, hbcm, -, hrest⟩ := exec_ready_blocks hrow hr hb (by simp)
  refine ⟨t, ht, hc, hm, ?_, hbcm⟩
  rw [hbcm]
  rw [briefRequest_rest] at hrest
  exact hrest

/-- Settles O51: the two checks of a number, and the dispositions of an Urgent request. -/
theorem briefNowRequestsUrgently : Obligations.BriefNowRequestsUrgently := by
  intro s slot cmd hr
  have hrefused : ∀ r, assignedByNumber cmd s = .error r → Refused s (.briefNow slot) slot cmd r := fun r h =>
    refused_of_body rfl hr (by unfold briefNowBody; rw [h])
  refine ⟨fun hnumber => hrefused _ ?_, fun c hc => ⟨fun hfree => hrefused _ ?_, fun ha => ?_⟩⟩
  · rw [assignedByNumber, commandContext_eq_none (by omega)]
  · rw [assignedByNumber, commandContext_eq hc]
    exact if_neg (Bool.eq_false_iff.1 hfree)
  · have hbody : briefNowBody cmd s = (briefRequest c .urgent false s,
        .done (briefBytes (disposition s c .urgent false) s.cxm.contexts[c].briefEpoch)) := by
      unfold briefNowBody
      rw [assignedByNumber_ok hc ha]
    obtain ⟨t, ht, hcompleted, hmap, hrest, hbcm⟩ := exec_ready_briefs (row := .briefNow slot) rfl hr hbody
    refine ⟨t, _, ht, hcompleted, hmap, hrest, fun hk => ?_, fun hk hu => ?_, fun hk hu hn => ?_, fun hk hu hn => ?_⟩
    · obtain ⟨hd, x, hx, hb⟩ := briefRequest_disturbs .urgent ha hk
      exact ⟨by rw [hd]; rfl, x, hx, hbcm.trans hb⟩
    · obtain ⟨hd, hb⟩ := briefRequest_merges .urgent ha hk (.inl hu)
      exact ⟨by rw [hd]; rfl, hbcm.trans hb⟩
    · obtain ⟨hd, hb⟩ := briefRequest_raises ha hk hu hn
      exact ⟨by rw [hd]; rfl, hbcm.trans hb⟩
    · obtain ⟨hd, hb⟩ := briefRequest_queues .urgent ha hk hu hn
      exact ⟨by rw [hd]; rfl, hbcm.trans hb⟩

/-- Settles O52: the checks of every Gateway command, then the plan's state, and the dispositions of a Normal request. -/
theorem requestBriefRequestsNormally : Obligations.RequestBriefRequestsNormally := by
  refine ⟨fun s slot cmd c hr hsel ha howner hvalid => ?_, fun s slot cmd reason hr h => ?_⟩
  · have hbody : requestBriefBody slot cmd s = (briefRequest c .normal false s,
        .done (briefBytes (disposition s c .normal false) s.cxm.contexts[c].briefEpoch)) := by
      unfold requestBriefBody
      simp only [gatewayContext_ok.2 ⟨hsel, ha, howner⟩, hvalid, if_true]
    obtain ⟨t, ht, hcompleted, hmap, hrest, hbcm⟩ := exec_ready_briefs (row := .requestBrief slot) rfl hr hbody
    refine ⟨t, _, ht, hcompleted, hmap, hrest, fun hk => ?_, fun hk hqueued => ?_, fun hk hu hn => ?_⟩
    · obtain ⟨hd, x, hx, hb⟩ := briefRequest_disturbs .normal ha hk
      exact ⟨by rw [hd]; rfl, x, hx, hbcm.trans hb⟩
    · obtain ⟨hd, hb⟩ := briefRequest_merges .normal ha hk (hqueued.imp_right fun hn => ⟨hn, rfl⟩)
      exact ⟨by rw [hd]; rfl, hbcm.trans hb⟩
    · obtain ⟨hd, hb⟩ := briefRequest_queues .normal ha hk hu hn
      exact ⟨by rw [hd]; rfl, hbcm.trans hb⟩
  · refine refused_of_body (body := requestBriefBody slot) rfl hr ?_
    unfold requestBriefBody
    rcases firstFails_append.1 h with h | ⟨hholds, h⟩
    · rw [gatewayContext_error h]
    · obtain ⟨hinvalid, rfl⟩ := firstFails_singleton.1 h
      obtain ⟨c, hc⟩ := gatewayTable_holds hholds
      simp only [hc, hinvalid]
      rfl

end Sys2Proof.Machine
end

section
/-!
PROOFS. The statements about the composer's own events: O58 (R137, R142, R151), O59 (R143 to R145, R148) and O60 (R152, R153).
-/

namespace Sys2Proof.Machine

/-- An Assigned context has a range while the plan is Valid (R24). -/
theorem currentRange_some {s : State} {c : CtxNo} (ha : s.cxm.contexts[c].assigned = true) (hvalid : s.psc.valid = true) :
    ∃ r, currentRange s c = some r := by
  unfold currentRange rangeOf
  rw [ha, hvalid]
  exact ⟨_, rfl⟩

/-- Settles O58: the one case in which a start does something, with its queue, its buffer and its range. -/
theorem compositionStarts : Obligations.CompositionStarts := by
  intro s c b hp hidle hhead hb hlow ha hvalid
  obtain ⟨r, hr⟩ := currentRange_some ha hvalid
  have hhead := head_eq_some.2 hhead
  have hstarted := startComposition_started hidle hhead (lowestFree_eq_some hb hlow) hr
  have hexec : exec .compositionStart s = .next (driveAttention { s with bcm := startedBcm s c b r }) := by
    rw [← hstarted]
    exact event_powered_next hp
  refine ⟨_, _, hexec, rfl, rfl, rfl, rfl, hr, rfl, rfl, rfl, rfl, rfl, rfl, rfl, rfl, head_cons_rest hhead, fun hurgent => ?_,
    rfl, rfl⟩
  exact if_neg (by simpa using hurgent)

/-! ### A walk step (R143 to R145, R148) -/

theorem leftOut_le (off : Nat) (items : List (List Byte)) : leftOut off items ≤ items.length := by
  induction items generalizing off with
  | nil => exact le_rfl
  | cons item rest ih =>
    unfold leftOut
    split
    · exact (ih _).trans (Nat.le_succ _)
    · exact Nat.succ_le_succ (ih _)

/-- A walk that has tested these items, over a buffer in which the bytes of those that fit stand (R145). -/
theorem itemsPut_testedWalk {t : State} {x : Composition} {items : List MetItem} (pos : WalkPos)
    (h : t.bcm.buffers[x.buffer].readAll x.walk.offset (laidDown x.walk.offset (items.map (·.bytes))).length =
      laidDown x.walk.offset (items.map (·.bytes))) :
    ItemsPut t x { x with walk := testedWalk items pos x.walk } (items.map (·.bytes)) := by
  have hle := leftOut_le x.walk.offset (items.map (·.bytes))
  rw [List.length_map] at hle
  refine ⟨rfl, h, ?_, rfl⟩
  rw [List.length_map]
  exact Nat.sub_add_cancel (hle.trans (Nat.le_add_left _ _))

theorem walkedOn_lift (s : State) {x : Composition} {k : Fin 2} (hpos : x.walk.pos = .lift k) :
    walkedOn s x = { x with walk := { x.walk with
      offset := x.walk.offset + 12, items := x.walk.items + 1, pos := if k = 0 then .lift 1 else .unplaced } } := by
  unfold walkedOn nextPlace
  rw [hpos]

theorem walkedOn_unplaced (s : State) {x : Composition} (hpos : x.walk.pos = .unplaced) :
    walkedOn s x = completeWalk { x with walk := unplacedRead s x.walk } := by
  unfold walkedOn
  rw [hpos]

/-- Only the unplaced step ends a walk. -/
theorem walkedOn_goes_on (s : State) {x : Composition} (hphase : x.phase = .walking) (hpos : x.walk.pos ≠ .unplaced) :
    (walkedOn s x).phase = .walking ∧ (walkedOn s x).disturbed = x.disturbed ∧ (walkedOn s x).restarts = x.restarts := by
  by_cases hlift : ∃ k, x.walk.pos = .lift k
  · obtain ⟨k, hk⟩ := hlift
    rw [walkedOn_lift s hk]
    exact ⟨hphase, rfl, rfl⟩
  · rw [walkedOn_tested s (fun k hk => hlift ⟨k, hk⟩) hpos]
    exact ⟨hphase, rfl, rfl⟩

theorem walkedBytes_tested (s : State) {x : Composition} (hlift : ∀ k, x.walk.pos ≠ .lift k) :
    walkedBytes s x = laidDown x.walk.offset ((metItems s x).map (·.bytes)) := by
  unfold walkedBytes
  cases hpos : x.walk.pos with
  | lift k => exact absurd hpos (hlift k)
  | _ => rfl

theorem walkedBytes_lift (s : State) {x : Composition} {k : Fin 2} (hpos : x.walk.pos = .lift k) :
    walkedBytes s x = liftItem s k := by
  unfold walkedBytes
  rw [hpos]

theorem walkedBytes_unplaced (s : State) {x : Composition} (hpos : x.walk.pos = .unplaced) : walkedBytes s x = [] := by
  unfold walkedBytes metItems
  rw [hpos]
  rfl

/-- The bytes of a walk step lie between where the walk stood and where it stands. -/
theorem walkedBytes_end (s : State) (x : Composition) :
    x.walk.offset + (walkedBytes s x).length ≤ max x.walk.offset (walkedOn s x).walk.offset := by
  by_cases hpos : x.walk.pos = .unplaced
  · rw [walkedBytes_unplaced s hpos]
    exact le_max_left _ _
  by_cases hlift : ∃ k, x.walk.pos = .lift k
  · obtain ⟨k, hk⟩ := hlift
    rw [walkedBytes_lift s hk, walkedOn_lift s hk, length_liftItem]
    exact le_max_right _ _
  · have hnot : ∀ k, x.walk.pos ≠ .lift k := fun k hk => hlift ⟨k, hk⟩
    rw [walkedBytes_tested s hnot, walkedOn_tested s hnot hpos]
    exact le_max_right _ _

/-- A walk that ends undisturbed, or has started again twice, goes to the seal; another starts again (R148). -/
theorem completeWalk_cases (x : Composition) :
    (x.disturbed = false ∨ x.restarts = 2 → completeWalk x = { x with phase := .sealing }) ∧
      (x.disturbed = true → x.restarts ≠ 2 → completeWalk x =
        { x with restarts := x.restarts + 1, disturbed := false, walk := newWalk x.range }) := by
  unfold completeWalk
  refine ⟨fun h => if_neg fun ⟨hd, hr⟩ => ?_, fun hd hr => if_pos ⟨hd, hr⟩⟩
  rcases h with h | h
  · rw [h] at hd
    cases hd
  · exact hr h

/-- Settles O59: by the place at which the walk stands; the items that a step tests and the place that it comes to are those of its
one equation. -/
theorem walkStepWritesItems : Obligations.WalkStepWritesItems := by
  intro s x hp hx hphase hwf
  have hexec : exec .walkStep s = .next (driveAttention (walkStep x s)) := by
    change execWalkStep s = _
    rw [execWalkStep, event_powered_next hp]
    simp only [hx, hphase, if_true]
  rw [walkStep_eq] at hexec
  obtain ⟨hcontext, hbuffer, hrange, hmode⟩ := walkedOn_same s x
  obtain ⟨t, ht⟩ : ∃ t, t = driveAttention (setComposition (walkedOn s x)
    (storeBytes x x.walk.offset (walkedBytes s x) s)) := ⟨_, rfl⟩
  rw [← ht] at hexec
  have hbuffers : t.bcm.buffers = updateAt s.bcm.buffers x.buffer fun m => m.writeAll x.walk.offset (walkedBytes s x) := by
    rw [ht]
    rfl
  have hwritten : t.bcm.buffers[x.buffer] = s.bcm.buffers[x.buffer].writeAll x.walk.offset (walkedBytes s x) := by
    rw [hbuffers]
    simp
  have hread : t.bcm.buffers[x.buffer].readAll x.walk.offset (walkedBytes s x).length = walkedBytes s x := by
    rw [hwritten]
    exact readAll_writeAll hwf _ _
  have htested : (∀ k, x.walk.pos ≠ .lift k) → x.walk.pos ≠ .unplaced →
      (walkedOn s x).walk.pos = nextPlace s.psc x ∧ ItemsPut t x (walkedOn s x) ((metItems s x).map (·.bytes)) ∧
        (walkedOn s x).walk.flags = (metItems s x).foldl (fun f i => i.meet f) x.walk.flags := fun hlift hplace => by
    rw [walkedBytes_tested s hlift] at hread
    rw [walkedOn_tested s hlift hplace]
    exact ⟨rfl, itemsPut_testedWalk _ hread, rfl⟩
  refine ⟨t, walkedOn s x, hexec, by rw [ht]; rfl, by rw [ht]; rfl, hcontext, hbuffer, hrange, hmode, by rw [ht]; rfl,
    by rw [ht]; rfl, by rw [ht]; rfl, fun b hb => ?_, fun a ha => ?_, fun f hpos => ?_, fun f j hpos => ?_, fun f j hpos => ?_,
    fun k hpos => ?_, fun hpos => ?_, walkedOn_goes_on s hphase⟩
  · rw [hbuffers]
    exact updateAt_ne _ _ hb
  · have hend := walkedBytes_end s x
    rw [hwritten, Memory.read_writeAll hwf, if_neg (by omega)]
  · obtain ⟨hnext, hput, hflags⟩ := htested (by simp [hpos]) (by simp [hpos])
    simp only [metItems, nextPlace, hpos, List.map_cons, List.map_nil, List.foldl_cons, List.foldl_nil] at hnext hput hflags
    exact ⟨hput, hnext, hflags⟩
  · obtain ⟨hnext, hput, hflags⟩ := htested (by simp [hpos]) (by simp [hpos])
    simp only [metItems, nextPlace, hpos] at hnext hput hflags
    refine ⟨hnext, fun loc hloc => ?_, fun hloc => ?_⟩
    · simp only [hloc, List.map_cons, List.map_nil, List.foldl_cons, List.foldl_nil] at hput hflags
      exact ⟨hput, hflags⟩
    · simp only [hloc, List.map_nil, List.foldl_nil] at hput hflags
      exact ⟨hput, hflags⟩
  · obtain ⟨hnext, hput, hflags⟩ := htested (by simp [hpos]) (by simp [hpos])
    simp only [metItems, nextPlace, hpos] at hnext hput hflags
    refine ⟨hnext, fun loc zone hloc hzone => ?_, fun hloc => ?_⟩
    · simp only [hloc, ← hzone, zoneItems, List.map_cons, List.map_map, List.foldl_cons, List.foldl_map, id_eq] at hput hflags
      exact ⟨hput, hflags⟩
    · simp only [hloc, List.map_nil, List.foldl_nil] at hput hflags
      exact ⟨hput, hflags⟩
  · rw [walkedBytes_lift s hpos, length_liftItem] at hread
    rw [walkedOn_lift s hpos]
    exact ⟨rfl, rfl, rfl, hread, rfl, rfl⟩
  · obtain ⟨hsealing, hrestart⟩ := completeWalk_cases { x with walk := unplacedRead s x.walk }
    rw [walkedOn_unplaced s hpos]
    refine ⟨?_, fun h => ?_, fun hd hr => ?_⟩
    · rw [ht, walkedBytes_unplaced s hpos, storeBytes_nil]
      rfl
    · rw [hsealing h]
      exact ⟨rfl, rfl, rfl, rfl⟩
    · rw [hrestart hd hr]
      refine ⟨hphase, rfl, ?_, rfl, rfl, rfl, rfl⟩
      exact Fin.val_add_one_of_lt (lt_of_le_of_ne (Fin.le_last _) hr)

/-- Settles O60: the header below the items, the trailer behind them, and the composer and the context as the seal leaves them. -/
theorem sealPublishes : Obligations.SealPublishes := by
  intro s x hp hx hphase hwf hoff
  have hexec : exec .seal s = .next (driveAttention (sealBrief x s)) := by
    change execSeal s = _
    rw [execSeal, event_powered_next hp]
    simp only [hx, hphase, if_true]
  obtain ⟨hidle, hurgent, hnormal, hbuffers, hpool⟩ := sealBrief_bcm x s
  have hframed : (sealBrief x s).bcm.buffers[x.buffer] = framedBrief s x s.bcm.buffers[x.buffer] := by
    rw [hbuffers]
    simp
  obtain ⟨hheader, htrailer, hitems⟩ := framedBrief_reads (s := s) hwf hoff
  refine ⟨_, hexec, ?_, sealBrief_cxm x s, hidle, hurgent, hnormal, hpool, fun b hb => ?_, ?_, ?_, fun a hlow hhigh => ?_⟩
  · rw [sealBrief_rest]
    rfl
  · exact (congrArg (·[b]) hbuffers).trans (updateAt_ne _ _ hb)
  · exact (congrArg (Memory.readAll · 0 32) hframed).trans hheader
  · exact (congrArg (Memory.readAll · x.walk.offset 16) hframed).trans htrailer
  · exact (congrArg (Memory.read · a) hframed).trans (hitems a hlow hhigh)

end Sys2Proof.Machine
end

section
/-!
PROOFS. The statement about reads of the brief window: O44 (R154, R155).
-/

namespace Sys2Proof.Machine

/-! ### The transfer (R155, R158 to R161) -/

/-- The brief window carries a burst as one (R155). -/
theorem inhibited_briefWindow (t : Transfer) : inhibited t .briefWindow = false := by
  cases h : t.size <;> simp [inhibited, carriedAsOne, h]

theorem movedBytes_briefWindow (t : Transfer) : movedBytes t .briefWindow = t.size.bytes := by
  simp [movedBytes, inhibited_briefWindow]

/-- The brief window is the one place of its bank (R170). -/
theorem locate_briefWindow {off n : Nat} (h : off + n ≤ 8192) : locate 0x20 off n = some .briefWindow := by
  simp [locate, bankPlaces, BusPlace.covers, BusPlace.start, BusPlace.bytes, h]

/-- An aligned read of a Console or a Gateway within the brief window passes every step of R158. -/
theorem judge_briefWindow {t : Transfer} {s : State}
    (hc : s.pbi.classes[t.slot] = .console ∨ s.pbi.classes[t.slot] = .gateway) (hb : t.bank = 0x20) (hl : t.lock = false)
    (he : t.lockEnd = false) (ha : aligned t = true) (hfit : t.offset.toNat + t.size.bytes ≤ 8192) :
    judge t false s = some .briefWindow := by
  have hloc : locate t.bank.toNat t.offset.toNat (singleBytes t) = some .briefWindow := by
    rw [hb]
    exact locate_briefWindow (le_trans (Nat.add_le_add_left (singleBytes_le_bytes t) _) hfit)
  have hshape : shapeAllowed t .briefWindow = true := by
    simp [shapeAllowed, ha, movedBytes_briefWindow, BusPlace.covers, BusPlace.start, BusPlace.bytes, hfit]
  have hclass : slotClass s t.slot = .console ∨ slotClass s t.slot = .gateway := hc
  have haccess : accessAllowed (slotClass s t.slot) t.slot false .briefWindow = true := by
    rcases hclass with h | h <;> simp [accessAllowed, h]
  have hsome : slotClass s t.slot ≠ .noClass := by
    rcases hclass with h | h <;> simp [h]
  unfold judge
  rw [if_neg hsome, hloc]
  simp [haccess, hshape, locksAllowed, hl, he]

/-! ### What the read returns, and Fresh (R154, R155) -/

theorem briefBytesAt_getElem? (m : Memory) (off : Nat) {n k : Nat} (h : k < n) :
    (briefBytesAt m off n)[k]? = some (if off + k < m.u16 10 then m.read (off + k) else 0) := by
  simp [briefBytesAt, h]

theorem Memory.u16_lt (m : Memory) (a : Nat) : m.u16 a < 65536 := by
  have hlow : m.u8 a < 256 := (m.read a).isLt
  have hhigh : m.u8 (a + 1) < 256 := (m.read (a + 1)).isLt
  unfold Memory.u16
  omega

/-- The bytes returned hold both bytes of the trailer's epoch, and it is the context's. -/
theorem returnsEpoch_iff {m : Memory} {epoch : Half} {off n : Nat} : returnsEpoch m epoch off n = true ↔
    off ≤ m.u16 10 - 16 ∧ m.u16 10 - 16 + 2 ≤ off + n ∧ m.u16 (m.u16 10 - 16) = epoch.toNat := by
  have hepoch : BitVec.ofNat 16 (m.u16 (m.u16 10 - 16)) = epoch ↔ m.u16 (m.u16 10 - 16) = epoch.toNat := by
    rw [← BitVec.toNat_inj, BitVec.toNat_ofNat, Nat.mod_eq_of_lt (m.u16_lt _)]
  unfold returnsEpoch trailerBytes
  simp only [Bool.and_eq_true, decide_eq_true_eq, beq_iff_eq, hepoch, and_assoc]

/-- The reader owns the context, and the bytes that the read returns hold a trailer epoch that is the context's (R155). -/
def ownerSeesEpoch (s : State) (tr : Transfer) (c : CtxNo) (b : BufNo) (off n : Nat) : Bool :=
  decide (s.cxm.contexts[c].owner = some tr.slot) && returnsEpoch s.bcm.buffers[b] s.cxm.contexts[c].briefEpoch off n

theorem ownerSeesEpoch_iff {s : State} {tr : Transfer} {c : CtxNo} {b : BufNo} {off n : Nat} :
    ownerSeesEpoch s tr c b off n = true ↔ s.cxm.contexts[c].owner = some tr.slot ∧
      off ≤ s.bcm.buffers[b].u16 10 - 16 ∧ s.bcm.buffers[b].u16 10 - 16 + 2 ≤ off + n ∧
      s.bcm.buffers[b].u16 (s.bcm.buffers[b].u16 10 - 16) = s.cxm.contexts[c].briefEpoch.toNat := by
  rw [ownerSeesEpoch, Bool.and_eq_true, decide_eq_true_eq, returnsEpoch_iff]

/-- The state after a read of the brief window: Fresh cleared when the trailer was `seen`, and nothing else moved. -/
def freshRead (seen : Bool) (c : CtxNo) (s : State) : State :=
  if seen then setContext c { s.cxm.contexts[c] with fresh := false } s else s

theorem freshRead_cases (seen : Bool) (c : CtxNo) (s : State) :
    freshRead seen c s = { s with cxm := { s.cxm with contexts := (freshRead seen c s).cxm.contexts } } ∧
      (∀ d : CtxNo, d ≠ c → (freshRead seen c s).cxm.contexts[d] = s.cxm.contexts[d]) ∧
      (freshRead seen c s).cxm.contexts[c] =
        { s.cxm.contexts[c] with fresh := (freshRead seen c s).cxm.contexts[c].fresh } ∧
      ((freshRead seen c s).cxm.contexts[c].fresh = true ↔ s.cxm.contexts[c].fresh = true ∧ ¬seen = true) := by
  unfold freshRead
  cases seen with
  | true =>
    rw [if_pos rfl, setContext_context, if_pos rfl]
    exact ⟨rfl, fun d hd => by rw [setContext_context, if_neg hd], rfl, by simp⟩
  | false => exact ⟨rfl, fun _ _ => rfl, rfl, by simp⟩

/-- The answer to a read of the window through a selector that names a context with a published brief (R154). -/
theorem briefRead_published {tr : Transfer} {s : State} {c : CtxNo} {b : BufNo} (off n : Nat)
    (hsel : s.pbi.selectors[tr.slot] = some c) (hpublished : s.cxm.contexts[c].published = some b) :
    briefRead tr off n s = { termination := .done, data := briefBytesAt s.bcm.buffers[b] off n
                             state := freshRead (ownerSeesEpoch s tr c b off n) c s } := by
  unfold briefRead
  rw [hsel]
  dsimp only
  split
  · rename_i hnone
    cases hnone.symm.trans hpublished
  · rename_i a ha
    cases ha.symm.trans hpublished
    simp only [freshRead, ownerSeesEpoch, Bool.and_eq_true, decide_eq_true_eq]

/-- A transfer that moved contexts alone. -/
theorem answered_contexts (tr : Transfer) (e : Termination) (inhibit : Bool) (data : List Byte) {s u : State}
    (hu : u = { s with cxm := { s.cxm with contexts := u.cxm.contexts } }) :
    let t := driveAttention (answer tr e inhibit data u)
    t = { s with cxm := { s.cxm with contexts := t.cxm.contexts }, pbi := t.pbi } ∧ SameMap s t ∧ SameAreas s t ∧
      Answered s t tr e inhibit data := by
  rw [hu]
  exact ⟨rfl, ⟨rfl, rfl⟩, ⟨rfl, rfl, rfl⟩, rfl⟩

/-- Settles O44: the window's transfer reaches the buffer, and the read clears Fresh exactly when the owner sees the trailer's
epoch. -/
theorem briefReadReturnsBuffer : Obligations.BriefReadReturnsBuffer := by
  intro s tr c b hp hc hsel hpublished hbank hlock hend haligned hfit
  have howner : ownerRead tr .briefWindow (tr.offset.toNat - BusPlace.briefWindow.start) tr.size.bytes s =
    briefRead tr tr.offset.toNat tr.size.bytes s := rfl
  have hbus : busRead tr s = answer tr .done false (briefBytesAt s.bcm.buffers[b] tr.offset.toNat tr.size.bytes)
      (freshRead (ownerSeesEpoch s tr c b tr.offset.toNat tr.size.bytes) c s) := by
    rw [busRead_some (judge_briefWindow hc hbank hlock hend haligned hfit), inhibited_briefWindow, movedBytes_briefWindow,
      howner, briefRead_published _ _ hsel hpublished, Bool.false_and]
  obtain ⟨hframe, hothers, hcontext, hfresh⟩ :=
    freshRead_cases (ownerSeesEpoch s tr c b tr.offset.toNat tr.size.bytes) c s
  obtain ⟨hrest, hmap, hareas, hanswered⟩ := answered_contexts tr .done false
    (briefBytesAt s.bcm.buffers[b] tr.offset.toNat tr.size.bytes) hframe
  rw [ownerSeesEpoch_iff] at hfresh
  exact ⟨_, _, (event_powered_next hp).trans (by rw [hbus]), hanswered, hmap, hareas, by simp [briefBytesAt],
    fun k hk => briefBytesAt_getElem? _ _ hk, hrest, hothers, hcontext, hfresh⟩

end Sys2Proof.Machine
end

section
/-!
PROOFS. The statements about the attention lines and the bus reset: O6 and O28 (R167, R168).
-/

namespace Sys2Proof.Machine

/-! ### Every event drives the attention lines (R167) -/

/-- Every command but the two of power is one event of the part. -/
theorem exec_event (c : Instr) (hon : ∀ straps, c ≠ .powerOn straps) (hoff : c ≠ .lossOfPower) :
    ∃ f, ∀ s, exec c s = event f s := by
  cases c with
  | powerOn straps => exact absurd rfl (hon straps)
  | lossOfPower => exact absurd rfl hoff
  | _ => exact ⟨_, fun _ => rfl⟩

theorem attentionTrue_driveAttention (s : State) : (driveAttention s).attentionTrue := fun _ slot =>
  attention_driveAttention s slot

theorem attentionTrue_of_unpowered {s : State} (h : s.power = false) : s.attentionTrue := fun hp _ =>
  absurd (h.symm.trans hp) Bool.false_ne_true

/-- An event drives the lines while the part has power; without power the law says nothing. -/
theorem attentionTrue_event {f : State → State} {s t : State} (h : event f s = .next t) : t.attentionTrue := by
  cases hp : s.power with
  | true => exact event_powered hp h ▸ attentionTrue_driveAttention (f s)
  | false => exact event_unpowered hp h ▸ attentionTrue_of_unpowered hp

/-- Every command leaves the lines at their conditions, whatever they showed before it. -/
theorem exec_attentionTrue (c : Instr) {s t : State} (h : exec c s = .next t) : t.attentionTrue := by
  by_cases hon : ∃ straps, c = .powerOn straps
  · obtain ⟨straps, rfl⟩ := hon
    cases h
    exact attentionTrue_driveAttention _
  · by_cases hoff : c = .lossOfPower
    · subst hoff
      cases h
      exact attentionTrue_of_unpowered rfl
    · obtain ⟨f, hf⟩ := exec_event c (fun straps hc => hon ⟨straps, hc⟩) hoff
      exact attentionTrue_event ((hf s).symm.trans h)

/-- Settles O6: an idle part keeps its lines, and every command drives them. -/
theorem stepKeepsAttention : Obligations.StepKeepsAttention := by
  intro s t hs h
  unfold step at h
  split at h
  · cases h
    exact hs
  · exact exec_attentionTrue _ h

/-! ### The bus reset (R168) -/

theorem releasedBy_all (e : Entry) : e.releasedBy (fun _ => true) = { e with holder := none } := by
  rw [releasedBy_filter]
  simp

/-- The slots' own areas after a bus reset. -/
theorem busResetState_areas (s : State) (k : Slot) :
    (busResetState s).pbi.selectors[k] = none ∧ (busResetState s).pbi.results[k] = resetResult s.pbi.results[k] ∧
      (busResetState s).pbi.inFlight[k] = s.pbi.inFlight[k].map fun cmd => { cmd with lost := true } := by
  simp [busResetState]

/-- Settles O28: every hold and every slot's area is ended by itself, and nothing that a line's condition reads has moved. -/
theorem busResetEndsHolds : Obligations.BusResetEndsHolds := by
  intro s hp hs
  refine ⟨_, event_powered_next hp, rfl, rfl, fun i => ⟨endHolds_change _ s.ale i i.isLt, ?_⟩, fun k => ?_, rfl, rfl, rfl⟩
  · have hentry := endHolds_entry (fun _ => true) s.ale i i.isLt
    simp only [releasedBy_all] at hentry
    exact hentry
  · obtain ⟨hselector, hresult, hflight⟩ := busResetState_areas s k
    have htimer : (endHolds (fun _ => true) s.ale).holdTimers[k] = false := by simp
    have hline : (driveAttention (busResetState s)).pbi.attention[k] = s.pbi.attention[k] :=
      (attention_driveAttention _ k).trans (hs hp k).symm
    have hshown : (driveAttention (busResetState s)).pbi.results[k] = resetResult s.pbi.results[k] := hresult
    exact ⟨htimer, hselector, hshown ▸ rfl, hshown ▸ rfl, hshown ▸ rfl, hflight, hline⟩

end Sys2Proof.Machine
end

section
/-!
PROOFS. The statement about refused commands: O16 (R165).
-/

namespace Sys2Proof.Machine

/-! ### The bodies of the seventeen commands -/

/-- The body that the owning block carries out for a command (R165, step 3). -/
def CommandCode.body : CommandCode → Slot → InFlight → State → State × CommandOutcome
  | .assignCrew, _ => assignCrewBody
  | .moveCrew, _ => moveCrewBody
  | .withdrawCrew, _ => withdrawCrewBody
  | .setConsoleMask, _ => setConsoleMaskBody
  | .takeConsoleNotice, _ => takeConsoleNoticeBody
  | .briefNow, _ => briefNowBody
  | .unlatchLine, _ => unlatchLineBody
  | .resetMark, _ => resetMarkBody
  | .incidentClear, _ => incidentClearBody
  | .requestBrief, slot => requestBriefBody slot
  | .takeNotice, slot => takeNoticeBody slot
  | .setMask, slot => setMaskBody slot
  | .markFloor, slot => markFloorBody slot
  | .beginLoad, _ => beginLoadBody
  | .commitPlan, _ => commitPlanBody
  | .abortLoad, _ => abortLoadBody
  | .erasePlan, _ => erasePlanBody

/-- The row of a command carries out its body. -/
theorem exec_row (code : CommandCode) (slot : Slot) (s : State) :
    exec (code.row slot) s = event (carryOut slot code (code.body slot)) s := by
  cases code <;> rfl

/-! ### A refusal moves nothing (R165) -/

/-- What a body comes to from `s`: a refusal that leaves `s`, or Done with whatever it left. -/
inductive RefusesUnmoved (s : State) : State × CommandOutcome → Prop where
  | refused (r : CommandReason) : RefusesUnmoved s (s, .refused r)
  | done (u : State) (returned : List Byte) : RefusesUnmoved s (u, .done returned)

/-- A body whose outcome is a refusal has left the state. -/
theorem RefusesUnmoved.eq_of_refused {s : State} {x : State × CommandOutcome} {r : CommandReason} (h : RefusesUnmoved s x)
    (hr : x.2 = .refused r) : x = (s, .refused r) := by
  cases h with
  | refused r' => rw [← hr]
  | done u returned => cases hr

theorem refusesUnmoved_opening (erase : Bool) (cmd : InFlight) (s : State) :
    RefusesUnmoved s (openingBody erase cmd s) := by
  cases h : openingCheck s with
  | none => exact openingBody_accepted erase cmd h ▸ .done _ _
  | some r => exact openingBody_refused erase cmd h ▸ .refused _

theorem refusesUnmoved_takeConsoleNotice (cmd : InFlight) (s : State) :
    RefusesUnmoved s (takeConsoleNoticeBody cmd s) := by
  unfold takeConsoleNoticeBody
  split
  · exact .refused _
  · split
    · exact .refused _
    · exact .done _ _

theorem refusesUnmoved_takeNotice (slot : Slot) (cmd : InFlight) (s : State) :
    RefusesUnmoved s (takeNoticeBody slot cmd s) := by
  unfold takeNoticeBody
  split
  · exact .refused _
  · split
    · exact .refused _
    · exact .done _ _

theorem refusesUnmoved_requestBrief (slot : Slot) (cmd : InFlight) (s : State) :
    RefusesUnmoved s (requestBriefBody slot cmd s) := by
  unfold requestBriefBody
  split
  · exact .refused _
  · split
    · exact .done _ _
    · exact .refused _

theorem refusesUnmoved_unlatchLine (cmd : InFlight) (s : State) : RefusesUnmoved s (unlatchLineBody cmd s) := by
  unfold unlatchLineBody
  split
  · exact .refused _
  · dsimp only
    split
    · exact .refused _
    · split
      · exact .refused _
      · exact .done _ _

/-- Every command's body makes its checks before its first effect. -/
theorem body_refusesUnmoved (code : CommandCode) (slot : Slot) (cmd : InFlight) (s : State) :
    RefusesUnmoved s (code.body slot cmd s) := by
  cases code with
  | assignCrew =>
    simp only [CommandCode.body, assignCrewBody]
    split
    · exact .refused _
    · exact .done _ _
  | moveCrew =>
    simp only [CommandCode.body, moveCrewBody]
    split
    · exact .refused _
    · exact .done _ _
  | withdrawCrew =>
    simp only [CommandCode.body, withdrawCrewBody]
    split
    · exact .refused _
    · exact .done _ _
  | briefNow =>
    simp only [CommandCode.body, briefNowBody]
    split
    · exact .refused _
    · exact .done _ _
  | setMask =>
    simp only [CommandCode.body, setMaskBody]
    split
    · exact .refused _
    · exact .done _ _
  | markFloor =>
    simp only [CommandCode.body, markFloorBody]
    split
    · exact .refused _
    · exact .done _ _
  | resetMark =>
    simp only [CommandCode.body, resetMarkBody]
    split
    · exact .refused _
    · exact .done _ _
  | setConsoleMask =>
    simp only [CommandCode.body, setConsoleMaskBody]
    split
    · exact .done _ _
    · exact .done _ _
  | incidentClear =>
    simp only [CommandCode.body, incidentClearBody]
    split
    · exact .refused _
    · exact .done _ _
  | commitPlan =>
    simp only [CommandCode.body, commitPlanBody]
    split
    · exact .done _ _
    · exact .refused _
  | abortLoad =>
    simp only [CommandCode.body, abortLoadBody]
    split
    · exact .done _ _
    · exact .refused _
  | takeConsoleNotice => exact refusesUnmoved_takeConsoleNotice cmd s
  | takeNotice => exact refusesUnmoved_takeNotice slot cmd s
  | requestBrief => exact refusesUnmoved_requestBrief slot cmd s
  | unlatchLine => exact refusesUnmoved_unlatchLine cmd s
  | beginLoad => exact refusesUnmoved_opening false cmd s
  | erasePlan => exact refusesUnmoved_opening true cmd s

/-! ### The result record (R164) -/

/-- A result record that shows Refused is that of a refusal. -/
theorem refused_of_toResult {code : Byte} {o : CommandOutcome} (h : (o.toResult code).outcome = .refused) :
    ∃ r, o = .refused r := by
  cases o with
  | done returned => cases h
  | refused r => exact ⟨r, rfl⟩

/-- The result record of a completed command, unless a bus reset came between (R164, R168). -/
theorem completeCommand_result {slot : Slot} {cmd : InFlight} (hl : cmd.lost = false) (o : CommandOutcome) (s : State) :
    (completeCommand slot cmd o s).pbi.results[slot] = o.toResult (commandByte cmd 0) := by
  simp [hl]

/-- Settles O16: the result record tells that the body refused, and a body that refuses has moved nothing. -/
theorem refusedCommandChangesNothing : Obligations.RefusedCommandChangesNothing := by
  intro code slot cmd s t hready hl h hrefused
  have ht : t = driveAttention (completeCommand slot cmd (code.body slot cmd s).2 (code.body slot cmd s).1) := by
    rw [exec_ready (exec_row code slot s) hready] at h
    injection h with h
    exact h.symm
  have hresult : t.pbi.results[slot] = (code.body slot cmd s).2.toResult (commandByte cmd 0) := by
    rw [ht]
    exact completeCommand_result hl _ _
  obtain ⟨r, hr⟩ := refused_of_toResult (hresult ▸ hrefused)
  obtain ⟨u, hu, hcompleted, hmap, hrest⟩ :=
    refused_of_body (exec_row code slot s) hready ((body_refusesUnmoved code slot cmd s).eq_of_refused hr)
  have htu : t = u := by
    rw [h] at hu
    injection hu
  subst htu
  exact ⟨hrest, hmap, r, hcompleted⟩

end Sys2Proof.Machine
end

section
/-!
SUPPORT. What a transfer leaves of the bus interface: the answer Retry (R158), the slots' own areas (R159), the Loader's flag
(R162), and where a transfer to a slot's own area goes (R170).
-/

namespace Sys2Proof.Machine

/-! ### The judgement (R158) -/

/-- A transfer that passes the five steps of R158 goes to its place. -/
theorem judge_of_steps {t : Transfer} {write : Bool} {s : State} {p : BusPlace} (hc : s.pbi.classes[t.slot] ≠ .noClass)
    (hloc : locate t.bank.toNat t.offset.toNat (singleBytes t) = some p)
    (haccess : accessAllowed s.pbi.classes[t.slot] t.slot write p = true) (hshape : shapeAllowed t p = true)
    (hlocks : locksAllowed t write p = true) : judge t write s = some p := by
  have hclass : slotClass s t.slot = s.pbi.classes[t.slot] := rfl
  unfold judge
  rw [hclass, if_neg hc, hloc]
  simp only [haccess, hshape, hlocks, Bool.and_self, if_true]

/-- The plan status is a place of the Port bank alone (R170). -/
theorem bank_of_planStatus {bank off n : Nat} (h : locate bank off n = some .planStatus) : bank = 0x00 := by
  have hmem : .planStatus ∈ bankPlaces bank off := List.mem_of_find?_eq_some h
  by_contra hbank
  unfold bankPlaces at hmem
  rw [if_neg hbank] at hmem
  split at hmem
  · simp at hmem
  · split at hmem
    · split at hmem <;> simp at hmem
    · split at hmem
      · simp at hmem
      · split at hmem
        · simp at hmem
        · split at hmem <;> simp at hmem

theorem locate_commandSlot (k : Slot) : locate 0x00 (0x0100 + 0x40 * k.val) 4 = some (.commandSlot k) := by
  revert k
  decide

theorem locate_selector (k : Slot) : locate 0x00 (0x0120 + 0x40 * k.val) 1 = some (.selector k) := by
  revert k
  decide

theorem locate_planStatus (t : Transfer) : locate 0x00 0x10 (singleBytes t) = some .planStatus := by
  unfold singleBytes
  cases t.size <;> decide

/-! ### Retry moves nothing (R158) -/

/-- An owner's answer to a read, when it is Retry, changed nothing and returns nothing. -/
def ReadRetryUnmoved (s : State) (a : ReadAnswer) : Prop := a.termination = .retry → a = refuseRead .retry s

theorem readRetryUnmoved_refused (e : Termination) (s : State) : ReadRetryUnmoved s (refuseRead e s) := fun h => by
  cases (show e = .retry from h)
  rfl

theorem readRetryUnmoved_lockedEntryRead (t : Transfer) (i : EntryNo) (off n : Nat) (s : State) :
    ReadRetryUnmoved s (lockedEntryRead t i off n s) := by
  unfold lockedEntryRead
  split
  · exact readRetryUnmoved_refused .fault s
  · split
    · exact readRetryUnmoved_refused .fault s
    · split
      · exact readRetryUnmoved_refused .retry s
      · exact nofun

theorem readRetryUnmoved_briefRead (t : Transfer) (off n : Nat) (s : State) :
    ReadRetryUnmoved s (briefRead t off n s) := by
  unfold briefRead
  split
  · exact readRetryUnmoved_refused .fault s
  · split
    · exact readRetryUnmoved_refused .fault s
    · exact nofun

theorem readRetryUnmoved_ownerRead (t : Transfer) (p : BusPlace) (off n : Nat) (s : State) :
    ReadRetryUnmoved s (ownerRead t p off n s) := by
  cases p with
  | entry i =>
    simp only [ownerRead]
    split
    · exact readRetryUnmoved_lockedEntryRead t i off n s
    · unfold plainEntryRead
      split
      · exact readRetryUnmoved_refused .retry s
      · exact nofun
  | contextRecord =>
    simp only [ownerRead, contextWindowRead]
    split
    · exact readRetryUnmoved_refused .fault s
    · exact nofun
  | briefWindow => exact readRetryUnmoved_briefRead t off n s
  | planSpace bank =>
    simp only [ownerRead, planSpaceRead]
    split
    · exact nofun
    · exact nofun
    · exact nofun
    · exact nofun
    · exact nofun
    · exact readRetryUnmoved_refused .retry s
  | commandSlot k => exact readRetryUnmoved_refused .fault s
  | intake => exact readRetryUnmoved_refused .fault s
  | _ => exact nofun

/-- A read answered with Retry has moved nothing but the response pins. -/
theorem busRead_retry {t : Transfer} {s : State}
    (h : (busRead t s).pbi.response.map (·.termination) = some .retry) : busRead t s = answer t .retry false [] s := by
  cases hj : judge t false s with
  | none => rw [busRead_none hj] at h; cases h
  | some p =>
    rw [busRead_some hj] at h ⊢
    rw [readRetryUnmoved_ownerRead t p _ _ s (Option.some.inj h)]
    exact congrArg (answer t .retry · [] s) (Bool.and_false _)

/-- An owner's answer to a write, when it is Retry, changed nothing. -/
def WriteRetryUnmoved (s : State) (a : WriteAnswer) : Prop := a.termination = .retry → a.state = s

theorem writeRetryUnmoved_refused (e : Termination) (s : State) : WriteRetryUnmoved s (refuseWrite e s) := fun _ => rfl

theorem writeRetryUnmoved_entryWrite (t : Transfer) (i : EntryNo) (off : Nat) (data : List Byte) (s : State) :
    WriteRetryUnmoved s (entryWrite t i off data s) := by
  unfold entryWrite
  split
  · exact writeRetryUnmoved_refused .retry s
  · split
    · split
      · unfold actionWrite
        split
        · exact nofun
        · exact nofun
      · exact nofun
    · exact writeRetryUnmoved_refused .fault s

/-- Panels told to try again leave the Intake Queue as it stands (R53). -/
theorem arrival_retry {panel : PanelNo} {data : List Byte} {r : Rin} (h : (arrival panel data r).1 = .retry) :
    (arrival panel data r).2 = r := by
  unfold arrival at h ⊢
  split at h
  · rfl
  · split
    · rfl
    · rename_i hroom
      rw [if_neg hroom] at h
      cases h

theorem writeRetryUnmoved_intakeAnswer (t : Transfer) (data : List Byte) (s : State) :
    WriteRetryUnmoved s (intakeAnswer t data s) := by
  unfold intakeAnswer
  split
  · intro h
    dsimp only at h ⊢
    rw [arrival_retry h]
  · exact writeRetryUnmoved_refused .fault s

theorem writeRetryUnmoved_commandAnswer (slot : Slot) (data : List Byte) (s : State) :
    WriteRetryUnmoved s (commandAnswer slot data s) := by
  unfold commandAnswer
  split
  · exact writeRetryUnmoved_refused .retry s
  · dsimp only
    split
    · exact nofun
    · exact nofun

theorem writeRetryUnmoved_ownerWrite (t : Transfer) (p : BusPlace) (off : Nat) (data : List Byte) (s : State) :
    WriteRetryUnmoved s (ownerWrite t p off data s) := by
  cases p with
  | entry i => exact writeRetryUnmoved_entryWrite t i off data s
  | commandSlot k => exact writeRetryUnmoved_commandAnswer k data s
  | selector k =>
    unfold ownerWrite selectorWrite
    dsimp only
    split
    · exact nofun
    · split
      · exact nofun
      · exact writeRetryUnmoved_refused .fault s
  | intake => exact writeRetryUnmoved_intakeAnswer t data s
  | planSpace bank =>
    unfold ownerWrite planSpaceStore
    dsimp only
    split
    · exact nofun
    · exact writeRetryUnmoved_refused .fault s
  | _ => exact writeRetryUnmoved_refused .fault s

/-- A write answered with Retry has moved nothing but the response pins. -/
theorem busWrite_retry {t : Transfer} {data : List Byte} {s : State}
    (h : (busWrite t data s).pbi.response.map (·.termination) = some .retry) :
    busWrite t data s = answer t .retry false [] s := by
  cases hj : judge t true s with
  | none => rw [busWrite_none hj] at h; cases h
  | some p =>
    rw [busWrite_some hj] at h ⊢
    have hr : (ownerWrite t p (t.offset.toNat - p.start) (slice data 0 (movedBytes t p)) s).termination = .retry :=
      Option.some.inj h
    rw [hr, writeRetryUnmoved_ownerWrite t p _ _ s hr]
    exact congrArg (answer t .retry · [] s) (Bool.and_false _)

/-! ### The slots' own areas (R159) -/

/-- From `x` to `y` the class map stands, and no selector, result record or command in flight moved but the slot's own. -/
def OwnAreaOnly (slot : Slot) (x y : Pbi) : Prop :=
  y.classes = x.classes ∧ y.loaderSlot = x.loaderSlot ∧ ∀ k : Slot, k ≠ slot →
    y.selectors[k] = x.selectors[k] ∧ y.results[k] = x.results[k] ∧ y.inFlight[k] = x.inFlight[k]

theorem OwnAreaOnly.of_eq {slot : Slot} {x y : Pbi} (h : y = x) : OwnAreaOnly slot x y :=
  h ▸ ⟨rfl, rfl, fun _ _ => ⟨rfl, rfl, rfl⟩⟩

theorem set_other {α : Type} {n : Nat} (v : Vector α n) (i k : Fin n) (x : α) (h : k ≠ i) : (v.set i x)[k] = v[k] := by
  simp [Fin.val_ne_of_ne (Ne.symm h)]

/-- The owner of any place but the plan status leaves the bus interface at a read. -/
theorem ownerRead_pbi_of_ne {p : BusPlace} (hp : p ≠ .planStatus) (t : Transfer) (off n : Nat) (s : State) :
    (ownerRead t p off n s).state.pbi = s.pbi := by
  cases p with
  | planStatus => exact absurd rfl hp
  | entry i =>
    simp only [ownerRead]
    split
    · unfold lockedEntryRead
      split
      · rfl
      · split
        · rfl
        · split <;> rfl
    · unfold plainEntryRead
      split <;> rfl
  | contextRecord => simp only [ownerRead, contextWindowRead]; split <;> rfl
  | briefWindow =>
    simp only [ownerRead, briefRead]
    split
    · rfl
    · split
      · rfl
      · simp only
        split <;> rfl
  | planSpace bank => simp only [ownerRead, planSpaceRead]; split <;> rfl
  | _ => rfl

/-- What a read of the plan status leaves: all but the Loader's flag, which the Loader's read of the state field clears
(R162). -/
theorem planStatusAnswer_state (t : Transfer) (off n : Nat) (s : State) : (planStatusAnswer t off n s).state =
    if s.pbi.classes[t.slot] = .loader ∧ off = 0 then { s with pbi.loaderFlag := false } else s := rfl

theorem ownArea_ownerRead (t : Transfer) (p : BusPlace) (off n : Nat) (s : State) :
    OwnAreaOnly t.slot s.pbi (ownerRead t p off n s).state.pbi := by
  by_cases hp : p = .planStatus
  · subst hp
    change OwnAreaOnly t.slot s.pbi (planStatusAnswer t off n s).state.pbi
    rw [planStatusAnswer_state]
    split
    · exact ⟨rfl, rfl, fun _ _ => ⟨rfl, rfl, rfl⟩⟩
    · exact .of_eq rfl
  · exact .of_eq (ownerRead_pbi_of_ne hp t off n s)

/-- A write that the class access of R159 allows moves no other slot's area, nor the class map. -/
theorem ownArea_ownerWrite {t : Transfer} {p : BusPlace} {cls : SlotClass}
    (haccess : accessAllowed cls t.slot true p = true) (off : Nat) (data : List Byte) (s : State) :
    OwnAreaOnly t.slot s.pbi (ownerWrite t p off data s).state.pbi := by
  cases p with
  | entry i => exact .of_eq (entryWrite_pbi t i off data s)
  | commandSlot k =>
    have hk : k = t.slot := by simpa [accessAllowed] using haccess
    subst hk
    unfold ownerWrite commandAnswer
    dsimp only
    split
    · exact .of_eq rfl
    · split
      · exact ⟨rfl, rfl, fun k hk => ⟨rfl, set_other _ _ _ _ hk, rfl⟩⟩
      · exact ⟨rfl, rfl, fun k hk => ⟨rfl, set_other _ _ _ _ hk, set_other _ _ _ _ hk⟩⟩
  | selector k =>
    have hk : k = t.slot := (by simpa [accessAllowed] using haccess : k = t.slot ∧ _).1
    subst hk
    unfold ownerWrite selectorWrite
    dsimp only
    split
    · exact ⟨rfl, rfl, fun k hk => ⟨set_other _ _ _ _ hk, rfl, rfl⟩⟩
    · split
      · exact ⟨rfl, rfl, fun k hk => ⟨set_other _ _ _ _ hk, rfl, rfl⟩⟩
      · exact .of_eq rfl
  | intake =>
    unfold ownerWrite intakeAnswer
    dsimp only
    split <;> exact .of_eq rfl
  | planSpace bank =>
    unfold ownerWrite planSpaceStore
    dsimp only
    split <;> exact .of_eq rfl
  | _ => exact .of_eq rfl

theorem ownArea_busRead (t : Transfer) (s : State) : OwnAreaOnly t.slot s.pbi (busRead t s).pbi := by
  cases hj : judge t false s with
  | none => rw [busRead_none hj]; exact ⟨rfl, rfl, fun _ _ => ⟨rfl, rfl, rfl⟩⟩
  | some p =>
    rw [busRead_some hj]
    exact ownArea_ownerRead t p _ _ s

theorem ownArea_busWrite (t : Transfer) (data : List Byte) (s : State) :
    OwnAreaOnly t.slot s.pbi (busWrite t data s).pbi := by
  cases hj : judge t true s with
  | none => rw [busWrite_none hj]; exact ⟨rfl, rfl, fun _ _ => ⟨rfl, rfl, rfl⟩⟩
  | some p =>
    obtain ⟨-, -, haccess, -, -⟩ := judge_some hj
    rw [busWrite_some hj]
    exact ownArea_ownerWrite haccess _ _ s

/-- The attention lines belong to no slot's area. -/
theorem ownArea_event {slot : Slot} {f : State → State} {s t : State} (hf : OwnAreaOnly slot s.pbi (f s).pbi)
    (h : event f s = .next t) : OwnAreaOnly slot s.pbi t.pbi := by
  cases hp : s.power with
  | true => exact event_powered hp h ▸ hf
  | false => exact event_unpowered hp h ▸ .of_eq rfl

end Sys2Proof.Machine
end

section
/-!
PROOFS. The statements about transfers and the slots' own areas: O17, O18, O30, O43 and O45 (R158, R159, R162 to R166).
-/

namespace Sys2Proof.Machine

/-! ### Retry and the slots' areas (R158, R159) -/

/-- Settles O17: a bus transfer that ends with Retry has moved the response pins alone. -/
theorem retryChangesNothing : Obligations.RetryChangesNothing := by
  intro tr data s t hp h hretry
  have ht : t = driveAttention (answer tr .retry false [] s) := by
    rcases h with h | h
    · have ht := event_powered hp h
      subst ht
      exact congrArg driveAttention (busWrite_retry hretry)
    · have ht := event_powered hp h
      subst ht
      exact congrArg driveAttention (busRead_retry hretry)
  subst ht
  obtain ⟨hrest, hmap, hareas, hanswered⟩ := answered_unmoved tr .retry false [] s
  exact ⟨hrest, hmap, hareas, false, hanswered⟩

/-- Settles O18: each of the transfer rows is a bus write or a bus read of the same transfer. -/
theorem slotAreasAreApart : Obligations.SlotAreasAreApart := by
  intro tr data s t h
  change OwnAreaOnly tr.slot s.pbi t.pbi
  have hwrite : event (busWrite tr data) s = .next t → OwnAreaOnly tr.slot s.pbi t.pbi :=
    ownArea_event (ownArea_busWrite tr data s)
  have hread : event (busRead tr) s = .next t → OwnAreaOnly tr.slot s.pbi t.pbi :=
    ownArea_event (ownArea_busRead tr s)
  rcases h with h | h | h | h | h | h | h | h
  · exact hwrite h
  · exact hwrite h
  · exact hwrite h
  · exact hwrite h
  · exact hwrite h
  · exact hread h
  · exact hread h
  · exact hread h

/-! ### The plan status (R162) -/

theorem slice_start {record : List Byte} {n : Nat} (h : n ≤ record.length) : slice record 0 n = record.take n := by
  refine List.ext_getElem (by simp [slice, h]) fun i h1 h2 => ?_
  have hi : i < record.length := lt_of_lt_of_le h2 (List.length_take_le' n record)
  simp [slice, List.getElem?_eq_getElem hi]

theorem inhibited_planStatus (t : Transfer) : inhibited t .planStatus = (t.size == .burst) := by
  simp [inhibited, carriedAsOne]

theorem movedBytes_planStatus (t : Transfer) : movedBytes t .planStatus = singleBytes t := by
  simp [movedBytes, inhibited_planStatus, singleBytes]

theorem singleBytes_le_four (t : Transfer) : singleBytes t ≤ 4 := by
  cases h : t.size <;> simp [singleBytes, Size.bytes, h]

/-- An unlocked read at the state field of the plan status passes every step of R158. -/
theorem judge_planStatus {t : Transfer} {s : State} (hc : s.pbi.classes[t.slot] ≠ .noClass) (hb : t.bank = 0)
    (ho : t.offset = 0x10) (hl : t.lock = false) (he : t.lockEnd = false) : judge t false s = some .planStatus := by
  have hfour := singleBytes_le_four t
  refine judge_of_steps hc ?_ rfl ?_ ?_
  · rw [hb, ho]
    exact locate_planStatus t
  · have haligned : aligned t = true := by
      cases h : t.size <;> simp [aligned, h, ho]
    have hfit : 0x10 + singleBytes t ≤ 0x20 := by omega
    simp [shapeAllowed, haligned, BusPlace.covers, BusPlace.start, BusPlace.bytes, movedBytes_planStatus, ho, hfit]
  · simp [locksAllowed, hl, he]

/-- The Loader's read of the state field (R162). -/
theorem busRead_stateField {t : Transfer} {s : State} (hc : s.pbi.classes[t.slot] = .loader) (hb : t.bank = 0)
    (ho : t.offset = 0x10) (hl : t.lock = false) (he : t.lockEnd = false) : busRead t s =
      answer t .done (t.size == .burst) ((planStatusRecord s.psc).take (singleBytes t))
        { s with pbi.loaderFlag := false } := by
  have howner : ownerRead t .planStatus (t.offset.toNat - BusPlace.planStatus.start) (singleBytes t) s =
      { termination := .done, data := (planStatusRecord s.psc).take (singleBytes t)
        state := { s with pbi.loaderFlag := false } } := by
    have hoff : t.offset.toNat - BusPlace.planStatus.start = 0 := by rw [ho]; rfl
    have hlength : singleBytes t ≤ (planStatusRecord s.psc).length := (singleBytes_le_four t).trans (by decide : 4 ≤ 16)
    have hloader : slotClass s t.slot = .loader ∧ (0 : Nat) = 0 := ⟨hc, rfl⟩
    rw [hoff]
    unfold ownerRead planStatusAnswer readFrom
    dsimp only
    rw [slice_start hlength, if_pos hloader]
  rw [busRead_some (judge_planStatus (by simp [hc]) hb ho hl he), movedBytes_planStatus, howner, inhibited_planStatus]
  simp

/-- The Loader's flag stays at every read but the Loader's own of the state field (R162). -/
theorem busRead_loaderFlag {t : Transfer} {s : State}
    (h : s.pbi.classes[t.slot] ≠ .loader ∨ t.bank ≠ 0 ∨ t.offset ≠ 0x10) :
    (busRead t s).pbi.loaderFlag = s.pbi.loaderFlag := by
  cases hj : judge t false s with
  | none => rw [busRead_none hj]; rfl
  | some p =>
    rw [busRead_some hj]
    by_cases hp : p = .planStatus
    · subst hp
      obtain ⟨-, hloc, -, -, -⟩ := judge_some hj
      have hlow : 0x10 ≤ t.offset.toNat := of_decide_eq_true (Bool.and_eq_true_iff.1 (locate_covers hloc)).1
      have hbank : t.bank = 0 := BitVec.eq_of_toNat_eq (bank_of_planStatus hloc)
      have helse : ¬(s.pbi.classes[t.slot] = .loader ∧ t.offset.toNat - BusPlace.planStatus.start = 0) := by
        rintro ⟨hclass, hoff⟩
        have hoffset : t.offset = 0x10 := BitVec.eq_of_toNat_eq (le_antisymm (Nat.sub_eq_zero_iff_le.1 hoff) hlow)
        exact h.elim (· hclass) (·.elim (· hbank) (· hoffset))
      change (planStatusAnswer t _ _ s).state.pbi.loaderFlag = _
      rw [planStatusAnswer_state, if_neg helse]
    · exact congrArg (·.loaderFlag) (ownerRead_pbi_of_ne hp t _ _ s)

/-- The Loader's line shows the Loader's flag (R167). -/
theorem attentionCondition_loader {s : State} {slot : Slot} (h : s.pbi.classes[slot] = .loader) :
    attentionCondition s slot = s.pbi.loaderFlag := by
  unfold attentionCondition
  rw [h]

/-- Settles O30: the flag is the Loader's condition of attention, and the read of the state field alone reaches it. -/
theorem planStatusReadClearsFlag : Obligations.PlanStatusReadClearsFlag := by
  constructor
  · intro s tr hp hc hb ho hl he
    have hexec : exec (.planStatusRead tr) s = .next (driveAttention (answer tr .done (tr.size == .burst)
        ((planStatusRecord s.psc).take (singleBytes tr)) { s with pbi.loaderFlag := false })) :=
      (event_powered_next hp).trans (by rw [busRead_stateField hc hb ho hl he])
    refine ⟨_, hexec, rfl, ?_, rfl, rfl, ⟨rfl, rfl, rfl⟩, rfl⟩
    rw [attention_driveAttention]
    exact attentionCondition_loader hc
  · intro s t tr h hother
    cases hp : s.power with
    | true => exact event_powered hp h ▸ busRead_loaderFlag hother
    | false => exact event_unpowered hp h ▸ rfl

end Sys2Proof.Machine
end

section
/-!
PROOFS. The statements about writes to a slot's own area: O43 (R163) and O45 (R164 to R166).
-/

namespace Sys2Proof.Machine

/-! ### The state after a write to the slot's own area -/

/-- The state with the slots' own areas as given. -/
def withAreas (s : State) (selectors : Vector (Option CtxNo) 8) (results : Vector ResultRecord 8)
    (inFlight : Vector (Option InFlight) 8) : State :=
  { s with pbi := { s.pbi with selectors := selectors, results := results, inFlight := inFlight } }

/-- A transfer that moved the slots' own areas alone. -/
theorem answered_areas (tr : Transfer) (e : Termination) (s : State) (selectors : Vector (Option CtxNo) 8)
    (results : Vector ResultRecord 8) (inFlight : Vector (Option InFlight) 8) :
    let t := driveAttention (answer tr e false [] (withAreas s selectors results inFlight))
    t = { s with pbi := t.pbi } ∧ SameMap s t ∧ Answered s t tr e false [] :=
  ⟨rfl, ⟨rfl, rfl⟩, rfl⟩

theorem set_self {α : Type} {n : Nat} (v : Vector α n) (i : Fin n) (x : α) : (v.set i x)[i] = x := by
  simp

/-! ### The selector (R163) -/

theorem inhibited_of_single {t : Transfer} (h : t.size ≠ .burst) (p : BusPlace) : inhibited t p = false := by
  simp [inhibited, h]

/-- A 1-byte write of a Console, a Gateway or the Loader to its own selector passes every step of R158. -/
theorem judge_selector {t : Transfer} {s : State}
    (hc : s.pbi.classes[t.slot] = .console ∨ s.pbi.classes[t.slot] = .gateway ∨ s.pbi.classes[t.slot] = .loader)
    (hb : t.bank = 0) (ho : t.offset.toNat = 0x0120 + 0x40 * t.slot.val) (hs : t.size = .one) (hl : t.lock = false)
    (he : t.lockEnd = false) : judge t true s = some (.selector t.slot) := by
  have hnone : s.pbi.classes[t.slot] ≠ .noClass := by
    rcases hc with h | h | h <;> simp [h]
  have hpanel : s.pbi.classes[t.slot].isPanel = false := by
    rcases hc with h | h | h <;> rw [h] <;> rfl
  have haccess : accessAllowed s.pbi.classes[t.slot] t.slot true (.selector t.slot) = true := by
    simp only [accessAllowed, hpanel, beq_self_eq_true]
    rfl
  refine judge_of_steps hnone ?_ haccess ?_ (by simp [locksAllowed, hl, he])
  · rw [hb, ho, singleBytes, hs]
    exact locate_selector t.slot
  · simp [shapeAllowed, aligned, movedBytes, inhibited, hs, Size.bytes, BusPlace.covers, BusPlace.start, BusPlace.bytes, ho]

/-- A byte written to the selector that passes the steps of R158. -/
theorem busWrite_selector {t : Transfer} {s : State} (b : Byte) (hj : judge t true s = some (.selector t.slot))
    (hs : t.size = .one) : busWrite t [b] s =
      answer t (selectorWrite t.slot b s).termination false [] (selectorWrite t.slot b s).state := by
  have hmoved : movedBytes t (.selector t.slot) = 1 := by simp [movedBytes, inhibited, hs, Size.bytes]
  rw [busWrite_some hj, hmoved, inhibited_of_single (by simp [hs]), Bool.false_and]
  rfl

theorem selectorWrite_context {slot : Slot} {b : Byte} {c : CtxNo} (h : b.toNat = c.val) (s : State) :
    selectorWrite slot b s = {
      termination := .done
      state := withAreas s (s.pbi.selectors.set slot (some c)) s.pbi.results s.pbi.inFlight } := by
  have hb : b.toNat < 32 := h ▸ c.isLt
  have hc : (⟨b.toNat, hb⟩ : CtxNo) = c := Fin.ext h
  unfold selectorWrite
  rw [dif_pos hb, hc]
  rfl

theorem selectorWrite_none (slot : Slot) (s : State) :
    selectorWrite slot 0xFF s = {
      termination := .done
      state := withAreas s (s.pbi.selectors.set slot none) s.pbi.results s.pbi.inFlight } := by
  unfold selectorWrite
  rw [dif_neg (by decide), if_pos rfl]
  rfl

theorem selectorWrite_fault {slot : Slot} {b : Byte} (h : 32 ≤ b.toNat) (hb : b ≠ 0xFF) (s : State) :
    selectorWrite slot b s = {
      termination := .fault
      state := withAreas s s.pbi.selectors s.pbi.results s.pbi.inFlight } := by
  unfold selectorWrite
  rw [dif_neg (by omega), if_neg hb]
  rfl

/-- Settles O43: a byte names a context, is 255, or is answered with Fault. -/
theorem selectorWriteSets : Obligations.SelectorWriteSets := by
  intro s tr b hp hc hb ho hs hl he
  have hexec : exec (.contextSelectorWrite tr [b]) s =
      .next (driveAttention (answer tr (selectorWrite tr.slot b s).termination false []
        (selectorWrite tr.slot b s).state)) :=
    (event_powered_next hp).trans (by rw [busWrite_selector b (judge_selector hc hb ho hs hl he) hs])
  by_cases hcontext : b.toNat < 32
  · obtain ⟨c, hbc⟩ : ∃ c : CtxNo, b.toNat = c.val := ⟨⟨b.toNat, hcontext⟩, rfl⟩
    rw [selectorWrite_context hbc] at hexec
    obtain ⟨hrest, hmap, hanswered⟩ := answered_areas tr .done s (s.pbi.selectors.set tr.slot (some c)) s.pbi.results
      s.pbi.inFlight
    refine ⟨_, hexec, hrest, hmap, rfl, rfl, fun k hk => set_other _ _ _ _ hk, fun d hd => ⟨?_, hanswered⟩, ?_, ?_⟩
    · have hdc : d = c := Fin.ext (hd.symm.trans hbc)
      subst hdc
      exact set_self ..
    · rintro rfl
      exact absurd hcontext (by decide)
    · exact fun h => absurd hcontext (by omega)
  · by_cases hnone : b = 0xFF
    · subst hnone
      rw [selectorWrite_none] at hexec
      obtain ⟨hrest, hmap, hanswered⟩ := answered_areas tr .done s (s.pbi.selectors.set tr.slot none) s.pbi.results
        s.pbi.inFlight
      exact ⟨_, hexec, hrest, hmap, rfl, rfl, fun k hk => set_other _ _ _ _ hk,
        fun d hd => absurd (hd ▸ d.isLt) hcontext, fun _ => ⟨set_self .., hanswered⟩, fun _ h => absurd rfl h⟩
    · rw [selectorWrite_fault (by omega) hnone] at hexec
      obtain ⟨hrest, hmap, hanswered⟩ := answered_areas tr .fault s s.pbi.selectors s.pbi.results s.pbi.inFlight
      exact ⟨_, hexec, hrest, hmap, rfl, rfl, fun _ _ => rfl, fun d hd => absurd (hd ▸ d.isLt) hcontext,
        fun h => absurd h hnone, fun _ _ => ⟨rfl, hanswered⟩⟩

/-! ### The command slot (R164, R165) -/

theorem inhibited_commandSlot (t : Transfer) (k : Slot) : inhibited t (.commandSlot k) = false := by
  cases h : t.size <;> simp [inhibited, carriedAsOne, h]

theorem movedBytes_commandSlot (t : Transfer) (k : Slot) : movedBytes t (.commandSlot k) = t.size.bytes := by
  simp [movedBytes, inhibited_commandSlot]

/-- A command burst of a slot to its own command slot passes every step of R158. -/
theorem judge_commandSlot {t : Transfer} {s : State} (hc : s.pbi.classes[t.slot] ≠ .noClass) (hb : t.bank = 0)
    (ho : t.offset.toNat = 0x0100 + 0x40 * t.slot.val) (hs : t.size = .burst) (hl : t.lock = false)
    (he : t.lockEnd = false) : judge t true s = some (.commandSlot t.slot) := by
  refine judge_of_steps hc ?_ (by simp [accessAllowed]) ?_ (by simp [locksAllowed, hl, he])
  · rw [hb, ho, singleBytes, hs]
    exact locate_commandSlot t.slot
  · have haligned : (0x0100 + 0x40 * t.slot.val) % 4 = 0 := by omega
    simp [shapeAllowed, aligned, movedBytes_commandSlot, hs, Size.bytes, BusPlace.covers, BusPlace.start, BusPlace.bytes, ho,
      haligned]

/-- A command burst that passes the steps of R158 is answered whole. -/
theorem busWrite_commandSlot {t : Transfer} {s : State} {data : List Byte} (hj : judge t true s = some (.commandSlot t.slot))
    (hd : data.length = t.size.bytes) : busWrite t data s =
      answer t (commandAnswer t.slot data s).termination false [] (commandAnswer t.slot data s).state := by
  rw [busWrite_some hj, movedBytes_commandSlot, inhibited_commandSlot, slice_whole hd, Bool.false_and]
  rfl

theorem padded_nil (n : Nat) : padded n [] = Vector.replicate n 0 := table_ext fun i => by simp [padded]

theorem padded_toList {n : Nat} {bytes : List Byte} (h : bytes.length = n) : (padded n bytes).toList = bytes := by
  refine List.ext_getElem (by simp [h]) fun i h1 h2 => ?_
  simp [padded, List.getElem?_eq_getElem h2]

theorem takingCheck_unknown {code : Byte} (cls : SlotClass) (h : CommandCode.ofByte code = none) :
    takingCheck cls code = some .badCommand := by
  unfold takingCheck
  rw [h]

theorem takingCheck_forbidden {cls : SlotClass} {code : Byte} {c : CommandCode} (h : CommandCode.ofByte code = some c)
    (hc : c.permittedClass ≠ cls) : takingCheck cls code = some .notPermitted := by
  unfold takingCheck
  rw [h]
  exact if_neg hc

theorem takingCheck_passes {cls : SlotClass} {code : Byte} {c : CommandCode} (h : CommandCode.ofByte code = some c)
    (hc : c.permittedClass = cls) : takingCheck cls code = none := by
  unfold takingCheck
  rw [h]
  exact if_pos hc

section
variable {slot : Slot} {data : List Byte} {s : State}

theorem commandAnswer_waits (h : s.pbi.inFlight[slot] ≠ none) : commandAnswer slot data s = refuseWrite .retry s :=
  if_pos (Option.isSome_iff_ne_none.2 h)

theorem commandAnswer_refuses {r : CommandReason} (h : s.pbi.inFlight[slot] = none)
    (hr : takingCheck s.pbi.classes[slot] (data.getD 0 0) = some r) : commandAnswer slot data s =
      { termination := .done
        state := withAreas s s.pbi.selectors (s.pbi.results.set slot ((CommandOutcome.refused r).toResult (data.getD 0 0)))
          s.pbi.inFlight } := by
  unfold commandAnswer slotClass
  rw [h]
  dsimp only
  rw [hr]
  rfl

theorem commandAnswer_takes (h : s.pbi.inFlight[slot] = none)
    (hr : takingCheck s.pbi.classes[slot] (data.getD 0 0) = none) : commandAnswer slot data s =
      { termination := .done
        state := withAreas s s.pbi.selectors (s.pbi.results.set slot (busyResult (data.getD 0 0)))
          (s.pbi.inFlight.set slot (some (takenCommand slot data s))) } := by
  unfold commandAnswer slotClass
  rw [h]
  dsimp only
  rw [hr]
  rfl

end

/-- Settles O45: a command burst waits for the command in flight, or is refused or taken by the taking checks. -/
theorem commandSlotWriteTakes : Obligations.CommandSlotWriteTakes := by
  intro s tr data hp hc hb ho hs hl he hd
  have hexec : exec (.commandSlotWrite tr data) s =
      .next (driveAttention (answer tr (commandAnswer tr.slot data s).termination false []
        (commandAnswer tr.slot data s).state)) :=
    (event_powered_next hp).trans (by rw [busWrite_commandSlot (judge_commandSlot hc hb ho hs hl he) (by rw [hd, hs]; rfl)])
  by_cases hflight : s.pbi.inFlight[tr.slot] = none
  · cases hcheck : takingCheck s.pbi.classes[tr.slot] (data.getD 0 0) with
    | some r =>
      rw [commandAnswer_refuses hflight hcheck] at hexec
      obtain ⟨hrest, hmap, hanswered⟩ := answered_areas tr .done s s.pbi.selectors
        (s.pbi.results.set tr.slot ((CommandOutcome.refused r).toResult (data.getD 0 0))) s.pbi.inFlight
      have hresult := set_self s.pbi.results tr.slot ((CommandOutcome.refused r).toResult (data.getD 0 0))
      refine ⟨_, hexec, hrest, hmap, rfl, fun k hk => ⟨set_other _ _ _ _ hk, rfl⟩, fun h => absurd hflight h, fun _ =>
        ⟨hanswered, congrArg (·.code) hresult, (congrArg (·.returned) hresult).trans (padded_nil 12), fun hunknown => ?_,
          fun code hcode => ⟨fun hforbidden => ?_, fun hpermitted => ?_⟩⟩⟩
      · cases hcheck.symm.trans (takingCheck_unknown _ hunknown)
        exact ⟨hflight, congrArg (·.outcome) hresult, congrArg (·.reason) hresult⟩
      · cases hcheck.symm.trans (takingCheck_forbidden hcode hforbidden)
        exact ⟨hflight, congrArg (·.outcome) hresult, congrArg (·.reason) hresult⟩
      · cases hcheck.symm.trans (takingCheck_passes hcode hpermitted)
    | none =>
      rw [commandAnswer_takes hflight hcheck] at hexec
      obtain ⟨hrest, hmap, hanswered⟩ := answered_areas tr .done s s.pbi.selectors
        (s.pbi.results.set tr.slot (busyResult (data.getD 0 0)))
        (s.pbi.inFlight.set tr.slot (some (takenCommand tr.slot data s)))
      have hresult := set_self s.pbi.results tr.slot (busyResult (data.getD 0 0))
      refine ⟨_, hexec, hrest, hmap, rfl, fun k hk => ⟨set_other _ _ _ _ hk, set_other _ _ _ _ hk⟩,
        fun h => absurd hflight h, fun _ =>
        ⟨hanswered, congrArg (·.code) hresult, (congrArg (·.returned) hresult).trans (padded_nil 12), fun hunknown => ?_,
          fun code hcode => ⟨fun hforbidden => ?_, fun _ => ?_⟩⟩⟩
      · cases hcheck.symm.trans (takingCheck_unknown _ hunknown)
      · cases hcheck.symm.trans (takingCheck_forbidden hcode hforbidden)
      · exact ⟨congrArg (·.outcome) hresult, congrArg (·.reason) hresult, takenCommand tr.slot data s, set_self ..,
          padded_toList hd, rfl, rfl, rfl, fun hconsole => if_pos hconsole⟩
  · rw [commandAnswer_waits hflight] at hexec
    obtain ⟨hrest, hmap, hareas, hanswered⟩ := answered_unmoved tr .retry false [] s
    exact ⟨_, hexec, hrest, hmap, rfl, fun _ _ => ⟨rfl, rfl⟩, fun _ => ⟨hareas, hanswered⟩, fun h => absurd h hflight⟩

end Sys2Proof.Machine
end

section
/-!
SUPPORT. The queue of waiting commands, which no command touches, and the brief buffers, whose canonical form every command
keeps: command by command.
-/

namespace Sys2Proof.Machine

/-! ### What most operations leave -/

/-- The waiting commands and the bytes of the brief buffers: what every operation leaves but a walk step, a seal and the events
of power, which leave the first alone. -/
def State.held (s : State) : List Instr × Vector Memory 33 := (s.pending, s.bcm.buffers)

theorem held_of {s t : State} (hpending : t.pending = s.pending) (hbuffers : t.bcm.buffers = s.bcm.buffers) : t.held = s.held :=
  Prod.ext hpending hbuffers

/-- The waiting commands stand, and the brief buffers stay in canonical form. -/
structure KeepsBuffers (s t : State) : Prop where
  pending : t.pending = s.pending
  canonical : (∀ b : BufNo, s.bcm.buffers[b].wf) → ∀ b : BufNo, t.bcm.buffers[b].wf

theorem keepsBuffers_of_held {s t : State} (h : t.held = s.held) : KeepsBuffers s t := by
  obtain ⟨hpending, hbuffers⟩ := Prod.ext_iff.1 h
  exact ⟨hpending, fun hwf b => (congrArg (·[b]) hbuffers) ▸ hwf b⟩

/-- One buffer changed by an operation on memories that keeps the canonical form. -/
theorem keepsBuffers_of_update {s t : State} {k : BufNo} {f : Memory → Memory} (hpending : t.pending = s.pending)
    (hbuffers : t.bcm.buffers = updateAt s.bcm.buffers k f) (hf : ∀ m : Memory, m.wf → (f m).wf) : KeepsBuffers s t := by
  refine ⟨hpending, fun hwf b => ?_⟩
  rw [hbuffers, Fin.getElem_fin, getElem_updateAt]
  split
  · exact hf _ (hwf b)
  · exact hwf b

/-- Buffers that hold nothing are in canonical form (log 5). -/
theorem keepsBuffers_of_powerOn {s t : State} (hpending : t.pending = s.pending) (hbcm : t.bcm = bcmPowerOn) :
    KeepsBuffers s t := by
  refine ⟨hpending, fun _ b => ?_⟩
  rw [hbcm]
  exact reset_memories_wf.2 b

/-! ### Events and completions -/

theorem keepsBuffers_event {f : State → State} {s t : State} (h : KeepsBuffers s (f s)) (ht : event f s = .next t) :
    KeepsBuffers s t := by
  rw [event_next] at ht
  injection ht with ht
  subst ht
  split
  · exact ⟨h.pending, h.canonical⟩
  · exact keepsBuffers_of_held rfl

/-- An event whose effect leaves the waiting commands and the buffers. -/
theorem keepsBuffers_effect {f : State → State} {s t : State} (h : (f s).held = s.held) (ht : event f s = .next t) :
    KeepsBuffers s t :=
  keepsBuffers_event (keepsBuffers_of_held h) ht

/-- A completion of a command whose body leaves the waiting commands and the buffers. -/
theorem keepsBuffers_command {slot : Slot} {code : CommandCode} {body : InFlight → State → State × CommandOutcome} {s t : State}
    (hb : ∀ cmd, (body cmd s).1.held = s.held) (h : event (carryOut slot code body) s = .next t) : KeepsBuffers s t := by
  refine keepsBuffers_effect ?_ h
  rcases carryOut_cases slot code body s with ⟨cmd, -, -, hc⟩ | hc
  · rw [hc]
    exact hb cmd
  · rw [hc]

/-! ### Requests, notices and events of the Alarm Engine -/

theorem offerAll_held (ns : List Notice) (s : State) : (offerAll ns s).held = s.held :=
  held_of (offerAll_pending ns s) (congrArg Bcm.buffers (offerAll_bcm ns s))

theorem abandon_held (requeue : Bool) (s : State) : (abandon requeue s).held = s.held :=
  held_of (abandon_pending requeue s) (abandon_buffers requeue s)

theorem briefRequest_held (c : CtxNo) (u : Urgency) (fromMove : Bool) (s : State) : (briefRequest c u fromMove s).held = s.held :=
  held_of (briefRequest_pending c u fromMove s) (briefRequest_buffers c u fromMove s)

theorem handOn_held (before : Ale) (news : EventNews) (s : State) : (handOn before news s).held = s.held :=
  held_of (handOn_pending before news s) (handOn_buffers before news s)

theorem completeEvent_held (before : Ale) (news : EventNews) (s : State) : (completeEvent before news s).held = s.held :=
  held_of (completeEvent_pending before news s) (completeEvent_buffers before news s)

theorem changeMark_held (f : Nat) (m : FloorMark) (carried : Option CtxNo) (s : State) :
    (changeMark f m carried s).held = s.held :=
  held_of (changeMark_pending f m carried s) (changeMark_buffers f m carried s)

/-! ### The plan's coming and going (R35 to R47) -/

theorem leaveValid_held (before : Ale) (s : State) : (leaveValid before s).held = s.held := by
  unfold leaveValid
  dsimp only
  rw [completeEvent_held, abandon_held]
  exact held_of (setMap_pending (loaderOnlyMap s.pbi.loaderSlot) s)
    (congrArg Bcm.buffers (setMap_bcm (loaderOnlyMap s.pbi.loaderSlot) s))

theorem openingBody_held (erase : Bool) (cmd : InFlight) (s : State) : (openingBody erase cmd s).1.held = s.held := by
  obtain ⟨-, -, -, -, hbcm, hpending⟩ := openedStore_rest erase s
  have hstore : (openedStore erase s).held = s.held := held_of hpending (congrArg Bcm.buffers hbcm)
  cases h : openingCheck s with
  | some r => rw [openingBody_refused erase cmd h]
  | none =>
    rw [openingBody_accepted erase cmd h]
    unfold openedState
    split
    · exact (leaveValid_held s.ale _).trans hstore
    · exact hstore

theorem commitPlanBody_held (cmd : InFlight) (s : State) : (commitPlanBody cmd s).1.held = s.held := by
  unfold commitPlanBody
  split <;> rfl

theorem abortLoadBody_held (cmd : InFlight) (s : State) : (abortLoadBody cmd s).1.held = s.held := by
  unfold abortLoadBody
  split <;> rfl

theorem completeStage_held (s : State) : (completeStage s).held = s.held := by
  unfold completeStage
  split
  · rename_i f _
    rcases endInvalid_cases f s with ⟨-, h⟩ | ⟨-, h⟩
    · rw [h]
      rfl
    · rw [h]
      exact held_of (setMap_pending ..) (congrArg Bcm.buffers (setMap_bcm ..))
  · rename_i zones _
    split
    · exact held_of (becomeValid_pending zones s) (becomeValid_buffers zones s)
    · rfl

/-! ### Crews and their notices (R121 to R134, R140, R141) -/

theorem assignCrewBody_held (cmd : InFlight) (s : State) : (assignCrewBody cmd s).1.held = s.held := by
  unfold assignCrewBody
  split
  · rfl
  · exact briefRequest_held ..

theorem moveCrewBody_held (cmd : InFlight) (s : State) : (moveCrewBody cmd s).1.held = s.held := by
  unfold moveCrewBody
  split
  · rfl
  · exact briefRequest_held ..

theorem withdrawCrewBody_held (cmd : InFlight) (s : State) : (withdrawCrewBody cmd s).1.held = s.held := by
  unfold withdrawCrewBody
  split
  · rfl
  · rename_i c _
    obtain ⟨-, -, -, -, -, hpending, hbuffers⟩ := release_frame c s
    exact held_of hpending hbuffers

theorem setConsoleMaskBody_held (cmd : InFlight) (s : State) : (setConsoleMaskBody cmd s).1.held = s.held := by
  unfold setConsoleMaskBody
  dsimp only
  split <;> rfl

theorem takeConsoleNoticeBody_held (cmd : InFlight) (s : State) : (takeConsoleNoticeBody cmd s).1.held = s.held := by
  unfold takeConsoleNoticeBody
  split
  · rfl
  · split <;> rfl

theorem takeNoticeBody_held (slot : Slot) (cmd : InFlight) (s : State) : (takeNoticeBody slot cmd s).1.held = s.held := by
  unfold takeNoticeBody
  split
  · rfl
  · split <;> rfl

theorem setMaskBody_held (slot : Slot) (cmd : InFlight) (s : State) : (setMaskBody slot cmd s).1.held = s.held := by
  unfold setMaskBody
  split <;> rfl

theorem requestBriefBody_held (slot : Slot) (cmd : InFlight) (s : State) : (requestBriefBody slot cmd s).1.held = s.held := by
  unfold requestBriefBody
  split
  · rfl
  · split
    · exact briefRequest_held ..
    · rfl

theorem briefNowBody_held (cmd : InFlight) (s : State) : (briefNowBody cmd s).1.held = s.held := by
  unfold briefNowBody
  split
  · rfl
  · exact briefRequest_held ..

/-! ### Marks, lines and the incident (R29 to R32, R88, R109, R113) -/

theorem markFloorBody_held (slot : Slot) (cmd : InFlight) (s : State) : (markFloorBody slot cmd s).1.held = s.held := by
  unfold markFloorBody
  split
  · rfl
  · dsimp only
    split
    · rfl
    · exact changeMark_held ..

theorem resetMarkBody_held (cmd : InFlight) (s : State) : (resetMarkBody cmd s).1.held = s.held := by
  unfold resetMarkBody
  split
  · rfl
  · dsimp only
    split
    · rfl
    · exact changeMark_held ..

theorem unlatchLineBody_held (cmd : InFlight) (s : State) : (unlatchLineBody cmd s).1.held = s.held := by
  unfold unlatchLineBody
  split
  · rfl
  · dsimp only
    split
    · rfl
    · split <;> rfl

theorem incidentClearBody_held (cmd : InFlight) (s : State) : (incidentClearBody cmd s).1.held = s.held := by
  unfold incidentClearBody
  split
  · rfl
  · obtain ⟨-, -, -, -, -, -, hpending, hbuffers⟩ := afterIncidentClear_frame s
    exact held_of hpending hbuffers

theorem offerReports_held (s : State) : (offerReports s).held = s.held := by
  have hframe := frame_of_unreported (offerReports_unreported s)
  exact held_of (by rw [hframe]) (congrArg Bcm.buffers (offerReports_bcm s))

/-! ### Reports (R55, R66 to R77) -/

theorem activateNew_held (before : Ale) (gap : Option PanelNo) (r : Report) (s : State) :
    (activateNew before gap r s).held = s.held := by
  unfold activateNew
  dsimp only
  split
  · exact completeEvent_held ..
  · split
    · exact completeEvent_held ..
    · exact handOn_held ..

theorem gapOnly_held (gap : Option PanelNo) (s : State) : (gapOnly gap s).held = s.held := offerAll_held _ s

theorem processReport_held (before : Ale) (gap : Option PanelNo) (r : Report) (s : State) :
    (processReport before gap r s).held = s.held := by
  unfold processReport
  split
  · split
    · exact activateNew_held before gap r s
    · exact gapOnly_held gap s
  · split
    · exact completeEvent_held ..
    · split
      · exact completeEvent_held ..
      · exact gapOnly_held gap s

theorem panelReset_held (before : Ale) (p : PanelNo) (sequence : Byte) (s : State) :
    (panelReset before p sequence s).held = s.held := by
  unfold panelReset
  dsimp only
  split
  · rfl
  · exact completeEvent_held ..

theorem takeReport_held (r : Report) (s : State) : (takeReport r s).held = s.held := by
  unfold takeReport
  split
  · split
    · rfl
    · exact processReport_held ..
  · split
    · rfl
    · exact panelReset_held ..
    · exact processReport_held ..
    · exact processReport_held ..

/-! ### Compositions (R142 to R153) -/

theorem startComposition_held (s : State) : (startComposition s).held = s.held := by
  rcases startComposition_cases s with h | ⟨c, b, r, -, -, -, h⟩
  · rw [h]
  · rw [h]
    exact held_of rfl rfl

/-- A walk step writes its items into the working buffer alone (R143). -/
theorem keepsBuffers_walkStep (c : Composition) (s : State) : KeepsBuffers s (walkStep c s) := by
  rw [walkStep_eq]
  exact keepsBuffers_of_update rfl rfl fun _ => Memory.writeAll_wf _ _

/-- A seal frames the working buffer alone (R152, R153). -/
theorem keepsBuffers_sealBrief (c : Composition) (s : State) : KeepsBuffers s (sealBrief c s) := by
  obtain ⟨-, -, -, hbuffers, -⟩ := sealBrief_bcm c s
  exact keepsBuffers_of_update (by rw [sealBrief_rest]) hbuffers fun _ => framedBrief_wf s c

/-! ### Transfers (R158 to R166) -/

theorem ownerRead_held (t : Transfer) (p : BusPlace) (off n : Nat) (s : State) : (ownerRead t p off n s).state.held = s.held := by
  cases p with
  | briefWindow =>
    simp only [ownerRead, briefRead]
    split
    · rfl
    · split
      · rfl
      · dsimp only
        split <;> rfl
  | entry i =>
    simp only [ownerRead]
    split
    · unfold lockedEntryRead
      split
      · rfl
      · split
        · rfl
        · split <;> rfl
    · unfold plainEntryRead
      split <;> rfl
  | planStatus => simp only [ownerRead, planStatusAnswer, readFrom]; split <;> rfl
  | contextRecord => simp only [ownerRead, contextWindowRead]; split <;> rfl
  | planSpace bank => simp only [ownerRead, planSpaceRead]; split <;> rfl
  | _ => rfl

theorem busRead_held (t : Transfer) (s : State) : (busRead t s).held = s.held := by
  cases h : judge t false s with
  | none => rw [busRead_none h]; rfl
  | some p =>
    rw [busRead_some h]
    exact ownerRead_held t p _ _ s

/-- Of the owners' answers to a write, a lock-end write alone is an ALE event (R71, R82). -/
theorem entryWrite_held (t : Transfer) (i : EntryNo) (off : Nat) (data : List Byte) (s : State) :
    (entryWrite t i off data s).state.held = s.held := by
  unfold entryWrite
  split
  · rfl
  · split
    · split
      · unfold actionWrite
        split
        · rfl
        · exact completeEvent_held ..
      · rfl
    · rfl

theorem ownerWrite_held (t : Transfer) (p : BusPlace) (off : Nat) (data : List Byte) (s : State) :
    (ownerWrite t p off data s).state.held = s.held := by
  cases p with
  | entry i => exact entryWrite_held t i off data s
  | commandSlot k =>
    unfold ownerWrite commandAnswer
    dsimp only
    split
    · rfl
    · split <;> rfl
  | selector k =>
    unfold ownerWrite selectorWrite
    dsimp only
    split
    · rfl
    · split <;> rfl
  | intake =>
    unfold ownerWrite intakeAnswer
    dsimp only
    split <;> rfl
  | planSpace bank =>
    unfold ownerWrite planSpaceStore
    dsimp only
    split <;> rfl
  | _ => rfl

theorem busWrite_held (t : Transfer) (data : List Byte) (s : State) : (busWrite t data s).held = s.held := by
  cases h : judge t true s with
  | none => rw [busWrite_none h]; rfl
  | some p =>
    rw [busWrite_some h]
    exact ownerWrite_held t p _ _ s

/-! ### The events of the timebase and of the composer -/

theorem keepsBuffers_validationStage {s t : State} (h : execValidationStage s = .next t) : KeepsBuffers s t := by
  refine keepsBuffers_effect ?_ h
  split
  · exact completeStage_held s
  · rfl

theorem keepsBuffers_reportTake {s t : State} (h : execReportTake s = .next t) : KeepsBuffers s t := by
  refine keepsBuffers_effect ?_ h
  split
  · rfl
  · split
    · rfl
    · exact takeReport_held ..

theorem keepsBuffers_holdExpiry {slot : Slot} {s t : State} (h : execHoldExpiry slot s = .next t) : KeepsBuffers s t := by
  refine keepsBuffers_effect ?_ h
  split <;> rfl

theorem keepsBuffers_walk {s t : State} (h : execWalkStep s = .next t) : KeepsBuffers s t := by
  refine keepsBuffers_event ?_ h
  split
  · exact keepsBuffers_of_held rfl
  · split
    · exact keepsBuffers_walkStep _ s
    · exact keepsBuffers_of_held rfl

theorem keepsBuffers_seal {s t : State} (h : execSeal s = .next t) : KeepsBuffers s t := by
  refine keepsBuffers_event ?_ h
  split
  · exact keepsBuffers_of_held rfl
  · split
    · exact keepsBuffers_sealBrief _ s
    · exact keepsBuffers_of_held rfl

/-! ### Every command -/

/-- Every command leaves the waiting commands and keeps the buffers in canonical form. -/
theorem exec_keepsBuffers (c : Instr) {s t : State} (h : exec c s = .next t) : KeepsBuffers s t := by
  cases c with
  | powerOn straps => cases h; exact keepsBuffers_of_powerOn rfl rfl
  | lossOfPower => cases h; exact keepsBuffers_of_powerOn rfl rfl
  | busReset => exact keepsBuffers_effect (f := busResetState) rfl h
  | planSpaceWrite tr data => exact keepsBuffers_effect (busWrite_held tr data s) h
  | registerWrite tr data => exact keepsBuffers_effect (busWrite_held tr data s) h
  | commandSlotWrite tr data => exact keepsBuffers_effect (busWrite_held tr data s) h
  | intakeWrite tr data => exact keepsBuffers_effect (busWrite_held tr data s) h
  | contextSelectorWrite tr data => exact keepsBuffers_effect (busWrite_held tr data s) h
  | acknowledge slot entry change => exact keepsBuffers_effect (busWrite_held _ _ s) h
  | discount slot entry change => exact keepsBuffers_effect (busWrite_held _ _ s) h
  | clearEntry slot entry change => exact keepsBuffers_effect (busWrite_held _ _ s) h
  | planStatusRead tr => exact keepsBuffers_effect (busRead_held tr s) h
  | lockedRead tr => exact keepsBuffers_effect (busRead_held tr s) h
  | briefWindowRead tr => exact keepsBuffers_effect (busRead_held tr s) h
  | beginLoad slot => exact keepsBuffers_command (body := openingBody false) (openingBody_held false · s) h
  | erasePlan slot => exact keepsBuffers_command (body := openingBody true) (openingBody_held true · s) h
  | commitPlan slot => exact keepsBuffers_command (commitPlanBody_held · s) h
  | abortLoad slot => exact keepsBuffers_command (abortLoadBody_held · s) h
  | incidentClear slot => exact keepsBuffers_command (incidentClearBody_held · s) h
  | assignCrew slot => exact keepsBuffers_command (assignCrewBody_held · s) h
  | moveCrew slot => exact keepsBuffers_command (moveCrewBody_held · s) h
  | withdrawCrew slot => exact keepsBuffers_command (withdrawCrewBody_held · s) h
  | setConsoleMask slot => exact keepsBuffers_command (setConsoleMaskBody_held · s) h
  | takeConsoleNotice slot => exact keepsBuffers_command (takeConsoleNoticeBody_held · s) h
  | briefNow slot => exact keepsBuffers_command (briefNowBody_held · s) h
  | unlatchLine slot => exact keepsBuffers_command (unlatchLineBody_held · s) h
  | resetMark slot => exact keepsBuffers_command (resetMarkBody_held · s) h
  | requestBrief slot => exact keepsBuffers_command (requestBriefBody_held slot · s) h
  | takeNotice slot => exact keepsBuffers_command (takeNoticeBody_held slot · s) h
  | setMask slot => exact keepsBuffers_command (setMaskBody_held slot · s) h
  | markFloor slot => exact keepsBuffers_command (markFloorBody_held slot · s) h
  | validationStage => exact keepsBuffers_validationStage h
  | reportTake => exact keepsBuffers_reportTake h
  | holdExpiry slot => exact keepsBuffers_holdExpiry h
  | incidentClockTick =>
    exact keepsBuffers_effect (f := fun s => { s with ale.clock := saturatingSucc16 s.ale.clock }) rfl h
  | lineScan levels =>
    exact keepsBuffers_effect (f := fun s => offerReports (scannedState levels s)) (offerReports_held (scannedState levels s)) h
  | compositionStart => exact keepsBuffers_effect (startComposition_held s) h
  | walkStep => exact keepsBuffers_walk h
  -- SEAL, the one row left: its name is a keyword here.
  | _ => exact keepsBuffers_seal h

/-- No command stops the part: power is an event of its own, and every other row is `event` of its effect. -/
theorem exec_next (c : Instr) (s : State) : ∃ t, exec c s = .next t := by
  cases c with
  | powerOn straps => exact ⟨_, rfl⟩
  | lossOfPower => exact ⟨_, rfl⟩
  | _ => dsimp only [exec]; exact ⟨_, event_next _ s⟩

end Sys2Proof.Machine
end

section
/-!
PROOFS. The statements about the machine as a whole and its memories: O1, O2, O4 and O5.
-/

namespace Sys2Proof.Machine

/-! ### Plan space (R2, R38) -/

/-- A write transfer keeps the canonical form of plan space: it leaves the bytes, or stores its own one after another (R2). -/
theorem planSpace_wf_busWrite (t : Transfer) (data : List Byte) {s : State} (h : s.psc.planSpace.wf) :
    (busWrite t data s).psc.planSpace.wf := by
  cases hj : judge t true s with
  | none => rw [busWrite_none hj]; exact h
  | some p =>
    rw [busWrite_some hj, answer_psc]
    by_cases hp : ∃ bank, p = .planSpace bank
    · obtain ⟨bank, rfl⟩ := hp
      rw [ownerWrite_planSpace]
      rcases planSpaceStore_cases t bank (t.offset.toNat - (BusPlace.planSpace bank).start)
          (slice data 0 (movedBytes t (.planSpace bank))) s with ⟨-, hs⟩ | ⟨-, hs⟩
      · rw [hs]
        exact Memory.writeAll_wf _ _ h
      · rw [hs]
        exact h
    · rw [ownerWrite_psc (fun bank hb => hp ⟨bank, hb⟩)]
      exact h

/-- Erase Plan leaves the bytes when it is refused, and none of them when it is accepted (R38). -/
theorem planSpace_wf_erase (cmd : InFlight) {s : State} (h : s.psc.planSpace.wf) : (openingBody true cmd s).1.psc.planSpace.wf := by
  cases hc : openingCheck s with
  | some r => rw [openingBody_refused true cmd hc]; exact h
  | none =>
    rw [openingBody_accepted true cmd hc, openedState_psc, openedStore_psc]
    exact Memory.wf_nil

theorem planSpace_wf_event {f : State → State} {s t : State} (h : s.psc.planSpace.wf) (hf : (f s).psc.planSpace.wf)
    (ht : event f s = .next t) : t.psc.planSpace.wf := by
  rw [event_next] at ht
  injection ht with ht
  subst ht
  split
  · exact hf
  · exact h

theorem planSpace_wf_erasePlan {slot : Slot} {s t : State} (h : s.psc.planSpace.wf) (ht : exec (.erasePlan slot) s = .next t) :
    t.psc.planSpace.wf := by
  refine planSpace_wf_event (f := carryOut slot .erasePlan (openingBody true)) h ?_ ht
  rcases carryOut_cases slot .erasePlan (openingBody true) s with ⟨cmd, -, -, hc⟩ | hc
  · rw [hc]
    exact planSpace_wf_erase cmd h
  · rw [hc]
    exact h

/-- Every command keeps the canonical form of plan space: the commands that change it are those that R2 and R38 name. -/
theorem exec_planSpace_wf (c : Instr) {s t : State} (h : s.psc.planSpace.wf) (ht : exec c s = .next t) : t.psc.planSpace.wf := by
  by_cases hne : t.psc.planSpace = s.psc.planSpace
  · rw [hne]
    exact h
  · rcases planSpaceIsGuarded c s t ht hne with ⟨slot, rfl⟩ | ⟨-, tr, data, hc, -⟩
    · exact planSpace_wf_erasePlan h ht
    · have hwrite : event (busWrite tr data) s = .next t := by
        rcases hc with rfl | rfl | rfl | rfl | rfl <;> exact ht
      exact planSpace_wf_event h (planSpace_wf_busWrite tr data h) hwrite

/-! ### The statements -/

/-- Settles O5: the canonical form of plan space and that of the buffers are each kept by every command. -/
theorem stepKeepsMemories : Obligations.StepKeepsMemories := by
  rintro s t ⟨hplan, hbuffers⟩ h
  unfold step at h
  split at h
  · cases h
    exact ⟨hplan, hbuffers⟩
  · rename_i c rest _
    exact ⟨exec_planSpace_wf c (s := { s with pending := rest }) hplan h, (exec_keepsBuffers c h).canonical hbuffers⟩

/-- Settles O2: every row of the table answers, and each leaves the waiting commands. -/
theorem everyCommandIsTaken : Obligations.EveryCommandIsTaken := fun c s =>
  have ⟨t, h⟩ := exec_next c s
  ⟨t, h, (exec_keepsBuffers c h).pending⟩

/-- Settles O1, by the two cases of `step`. -/
theorem stepTakesFrontCommand : Obligations.StepTakesFrontCommand := fun _ _ _ => ⟨rfl, rfl⟩

/-! ### The machine after reset -/

theorem reset_entry (i : EntryNo) : State.reset.ale.places[i].entry = none := by
  obtain ⟨hplaces, -⟩ := alePowerOn_values
  exact congrArg Place.entry (hplaces i)

theorem reset_holderAt (i : EntryNo) : holderAt State.reset i = none := by
  unfold holderAt
  rw [reset_entry]
  rfl

theorem reset_context (c : CtxNo) : State.reset.cxm.contexts[c] = freeContext 0 := cxmPowerOn_values.1 c

theorem reset_attentionTrue : State.reset.attentionTrue := fun _ => by decide

theorem reset_oneLoader : State.reset.oneLoader := fun _ slot => by
  obtain ⟨hclass, -⟩ := reset_slot_values slot
  rw [hclass]
  split <;> simp_all

theorem reset_holdsSound : State.reset.holdsSound := by
  obtain ⟨-, -, -, htimers⟩ := alePowerOn_values
  refine ⟨fun i _ _ hi => ?_, fun i _ hi => ?_, fun slot => ?_⟩
  · rw [reset_holderAt] at hi; cases hi
  · rw [reset_holderAt] at hi; cases hi
  · have htimer : State.reset.ale.holdTimers[slot] = false := htimers slot
    simp [htimer, reset_holderAt]

theorem reset_listOrdered : State.reset.listOrdered := by
  refine ⟨List.nodup_nil, fun i => ?_, List.Pairwise.nil⟩
  rw [reset_entry]
  exact iff_of_false List.not_mem_nil Bool.false_ne_true

theorem reset_liftsSound : State.reset.liftsSound := fun k => by
  obtain ⟨henabled, hshown, -⟩ := lmnPowerOn_values.2.2 k
  exact ⟨fun h => absurd (henabled.symm.trans h) Bool.false_ne_true, fun f h => by cases hshown.symm.trans h⟩

theorem reset_contactsSound : State.reset.contactsSound := fun k => by
  have hk : State.reset.lmn.contacts[k] = unusedContact := Vector.getElem_replicate k.isLt
  rw [hk]
  exact contactSound_unusedContact

theorem reset_requestsSound : State.reset.requestsSound :=
  ⟨List.nodup_nil, fun _ h => absurd h List.not_mem_nil, fun _ h => by cases h⟩

theorem reset_buffersPlaced : State.reset.buffersPlaced := buffersPlaced_iff.2 fun b => by
  have hpool : State.reset.bcm.pool[b] = true := Vector.getElem_replicate b.isLt
  have hnone : publishers State.reset b = 0 := List.countP_eq_zero.2 fun c _ => by
    rw [reset_context c]
    exact Bool.false_ne_true
  rw [hpool, hnone]
  rfl

/-- Settles O4, law by law: there are no entries, no Assigned contexts, no composition and no enabled lifts, every buffer stands in
the pool, and the Loader slot alone is in the map. -/
theorem resetKeepsEveryLaw : Obligations.ResetKeepsEveryLaw := by
  have hno : ∀ {i : EntryNo} {e : Entry}, State.reset.ale.places[i].entry ≠ some e := fun h => by
    rw [reset_entry] at h; cases h
  have hassigned : ∀ c : CtxNo, State.reset.cxm.contexts[c].assigned = false := fun c => by rw [reset_context]; rfl
  refine ⟨reset_memories_wf, reset_attentionTrue, fun _ h => (by cases h), reset_oneLoader, Nat.zero_le _,
    fun _ _ _ _ h => absurd h hno, reset_holdsSound, fun _ _ h => absurd h hno, reset_listOrdered,
    Or.inr ⟨fun _ h => absurd h List.not_mem_nil, rfl, rfl⟩, reset_liftsSound, reset_contactsSound, fun c h => ?_, fun c _ => ?_,
    fun c => ?_, queuesSound_of_powerOn rfl, marksSound_of_blank rfl, reset_requestsSound, reset_buffersPlaced,
    fun _ h => (by cases h), fun c b h => ?_⟩
  · exact absurd ((hassigned c).symm.trans h) Bool.false_ne_true
  · rw [reset_context]
    rfl
  · rw [reset_context]
    exact le_refl _
  · rw [reset_context] at h
    cases h

end Sys2Proof.Machine
end
